-- ==== Sys2Proof/Word.lean ====
section
/-! DEFINITION. The words of the machine: 32-bit registers and 8-bit bytes. -/

namespace Sys2Proof

/-- A 32-bit host word: a command word, `ARG`, `RES`, a pointer, an s32 buffer element (rules R11, R54, R56). -/
abbrev Word := BitVec 32

/-- A STREAM byte or a u8 buffer element (rules R51, R56). -/
abbrev Byte := BitVec 8

end Sys2Proof
end

