-- ==== Sys2Proof/Syntax.lean ====
section
/-! DEFINITION. The command set of rule R87: one constructor per row of the opcode table, operands already named. -/

namespace Sys2Proof

/-- The prediction mode `pm` (rule R86). -/
inductive PredMode
  | dc
  | vertical
  | horizontal
  | planar
  deriving DecidableEq, Repr

/-- The partition size select `h` (rules R80, R313): the whole block or one quadrant. -/
inductive PartSize
  | full
  | half
  deriving DecidableEq, Repr

/-- The model selector `M` (rule R85): a model by number, or one of the three active aliases. -/
inductive Selector
  | model (m : Fin 15)
  | asig
  | agt1
  | alvl
  deriving DecidableEq, Repr

/-- The commands (rule R87). `b` is a bit, `n` the count field `N` as it stands in the word (at most 32 when
well formed), `m` a model selector, `pm` a prediction mode, `h` a partition size. -/
inductive Instr
  | nop
  | sreset
  | ctxinit
  | bwBit (b : Bool)
  | bwBits (n : BitVec 8)
  | bwAlign
  | brBit
  | brBits (n : BitVec 8)
  | brAlign
  | pmMps (m : Selector)
  | pmLps (m : Selector)
  | pmEst (m : Selector) (b : Bool)
  | aeStart
  | aeBit (m : Selector) (b : Bool)
  | aeBits (m : Selector) (n : BitVec 8)
  | aeByp (b : Bool)
  | aeByps (n : BitVec 8)
  | aeTerm
  | aeEg (m : Selector)
  | aeEgest (m : Selector)
  | adStart
  | adBit (m : Selector)
  | adByp
  | adByps (n : BitVec 8)
  | adTerm
  | adEg (m : Selector)
  | ctxSw (h : PartSize)
  | pred (pm : PredMode) (h : PartSize)
  | resid (h : PartSize)
  | txf (pm : PredMode) (h : PartSize)
  | quant (h : PartSize)
  | scanf (pm : PredMode) (h : PartSize)
  | scani (pm : PredMode) (h : PartSize)
  | deq (h : PartSize)
  | txi (pm : PredMode) (h : PartSize)
  | recon (h : PartSize)
  | dist (h : PartSize)
  | hdrWr
  | hdrRd
  | encPart (b : Bool)
  | decPart
  | encPmode (pm : PredMode)
  | decPmode
  | encCoef (h : PartSize)
  | decCoef (h : PartSize)
  deriving DecidableEq, Repr

end Sys2Proof
end

