-- ==== Sys2Proof/WellFormed.lean ====
section
/-! DEFINITION. Which terms of `Instr` stand for a legal command word: rule R88 (d), the count is at most 32. (The
other conditions of rule R88 are met by construction: a selector, a mode and a size have no illegal term.) -/

namespace Sys2Proof

/-- Rule R83: `N > 32` is illegal. -/
def countOk (n : BitVec 8) : Bool := n.toNat ≤ 32

/-- Rule R88 on terms. -/
def Instr.wf : Instr → Bool
  | .bwBits n => countOk n
  | .brBits n => countOk n
  | .aeBits _ n => countOk n
  | .aeByps n => countOk n
  | .adByps n => countOk n
  | .nop | .sreset | .ctxinit | .bwBit _ | .bwAlign | .brBit | .brAlign | .pmMps _ | .pmLps _ | .pmEst _ _
  | .aeStart | .aeBit _ _ | .aeByp _ | .aeTerm | .aeEg _ | .aeEgest _ | .adStart | .adBit _ | .adByp | .adTerm
  | .adEg _ | .ctxSw _ | .pred _ _ | .resid _ | .txf _ _ | .quant _ | .scanf _ _ | .scani _ _ | .deq _ | .txi _ _
  | .recon _ | .dist _ | .hdrWr | .hdrRd | .encPart _ | .decPart | .encPmode _ | .decPmode | .encCoef _
  | .decCoef _ => true

end Sys2Proof
end

