-- ==== Sys2Proof/Decode.lean ====
section
/-! DEFINITION. The command word (rules R80 to R89): decoder, encoder, and the host's entry point. -/

namespace Sys2Proof

/-- Why a command word is illegal: the four clauses of rule R88. -/
inductive DecodeError
  | unknownOpcode (op : BitVec 8)
  | reservedField
  | illegalSelector (m : BitVec 8)
  | countOver32 (n : BitVec 8)
  deriving DecidableEq, Repr

/-! ## Fields (rule R80) -/

def fieldOp (w : Word) : BitVec 8 := w.extractLsb' 24 8
def fieldM (w : Word) : BitVec 8 := w.extractLsb' 16 8
def fieldN (w : Word) : BitVec 8 := w.extractLsb' 8 8
def fieldF (w : Word) : BitVec 8 := w.extractLsb' 0 8

/-- `b = F[0]`. -/
def flagB (f : BitVec 8) : Bool := f.getLsbD 0
/-- `h = F[2]`. -/
def flagH (f : BitVec 8) : PartSize := if f.getLsbD 2 then .half else .full
/-- `pm = F[5:4]`. -/
def flagPm (f : BitVec 8) : PredMode :=
  match f.getLsbD 5, f.getLsbD 4 with
  | false, false => .dc
  | false, true => .vertical
  | true, false => .horizontal
  | true, true => .planar

/-- Rule R85: the legal selectors are `0x00 .. 0x0E` and `0x10 .. 0x12`. -/
def decodeSelector (m : BitVec 8) : Option Selector :=
  if h : m.toNat < 15 then some (.model ⟨m.toNat, h⟩)
  else if m = 0x10 then some .asig
  else if m = 0x11 then some .agt1
  else if m = 0x12 then some .alvl
  else none

/-! ## Formats (rules R81 to R84). Each takes the fields and the command it builds. -/

/-- Format S. -/
def formatS (m n f : BitVec 8) (i : Instr) : Except DecodeError Instr :=
  if m = 0 ∧ n = 0 ∧ f = 0 then .ok i else .error .reservedField

/-- Format M. -/
def formatM (m n f : BitVec 8) (i : Selector → Instr) : Except DecodeError Instr :=
  if n = 0 ∧ f = 0 then
    match decodeSelector m with
    | some sel => .ok (i sel)
    | none => .error (.illegalSelector m)
  else .error .reservedField

/-- Format B without a model. -/
def formatB (m n f : BitVec 8) (i : Bool → Instr) : Except DecodeError Instr :=
  if m = 0 ∧ n = 0 ∧ f &&& 0xFE = 0 then .ok (i (flagB f)) else .error .reservedField

/-- Format B with a model. -/
def formatBM (m n f : BitVec 8) (i : Selector → Bool → Instr) : Except DecodeError Instr :=
  if n = 0 ∧ f &&& 0xFE = 0 then
    match decodeSelector m with
    | some sel => .ok (i sel (flagB f))
    | none => .error (.illegalSelector m)
  else .error .reservedField

/-- Format C without a model. -/
def formatC (m n f : BitVec 8) (i : BitVec 8 → Instr) : Except DecodeError Instr :=
  if m = 0 ∧ f = 0 then
    if countOk n then .ok (i n) else .error (.countOver32 n)
  else .error .reservedField

/-- Format C with a model. -/
def formatCM (m n f : BitVec 8) (i : Selector → BitVec 8 → Instr) : Except DecodeError Instr :=
  if f = 0 then
    match decodeSelector m with
    | some sel => if countOk n then .ok (i sel n) else .error (.countOver32 n)
    | none => .error (.illegalSelector m)
  else .error .reservedField

/-- Format D without `pm`. -/
def formatD (m n f : BitVec 8) (i : PartSize → Instr) : Except DecodeError Instr :=
  if m = 0 ∧ n = 0 ∧ f &&& 0xFB = 0 then .ok (i (flagH f)) else .error .reservedField

/-- Format D with `pm` and `h`. -/
def formatDP (m n f : BitVec 8) (i : PredMode → PartSize → Instr) : Except DecodeError Instr :=
  if m = 0 ∧ n = 0 ∧ f &&& 0xCB = 0 then .ok (i (flagPm f) (flagH f)) else .error .reservedField

/-- Format D with `pm` only. -/
def formatP (m n f : BitVec 8) (i : PredMode → Instr) : Except DecodeError Instr :=
  if m = 0 ∧ n = 0 ∧ f &&& 0xCF = 0 then .ok (i (flagPm f)) else .error .reservedField

/-- The opcode map (rule R87) on the four fields of a word. -/
def decodeFields (op m n f : BitVec 8) : Except DecodeError Instr :=
  match op.toNat with
  | 0x00 => formatS m n f .nop
  | 0x01 => formatS m n f .sreset
  | 0x02 => formatS m n f .ctxinit
  | 0x10 => formatB m n f .bwBit
  | 0x11 => formatC m n f .bwBits
  | 0x12 => formatS m n f .bwAlign
  | 0x14 => formatS m n f .brBit
  | 0x15 => formatC m n f .brBits
  | 0x16 => formatS m n f .brAlign
  | 0x20 => formatM m n f .pmMps
  | 0x21 => formatM m n f .pmLps
  | 0x22 => formatBM m n f .pmEst
  | 0x30 => formatS m n f .aeStart
  | 0x31 => formatBM m n f .aeBit
  | 0x32 => formatCM m n f .aeBits
  | 0x33 => formatB m n f .aeByp
  | 0x34 => formatC m n f .aeByps
  | 0x35 => formatS m n f .aeTerm
  | 0x36 => formatM m n f .aeEg
  | 0x37 => formatM m n f .aeEgest
  | 0x40 => formatS m n f .adStart
  | 0x41 => formatM m n f .adBit
  | 0x43 => formatS m n f .adByp
  | 0x44 => formatC m n f .adByps
  | 0x45 => formatS m n f .adTerm
  | 0x46 => formatM m n f .adEg
  | 0x50 => formatD m n f .ctxSw
  | 0x60 => formatDP m n f .pred
  | 0x61 => formatD m n f .resid
  | 0x62 => formatDP m n f .txf
  | 0x63 => formatD m n f .quant
  | 0x64 => formatDP m n f .scanf
  | 0x65 => formatDP m n f .scani
  | 0x66 => formatD m n f .deq
  | 0x67 => formatDP m n f .txi
  | 0x68 => formatD m n f .recon
  | 0x69 => formatD m n f .dist
  | 0x70 => formatS m n f .hdrWr
  | 0x71 => formatS m n f .hdrRd
  | 0x72 => formatB m n f .encPart
  | 0x73 => formatS m n f .decPart
  | 0x74 => formatP m n f .encPmode
  | 0x75 => formatS m n f .decPmode
  | 0x76 => formatD m n f .encCoef
  | 0x77 => formatD m n f .decCoef
  | _ => .error (.unknownOpcode op)

/-- The decoder: total on command words, refusing by name (rule R88). -/
def decode (w : Word) : Except DecodeError Instr :=
  decodeFields (fieldOp w) (fieldM w) (fieldN w) (fieldF w)

/-! ## The encoder, from the same tables -/

/-- The field `M` of a selector (rule R85). -/
def encodeSelector : Selector → BitVec 8
  | .model m => BitVec.ofNat 8 m.val
  | .asig => 0x10
  | .agt1 => 0x11
  | .alvl => 0x12

/-- Flag `b` in `F[0]`. -/
def encodeB (b : Bool) : BitVec 8 := if b then 0x01 else 0x00
/-- Flag `h` in `F[2]`. -/
def encodeH : PartSize → BitVec 8
  | .full => 0x00
  | .half => 0x04
/-- Mode `pm` in `F[5:4]`. -/
def encodePm : PredMode → BitVec 8
  | .dc => 0x00
  | .vertical => 0x10
  | .horizontal => 0x20
  | .planar => 0x30

/-- A word from its four fields (rule R80). -/
def packFields (op m n f : BitVec 8) : Word := op ++ m ++ n ++ f

/-- The word of a command. -/
def encode : Instr → Word
  | .nop => packFields 0x00 0 0 0
  | .sreset => packFields 0x01 0 0 0
  | .ctxinit => packFields 0x02 0 0 0
  | .bwBit b => packFields 0x10 0 0 (encodeB b)
  | .bwBits n => packFields 0x11 0 n 0
  | .bwAlign => packFields 0x12 0 0 0
  | .brBit => packFields 0x14 0 0 0
  | .brBits n => packFields 0x15 0 n 0
  | .brAlign => packFields 0x16 0 0 0
  | .pmMps m => packFields 0x20 (encodeSelector m) 0 0
  | .pmLps m => packFields 0x21 (encodeSelector m) 0 0
  | .pmEst m b => packFields 0x22 (encodeSelector m) 0 (encodeB b)
  | .aeStart => packFields 0x30 0 0 0
  | .aeBit m b => packFields 0x31 (encodeSelector m) 0 (encodeB b)
  | .aeBits m n => packFields 0x32 (encodeSelector m) n 0
  | .aeByp b => packFields 0x33 0 0 (encodeB b)
  | .aeByps n => packFields 0x34 0 n 0
  | .aeTerm => packFields 0x35 0 0 0
  | .aeEg m => packFields 0x36 (encodeSelector m) 0 0
  | .aeEgest m => packFields 0x37 (encodeSelector m) 0 0
  | .adStart => packFields 0x40 0 0 0
  | .adBit m => packFields 0x41 (encodeSelector m) 0 0
  | .adByp => packFields 0x43 0 0 0
  | .adByps n => packFields 0x44 0 n 0
  | .adTerm => packFields 0x45 0 0 0
  | .adEg m => packFields 0x46 (encodeSelector m) 0 0
  | .ctxSw h => packFields 0x50 0 0 (encodeH h)
  | .pred pm h => packFields 0x60 0 0 (encodePm pm ||| encodeH h)
  | .resid h => packFields 0x61 0 0 (encodeH h)
  | .txf pm h => packFields 0x62 0 0 (encodePm pm ||| encodeH h)
  | .quant h => packFields 0x63 0 0 (encodeH h)
  | .scanf pm h => packFields 0x64 0 0 (encodePm pm ||| encodeH h)
  | .scani pm h => packFields 0x65 0 0 (encodePm pm ||| encodeH h)
  | .deq h => packFields 0x66 0 0 (encodeH h)
  | .txi pm h => packFields 0x67 0 0 (encodePm pm ||| encodeH h)
  | .recon h => packFields 0x68 0 0 (encodeH h)
  | .dist h => packFields 0x69 0 0 (encodeH h)
  | .hdrWr => packFields 0x70 0 0 0
  | .hdrRd => packFields 0x71 0 0 0
  | .encPart b => packFields 0x72 0 0 (encodeB b)
  | .decPart => packFields 0x73 0 0 0
  | .encPmode pm => packFields 0x74 0 0 (encodePm pm)
  | .decPmode => packFields 0x75 0 0 0
  | .encCoef h => packFields 0x76 0 0 (encodeH h)
  | .decCoef h => packFields 0x77 0 0 (encodeH h)

/-! ## The host's entry point -/

/-- The command word whose bits are `w`, of which `nbits` are given and the rest are 0. A command is one whole 32-bit
word (rules R80, R89), so it has no byte order of its own (rule R52). -/
def tableWord (nbits w : Nat) : Word := BitVec.ofNat 32 (w % 2 ^ nbits)

/-- What the decoder reads from the word the opcode table numbers `w`. -/
def decodeTableWord (nbits w : Nat) : Option Instr := (decode (tableWord nbits w)).toOption

end Sys2Proof
end

