-- ==== Sys2Proof/Config/Numerics.lean ====
section
/-! DEFINITION. The real values of the data path as plain data, and `NUM`, the record of their arithmetic (rules R56,
R216; log 10). -/

namespace Sys2Proof.Config

/-- `QP_MAX`: the largest quality parameter (rule R4). -/
def qpMax : Nat := 31
/-- `Q_BIAS`: the quantizer's rounding bias, "the decimal fraction 2/5" (rules R4, R252). -/
def qBias : Rat := 2 / 5

/-! ## Real values -/

/-- The two transform bases: the orthonormal DCT-II `C_N` (rule R210) and the DST-VII `S_N` (rule R211). -/
inductive Basis
  | dct2
  | dst7
  deriving DecidableEq, Repr

/-- An entry of a basis matrix, by name: row `row`, column `col` of `C_size` or `S_size`. -/
structure Entry where
  basis : Basis
  size : Nat
  row : Nat
  col : Nat
  deriving DecidableEq, Repr

/-- `coef * 2^(quarters/4)` times the product of the named entries. -/
structure Monomial where
  coef : Rat
  quarters : Nat
  factors : List Entry
  deriving DecidableEq, Repr

/-- An element of a real-valued buffer (rule R56): the number `coef * 2^(quarters/4)`, to which `rest` adds what is missing
to a number that has no such form. `rest` tells an exact number from the first part only, and never moves it across a
threshold of `QUANT`, of `RECON` or across an integer: a `rest` that does counts as nothing (`RealVal.val`). So the first
part alone decides what `QUANT` and `RECON` answer, and every exact result of file 45 can be written down
(`RealVal.ofMonomials`). No host access reaches an element (rule R58). -/
structure RealVal where
  coef : Rat
  quarters : Fin 4
  rest : List Monomial := []
  deriving DecidableEq, Repr, Inhabited

/-- The number zero. -/
def RealVal.zero : RealVal := ⟨0, 0, []⟩

/-- A rational number. -/
def RealVal.ofRat (c : Rat) : RealVal := ⟨c, 0, []⟩

/-! ## The record -/

/-- `NUM` (rule R216): six total functions, each of its operands alone, so the same operands give the same result every
time (`NUM_DET`). A matrix is named by its basis and size; `txf` and `txi` give one element of the result. -/
structure Num where
  /-- `NUM.txf(A, X, B)[u][v]`, `X` packed in raster order (rule R213). -/
  txf : Basis → Basis → Nat → List Int → Nat → Nat → RealVal
  /-- `NUM.txi(A, Y, B)[r][c]`, `Y` packed in raster order (rule R214). -/
  txi : Basis → Basis → Nat → List RealVal → Nat → Nat → RealVal
  /-- `STEP` of a quality parameter (rules R15, R251). -/
  step : Nat → RealVal
  /-- The index of a coefficient at a step (rule R252). -/
  quant : RealVal → RealVal → Int
  /-- The value of an index at a step (rule R253). -/
  deq : Int → RealVal → RealVal
  /-- A residual rounded to an integer (rule R254). -/
  round : RealVal → Int
  deriving Inhabited

/-! ## Rational transforms -/

/-- Element `(u, v)` of a transform whose matrices have rational entry products `A[u][r] * B[v][c]` throughout: those of
size 1, and the DCT-II of size 2 on both axes (rules R210, R211). -/
def rationalAt (a b : Basis) (n u v : Nat) : Bool :=
  u < n && v < n && (n == 1 || (n == 2 && a == .dct2 && b == .dct2))

/-- `A[u][r] * B[v][c]` of such a pair: `1/n` with the sign of `(-1)^(u r + v c)`. -/
def rationalEntry (n u r v c : Nat) : Rat := (if (u * r + v * c) % 2 = 0 then 1 else -1) / n

/-- `(A X Bᵗ)[u][v]` of such a pair (rule R212). -/
def rationalTxf (n : Nat) (xs : List Int) (u v : Nat) : Rat :=
  ((List.range (n * n)).map fun i => rationalEntry n u (i / n) v (i % n) * xs.getD i 0).sum

/-- `(Aᵗ Y B)[r][c]` of such a pair (rule R212). -/
def rationalTxi (n : Nat) (ys : List Rat) (r c : Nat) : Rat :=
  ((List.range (n * n)).map fun i => rationalEntry n (i / n) r (i % n) c * ys.getD i 0).sum

/-- Every element is a rational number, written as one. -/
def allRational (ys : List RealVal) : Bool := ys.all fun y => y.quarters == 0 && y.rest.isEmpty

end Sys2Proof.Config
end

