-- ==== Sys2Proof/Config/ExactReal.lean ====
section
/-! DEFINITION. The real numbers that real values stand for, the formulas of rules R210 to R216 and R251 to R254 on real
numbers, what is asked of every instance of `NUM`, and the reference instance: exact real arithmetic. -/

namespace Sys2Proof.Config

/-! ## The formulas on real numbers -/

/-- `STEP = 2^(qp/4)` with real division (rules R15, R251). -/
noncomputable def stepReal (qp : Nat) : ℝ := 2 ^ ((qp : ℝ) / 4)

/-- `sgn(y) * floor(|y| / STEP + 2/5)` (rule R252). -/
noncomputable def quantReal (y step : ℝ) : Int := (SignType.sign y : Int) * ⌊|y| / step + 2 / 5⌋

/-- `round(x)`: the nearest integer, a tie going to the even one (rule R5). -/
noncomputable def roundReal (x : ℝ) : Int :=
  if x - ⌊x⌋ < 1 / 2 then ⌊x⌋
  else if 1 / 2 < x - ⌊x⌋ then ⌊x⌋ + 1
  else if Even ⌊x⌋ then ⌊x⌋ else ⌊x⌋ + 1

/-- Row `k`, column `j` of `C_n` (rule R210) or `S_n` (rule R211). -/
noncomputable def Basis.entry (b : Basis) (n k j : Nat) : ℝ :=
  match b with
  | .dct2 => (if k = 0 then √(1 / n) else √(2 / n)) * Real.cos (Real.pi * (2 * j + 1) * k / (2 * n))
  | .dst7 => √(4 / (2 * n + 1)) * Real.sin (Real.pi * (2 * k + 1) * (j + 1) / (2 * n + 1))

/-- Rules R212, R213: `(A X Bᵗ)[u][v]`, the sum over `r, c` of `A[u][r] X[r][c] B[v][c]`. -/
noncomputable def txfReal (a b : Basis) (n : Nat) (xs : List ℝ) (u v : Nat) : ℝ :=
  ((List.range (n * n)).map fun i => a.entry n u (i / n) * b.entry n v (i % n) * xs.getD i 0).sum

/-- Rules R212, R214: `(Aᵗ Y B)[r][c]`, the sum over `u, v` of `A[u][r] Y[u][v] B[v][c]`. -/
noncomputable def txiReal (a b : Basis) (n : Nat) (ys : List ℝ) (r c : Nat) : ℝ :=
  ((List.range (n * n)).map fun i => a.entry n (i / n) r * b.entry n (i % n) c * ys.getD i 0).sum

/-! ## The number of a real value -/

/-- No command tells the two numbers apart, and no integer bounds one of them only: they have the same index at every
quality, the same rounding and the same magnitude rounded up. -/
def Alike (x y : ℝ) : Prop :=
  (∀ qp, qp ≤ qpMax → quantReal x (stepReal qp) = quantReal y (stepReal qp)) ∧ roundReal x = roundReal y ∧
    ⌈|x|⌉ = ⌈|y|⌉

/-- The number a monomial stands for. -/
noncomputable def Monomial.val (m : Monomial) : ℝ :=
  (m.coef : ℝ) * 2 ^ ((m.quarters : ℝ) / 4) * (m.factors.map fun e => e.basis.entry e.size e.row e.col).prod

/-- The number of a list of monomials: their sum. -/
noncomputable def sumVal (ms : List Monomial) : ℝ := (ms.map Monomial.val).sum

/-- The first part of a real value, `coef * 2^(quarters/4)`, as a monomial. -/
def RealVal.first (x : RealVal) : Monomial := ⟨x.coef, x.quarters.val, []⟩

open Classical in
/-- The monomials that a real value is the sum of: the first part, and `rest` where it crosses nothing. -/
noncomputable def RealVal.monomials (x : RealVal) : List Monomial :=
  if Alike x.first.val (sumVal (x.first :: x.rest)) then x.first :: x.rest else [x.first]

/-- The number a real value stands for. -/
noncomputable def RealVal.val (x : RealVal) : ℝ := sumVal x.monomials

open Classical in
/-- The real value of a sum of monomials. A rational number has one form; another number gets a rational first part that
nothing tells from it, which there always is (`exists_alike`), and the exact difference in `rest`. -/
noncomputable def RealVal.ofMonomials (ms : List Monomial) : RealVal :=
  if h : ∃ q : ℚ, (q : ℝ) = sumVal ms then .ofRat h.choose
  else if h : ∃ q : ℚ, Alike q (sumVal ms) then ⟨h.choose, 0, ⟨-h.choose, 0, []⟩ :: ms⟩
  else .zero

/-! ## What is asked of every instance of `NUM` -/

/-- What the rules ask of every instance: `NUM_ZERO` (rule R216); the exact step where it is a power of two (rule R251);
the transforms of size 1 and the DC one of size 2 on rational operands, which rule R271 calls independent of `NUM`; and
`|y| <= 255 N` for the coefficients of a residual, so that its quantizing cannot raise `OperandRange` (rule R252). -/
structure Num.Ok (n : Num) : Prop where
  txf_zero : ∀ a b size xs u v, (∀ x ∈ xs, x = 0) → n.txf a b size xs u v = .zero
  txi_zero : ∀ a b size ys r c, (∀ y ∈ ys, y = .zero) → n.txi a b size ys r c = .zero
  quant_zero : ∀ st, n.quant .zero st = 0
  deq_zero : ∀ st, n.deq 0 st = .zero
  round_zero : n.round .zero = 0
  step_exact : ∀ k, n.step (4 * k) = .ofRat (2 ^ k)
  txf_exact : ∀ a b size xs u v, rationalAt a b size u v = true →
    n.txf a b size xs u v = .ofRat (rationalTxf size xs u v)
  txi_exact : ∀ a b size ys r c, rationalAt a b size r c = true → allRational ys = true →
    n.txi a b size ys r c = .ofRat (rationalTxi size (ys.map RealVal.coef) r c)
  txf_bound : ∀ a b size xs u v, u < size → v < size → (∀ x ∈ xs, x.natAbs ≤ 255) →
    |(n.txf a b size xs u v).val| ≤ 255 * size
  quant_range : ∀ qp y, qp ≤ qpMax → |y.val| ≤ 255 * 64 → (n.quant y (n.step qp)).natAbs ≤ 2 ^ 31 - 1

/-- `NUM_ORTH` (rule R216): the inverse transform of the transform of `X` is `X`, exactly. -/
def Num.Orth (n : Num) : Prop :=
  ∀ (a b : Basis) (size : Nat) (xs : List Int) (ys : List RealVal),
    (∀ u v, u < size → v < size → ys[u * size + v]? = some (n.txf a b size xs u v)) →
    ∀ r c, r < size → c < size → (n.txi a b size ys r c).val = (xs.getD (r * size + c) 0 : Int)

/-- `NUM_LIN` (rule R216): both transforms are linear. -/
def Num.Lin (n : Num) : Prop :=
  (∀ (a b : Basis) (size : Nat) (k l : Int) (xs ys zs : List Int),
    (∀ i, i < size * size → zs.getD i 0 = k * xs.getD i 0 + l * ys.getD i 0) →
    ∀ u v, (n.txf a b size zs u v).val = k * (n.txf a b size xs u v).val + l * (n.txf a b size ys u v).val) ∧
  ∀ (a b : Basis) (size : Nat) (k l : ℝ) (xs ys zs : List RealVal),
    (∀ i, i < size * size →
      (zs.getD i .zero).val = k * (xs.getD i .zero).val + l * (ys.getD i .zero).val) →
    ∀ r c, (n.txi a b size zs r c).val = k * (n.txi a b size xs r c).val + l * (n.txi a b size ys r c).val

/-! ## The reference instance -/

/-- The reference instance of `NUM` (rule R216, decision D24): every function computes its formula on the real numbers that
the operands stand for, and its result stands for the exact number. -/
noncomputable def exactNum : Num where
  txf a b n xs u v := .ofMonomials
    ((List.range (n * n)).map fun i => ⟨xs.getD i 0, 0, [⟨a, n, u, i / n⟩, ⟨b, n, v, i % n⟩]⟩)
  txi a b n ys r c := .ofMonomials
    ((List.range (n * n)).flatMap fun i => (ys.getD i .zero).monomials.map fun m =>
      { m with factors := ⟨a, n, i / n, r⟩ :: ⟨b, n, i % n, c⟩ :: m.factors })
  step qp := .ofMonomials [⟨2 ^ (qp / 4), qp % 4, []⟩]
  quant y st := quantReal y.val st.val
  deq q st := .ofMonomials (st.monomials.map fun m => { m with coef := q * m.coef })
  round y := roundReal y.val

end Sys2Proof.Config
end

