-- ==== Sys2Proof/Machine/Reals.lean ====
section
/-! DEFINITION. The formulas of file 47 computed exactly on real values: the step, the quantizer's index, the dequantized
value and the rounding of a residual (rules R5, R15, R251 to R254). The first part `coef * 2^(quarters/4)` of a value
decides each of them, and every comparison is one of fourth powers, which are rational, so nothing here is approximate.
The machine's own instance of `NUM` uses them (`Config.params`; log 10). -/

namespace Sys2Proof.Machine

open Sys2Proof Sys2Proof.Config

/-! ## Floors -/

/-- The bits `k-1 .. 0` of a fourth root, added to `m` from the top while the fourth power stays within `t`. -/
def rootBits (t : Nat) : Nat → Nat → Nat
  | 0, m => m
  | k + 1, m => rootBits t k (if (m + 2 ^ k) ^ 4 ≤ t then m + 2 ^ k else m)

/-- The fourth root of a natural number, rounded down. -/
def root4 (t : Nat) : Nat := rootBits t (Nat.log2 t / 4 + 1) 0

/-- The numerator of `(k * |x|)^4` over the denominator `x.coef.den^4`, of the first part of `x`. -/
def fourthNum (k : Nat) (x : RealVal) : Nat := (k * x.coef.num.natAbs) ^ 4 * 2 ^ x.quarters.val

/-- Whether `|x| <= k`. -/
def atMost (k : Nat) (x : RealVal) : Bool := fourthNum 1 x ≤ (k * x.coef.den) ^ 4

/-- `floor(k * |x|)` (rule R5). -/
def floorAbs (k : Nat) (x : RealVal) : Nat := root4 (fourthNum k x / x.coef.den ^ 4)

/-- `sgn(x) * n` (rule R5). -/
def signed (x : RealVal) (n : Nat) : Int := if x.coef < 0 then - (n : Int) else n

/-! ## Step, quantizer and dequantizer -/

/-- `c * 2^(k/4)` as a real value; zero has one form. -/
def scaled (c : Rat) (k : Nat) : RealVal :=
  if c = 0 then .zero else ⟨c * 2 ^ (k / 4), ⟨k % 4, Nat.mod_lt _ (by decide)⟩, []⟩

/-- `STEP = 2^(qp/4)`, with real division (rules R15, R251; decision D26). -/
def stepOf (qp : Nat) : RealVal := scaled 1 qp

/-- `q * STEP` (rule R253), `STEP` a value with an empty `rest`. -/
def dequantize (q : Int) (st : RealVal) : RealVal := if q = 0 then .zero else ⟨q * st.coef, st.quarters, []⟩

/-- `y / STEP` (rule R252): the quarters of the quotient are brought back into `0 .. 3`. -/
def divStep (y st : RealVal) : RealVal :=
  ⟨if y.quarters < st.quarters then y.coef / (2 * st.coef) else y.coef / st.coef, y.quarters - st.quarters, []⟩

/-- `sgn(y) * floor(|y| / STEP + Q_BIAS)` (rule R252). With `Q_BIAS = a/b` the floor is
`(floor(b * |y| / STEP) + a) / b`. -/
def quantize (y st : RealVal) : Int :=
  signed y ((floorAbs qBias.den (divStep y st) + qBias.num.toNat) / qBias.den)

/-! ## Rounding -/

/-- `m = floor(2x)` of `x >= 0`, rounded to the nearest integer below or above `x`: a tie goes to the even one
(rule R5, `ROUND_TIES`). -/
def nearest (m : Nat) (tie : Bool) : Nat :=
  if m % 2 = 0 then m / 2 else if tie && m / 2 % 2 == 0 then m / 2 else m / 2 + 1

/-- `round(x)`: to nearest, ties to even (rules R5, R254; decision D25). -/
def roundHalfEven (x : RealVal) : Int :=
  let m := floorAbs 2 x
  signed x (nearest m (m ^ 4 * x.coef.den ^ 4 == fourthNum 2 x))

end Sys2Proof.Machine
end

