-- ==== Sys2Proof/Config.lean ====
section
/-! DEFINITION. The parameters of rule R4: those with a value, those left open (opaque, kept within the spec's
obligations), and the free values. -/

namespace Sys2Proof.Config

/-! ## Parameters with a value (rule R4) -/

/-- `RANGE_INIT`: the coder's initial range. -/
def rangeInit : BitVec 9 := 510
/-- `DEBT_INIT`: the encoder's initial debt counter. -/
def debtInit : BitVec 8 := 23
/-- `NEED_INIT`: the decoder's initial `bits_needed`, -8 in two's complement. -/
def needInit : BitVec 8 := 0xF8
/-- `PAT_INIT_BITS`: the bits the decoder reads at start. -/
def patInitBits : Nat := 16
/-- `BORDER_DEFAULT`: the sample of an unavailable border. -/
def borderDefault : Nat := 128
/-- `BUCKET_T1`: first diagonal threshold. -/
def bucketT1 : Nat := 4
/-- `BUCKET_T2`: second diagonal threshold. -/
def bucketT2 : Nat := 7
/-- `REGW`: the largest bit count of a multi-bit command (decision D4). -/
def regW : Nat := 32
/-- `NMAX`: the largest block size the buffers hold; the reference configuration's 64 (decision D6; log 14). -/
def nmax : Nat := 64
/-- `FLUSH_T`: the encoder's flush threshold (decision D16). -/
def flushT : Int := 12
/-- `PLANAR_RND`: the rounding offset of the planar predictor (decision D28). -/
def planarRnd : Nat := 0
/-- `PM_INIT`, the state half (decision D12; log 15). -/
def pmInitState : BitVec 6 := 0
/-- `PM_INIT`, the mps half (decision D12; log 15). -/
def pmInitMps : Bool := false

/-- `LPS_FLIP`: when `update_lps` tests for state 0 (rule R122). -/
inductive FlipOrder
  | after
  | before
  deriving DecidableEq, Repr

/-! ## The machine's numerics (`NUM`, rule R216; log 10) -/

/-- The machine's own numerics around any transforms: the transforms made to meet `Num.Ok` (those that meet it already are
not changed), and `step`, `quant`, `deq` and `round` by the formulas of rules R251 to R254, computed exactly. That these
four have no error of their own is the model's choice (log 10). -/
def Num.guarded (raw : Num) : Num where
  txf a b n xs u v :=
    if rationalAt a b n u v then .ofRat (rationalTxf n xs u v)
    else if xs.all (· == 0) then .zero
    else
      let y := raw.txf a b n xs u v
      if u < n && v < n && xs.all (fun x => x.natAbs ≤ 255) && !Machine.atMost (255 * n) y then .zero else y
  txi a b n ys r c :=
    if rationalAt a b n r c && allRational ys then .ofRat (rationalTxi n (ys.map RealVal.coef) r c)
    else if ys.all (· == .zero) then .zero
    else raw.txi a b n ys r c
  step := Machine.stepOf
  quant := Machine.quantize
  deq := Machine.dequantize
  round := Machine.roundHalfEven

/-! ## The open parameters together -/

/-- The parameters of rule R4 that an implementation of the spec may choose. -/
structure Params where
  /-- `STREAM_BYTES` (rule R4, decision D5). -/
  streamBytes : Nat
  /-- `LPS_WIDTH[state][q]` (rule R126). -/
  lpsWidth : BitVec 6 → BitVec 2 → BitVec 8
  /-- `NEXT_MPS[state]` (rule R126). -/
  nextMps : BitVec 6 → BitVec 6
  /-- `NEXT_LPS[state]` (rule R126); every value of the type is in 0..63. -/
  nextLps : BitVec 6 → BitVec 6
  /-- `LPS_FLIP` (rule R122). -/
  lpsFlip : FlipOrder
  /-- `EST_BITS(state, is_lps)` (rule R125). -/
  estBits : BitVec 6 → Bool → Word
  /-- `EST_BYPASS` (rule R196). -/
  estBypass : Word
  /-- `NUM` (rule R216). -/
  num : Num

/-- The obligations of rules R4 and R126 on any instance. -/
structure Params.Ok (p : Params) : Prop where
  stream_pos : 1 ≤ p.streamBytes
  stream_le : p.streamBytes ≤ 2 ^ 32 - 1
  width_ge : ∀ s q, 2 ≤ (p.lpsWidth s q).toNat
  width_room : ∀ s (r : BitVec 9), 256 ≤ r.toNat → r.toNat ≤ 510 →
    (p.lpsWidth s (r.extractLsb' 6 2)).toNat + 128 ≤ r.toNat
  mps_monotone : ∀ s, s.toNat ≤ (p.nextMps s).toNat
  num_ok : p.num.Ok

/-- The largest width rule R126 (a) allows in column `q`: the least range of the column is `256 + 64 q`. -/
def widthBound (q : BitVec 2) : Nat := min 255 (128 + 64 * q.toNat)

/-- Open: `STREAM_BYTES`, brought into `1 .. 2^32 - 1` (log 12). -/
opaque rawStreamBytes : Nat
/-- Open: the LPS-width table, brought within rule R126 (a) (log 11). -/
opaque rawLpsWidth : BitVec 6 → BitVec 2 → Nat
/-- Open: the MPS transition table, brought within rule R126 (b) (log 11). -/
opaque rawNextMps : BitVec 6 → BitVec 6
/-- Open: the LPS transition table (log 11). -/
opaque rawNextLps : BitVec 6 → BitVec 6
/-- Open: the cost estimate of one bin (log 13). -/
opaque rawEstBits : BitVec 6 → Bool → Word
/-- Open: the cost estimate of one bypass bin (log 13). -/
opaque rawEstBypass : Word
/-- Open: the numerics, of which the transforms are used, brought within `Num.Ok` (log 10). -/
opaque rawNum : Num

/-- The machine's parameters. Every instance that meets the obligations is a value of the opaque constants; nothing in
Lean can tell which one this is. `LPS_FLIP` is the spec's decision D15 (log 15). -/
def params : Params where
  streamBytes := max 1 (min rawStreamBytes (2 ^ 32 - 1))
  lpsWidth s q := BitVec.ofNat 8 (max 2 (min (rawLpsWidth s q) (widthBound q)))
  nextMps s := if s.toNat ≤ (rawNextMps s).toNat then rawNextMps s else s
  nextLps := rawNextLps
  lpsFlip := .after
  estBits := rawEstBits
  estBypass := rawEstBypass
  num := rawNum.guarded

/-! ## Free values (rule R324; log 4) -/

/-- Where a free word is drawn for: a register, a model, a memory element or a host read that rule R324 leaves
unspecified. -/
inductive FreeSlot
  | cmd | arg | res
  | cfgH | cfgW | cfgBs | cfgQp | predAvail
  | pmState (m : Nat) | pmMps (m : Nat) | bucket
  | bwAcc | bwCnt | bwPtr
  | brBuf | brCnt | brPtr | brEnd
  | aeLow | aeRng | aeBuf | aeRun | aeDebt
  | adPat | adRng | adNeed
  | smAddr
  | stream (address : Nat)
  | element (buffer : Nat) (index : Nat)
  | hostRead
  deriving DecidableEq, Repr

/-- The free value of a slot at the n-th draw. No body: nothing in Lean can evaluate it. -/
opaque freeWord : Nat → FreeSlot → Word
/-- The free value of an element of a real buffer at the n-th draw. -/
opaque freeReal : Nat → FreeSlot → RealVal

/-! ## The reference instances of file 41 (used by tests only: no definition of the machine names them) -/

/-- Rule R128: reference `LPS_WIDTH`, states 0 to 31, four columns a state. -/
def refLpsWidthLow : List (List Nat) :=
  [[128, 176, 208, 240], [128, 167, 197, 227], [128, 158, 187, 216], [123, 150, 178, 205],
   [116, 142, 169, 195], [111, 135, 160, 185], [105, 128, 152, 175], [100, 122, 144, 166],
   [95, 116, 137, 158], [90, 110, 130, 150], [85, 104, 123, 142], [81, 99, 117, 135],
   [77, 94, 111, 128], [73, 89, 105, 122], [69, 85, 100, 116], [66, 80, 95, 110],
   [62, 76, 90, 104], [59, 72, 86, 99], [56, 69, 81, 94], [53, 65, 77, 89],
   [51, 62, 73, 85], [48, 59, 69, 80], [46, 56, 66, 76], [43, 53, 63, 72],
   [41, 50, 59, 69], [39, 48, 56, 65], [37, 45, 54, 62], [35, 43, 51, 59],
   [33, 41, 48, 56], [32, 39, 46, 53], [30, 37, 43, 50], [29, 35, 41, 48]]

/-- Rule R128: reference `LPS_WIDTH`, states 32 to 63. -/
def refLpsWidthHigh : List (List Nat) :=
  [[27, 33, 39, 45], [26, 31, 37, 43], [24, 30, 35, 41], [23, 28, 33, 39],
   [22, 27, 32, 37], [21, 26, 30, 35], [20, 24, 29, 33], [19, 23, 27, 31],
   [18, 22, 26, 30], [17, 21, 25, 28], [16, 20, 23, 27], [15, 19, 22, 25],
   [14, 18, 21, 24], [14, 17, 20, 23], [13, 16, 19, 22], [12, 15, 18, 21],
   [12, 14, 17, 20], [11, 14, 16, 19], [11, 13, 15, 18], [10, 12, 15, 17],
   [10, 12, 14, 16], [9, 11, 13, 15], [9, 11, 12, 14], [8, 10, 12, 14],
   [8, 9, 11, 13], [7, 9, 11, 12], [7, 9, 10, 12], [7, 8, 10, 11],
   [6, 8, 9, 11], [6, 7, 9, 10], [6, 7, 8, 9], [2, 2, 2, 2]]

/-- Rule R128 as a function. -/
def refLpsWidth (s : BitVec 6) (q : BitVec 2) : BitVec 8 :=
  BitVec.ofNat 8 (((refLpsWidthLow ++ refLpsWidthHigh).getD s.toNat []).getD q.toNat 2)

/-- Rule R129: reference `NEXT_MPS`. -/
def refNextMps (s : BitVec 6) : BitVec 6 := if s.toNat ≤ 61 then s + 1 else s

/-- Rule R130: reference `NEXT_LPS`. -/
def refNextLpsTable : List Nat :=
  [0, 0, 1, 2, 2, 4, 4, 5, 6, 7, 8, 9, 9, 11, 11, 12,
   13, 13, 15, 15, 16, 16, 18, 18, 19, 19, 21, 21, 22, 22, 23, 24,
   24, 25, 26, 26, 27, 27, 28, 29, 29, 30, 30, 30, 31, 32, 32, 33,
   33, 33, 34, 34, 35, 35, 35, 36, 36, 36, 37, 37, 37, 38, 38, 63]

/-- Rule R130 as a function. -/
def refNextLps (s : BitVec 6) : BitVec 6 := BitVec.ofNat 6 (refNextLpsTable.getD s.toNat 0)

end Sys2Proof.Config
end

