-- ==== Sys2Proof/Machine/State.lean ====
section
/-! DEFINITION. The machine's state as plain data (rules R10 to R28, R50 to R59), the ways a step can stop, and the
state after reset (rule R25). -/

namespace Sys2Proof.Machine

open Sys2Proof

/-! ## Faults of the spec (rule R320) -/

/-- The seven faults of rule R320. Raising one is a next state (rule R324), not a stop of the model. -/
inductive FaultKind
  | endOfStream
  | streamCorrupt
  | illegalCommand
  | outOverflow
  | configError
  | operandRange
  | syntaxRange
  deriving DecidableEq, Repr

/-! ## Stops of the model -/

/-- The partition buffers of rule R56. -/
inductive BufName
  | top | left | orig | predb | resd | qidx | scan | recb
  | coef | dcoef | rres
  deriving DecidableEq, Repr

/-- Where the model stops because no such place exists. -/
inductive Fault
  /-- A host access at an offset that is not 32-bit aligned or lies beyond the register window (rules R53, R54; 93 U7).
  Raised by a host read or write. Safe: the spec gives it no effect. -/
  | outsideInterface (offset : Nat)
  deriving DecidableEq, Repr

/-- Where the model has no effect to give. -/
inductive Refusal
  /-- The command has no meaning in the model yet. Raised by `exec`'s arm only. Safe. -/
  | notModelled (mnemonic : String)
  /-- A command or a host read reads a STREAM byte that nothing has written (rules R59, R333; 93 U5). Safe. -/
  | unwrittenStream (address : Nat)
  /-- A command or a host read reads a buffer element that nothing has written, or a real buffer not written for this
  partition size (rules R59, R333; 93 U5, U19). Safe. -/
  | unwrittenBuffer (buffer : BufName)
  deriving DecidableEq, Repr

/-! ## Registers by unit -/

/-- `STATUS` (rule R13): its four fields; every other bit reads 0. -/
structure Status where
  fault : Bool
  code : BitVec 4
  encOpen : Bool
  decOpen : Bool
  deriving DecidableEq, Repr, Inhabited

/-- The configuration registers (rule R14). -/
structure Cfg where
  h : BitVec 16
  w : BitVec 16
  bs : BitVec 16
  qp : BitVec 8
  availTop : Bool
  availLeft : Bool
  deriving DecidableEq, Repr, Inhabited

/-- A probability model (rules R16, R120). -/
structure Model where
  state : BitVec 6
  mps : Bool
  deriving DecidableEq, Repr, Inhabited

/-- The bit writer's registers `BW_ACC`, `BW_CNT`, `BW_PTR` (rule R18). -/
structure BitWriter where
  acc : Byte
  cnt : BitVec 4
  ptr : Word
  deriving DecidableEq, Repr, Inhabited

/-- The bit reader's registers `BR_BUF`, `BR_CNT`, `BR_PTR`, `BR_END` (rule R19). -/
structure BitReader where
  buf : Byte
  cnt : BitVec 4
  ptr : Word
  stop : Word
  deriving DecidableEq, Repr, Inhabited

/-- The encoder's registers `AE_LOW`, `AE_RNG`, `AE_BUF`, `AE_RUN`, `AE_DEBT` (rule R20). -/
structure Encoder where
  low : Word
  rng : BitVec 9
  buf : Byte
  run : Word
  debt : BitVec 8
  deriving DecidableEq, Repr, Inhabited

/-- The decoder's registers `AD_PAT`, `AD_RNG`, `AD_NEED` (rule R22). -/
structure Decoder where
  pat : Word
  rng : BitVec 9
  need : BitVec 8
  deriving DecidableEq, Repr, Inhabited

/-! ## Memories -/

/-- A sparse memory: pairs of index and value with rising indices. An unlisted index has no value: nothing has written
it (rule R59; log 8). -/
abbrev Cells (α : Type) := List (Nat × α)

/-- A real-valued buffer that a command has filled for partition size `n` (rules R56, R59). -/
structure RealBuf where
  n : Nat
  elems : List Config.RealVal
  deriving DecidableEq, Repr

/-! ## The host (rules R10, R60, R350) -/

/-- What the host can do between commands: a 32-bit register access by byte offset, or the reset input. -/
inductive HostAction
  | write (offset : Nat) (value : Word)
  | read (offset : Nat)
  | reset
  deriving DecidableEq, Repr

/-! ## The whole state -/

/-- The whole machine. -/
structure State where
  /-- `CMD`: the last command word written (rule R27). -/
  cmd : Word
  arg : Word
  res : Word
  status : Status
  cfg : Cfg
  /-- `PM[0..14]` (rule R16). -/
  pm : Vector Model 15
  /-- `BUCKET`, which holds 0, 1 or 2 (rule R17). -/
  bucket : Fin 3
  bw : BitWriter
  br : BitReader
  ae : Encoder
  ad : Decoder
  smAddr : Word
  /-- STREAM (rule R51). -/
  stream : List Host.Cell
  top : Cells Byte
  left : Cells Byte
  orig : Cells Byte
  predb : Cells Byte
  resd : Cells Word
  coef : Option RealBuf
  qidx : Cells Word
  scan : Cells Word
  dcoef : Option RealBuf
  rres : Option RealBuf
  recb : Cells Byte
  /-- The model's own: what the host will do next, in order (rule R12; log 2). -/
  pending : List HostAction
  /-- The model's own: what the last host read returned (log 3). -/
  hostOut : Word
  /-- The model's own: how many times a free value has been drawn (log 4). -/
  draws : Nat
  deriving DecidableEq, Repr

/-- `PM_INIT` (rules R4, R25). -/
def Model.init : Model := ⟨Config.pmInitState, Config.pmInitMps⟩

/-- The machine right after power-on reset (rules R25, R350): registers at their reset values, memories with nothing
written, and a host that has issued nothing (rule R354). -/
def State.reset : State where
  cmd := 0
  arg := 0
  res := 0
  status := ⟨false, 0, false, false⟩
  cfg := ⟨0, 0, 0, 0, false, false⟩
  pm := Vector.replicate 15 Model.init
  bucket := 0
  bw := ⟨0, 0, 0⟩
  br := ⟨0, 0, 0, 0⟩
  ae := ⟨0, Config.rangeInit, 0xFF, 0, Config.debtInit⟩
  ad := ⟨0, Config.rangeInit, Config.needInit⟩
  smAddr := 0
  stream := []
  top := []
  left := []
  orig := []
  predb := []
  resd := []
  coef := none
  qidx := []
  scan := []
  dcoef := none
  rres := none
  recb := []
  pending := []
  hostOut := 0
  draws := 0

end Sys2Proof.Machine
end

