-- ==== Sys2Proof/Machine/Flags.lean ====
section
/-! DEFINITION. The `STATUS` word (rule R13) and the fault codes (rule R320). The machine has no condition codes. -/

namespace Sys2Proof.Machine

open Sys2Proof

/-- `CODE` of each fault (rule R320). -/
def faultCode : FaultKind → BitVec 4
  | .endOfStream => 1
  | .streamCorrupt => 2
  | .illegalCommand => 3
  | .outOverflow => 4
  | .configError => 5
  | .operandRange => 6
  | .syntaxRange => 7

/-- A bit as a 0/1 number. -/
def bitNat (b : Bool) : Nat := if b then 1 else 0

/-- `STATUS` as the host reads it (rule R13): `FAULT` bit 0, `CODE` bits 7:4, `ENC_OPEN` bit 8, `DEC_OPEN` bit 9,
every other bit 0. -/
def statusWord (st : Status) : Word :=
  BitVec.ofNat 32
    (bitNat st.fault + 16 * st.code.toNat + 256 * bitNat st.encOpen + 512 * bitNat st.decOpen)

/-- Rule R324 (2), (3): the first fault since reset is recorded; the session bits stay. -/
def statusRaised (st : Status) (k : FaultKind) : Status :=
  if st.fault then st else { st with fault := true, code := faultCode k }

end Sys2Proof.Machine
end

