-- ==== Sys2Proof/Machine/Ops.lean ====
section
/-! DEFINITION. The operations over memory and registers that every command is written with: sparse memories, the
command monad, model accessors, taking a fault (rule R324), leaving the fault state (rules R311, R350), and running a
command. -/

namespace Sys2Proof.Machine

open Sys2Proof

/-! ## Numbers (rules R5, R6) -/

/-- `bitlength(v)` (rule R5). -/
def bitLength (v : Nat) : Nat := if v = 0 then 0 else Nat.log2 v + 1

/-- A bit as a 32-bit result. -/
def bitWord (b : Bool) : Word := if b then 1 else 0

/-! ## Sparse memories (rules R51, R59; log 8) -/

/-- The canonical form: indices rise strictly. (An unlisted index has no value, so no entry equals it.) -/
abbrev CellsWf {α : Type} (m : Cells α) : Prop := (m.map Prod.fst).Pairwise (· < ·)

/-- What index `a` holds: nothing when unlisted. -/
def cellsRead {α : Type} : Cells α → Nat → Option α
  | [], _ => none
  | (b, v) :: rest, a => if a = b then some v else cellsRead rest a

/-- Store `v` at index `a`. -/
def cellsWrite {α : Type} : Cells α → Nat → α → Cells α
  | [], a, v => [(a, v)]
  | (b, w) :: rest, a, v =>
    if a < b then (a, v) :: (b, w) :: rest
    else if a = b then (a, v) :: rest
    else (b, w) :: cellsWrite rest a v

/-- Store a whole list at indices `0, 1, ..`; the indices above it keep what they hold. -/
def cellsFill {α : Type} (m : Cells α) (vs : List α) : Cells α :=
  (vs.zipIdx.map fun p => (p.2, p.1)) ++ m.filter fun c => vs.length ≤ c.1

/-- The `count` elements from `start`, or nothing when one of them has no value. -/
def cellsReadRange {α : Type} (m : Cells α) : Nat → Nat → Option (List α)
  | _, 0 => some []
  | start, count + 1 =>
    match cellsRead m start, cellsReadRange m (start + 1) count with
    | some x, some xs => some (x :: xs)
    | _, _ => none

/-- Replace the value of every listed index from `lo` on. -/
def cellsLose {α : Type} (m : Cells α) (lo : Nat) (f : Nat → α) : Cells α :=
  m.map fun c => if lo ≤ c.1 then (c.1, f c.1) else c

/-- Every sparse memory of the machine is in canonical form. -/
abbrev Memory.wf (s : State) : Prop :=
  CellsWf s.stream ∧ CellsWf s.top ∧ CellsWf s.left ∧ CellsWf s.orig ∧ CellsWf s.predb ∧ CellsWf s.resd ∧
    CellsWf s.qidx ∧ CellsWf s.scan ∧ CellsWf s.recb

/-! ## The command monad -/

/-- Why a command stops before its end: a fault of the spec (rule R324) or a refusal of the model. -/
inductive Stop
  | fault (k : FaultKind)
  | refuse (r : Refusal)
  deriving DecidableEq, Repr

/-- A command's pseudocode: it reads and writes the state in order and may stop; the state at the stop is kept. -/
abbrev Cmd (α : Type) := EStateM Stop State α

/-- `raise X` of rule R7. -/
def raise {α : Type} (k : FaultKind) : Cmd α := fun s => .error (.fault k) s

/-- Stop outside the specified behaviour. -/
def refuse {α : Type} (r : Refusal) : Cmd α := fun s => .error (.refuse r) s

/-- Do `c` when the condition holds. -/
def whenCmd (b : Bool) (c : Cmd Unit) : Cmd Unit := if b then c else pure ()

/-- Do `c` `n` times. -/
def repeatCmd (c : Cmd Unit) : Nat → Cmd Unit
  | 0 => pure ()
  | n + 1 => do c; repeatCmd c n

/-- For `i = n-1 downto 0`, do `f v[i]`: most significant bit first (rules R6, R100). -/
def forBits (f : Bool → Cmd Unit) (v : Word) : Nat → Cmd Unit
  | 0 => pure ()
  | n + 1 => do f (v.getLsbD n); forBits f v n

/-- `n` times `acc <- (acc << 1) | bit`: the first bit is the most significant (rules R101, R173). -/
def collectBits (f : Cmd Bool) : Nat → Word → Cmd Word
  | 0, acc => pure acc
  | n + 1, acc => do let b ← f; collectBits f n ((acc <<< 1) ||| bitWord b)

/-- `RES <- v`. -/
def setRes (v : Word) : Cmd Unit := modify fun s => { s with res := v }

/-! ## The model bank (rules R16, R131) -/

/-- `PM[m]`. -/
def modelAt (s : State) (m : Fin 15) : Model := s.pm[m.val]

/-- The state with `PM[m]` replaced. -/
def withModel (s : State) (m : Fin 15) (x : Model) : State := { s with pm := s.pm.set m.val x }

/-- `PM[m] <- x`. -/
def setModel (m : Fin 15) (x : Model) : Cmd Unit := modify fun s => withModel s m x

/-! ## Buffers (rules R56, R57, R59) -/

/-- The first `count` elements of a u8 buffer, refused when one is unwritten. -/
def readBytes (name : BufName) (get : State → Cells Byte) (count : Nat) : Cmd (List Byte) := fun s =>
  match cellsReadRange (get s) 0 count with
  | some xs => .ok xs s
  | none => .error (.refuse (.unwrittenBuffer name)) s

/-- The first `count` elements of an s32 buffer, refused when one is unwritten. -/
def readWords (name : BufName) (get : State → Cells Word) (count : Nat) : Cmd (List Word) := fun s =>
  match cellsReadRange (get s) 0 count with
  | some xs => .ok xs s
  | none => .error (.refuse (.unwrittenBuffer name)) s

/-- The `n * n` elements of a real buffer, refused unless it was written for this `n` (rule R59). -/
def readReals (name : BufName) (get : State → Option RealBuf) (n : Nat) : Cmd (List Config.RealVal) := fun s =>
  match get s with
  | some b => if b.n = n then .ok b.elems s else .error (.refuse (.unwrittenBuffer name)) s
  | none => .error (.refuse (.unwrittenBuffer name)) s

/-- A two-dimensional buffer's contents in raster order from its element function (rule R57). -/
def grid {α : Type} (n : Nat) (f : Nat → Nat → α) : List α :=
  (List.range (n * n)).map fun i => f (i / n) (i % n)

/-! ## Reset (rules R25, R311, R350, R351) -/

/-- Every register of rule R25 at its reset value; STREAM, the buffers, `CMD` and the model's own fields stay. -/
def resetRegisters (s : State) : State :=
  { s with
    arg := State.reset.arg, res := State.reset.res, status := State.reset.status, cfg := State.reset.cfg,
    pm := State.reset.pm, bucket := State.reset.bucket, bw := State.reset.bw, br := State.reset.br,
    ae := State.reset.ae, ad := State.reset.ad, smAddr := State.reset.smAddr }

/-! ## Taking a fault (rules R323, R324) -/

/-- The free values of the register bank at the n-th draw (log 5). -/
def loseRegisters (s : State) : State :=
  let w := Config.freeWord s.draws
  { s with
    cmd := w .cmd, arg := w .arg, res := w .res,
    cfg :=
      { h := (w .cfgH).setWidth 16, w := (w .cfgW).setWidth 16, bs := (w .cfgBs).setWidth 16,
        qp := (w .cfgQp).setWidth 8, availTop := (w .predAvail).getLsbD 0, availLeft := (w .predAvail).getLsbD 1 },
    pm := Vector.ofFn fun m => { state := (w (.pmState m.val)).setWidth 6, mps := (w (.pmMps m.val)).getLsbD 0 },
    bucket := Fin.ofNat 3 (w .bucket).toNat,
    bw := { acc := (w .bwAcc).setWidth 8, cnt := (w .bwCnt).setWidth 4, ptr := w .bwPtr },
    br := { buf := (w .brBuf).setWidth 8, cnt := (w .brCnt).setWidth 4, ptr := w .brPtr, stop := w .brEnd },
    ae :=
      { low := w .aeLow, rng := (w .aeRng).setWidth 9, buf := (w .aeBuf).setWidth 8, run := w .aeRun,
        debt := (w .aeDebt).setWidth 8 },
    ad := { pat := w .adPat, rng := (w .adRng).setWidth 9, need := (w .adNeed).setWidth 8 },
    smAddr := w .smAddr }

/-- A number for each buffer, used to name its free values. -/
def bufIndex : BufName → Nat
  | .top => 0 | .left => 1 | .orig => 2 | .predb => 3 | .resd => 4 | .qidx => 5 | .scan => 6 | .recb => 7
  | .coef => 8 | .dcoef => 9 | .rres => 10

/-- Free values for the listed elements of a u8 buffer. -/
def loseBytes (s : State) (b : BufName) (m : Cells Byte) : Cells Byte :=
  cellsLose m 0 fun i => (Config.freeWord s.draws (.element (bufIndex b) i)).setWidth 8

/-- Free values for the listed elements of an s32 buffer. -/
def loseWords (s : State) (b : BufName) (m : Cells Word) : Cells Word :=
  cellsLose m 0 fun i => Config.freeWord s.draws (.element (bufIndex b) i)

/-- Free values for the elements of a real buffer. -/
def loseReals (s : State) (b : BufName) (m : Option RealBuf) : Option RealBuf :=
  m.map fun x =>
    { x with elems := (List.range x.elems.length).map fun i =>
        Config.freeReal s.draws (.element (bufIndex b) i) }

/-- One buffer's elements become free values (log 6). -/
def loseBuffer (s : State) : BufName → State
  | .top => { s with top := loseBytes s .top s.top }
  | .left => { s with left := loseBytes s .left s.left }
  | .orig => { s with orig := loseBytes s .orig s.orig }
  | .predb => { s with predb := loseBytes s .predb s.predb }
  | .resd => { s with resd := loseWords s .resd s.resd }
  | .qidx => { s with qidx := loseWords s .qidx s.qidx }
  | .scan => { s with scan := loseWords s .scan s.scan }
  | .recb => { s with recb := loseBytes s .recb s.recb }
  | .coef => { s with coef := loseReals s .coef s.coef }
  | .dcoef => { s with dcoef := loseReals s .dcoef s.dcoef }
  | .rres => { s with rres := loseReals s .rres s.rres }

/-- The STREAM bytes from `ptr` on become free values (rule R324 (5); log 6). -/
def loseStream (s : State) (ptr : Nat) : State :=
  { s with stream := cellsLose s.stream ptr fun a => (Config.freeWord s.draws (.stream a)).setWidth 8 }

/-- TAKING A FAULT, the one shared operation (rule R324): the fault `k` is raised by a command that started in `start`,
had come to `s`, and writes the buffers `writes`. `STATUS` records it; everything rule R324 leaves unspecified becomes
a free value. An illegal command touches `STATUS` only (rule R323; log 7). -/
def takeFault (k : FaultKind) (writes : List BufName) (start s : State) : State :=
  match k with
  | .illegalCommand => { start with status := statusRaised start.status .illegalCommand }
  | _ =>
    let lost := writes.foldl loseBuffer (loseStream (loseRegisters s) start.bw.ptr.toNat)
    { lost with status := statusRaised start.status k, draws := s.draws + 1 }

/-! ## Running a command (rules R10, R324) -/

/-- What the host's `CMD` write does with a decoded command: nothing while a fault is pending (rule R324), else the
command's effect, or the fault it raises. `writes` names the buffers the command writes (rule R56). -/
def runCommand (writes : List BufName) (c : Cmd Unit) (s : State) : Host.Outcome State Fault Refusal :=
  if s.status.fault then .next s
  else
    match c s with
    | .ok _ t => .next t
    | .error (.fault k) t => .next (takeFault k writes s t)
    | .error (.refuse r) _ => .refused r

end Sys2Proof.Machine
end

