-- ==== Sys2Proof/Machine/Operands.lean ====
section
/-! DEFINITION. Operand assembly: model selectors (rule R85), counts (rules R83, R88), the partition size (rule R313),
the diagonal scan and context buckets (rules R198, R199, R255). -/

namespace Sys2Proof.Machine

open Sys2Proof

/-! ## Models by name (rule R16) -/

def modelCbf : Fin 15 := 0
def modelLast : Fin 15 := 1
def modelPart : Fin 15 := 2
def modelPmode0 : Fin 15 := 3
def modelPmode1 : Fin 15 := 4
def modelPmode2 : Fin 15 := 5

/-- The active signal model `PM[6 + BUCKET]` (rule R17). -/
def activeSig (bucket : Fin 3) : Fin 15 := ⟨6 + bucket.val, by omega⟩
/-- The active greater-than-one model `PM[9 + BUCKET]` (rule R17). -/
def activeGt1 (bucket : Fin 3) : Fin 15 := ⟨9 + bucket.val, by omega⟩
/-- The active level-prefix model `PM[12 + BUCKET]` (rule R17). -/
def activeLvl (bucket : Fin 3) : Fin 15 := ⟨12 + bucket.val, by omega⟩

/-- `model(M)` (rule R85). -/
def resolve (sel : Selector) (s : State) : Fin 15 :=
  match sel with
  | .model m => m
  | .asig => activeSig s.bucket
  | .agt1 => activeGt1 s.bucket
  | .alvl => activeLvl s.bucket

/-- A count above 32 is an illegal command (rules R83, R88). -/
def checkCount (n : BitVec 8) : Cmd Unit :=
  if n.toNat ≤ Config.regW then pure () else raise .illegalCommand

/-! ## Partition size (rule R313) -/

/-- Whether a block size is legal. -/
def blockSizeOk (bs : Nat) : Bool := 2 ≤ bs && bs ≤ Config.nmax && bs % 2 == 0

/-- The size of the selected partition of a block of size `bs`. -/
def partSize (bs : Nat) : PartSize → Nat
  | .full => bs
  | .half => bs / 2

/-- `cfg_n(h)` (rule R313). -/
def cfgN (h : PartSize) : Cmd Nat := fun s =>
  if blockSizeOk s.cfg.bs.toNat then .ok (partSize s.cfg.bs.toNat h) s
  else .error (.fault .configError) s

/-! ## Scan positions and buckets (rules R198, R199, R255) -/

/-- The positions `(r, c)` of one anti-diagonal, bottom-left to top-right (rule R255). -/
def diagonal (n d : Nat) : List (Nat × Nat) :=
  ((List.range (min d (n - 1) + 1)).reverse.map fun r => (r, d - r)).filter fun p => p.2 < n

/-- `POS` of the up-right diagonal scan (rule R255). -/
def diagScan (n : Nat) : List (Nat × Nat) := (List.range (2 * n - 1)).flatMap (diagonal n)

/-- `DIAG_N` (rule R198). -/
def diagMap (n : Nat) : List Nat := (diagScan n).map fun p => p.1 + p.2

/-- `bucket(d)` (rule R199). -/
def bucketOf (d : Nat) : Fin 3 :=
  if d < Config.bucketT1 then 0 else if d < Config.bucketT2 then 1 else 2

/-- The bucket of scan index `i`: `bucket(DIAG_N[i])` (rule R200). -/
def bucketAt (n i : Nat) : Fin 3 := bucketOf ((diagMap n).getD i 0)

/-- `switch_context(i)` (rule R200). -/
def switchContext (n i : Nat) : Cmd Unit := modify fun s => { s with bucket := bucketAt n i }

end Sys2Proof.Machine
end

