-- ==== Sys2Proof/Machine/BitIO.lean ====
section
/-! DEFINITION. BitIO (file 40): the bit writer and the bit reader over STREAM, and their six commands. -/

namespace Sys2Proof.Machine

open Sys2Proof

/-! ## Helpers (rules R51, R100, R101) -/

/-- `put_bit(b)` (rule R100). -/
def putBit (p : Config.Params) (b : Bool) : Cmd Unit := fun s =>
  let acc : Byte := (s.bw.acc <<< 1) ||| (if b then 1 else 0)
  let cnt := s.bw.cnt + 1
  if cnt = 8 then
    if p.streamBytes ≤ s.bw.ptr.toNat then
      .error (.fault .outOverflow) { s with bw := { s.bw with acc := acc, cnt := cnt } }
    else
      .ok () { s with
        stream := cellsWrite s.stream s.bw.ptr.toNat acc,
        bw := { acc := 0, cnt := 0, ptr := s.bw.ptr + 1 } }
  else .ok () { s with bw := { s.bw with acc := acc, cnt := cnt } }

/-- `put_bits(v, n)`: bits `n-1` down to 0 (rule R100). -/
def putBits (p : Config.Params) (v : Word) (n : Nat) : Cmd Unit := forBits (putBit p) v n

/-- `put_bits(b, 8)` of a byte. -/
def putByte (p : Config.Params) (b : Byte) : Cmd Unit := putBits p (b.setWidth 32) 8

/-- `while BW_CNT != 0: put_bit(0)` with a bound on the turns (log 17). -/
def alignLoop (p : Config.Params) : Nat → Cmd Unit
  | 0 => pure ()
  | k + 1 => fun s => if s.bw.cnt = 0 then .ok () s else (do putBit p false; alignLoop p k : Cmd Unit) s

/-- `put_align()` (rule R100): sixteen turns always suffice for a 4-bit count. -/
def putAlign (p : Config.Params) : Cmd Unit := alignLoop p 16

/-- `byte <- MemRead(BR_PTR, 1)` with its end-of-data test (rules R51, R101, R108). -/
def fetchByte (p : Config.Params) : Cmd Unit := fun s =>
  if s.br.stop.toNat ≤ s.br.ptr.toNat ∨ p.streamBytes ≤ s.br.ptr.toNat then .error (.fault .endOfStream) s
  else
    match cellsRead s.stream s.br.ptr.toNat with
    | some byte => .ok () { s with br := { s.br with buf := byte, cnt := 8, ptr := s.br.ptr + 1 } }
    | none => .error (.refuse (.unwrittenStream s.br.ptr.toNat)) s

/-- The bit of `BR_BUF` that `BR_CNT` selects once it has been counted down (rule R101). -/
def takeBit : Cmd Bool := fun s =>
  let cnt := s.br.cnt - 1
  .ok (s.br.buf.getLsbD cnt.toNat) { s with br := { s.br with cnt := cnt } }

/-- `get_bit()` (rule R101). -/
def getBit (p : Config.Params) : Cmd Bool := fun s =>
  if s.br.cnt = 0 then (do fetchByte p; takeBit : Cmd Bool) s else takeBit s

/-- `get_bits(n)` (rule R101). -/
def getBits (p : Config.Params) (n : Nat) : Cmd Word := collectBits (getBit p) n 0

/-- `get_align()` (rule R101). -/
def getAlign : Cmd Unit := modify fun s => { s with br := { s.br with cnt := 0 } }

/-! ## Writer commands -/

def bwBit (p : Config.Params) (b : Bool) : Cmd Unit := putBit p b

/-- `BW_BIT b` (rule R102). -/
def execBwBit (b : Bool) (s : State) : Host.Outcome State Fault Refusal :=
  runCommand [] (bwBit Config.params b) s

def bwBits (p : Config.Params) (n : BitVec 8) : Cmd Unit := do
  checkCount n
  let s ← get
  putBits p s.arg n.toNat

/-- `BW_BITS n` (rule R103). -/
def execBwBits (n : BitVec 8) (s : State) : Host.Outcome State Fault Refusal :=
  runCommand [] (bwBits Config.params n) s

def bwAlign (p : Config.Params) : Cmd Unit := putAlign p

/-- `BW_ALIGN` (rule R104). -/
def execBwAlign (s : State) : Host.Outcome State Fault Refusal :=
  runCommand [] (bwAlign Config.params) s

/-! ## Reader commands -/

def brBit (p : Config.Params) : Cmd Unit := do
  let b ← getBit p
  setRes (bitWord b)

/-- `BR_BIT` (rule R105). -/
def execBrBit (s : State) : Host.Outcome State Fault Refusal :=
  runCommand [] (brBit Config.params) s

def brBits (p : Config.Params) (n : BitVec 8) : Cmd Unit := do
  checkCount n
  let v ← getBits p n.toNat
  setRes v

/-- `BR_BITS n` (rule R106). -/
def execBrBits (n : BitVec 8) (s : State) : Host.Outcome State Fault Refusal :=
  runCommand [] (brBits Config.params n) s

/-- `BR_ALIGN` (rule R107). -/
def execBrAlign (s : State) : Host.Outcome State Fault Refusal :=
  runCommand [] getAlign s

end Sys2Proof.Machine
end

