-- ==== Sys2Proof/Machine/ProbabilityModel.lean ====
section
/-! DEFINITION. Probability models (file 41): the two updates, the derived table functions, and three commands. -/

namespace Sys2Proof.Machine

open Sys2Proof

/-- `RANGE_Q(r) = (r >> 6) & 3` (rule R132). -/
def rangeQ (r : BitVec 9) : BitVec 2 := r.extractLsb' 6 2

/-- `RENORM_SHIFT(w) = 9 - bitlength(w)` (rule R127). -/
def renormShift (w : BitVec 8) : Nat := 9 - bitLength w.toNat

/-- `update_mps` on a model (rule R121). -/
def mpsNext (p : Config.Params) (x : Model) : Model := { x with state := p.nextMps x.state }

/-- `update_lps` on a model, for both values of `LPS_FLIP` (rule R122). -/
def lpsNext (p : Config.Params) (x : Model) : Model :=
  match p.lpsFlip with
  | .after =>
    { state := p.nextLps x.state, mps := if p.nextLps x.state = 0 then !x.mps else x.mps }
  | .before =>
    { state := p.nextLps x.state, mps := if x.state = 0 then !x.mps else x.mps }

/-- `update_mps(m)` (rule R121). -/
def updateMps (p : Config.Params) (m : Fin 15) : Cmd Unit :=
  modify fun s => withModel s m (mpsNext p (modelAt s m))

/-- `update_lps(m)` (rule R122). -/
def updateLps (p : Config.Params) (m : Fin 15) : Cmd Unit :=
  modify fun s => withModel s m (lpsNext p (modelAt s m))

def pmMps (p : Config.Params) (sel : Selector) : Cmd Unit := do
  let s ← get
  updateMps p (resolve sel s)

/-- `PM_MPS M` (rule R123). -/
def execPmMps (m : Selector) (s : State) : Host.Outcome State Fault Refusal :=
  runCommand [] (pmMps Config.params m) s

def pmLps (p : Config.Params) (sel : Selector) : Cmd Unit := do
  let s ← get
  updateLps p (resolve sel s)

/-- `PM_LPS M` (rule R124). -/
def execPmLps (m : Selector) (s : State) : Host.Outcome State Fault Refusal :=
  runCommand [] (pmLps Config.params m) s

/-- `EST_BITS(state, b != mps)` of a model (rule R125). -/
def estimate (p : Config.Params) (x : Model) (b : Bool) : Word := p.estBits x.state (b != x.mps)

def pmEst (p : Config.Params) (sel : Selector) (b : Bool) : Cmd Unit := do
  let s ← get
  setRes (estimate p (modelAt s (resolve sel s)) b)

/-- `PM_EST M, b` (rule R125). -/
def execPmEst (m : Selector) (b : Bool) (s : State) : Host.Outcome State Fault Refusal :=
  runCommand [] (pmEst Config.params m b) s

end Sys2Proof.Machine
end

