-- ==== Sys2Proof/Machine/ArithDecoder.lean ====
section
/-! DEFINITION. The arithmetic decoder (file 43): pulls, bins, the termination check, and five commands. `AD_PAT` is
computed modulo 2^32 (rule R176 (c)); the other registers modulo their width (log 16). -/

namespace Sys2Proof.Machine

open Sys2Proof

/-- `range << 7` as a 32-bit number. -/
def scaledRange (rng : BitVec 9) : Word := rng.setWidth 32 <<< 7

/-- `ad_pull_at_zero()` (rule R175); also the pull of a bypass bin (rule R172). -/
def pullAtZero (p : Config.Params) : Cmd Unit := fun s =>
  if s.ad.need = 0 then
    (do
      let byte ← getBits p 8
      modify fun t => { t with ad := { t.ad with pat := t.ad.pat + byte } } : Cmd Unit)
      { s with ad := { s.ad with need := Config.needInit } }
  else .ok () s

/-- `ad_pull_nonneg()` (rule R175). -/
def pullNonneg (p : Config.Params) : Cmd Unit := fun s =>
  if 0 ≤ s.ad.need.toInt then
    (do
      let byte ← getBits p 8
      modify fun t =>
        { t with ad := { t.ad with pat := t.ad.pat + (byte <<< t.ad.need.toInt.toNat), need := t.ad.need - 8 } } :
      Cmd Unit) s
  else .ok () s

/-- The width `w` of the LPS part (rule R171). -/
def decodeWidth (p : Config.Params) (s : State) (m : Fin 15) : BitVec 8 :=
  p.lpsWidth (modelAt s m).state (rangeQ s.ad.rng)

/-- The MPS branch's registers when the range needs a shift (rule R171). -/
def decodeMpsShift (d : Decoder) (mpsWidth : BitVec 9) : Decoder :=
  { pat := d.pat <<< 1, rng := mpsWidth <<< 1, need := d.need + 1 }

/-- The LPS branch's registers (rule R171). -/
def decodeLps (d : Decoder) (mpsWidth : BitVec 9) (w : BitVec 8) : Decoder :=
  let n := renormShift w
  { pat := (d.pat - scaledRange mpsWidth) <<< n, rng := w.setWidth 9 <<< n, need := d.need + BitVec.ofNat 8 n }

/-- `AD_BIT(m)` on a resolved model (rule R171). -/
def decodeBit (p : Config.Params) (m : Fin 15) : Cmd Bool := fun s =>
  let w := decodeWidth p s m
  let mpsWidth := s.ad.rng - w.setWidth 9
  let mps := (modelAt s m).mps
  if s.ad.pat.toNat < (scaledRange mpsWidth).toNat then
    if mpsWidth.toNat < 256 then
      (do pullAtZero p; updateMps p m; pure mps : Cmd Bool) { s with ad := decodeMpsShift s.ad mpsWidth }
    else (do updateMps p m; pure mps : Cmd Bool) { s with ad := { s.ad with rng := mpsWidth } }
  else
    (do pullNonneg p; updateLps p m; pure (!mps) : Cmd Bool) { s with ad := decodeLps s.ad mpsWidth w }

/-- The comparison of a bypass bin, after its shift and pull (rule R172). -/
def compareBypass : Cmd Bool := fun s =>
  if (scaledRange s.ad.rng).toNat ≤ s.ad.pat.toNat then
    .ok true { s with ad := { s.ad with pat := s.ad.pat - scaledRange s.ad.rng } }
  else .ok false s

/-- `if AD_NEED >= 0`: the pull of a bypass bin (rule R172). -/
def pullBypass (p : Config.Params) : Cmd Unit := fun s =>
  if 0 ≤ s.ad.need.toInt then
    (do
      let byte ← getBits p 8
      modify fun t => { t with ad := { t.ad with pat := t.ad.pat + byte } } : Cmd Unit)
      { s with ad := { s.ad with need := Config.needInit } }
  else .ok () s

/-- `AD_BYP()` (rule R172). -/
def decodeBypass (p : Config.Params) : Cmd Bool := do
  modify fun s => { s with ad := { s.ad with pat := s.ad.pat <<< 1, need := s.ad.need + 1 } }
  pullBypass p
  compareBypass

/-! ## Commands -/

def adStart (p : Config.Params) : Cmd Unit := do
  getAlign
  let pat ← getBits p Config.patInitBits
  modify fun s =>
    { s with
      ad := { pat := pat, rng := Config.rangeInit, need := Config.needInit },
      status := { s.status with decOpen := true } }

/-- `AD_START` (rule R170). -/
def execAdStart (s : State) : Host.Outcome State Fault Refusal :=
  runCommand [] (adStart Config.params) s

def adBit (p : Config.Params) (sel : Selector) : Cmd Unit := do
  let s ← get
  let b ← decodeBit p (resolve sel s)
  setRes (bitWord b)

/-- `AD_BIT M` (rule R171). -/
def execAdBit (m : Selector) (s : State) : Host.Outcome State Fault Refusal :=
  runCommand [] (adBit Config.params m) s

def adByp (p : Config.Params) : Cmd Unit := do
  let b ← decodeBypass p
  setRes (bitWord b)

/-- `AD_BYP` (rule R172). -/
def execAdByp (s : State) : Host.Outcome State Fault Refusal :=
  runCommand [] (adByp Config.params) s

def adByps (p : Config.Params) (n : BitVec 8) : Cmd Unit := do
  checkCount n
  let v ← collectBits (decodeBypass p) n.toNat 0
  setRes v

/-- `AD_BYPS n` (rule R173). -/
def execAdByps (n : BitVec 8) (s : State) : Host.Outcome State Fault Refusal :=
  runCommand [] (adByps Config.params n) s

/-- The termination check (rule R174): pass when the code word lies in the top 2 of the interval. -/
def adTerm : Cmd Unit := fun s =>
  let rng := s.ad.rng - 2
  if (scaledRange rng).toNat ≤ s.ad.pat.toNat then
    .ok () { s with ad := { s.ad with rng := rng }, status := { s.status with decOpen := false } }
  else .error (.fault .streamCorrupt) { s with ad := { s.ad with rng := rng } }

/-- `AD_TERM` (rule R174). -/
def execAdTerm (s : State) : Host.Outcome State Fault Refusal := runCommand [] adTerm s

end Sys2Proof.Machine
end

