-- ==== Sys2Proof/Machine/ArithEncoder.lean ====
section
/-! DEFINITION. The arithmetic encoder (file 42): moving bytes out, bins, termination, and six commands. Register
arithmetic is modulo the register's width, which rule R21 shows is never felt from reset (log 16). -/

namespace Sys2Proof.Machine

open Sys2Proof

/-- `AE_DEBT` as the number it stands for (rule R20). -/
def debtOf (e : Encoder) : Int := e.debt.toInt

/-! ## Moving bytes out (rules R141, R142, R148) -/

/-- `lead`, and the encoder's registers once it is taken out of `AE_LOW` (rule R142). -/
def leadOf (e : Encoder) : Nat := e.low.toNat / 2 ^ (24 - debtOf e).toNat

/-- `AE_DEBT <- AE_DEBT + 8`, and `AE_LOW` keeps its low `32 - AE_DEBT` bits (rule R142). -/
def dropLead (e : Encoder) : Encoder :=
  let debt := e.debt + 8
  { e with debt := debt, low := e.low &&& (0xFFFFFFFF#32 >>> debt.toInt.toNat) }

/-- `while AE_RUN > 1: put_bits(fill, 8); AE_RUN <- AE_RUN - 1`, `k` turns (rules R142, R148). -/
def drainRun (p : Config.Params) (fill : Byte) : Nat → Cmd Unit
  | 0 => pure ()
  | k + 1 => do
    putByte p fill
    modify fun s => { s with ae := { s.ae with run := s.ae.run - 1 } }
    drainRun p fill k

/-- The turns of that loop from a run counter: `AE_RUN - 1`, none from 0. -/
def drainTurns (run : Word) : Nat := run.toNat - 1

/-- `ae_write_out()` once the lead byte is out of `AE_LOW` (rule R142). -/
def placeLead (p : Config.Params) (lead : Nat) : Cmd Unit := fun s =>
  if lead = 0xFF then .ok () { s with ae := { s.ae with run := s.ae.run + 1 } }
  else if 0 < s.ae.run.toNat then
    (do
      let carry := lead / 256
      putByte p (BitVec.ofNat 8 (s.ae.buf.toNat + carry))
      modify fun s => { s with ae := { s.ae with buf := BitVec.ofNat 8 lead } }
      drainRun p (BitVec.ofNat 8 (0xFF + carry)) (drainTurns s.ae.run) : Cmd Unit) s
  else .ok () { s with ae := { s.ae with run := 1, buf := BitVec.ofNat 8 lead } }

/-- `ae_write_out()` (rule R142). -/
def aeWriteOut (p : Config.Params) : Cmd Unit := fun s =>
  placeLead p (leadOf s.ae) { s with ae := dropLead s.ae }

/-- `ae_flush()` (rule R141). -/
def aeFlush (p : Config.Params) : Cmd Unit := fun s =>
  if debtOf s.ae < Config.flushT then aeWriteOut p s else .ok () s

/-- `AE_LOW`'s carry bit, `AE_LOW >> (32 - AE_DEBT)` (rule R148). -/
def carryOf (e : Encoder) : Nat := e.low.toNat / 2 ^ (32 - debtOf e).toNat

/-- The held-back bytes of `ae_finish()` (rule R148). -/
def finishHeld (p : Config.Params) : Cmd Unit := fun s =>
  if carryOf s.ae ≠ 0 then
    (do
      putByte p (s.ae.buf + 1)
      drainRun p 0x00 (drainTurns s.ae.run)
      modify fun s =>
        { s with ae := { s.ae with low := s.ae.low - BitVec.ofNat 32 (2 ^ (32 - debtOf s.ae).toNat) } } : Cmd Unit) s
  else
    (do
      whenCmd (decide (0 < s.ae.run.toNat)) (putByte p s.ae.buf)
      drainRun p 0xFF (drainTurns s.ae.run) : Cmd Unit) s

/-- `ae_finish()` (rule R148). -/
def aeFinish (p : Config.Params) : Cmd Unit := do
  finishHeld p
  let s ← get
  putBits p (s.ae.low >>> 8) (24 - debtOf s.ae).toNat

/-! ## Bins (rules R143, R145) -/

/-- The LPS branch's registers: the upper part of width `w`, shifted by `n` (rule R143). -/
def encodeLps (e : Encoder) (w : BitVec 8) : Encoder :=
  let n := renormShift w
  let mpsWidth := e.rng - w.setWidth 9
  { e with
    low := (e.low + mpsWidth.setWidth 32) <<< n,
    rng := w.setWidth 9 <<< n,
    debt := e.debt - BitVec.ofNat 8 n }

/-- The MPS branch's registers when the range needs a shift (rule R143). -/
def encodeMpsShift (e : Encoder) (w : BitVec 8) : Encoder :=
  { e with low := e.low <<< 1, rng := (e.rng - w.setWidth 9) <<< 1, debt := e.debt - 1 }

/-- The width `w` of the LPS part in state `s` of model `m` (rule R143). -/
def encodeWidth (p : Config.Params) (s : State) (m : Fin 15) : BitVec 8 :=
  p.lpsWidth (modelAt s m).state (rangeQ s.ae.rng)

/-- `AE_BIT(m, b)` on a resolved model (rule R143). -/
def encodeBit (p : Config.Params) (m : Fin 15) (b : Bool) : Cmd Unit := fun s =>
  let w := encodeWidth p s m
  if b != (modelAt s m).mps then
    (do aeFlush p; updateLps p m : Cmd Unit) { s with ae := encodeLps s.ae w }
  else if (s.ae.rng - w.setWidth 9).toNat < 256 then
    (do aeFlush p; updateMps p m : Cmd Unit) { s with ae := encodeMpsShift s.ae w }
  else updateMps p m { s with ae := { s.ae with rng := s.ae.rng - w.setWidth 9 } }

/-- The bypass bin's registers (rule R145). -/
def encodeBypassRegs (e : Encoder) (b : Bool) : Encoder :=
  { e with low := (e.low <<< 1) + (if b then e.rng.setWidth 32 else 0), debt := e.debt - 1 }

/-- `AE_BYP(b)` (rule R145). -/
def encodeBypass (p : Config.Params) (b : Bool) : Cmd Unit := fun s =>
  aeFlush p { s with ae := encodeBypassRegs s.ae b }

/-! ## Commands -/

def aeStart (p : Config.Params) : Cmd Unit := do
  putAlign p
  modify fun s =>
    { s with
      ae := { low := 0, rng := Config.rangeInit, buf := 0xFF, run := 0, debt := Config.debtInit },
      status := { s.status with encOpen := true } }

/-- `AE_START` (rule R140). -/
def execAeStart (s : State) : Host.Outcome State Fault Refusal :=
  runCommand [] (aeStart Config.params) s

def aeBit (p : Config.Params) (sel : Selector) (b : Bool) : Cmd Unit := do
  let s ← get
  encodeBit p (resolve sel s) b

/-- `AE_BIT M, b` (rule R143). -/
def execAeBit (m : Selector) (b : Bool) (s : State) : Host.Outcome State Fault Refusal :=
  runCommand [] (aeBit Config.params m b) s

def aeBits (p : Config.Params) (sel : Selector) (n : BitVec 8) : Cmd Unit := do
  checkCount n
  let s ← get
  forBits (encodeBit p (resolve sel s)) s.arg n.toNat

/-- `AE_BITS M, n` (rule R144). -/
def execAeBits (m : Selector) (n : BitVec 8) (s : State) : Host.Outcome State Fault Refusal :=
  runCommand [] (aeBits Config.params m n) s

def aeByp (p : Config.Params) (b : Bool) : Cmd Unit := encodeBypass p b

/-- `AE_BYP b` (rule R145). -/
def execAeByp (b : Bool) (s : State) : Host.Outcome State Fault Refusal :=
  runCommand [] (aeByp Config.params b) s

def aeByps (p : Config.Params) (n : BitVec 8) : Cmd Unit := do
  checkCount n
  let s ← get
  forBits (encodeBypass p) s.arg n.toNat

/-- `AE_BYPS n` (rule R146). -/
def execAeByps (n : BitVec 8) (s : State) : Host.Outcome State Fault Refusal :=
  runCommand [] (aeByps Config.params n) s

/-- The terminating sub-interval: the top 2 of the interval, shifted by 7 (rule R147). -/
def terminateRegs (e : Encoder) : Encoder :=
  let rng := e.rng - 2
  { e with low := (e.low + rng.setWidth 32) <<< 7, rng := 2 <<< 7, debt := e.debt - 7 }

def aeTerm (p : Config.Params) : Cmd Unit := do
  modify fun s => { s with ae := terminateRegs s.ae }
  aeFlush p
  aeFinish p
  putBit p true
  putAlign p
  modify fun s => { s with status := { s.status with encOpen := false } }

/-- `AE_TERM` (rule R147). -/
def execAeTerm (s : State) : Host.Outcome State Fault Refusal :=
  runCommand [] (aeTerm Config.params) s

end Sys2Proof.Machine
end

