-- ==== Sys2Proof/Machine/BlockPath.lean ====
section
/-! DEFINITION. The block data path (file 47): residual, quantizer, dequantizer, reconstruction, scan, distortion. -/

namespace Sys2Proof.Machine

open Sys2Proof

/-! ## Residual -/

/-- `ORIG[i] - PREDB[i]` as an s32 (rule R250). -/
def residual (o q : Byte) : Word := o.setWidth 32 - q.setWidth 32

def resid (h : PartSize) : Cmd Unit := do
  let n ← cfgN h
  let os ← readBytes .orig State.orig (n * n)
  let ps ← readBytes .predb State.predb (n * n)
  modify fun s => { s with resd := cellsFill s.resd (List.zipWith residual os ps) }

/-- `RESID h` (rule R250). -/
def execResid (h : PartSize) (s : State) : Host.Outcome State Fault Refusal := runCommand [.resd] (resid h) s

/-! ## Quantizer and dequantizer -/

/-- `CFG_QP > 31` is refused (rule R251). -/
def checkQp : Cmd Unit := fun s =>
  if Config.qpMax < s.cfg.qp.toNat then .error (.fault .configError) s else .ok () s

/-- Whether an index is outside s32's symmetric range (rule R252). -/
def indexTooLarge (q : Int) : Bool := 2 ^ 31 - 1 < q.natAbs

def quant (p : Config.Params) (h : PartSize) : Cmd Unit := do
  let n ← cfgN h
  checkQp
  let ys ← readReals .coef State.coef n
  let s ← get
  let qs := ys.map fun y => p.num.quant y (p.num.step s.cfg.qp.toNat)
  if qs.any indexTooLarge then raise .operandRange
  else modify fun s => { s with qidx := cellsFill s.qidx (qs.map (BitVec.ofInt 32)) }

/-- `QUANT h` (rule R252). -/
def execQuant (h : PartSize) (s : State) : Host.Outcome State Fault Refusal :=
  runCommand [.qidx] (quant Config.params h) s

def deq (p : Config.Params) (h : PartSize) : Cmd Unit := do
  let n ← cfgN h
  checkQp
  let qs ← readWords .qidx State.qidx (n * n)
  modify fun s =>
    { s with dcoef := some { n := n, elems := qs.map fun q => p.num.deq q.toInt (p.num.step s.cfg.qp.toNat) } }

/-- `DEQ h` (rule R253). -/
def execDeq (h : PartSize) (s : State) : Host.Outcome State Fault Refusal :=
  runCommand [.dcoef] (deq Config.params h) s

/-! ## Reconstruction -/

/-- `clip(x, 0, 255)` as a sample (rule R254). -/
def clipSample (x : Int) : Byte := BitVec.ofInt 8 (min (max x 0) 255)

def recon (p : Config.Params) (h : PartSize) : Cmd Unit := do
  let n ← cfgN h
  let ps ← readBytes .predb State.predb (n * n)
  let xs ← readReals .rres State.rres n
  modify fun s =>
    { s with recb := cellsFill s.recb (List.zipWith (fun q x => clipSample ((q.toNat : Int) + p.num.round x)) ps xs) }

/-- `RECON h` (rule R254). -/
def execRecon (h : PartSize) (s : State) : Host.Outcome State Fault Refusal :=
  runCommand [.recb] (recon Config.params h) s

/-! ## Scan order -/

/-- The raster index that scan index `i` stands for, for every `i` in order (rules R255, R256): `SCAN[i]` is
`QIDX[scanSource[i]]`. -/
def scanSource (pm : PredMode) (n : Nat) : List Nat :=
  match pm with
  | .dc | .planar => (diagScan n).map fun p => p.1 * n + p.2
  | .horizontal => grid n fun r c => c * n + r
  | .vertical => List.range (n * n)

/-- The scan-ordered list of a raster list (rule R256). -/
def scanForward (pm : PredMode) (n : Nat) (qs : List Word) : List Word :=
  (scanSource pm n).map fun i => qs.getD i 0

/-- The raster list of a scan-ordered list (rule R257): raster index `j` receives `SCAN[i]` for the one `i` whose source
is `j`. -/
def scanInverse (pm : PredMode) (n : Nat) (xs : List Word) : List Word :=
  (List.range (n * n)).map fun j => xs.getD ((scanSource pm n).idxOf j) 0

def scanf (pm : PredMode) (h : PartSize) : Cmd Unit := do
  let n ← cfgN h
  let qs ← readWords .qidx State.qidx (n * n)
  modify fun s => { s with scan := cellsFill s.scan (scanForward pm n qs) }

/-- `SCANF pm, h` (rule R256). -/
def execScanf (pm : PredMode) (h : PartSize) (s : State) : Host.Outcome State Fault Refusal :=
  runCommand [.scan] (scanf pm h) s

def scani (pm : PredMode) (h : PartSize) : Cmd Unit := do
  let n ← cfgN h
  let xs ← readWords .scan State.scan (n * n)
  modify fun s => { s with qidx := cellsFill s.qidx (scanInverse pm n xs) }

/-- `SCANI pm, h` (rule R257). -/
def execScani (pm : PredMode) (h : PartSize) (s : State) : Host.Outcome State Fault Refusal :=
  runCommand [.qidx] (scani pm h) s

/-! ## Distortion -/

/-- The squared difference of two samples (rule R270). -/
def squaredError (o r : Byte) : Nat := (((o.toNat : Int) - r.toNat) ^ 2).toNat

def dist (h : PartSize) : Cmd Unit := do
  let n ← cfgN h
  let os ← readBytes .orig State.orig (n * n)
  let rs ← readBytes .recb State.recb (n * n)
  setRes (BitVec.ofNat 32 (List.zipWith squaredError os rs).sum)

/-- `DIST h` (rule R270). -/
def execDist (h : PartSize) (s : State) : Host.Outcome State Fault Refusal := runCommand [] (dist h) s

end Sys2Proof.Machine
end

