-- ==== Sys2Proof/Machine/ExpGolomb.lean ====
section
/-! DEFINITION. Exp-Golomb and context selection (file 44): four commands. -/

namespace Sys2Proof.Machine

open Sys2Proof

/-- `class_index`: `bitlength(v + 1) - 1` (rule R190). -/
def classIndex (v : Nat) : Nat := bitLength (v + 1) - 1

/-- `AE_EG` of a value on a resolved model (rule R191); the value's range has been checked. -/
def encodeEg (p : Config.Params) (m : Fin 15) (v : Nat) : Cmd Unit := do
  repeatCmd (encodeBit p m false) (classIndex v)
  encodeBit p m true
  forBits (encodeBypass p) (BitVec.ofNat 32 (v + 1)) (classIndex v)

/-- The prefix of `AD_EG` (rule R192) with `left` zeros still allowed: the number of zeros read in all when 32 were
allowed at the start; the 32nd zero is `SyntaxRange` (rule R193). -/
def decodePrefix (p : Config.Params) (m : Fin 15) : Nat → Cmd Nat
  | 0 => raise .syntaxRange
  | left + 1 => do
    let b ← decodeBit p m
    if b then pure (31 - left) else decodePrefix p m left

/-- `AD_EG` on a resolved model (rule R192). -/
def decodeEg (p : Config.Params) (m : Fin 15) : Cmd Nat := do
  let k ← decodePrefix p m 32
  let suffix ← collectBits (decodeBypass p) k 0
  pure (2 ^ k + suffix.toNat - 1)

/-! ## Commands -/

/-- `v = 2^32 - 1` is out of range (rule R193). -/
def checkEgValue : Cmd Unit := fun s =>
  if s.arg = 0xFFFFFFFF then .error (.fault .operandRange) s else .ok () s

def aeEg (p : Config.Params) (sel : Selector) : Cmd Unit := do
  checkEgValue
  let s ← get
  encodeEg p (resolve sel s) s.arg.toNat

/-- `AE_EG M` (rule R191). -/
def execAeEg (m : Selector) (s : State) : Host.Outcome State Fault Refusal :=
  runCommand [] (aeEg Config.params m) s

/-- The cost of an Exp-Golomb code at a model's present state, modulo 2^32 (rule R196). -/
def egCost (p : Config.Params) (x : Model) (v : Nat) : Word :=
  BitVec.ofNat 32
    (classIndex v * (estimate p x false).toNat + (estimate p x true).toNat + classIndex v * p.estBypass.toNat)

def aeEgest (p : Config.Params) (sel : Selector) : Cmd Unit := do
  checkEgValue
  let s ← get
  setRes (egCost p (modelAt s (resolve sel s)) s.arg.toNat)

/-- `AE_EGEST M` (rule R196). -/
def execAeEgest (m : Selector) (s : State) : Host.Outcome State Fault Refusal :=
  runCommand [] (aeEgest Config.params m) s

def adEg (p : Config.Params) (sel : Selector) : Cmd Unit := do
  let s ← get
  let v ← decodeEg p (resolve sel s)
  setRes (BitVec.ofNat 32 v)

/-- `AD_EG M` (rule R192). -/
def execAdEg (m : Selector) (s : State) : Host.Outcome State Fault Refusal :=
  runCommand [] (adEg Config.params m) s

def ctxSw (h : PartSize) : Cmd Unit := do
  let n ← cfgN h
  let s ← get
  if n * n ≤ s.arg.toNat then raise .operandRange else switchContext n s.arg.toNat

/-- `CTX_SW h` (rule R200). -/
def execCtxSw (h : PartSize) (s : State) : Host.Outcome State Fault Refusal := runCommand [] (ctxSw h) s

end Sys2Proof.Machine
end

