-- ==== Sys2Proof/Machine/Predictor.lean ====
section
/-! DEFINITION. The intra predictor (file 46): borders, four predictors, one command. -/

namespace Sys2Proof.Machine

open Sys2Proof

/-- Round `a / b` to nearest, ties to even (rules R5, R231). -/
def roundDiv (a b : Nat) : Nat :=
  let q := a / b
  let r := a % b
  if 2 * r < b then q else if b < 2 * r then q + 1 else if q % 2 = 0 then q else q + 1

/-- An effective border (rule R230): the host's samples when flagged available, else `n` times 128, unread. -/
def border (available : Bool) (name : BufName) (get : State → Cells Byte) (n : Nat) : Cmd (List Nat) := do
  if available then
    let xs ← readBytes name get n
    pure (xs.map BitVec.toNat)
  else pure (List.replicate n Config.borderDefault)

/-- The DC value (rule R231). -/
def dcValue (n : Nat) (availTop availLeft : Bool) (t l : List Nat) : Nat :=
  match availTop, availLeft with
  | true, true => roundDiv (t.sum + l.sum) (2 * n)
  | true, false => roundDiv t.sum n
  | false, true => roundDiv l.sum n
  | false, false => Config.borderDefault

/-- The planar sample at `(r, c)` (rule R234). -/
def planarValue (n : Nat) (t l : List Nat) (r c : Nat) : Nat :=
  ((n - 1 - c) * l.getD r 0 + (c + 1) * t.getD (n - 1) 0 + (n - 1 - r) * t.getD c 0 + (r + 1) * l.getD (n - 1) 0 +
    Config.planarRnd) / (2 * n)

/-- The predicted sample at `(r, c)` (rules R231 to R234). -/
def predValue (pm : PredMode) (n : Nat) (availTop availLeft : Bool) (t l : List Nat) (r c : Nat) : Nat :=
  match pm with
  | .dc => dcValue n availTop availLeft t l
  | .vertical => t.getD c 0
  | .horizontal => l.getD r 0
  | .planar => planarValue n t l r c

def pred (pm : PredMode) (h : PartSize) : Cmd Unit := do
  let n ← cfgN h
  let s ← get
  let t ← border s.cfg.availTop .top State.top n
  let l ← border s.cfg.availLeft .left State.left n
  modify fun s =>
    { s with
      predb := cellsFill s.predb
        (grid n fun r c => BitVec.ofNat 8 (predValue pm n s.cfg.availTop s.cfg.availLeft t l r c)) }

/-- `PRED pm, h` (rule R235). -/
def execPred (pm : PredMode) (h : PartSize) (s : State) : Host.Outcome State Fault Refusal :=
  runCommand [.predb] (pred pm h) s

end Sys2Proof.Machine
end

