-- ==== Sys2Proof/Machine/StreamSyntax.lean ====
section
/-! DEFINITION. The stream syntax (file 48): header, partition bit, prediction mode, coefficients. -/

namespace Sys2Proof.Machine

open Sys2Proof

/-! ## Header (rules R280 to R282) -/

def hdrWr (p : Config.Params) : Cmd Unit := do
  let s ← get
  putBits p (s.cfg.h.setWidth 32) 16
  putBits p (s.cfg.w.setWidth 32) 16
  putBits p (s.cfg.bs.setWidth 32) 16
  putBits p (s.cfg.qp.setWidth 32) 8

/-- `HDR_WR` (rule R281). -/
def execHdrWr (s : State) : Host.Outcome State Fault Refusal := runCommand [] (hdrWr Config.params) s

def hdrRd (p : Config.Params) : Cmd Unit := do
  let h ← getBits p 16
  let w ← getBits p 16
  let bs ← getBits p 16
  let qp ← getBits p 8
  if Config.qpMax < qp.toNat then raise .configError
  else
    modify fun s =>
      { s with
        cfg := { s.cfg with h := h.setWidth 16, w := w.setWidth 16, bs := bs.setWidth 16, qp := qp.setWidth 8 } }

/-- `HDR_RD` (rule R282). -/
def execHdrRd (s : State) : Host.Outcome State Fault Refusal := runCommand [] (hdrRd Config.params) s

/-! ## Partition-mode bit -/

def encPart (p : Config.Params) (b : Bool) : Cmd Unit := encodeBit p modelPart b

/-- `ENC_PART b` (rule R284). -/
def execEncPart (b : Bool) (s : State) : Host.Outcome State Fault Refusal :=
  runCommand [] (encPart Config.params b) s

def decPart (p : Config.Params) : Cmd Unit := do
  let b ← decodeBit p modelPart
  setRes (bitWord b)

/-- `DEC_PART` (rule R285). -/
def execDecPart (s : State) : Host.Outcome State Fault Refusal := runCommand [] (decPart Config.params) s

/-! ## Prediction mode (rule R286) -/

def encPmode (p : Config.Params) : PredMode → Cmd Unit
  | .planar => encodeBit p modelPmode0 true
  | .dc => do
    encodeBit p modelPmode0 false
    encodeBit p modelPmode1 true
  | .horizontal => do
    encodeBit p modelPmode0 false
    encodeBit p modelPmode1 false
    encodeBit p modelPmode2 true
  | .vertical => do
    encodeBit p modelPmode0 false
    encodeBit p modelPmode1 false
    encodeBit p modelPmode2 false

/-- `ENC_PMODE pm` (rule R287). -/
def execEncPmode (pm : PredMode) (s : State) : Host.Outcome State Fault Refusal :=
  runCommand [] (encPmode Config.params pm) s

def decPmode (p : Config.Params) : Cmd Unit := do
  let b1 ← decodeBit p modelPmode0
  if b1 then setRes 3
  else
    let b2 ← decodeBit p modelPmode1
    if b2 then setRes 0
    else
      let b3 ← decodeBit p modelPmode2
      if b3 then setRes 2 else setRes 1

/-- `DEC_PMODE` (rule R288). -/
def execDecPmode (s : State) : Host.Outcome State Fault Refusal := runCommand [] (decPmode Config.params) s

/-! ## Coefficients, encode side (rules R289, R290) -/

/-- The largest index with a non-zero value; 0 when there is none (rule R290). -/
def lastNonzero (xs : List Word) : Nat :=
  xs.zipIdx.foldl (fun last x => if x.1 = 0 then last else x.2) 0

/-- `gt1`, `lvl` and `sgn` of one non-zero coefficient (rules R289, R290). -/
def encodeLevel (p : Config.Params) (bucket : Fin 3) (c : Int) : Cmd Unit := do
  let a := c.natAbs
  encodeBit p (activeGt1 bucket) (decide (1 < a))
  whenCmd (decide (1 < a)) (encodeEg p (activeLvl bucket) (a - 2))
  encodeBypass p (decide (c < 0))

/-- One coefficient: `switch_context(i)`, `sig` unless it is the last, then its level when it is not zero
(rules R289, R290). -/
def encodeCoefficient (p : Config.Params) (n last i : Nat) (c : Int) : Cmd Unit := do
  switchContext n i
  whenCmd (decide (i ≠ last)) (encodeBit p (activeSig (bucketAt n i)) (decide (c ≠ 0)))
  whenCmd (decide (c ≠ 0)) (encodeLevel p (bucketAt n i) c)

/-- `for i = k-1 downto 0` (rule R290). -/
def encodeCoefficients (p : Config.Params) (n : Nat) (xs : List Word) (last : Nat) : Nat → Cmd Unit
  | 0 => pure ()
  | i + 1 => do
    encodeCoefficient p n last i (xs.getD i 0).toInt
    encodeCoefficients p n xs last i

def encCoef (p : Config.Params) (h : PartSize) : Cmd Unit := do
  let n ← cfgN h
  let xs ← readWords .scan State.scan (n * n)
  if xs.any (· == 0x80000000) then raise .operandRange
  else if xs.all (· == 0) then do
    encodeBit p modelCbf false
    setRes 0
  else do
    encodeBit p modelCbf true
    encodeEg p modelLast (lastNonzero xs)
    encodeCoefficients p n xs (lastNonzero xs) (lastNonzero xs + 1)
    setRes 1

/-- `ENC_COEF h` (rule R290). -/
def execEncCoef (h : PartSize) (s : State) : Host.Outcome State Fault Refusal :=
  runCommand [] (encCoef Config.params h) s

/-! ## Coefficients, decode side (rule R291) -/

/-- The magnitude of one significant coefficient (rule R291). -/
def decodeMagnitude (p : Config.Params) (bucket : Fin 3) : Cmd Nat := do
  let g ← decodeBit p (activeGt1 bucket)
  if g then
    let v ← decodeEg p (activeLvl bucket)
    if 2 ^ 31 - 1 < 2 + v then raise .syntaxRange else pure (2 + v)
  else pure 1

/-- `SCAN[i] <- v`. -/
def setScan (i : Nat) (v : Word) : Cmd Unit := modify fun s => { s with scan := cellsWrite s.scan i v }

/-- Whether coefficient `i` is significant: the last one is, the others' signal flag says (rule R291). -/
def decodeSig (p : Config.Params) (n last i : Nat) : Cmd Bool :=
  if i = last then pure true else decodeBit p (activeSig (bucketAt n i))

/-- The level of one significant coefficient (rule R291). -/
def decodeLevel (p : Config.Params) (bucket : Fin 3) (i : Nat) : Cmd Unit := do
  let a ← decodeMagnitude p bucket
  let neg ← decodeBypass p
  setScan i (if neg then - BitVec.ofNat 32 a else BitVec.ofNat 32 a)

/-- One coefficient (rule R291). -/
def decodeCoefficient (p : Config.Params) (n last i : Nat) : Cmd Unit := do
  switchContext n i
  let sig ← decodeSig p n last i
  whenCmd sig (decodeLevel p (bucketAt n i) i)

/-- `for i = k-1 downto 0` (rule R291). -/
def decodeCoefficients (p : Config.Params) (n last : Nat) : Nat → Cmd Unit
  | 0 => pure ()
  | i + 1 => do
    decodeCoefficient p n last i
    decodeCoefficients p n last i

def decCoef (p : Config.Params) (h : PartSize) : Cmd Unit := do
  let n ← cfgN h
  modify fun s => { s with scan := cellsFill s.scan (List.replicate (n * n) 0) }
  let cbf ← decodeBit p modelCbf
  if cbf then
    let last ← decodeEg p modelLast
    if n * n ≤ last then raise .syntaxRange
    else do
      decodeCoefficients p n last (last + 1)
      setRes 1
  else setRes 0

/-- `DEC_COEF h` (rule R291). -/
def execDecCoef (h : PartSize) (s : State) : Host.Outcome State Fault Refusal :=
  runCommand [.scan] (decCoef Config.params h) s

end Sys2Proof.Machine
end

