-- ==== Sys2Proof/Machine/System.lean ====
section
/-! DEFINITION. System commands (file 49): NOP, SRESET, CTXINIT. -/

namespace Sys2Proof.Machine

open Sys2Proof

/-- `NOP` (rule R310). -/
def execNop (s : State) : Host.Outcome State Fault Refusal := runCommand [] (pure ()) s

/-- `SRESET` (rule R311): the only command accepted while a fault is pending. -/
def execSreset (s : State) : Host.Outcome State Fault Refusal := .next (resetRegisters s)

/-- The models at `PM_INIT` and `BUCKET` at 0 (rule R312). -/
def ctxinit : Cmd Unit := modify fun s => { s with pm := Vector.replicate 15 Model.init, bucket := 0 }

/-- `CTXINIT` (rule R312). -/
def execCtxinit (s : State) : Host.Outcome State Fault Refusal := runCommand [] ctxinit s

end Sys2Proof.Machine
end

