-- ==== Sys2Proof/Machine/Transform.lean ====
section
/-! DEFINITION. The transforms (file 45): axis selection and two commands. The arithmetic is `NUM` (rule R216). -/

namespace Sys2Proof.Machine

open Sys2Proof

/-- The pair `(A, B)` of a prediction mode: vertical axis, horizontal axis (rule R212). -/
def basisPair : PredMode → Config.Basis × Config.Basis
  | .dc => (.dct2, .dct2)
  | .vertical => (.dst7, .dct2)
  | .horizontal => (.dct2, .dst7)
  | .planar => (.dst7, .dst7)

def txf (p : Config.Params) (pm : PredMode) (h : PartSize) : Cmd Unit := do
  let n ← cfgN h
  let xs ← readWords .resd State.resd (n * n)
  let (a, b) := basisPair pm
  modify fun s =>
    { s with coef := some { n := n, elems := grid n (p.num.txf a b n (xs.map BitVec.toInt)) } }

/-- `TXF pm, h` (rule R213). -/
def execTxf (pm : PredMode) (h : PartSize) (s : State) : Host.Outcome State Fault Refusal :=
  runCommand [.coef] (txf Config.params pm h) s

def txi (p : Config.Params) (pm : PredMode) (h : PartSize) : Cmd Unit := do
  let n ← cfgN h
  let ys ← readReals .dcoef State.dcoef n
  let (a, b) := basisPair pm
  modify fun s => { s with rres := some { n := n, elems := grid n (p.num.txi a b n ys) } }

/-- `TXI pm, h` (rule R214). -/
def execTxi (pm : PredMode) (h : PartSize) (s : State) : Host.Outcome State Fault Refusal :=
  runCommand [.rres] (txi Config.params pm h) s

end Sys2Proof.Machine
end

