-- ==== Sys2Proof/Machine/Dispatch.lean ====
section
/-! DEFINITION. Each command's meaning: one arm per constructor of `Instr` (rule R87). -/

namespace Sys2Proof.Machine

open Sys2Proof

def exec (i : Instr) (s : State) : Host.Outcome State Fault Refusal :=
  match i with
  | .nop => Sys2Proof.Machine.execNop s
  | .sreset => Sys2Proof.Machine.execSreset s
  | .ctxinit => Sys2Proof.Machine.execCtxinit s
  | .bwBit b => Sys2Proof.Machine.execBwBit b s
  | .bwBits n => Sys2Proof.Machine.execBwBits n s
  | .bwAlign => Sys2Proof.Machine.execBwAlign s
  | .brBit => Sys2Proof.Machine.execBrBit s
  | .brBits n => Sys2Proof.Machine.execBrBits n s
  | .brAlign => Sys2Proof.Machine.execBrAlign s
  | .pmMps m => Sys2Proof.Machine.execPmMps m s
  | .pmLps m => Sys2Proof.Machine.execPmLps m s
  | .pmEst m b => Sys2Proof.Machine.execPmEst m b s
  | .aeStart => Sys2Proof.Machine.execAeStart s
  | .aeBit m b => Sys2Proof.Machine.execAeBit m b s
  | .aeBits m n => Sys2Proof.Machine.execAeBits m n s
  | .aeByp b => Sys2Proof.Machine.execAeByp b s
  | .aeByps n => Sys2Proof.Machine.execAeByps n s
  | .aeTerm => Sys2Proof.Machine.execAeTerm s
  | .aeEg m => Sys2Proof.Machine.execAeEg m s
  | .aeEgest m => Sys2Proof.Machine.execAeEgest m s
  | .adStart => Sys2Proof.Machine.execAdStart s
  | .adBit m => Sys2Proof.Machine.execAdBit m s
  | .adByp => Sys2Proof.Machine.execAdByp s
  | .adByps n => Sys2Proof.Machine.execAdByps n s
  | .adTerm => Sys2Proof.Machine.execAdTerm s
  | .adEg m => Sys2Proof.Machine.execAdEg m s
  | .ctxSw h => Sys2Proof.Machine.execCtxSw h s
  | .pred pm h => Sys2Proof.Machine.execPred pm h s
  | .resid h => Sys2Proof.Machine.execResid h s
  | .txf pm h => Sys2Proof.Machine.execTxf pm h s
  | .quant h => Sys2Proof.Machine.execQuant h s
  | .scanf pm h => Sys2Proof.Machine.execScanf pm h s
  | .scani pm h => Sys2Proof.Machine.execScani pm h s
  | .deq h => Sys2Proof.Machine.execDeq h s
  | .txi pm h => Sys2Proof.Machine.execTxi pm h s
  | .recon h => Sys2Proof.Machine.execRecon h s
  | .dist h => Sys2Proof.Machine.execDist h s
  | .hdrWr => Sys2Proof.Machine.execHdrWr s
  | .hdrRd => Sys2Proof.Machine.execHdrRd s
  | .encPart b => Sys2Proof.Machine.execEncPart b s
  | .decPart => Sys2Proof.Machine.execDecPart s
  | .encPmode pm => Sys2Proof.Machine.execEncPmode pm s
  | .decPmode => Sys2Proof.Machine.execDecPmode s
  | .encCoef h => Sys2Proof.Machine.execEncCoef h s
  | .decCoef h => Sys2Proof.Machine.execDecCoef h s

end Sys2Proof.Machine
end

