-- ==== Sys2Proof/Machine/HostMap.lean ====
section
/-! DEFINITION. The host register window (rule R55), what each place reads as (rules R13 to R27, R58) and what a host
write does to it (rules R14, R16, R27, R58). -/

namespace Sys2Proof.Machine

open Sys2Proof

/-- A place of the host window. -/
inductive HostReg
  | cmd | arg | res | status
  | cfgH | cfgW | cfgBs | cfgQp | predAvail | bucket
  | bwPtr | bwAcc | bwCnt
  | brPtr | brEnd | brBuf | brCnt
  | aeLow | aeRng | aeBuf | aeRun | aeDebt
  | adPat | adRng | adNeed
  | smAddr | smData
  | pm (m : Fin 15)
  | topAt (i : Nat) | leftAt (i : Nat)
  | origAt (i : Nat) | predbAt (i : Nat) | resdAt (i : Nat) | qidxAt (i : Nat) | scanAt (i : Nat) | recbAt (i : Nat)
  | unlisted
  deriving DecidableEq, Repr

/-- The bytes of the window: up to the end of `RECB` (rule R55; log 19). -/
def windowBytes : Nat := 0x28000

/-- Whether an access is inside the interface (rules R53, R54; 93 U7). -/
def offsetOk (off : Nat) : Bool := off % 4 == 0 && off < windowBytes

/-- The registers below 0x100 (rule R55). -/
def locateLow (off : Nat) : HostReg :=
  match off with
  | 0x00 => .cmd
  | 0x04 => .arg
  | 0x08 => .res
  | 0x0C => .status
  | 0x10 => .cfgH
  | 0x14 => .cfgW
  | 0x18 => .cfgBs
  | 0x1C => .cfgQp
  | 0x20 => .predAvail
  | 0x24 => .bucket
  | 0x30 => .bwPtr
  | 0x34 => .bwAcc
  | 0x38 => .bwCnt
  | 0x40 => .brPtr
  | 0x44 => .brEnd
  | 0x48 => .brBuf
  | 0x4C => .brCnt
  | 0x50 => .aeLow
  | 0x54 => .aeRng
  | 0x58 => .aeBuf
  | 0x5C => .aeRun
  | 0x60 => .aeDebt
  | 0x70 => .adPat
  | 0x74 => .adRng
  | 0x78 => .adNeed
  | 0x80 => .smAddr
  | 0x84 => .smData
  | _ => .unlisted

/-- The place at a byte offset (rule R55). -/
def locate (off : Nat) : HostReg :=
  if off < 0x100 then locateLow off
  else if h : off < 0x100 + 4 * 15 then .pm ⟨(off - 0x100) / 4, by omega⟩
  else if off < 0x1000 then .unlisted
  else if off < 0x1000 + 4 * Config.nmax then .topAt ((off - 0x1000) / 4)
  else if off < 0x1400 then .unlisted
  else if off < 0x1400 + 4 * Config.nmax then .leftAt ((off - 0x1400) / 4)
  else if off < 0x10000 then .unlisted
  else if off < 0x14000 then .origAt ((off - 0x10000) / 4)
  else if off < 0x18000 then .predbAt ((off - 0x14000) / 4)
  else if off < 0x1C000 then .resdAt ((off - 0x18000) / 4)
  else if off < 0x20000 then .qidxAt ((off - 0x1C000) / 4)
  else if off < 0x24000 then .scanAt ((off - 0x20000) / 4)
  else .recbAt ((off - 0x24000) / 4)

/-- A read's value, or why the model refuses it. -/
def readCell {α : Type} (widen : α → Word) (r : Refusal) (m : Cells α) (i : Nat) : Except Refusal Word :=
  match cellsRead m i with
  | some v => .ok (widen v)
  | none => .error r

/-- A u8 element reads zero-extended (rule R58). -/
def byteWord (b : Byte) : Word := b.setWidth 32

/-- A model as the host reads it: bits 6:1 state, bit 0 mps (rule R16). -/
def modelWord (x : Model) : Word := BitVec.ofNat 32 (2 * x.state.toNat + bitNat x.mps)

/-- A model from the word the host writes (rule R16). -/
def modelOfWord (v : Word) : Model := ⟨v.extractLsb' 1 6, v.getLsbD 0⟩

/-- What the host reads at a place while no fault is pending. -/
def readReg (p : Config.Params) (s : State) : HostReg → Except Refusal Word
  | .cmd => .ok s.cmd
  | .arg => .ok s.arg
  | .res => .ok s.res
  | .status => .ok (statusWord s.status)
  | .cfgH => .ok (s.cfg.h.setWidth 32)
  | .cfgW => .ok (s.cfg.w.setWidth 32)
  | .cfgBs => .ok (s.cfg.bs.setWidth 32)
  | .cfgQp => .ok (s.cfg.qp.setWidth 32)
  | .predAvail => .ok (BitVec.ofNat 32 (bitNat s.cfg.availTop + 2 * bitNat s.cfg.availLeft))
  | .bucket => .ok (BitVec.ofNat 32 s.bucket.val)
  | .bwPtr => .ok s.bw.ptr
  | .bwAcc => .ok (byteWord s.bw.acc)
  | .bwCnt => .ok (s.bw.cnt.setWidth 32)
  | .brPtr => .ok s.br.ptr
  | .brEnd => .ok s.br.stop
  | .brBuf => .ok (byteWord s.br.buf)
  | .brCnt => .ok (s.br.cnt.setWidth 32)
  | .aeLow => .ok s.ae.low
  | .aeRng => .ok (s.ae.rng.setWidth 32)
  | .aeBuf => .ok (byteWord s.ae.buf)
  | .aeRun => .ok s.ae.run
  | .aeDebt => .ok (s.ae.debt.signExtend 32)
  | .adPat => .ok s.ad.pat
  | .adRng => .ok (s.ad.rng.setWidth 32)
  | .adNeed => .ok (s.ad.need.signExtend 32)
  | .smAddr => .ok s.smAddr
  | .smData =>
    if s.smAddr.toNat < p.streamBytes then
      readCell byteWord (.unwrittenStream s.smAddr.toNat) s.stream s.smAddr.toNat
    else .ok 0
  | .pm m => .ok (modelWord (modelAt s m))
  | .topAt i => readCell byteWord (.unwrittenBuffer .top) s.top i
  | .leftAt i => readCell byteWord (.unwrittenBuffer .left) s.left i
  | .origAt i => readCell byteWord (.unwrittenBuffer .orig) s.orig i
  | .predbAt i => readCell byteWord (.unwrittenBuffer .predb) s.predb i
  | .resdAt i => readCell id (.unwrittenBuffer .resd) s.resd i
  | .qidxAt i => readCell id (.unwrittenBuffer .qidx) s.qidx i
  | .scanAt i => readCell id (.unwrittenBuffer .scan) s.scan i
  | .recbAt i => readCell byteWord (.unwrittenBuffer .recb) s.recb i
  | .unlisted => .ok 0

/-- What a host write stores at a place other than `CMD` while no fault is pending; read-only and unlisted places
ignore it (rules R27, R55). -/
def writeReg (p : Config.Params) (s : State) (v : Word) : HostReg → State
  | .arg => { s with arg := v }
  | .cfgH => { s with cfg := { s.cfg with h := v.setWidth 16 } }
  | .cfgW => { s with cfg := { s.cfg with w := v.setWidth 16 } }
  | .cfgBs => { s with cfg := { s.cfg with bs := v.setWidth 16 } }
  | .cfgQp => { s with cfg := { s.cfg with qp := v.setWidth 8 } }
  | .predAvail => { s with cfg := { s.cfg with availTop := v.getLsbD 0, availLeft := v.getLsbD 1 } }
  | .bwPtr => { s with bw := { s.bw with ptr := v } }
  | .brPtr => { s with br := { s.br with ptr := v } }
  | .brEnd => { s with br := { s.br with stop := v } }
  | .smAddr => { s with smAddr := v }
  | .smData =>
    if s.smAddr.toNat < p.streamBytes then
      { s with stream := cellsWrite s.stream s.smAddr.toNat (v.setWidth 8) }
    else s
  | .pm m => withModel s m (modelOfWord v)
  | .topAt i => { s with top := cellsWrite s.top i (v.setWidth 8) }
  | .leftAt i => { s with left := cellsWrite s.left i (v.setWidth 8) }
  | .origAt i => { s with orig := cellsWrite s.orig i (v.setWidth 8) }
  | .predbAt i => { s with predb := cellsWrite s.predb i (v.setWidth 8) }
  | .resdAt i => { s with resd := cellsWrite s.resd i v }
  | .qidxAt i => { s with qidx := cellsWrite s.qidx i v }
  | .scanAt i => { s with scan := cellsWrite s.scan i v }
  | .recbAt i => { s with recb := cellsWrite s.recb i (v.setWidth 8) }
  | .cmd | .res | .status | .bucket | .bwAcc | .bwCnt | .brBuf | .brCnt | .aeLow | .aeRng | .aeBuf | .aeRun
  | .aeDebt | .adPat | .adRng | .adNeed | .unlisted => s

end Sys2Proof.Machine
end

