-- ==== Sys2Proof/Machine/HostAccess.lean ====
section
/-! DEFINITION. What each host action does (rules R10, R60): issuing a command (rules R88, R323, R324), register writes
and reads (rules R27, R28, R55), the reset input (rule R350). -/

namespace Sys2Proof.Machine

open Sys2Proof

/-- The `SRESET` word, the only one accepted while a fault is pending (rule R324). -/
def sresetWord : Word := 0x01000000

/-- The host writes `CMD` (rules R12, R323, R324): the word is decoded before anything else; an illegal one is the
fault `IllegalCommand`; while a fault is pending every word but `SRESET` is ignored, undecoded. -/
def issueCommand (w : Word) (s : State) : Host.Outcome State Fault Refusal :=
  if s.status.fault && w != sresetWord then .next s
  else
    match decode w with
    | .ok i => exec i { s with cmd := w }
    | .error _ => .next (takeFault .illegalCommand [] { s with cmd := w } { s with cmd := w })

/-- A host register write (rules R27, R28, R54, R55). -/
def hostWrite (off : Nat) (v : Word) (s : State) : Host.Outcome State Fault Refusal :=
  if !offsetOk off then .fault (.outsideInterface off)
  else
    match locate off with
    | .cmd => issueCommand v s
    | r => if s.status.fault then .next s else .next (writeReg Config.params s v r)

/-- A host register read (rules R27, R28, R54, R55): free of side effects; while a fault is pending every place but
`STATUS` reads a free value. -/
def hostRead (off : Nat) (s : State) : Host.Outcome State Fault Refusal :=
  if !offsetOk off then .fault (.outsideInterface off)
  else if s.status.fault && locate off != .status then
    .next { s with hostOut := Config.freeWord s.draws .hostRead, draws := s.draws + 1 }
  else
    match readReg Config.params s (locate off) with
    | .ok v => .next { s with hostOut := v }
    | .error r => .refused r

/-- The reset input (rules R350, R351): every register at its reset value, `CMD` among them (log 1); STREAM and the
buffers stay. -/
def resetInput (s : State) : State := { resetRegisters s with cmd := State.reset.cmd }

/-- One host action. -/
def hostAct (a : HostAction) (s : State) : Host.Outcome State Fault Refusal :=
  match a with
  | .write off v => hostWrite off v s
  | .read off => hostRead off s
  | .reset => .next (resetInput s)

/-- The host's next action, taken from the front of `pending`; with none the machine is idle (rule R354; log 2). -/
def nextAction (s : State) : Host.Outcome State Fault Refusal :=
  match s.pending with
  | [] => .next s
  | a :: rest => hostAct a { s with pending := rest }

/-- The state in which the host is about to write word `w` to `CMD`. -/
def placeCommand (w : Word) (s : State) : State := { s with pending := .write 0 w :: s.pending }

end Sys2Proof.Machine
end

