-- ==== Sys2Proof/Machine/Step.lean ====
section
/-! DEFINITION. One step: the host's next action, run to completion (rules R10, R60). -/

namespace Sys2Proof.Machine

open Sys2Proof

def step (s : State) : Host.Outcome State Fault Refusal := nextAction s

/-- `s` with the instruction of the opcode table's bits `w` as the host's next action: a write of `CMD` (log 2). -/
def State.withFetchWord (s : State) (nbits w : Nat) : State := placeCommand (tableWord nbits w) s

end Sys2Proof.Machine
end

