-- ==== Sys2Proof/Safety.lean ====
section
/-! DEFINITION. What counts as a safe run, in the terms the claims use: quiet states, raised faults, stream positions as
bits, room in STREAM, the invariants of rules R21 and R23, the exact code value of rule R149, bins, and what each command
may write. The machine's step names none of these. -/

namespace Sys2Proof.Safety

open Sys2Proof Sys2Proof.Machine

/-! ## Completing and raising -/

/-- No fault is pending (rule R324). -/
abbrev Quiet (s : State) : Prop := s.status.fault = false

/-- An outcome that is a fault entry with this code from state `s` (rule R324): a next state whose `STATUS` records the
code and keeps the session bits, and in which the STREAM bytes below the starting `BW_PTR` are as they were. -/
def FaultsWith (o : Host.Outcome State Fault Refusal) (s : State) (code : BitVec 4) : Prop :=
  ∃ t, o = .next t ∧ t.status = { s.status with fault := true, code := code } ∧
    ∀ a, a < s.bw.ptr.toNat → cellsRead t.stream a = cellsRead s.stream a

/-- The command raises the fault with this code (rule R324). -/
def Raises (i : Instr) (s : State) (code : BitVec 4) : Prop := FaultsWith (exec i s) s code

/-- The commands, issued one after the other, each answer a next state, the last of them `t`. -/
def Runs : List Instr → State → State → Prop
  | [], s, t => t = s
  | i :: is, s, t => ∃ u, exec i s = .next u ∧ Runs is u t

/-- A step that neither stops nor leaves a fault pending. -/
def SafeStep (s : State) : Prop := ∃ t, step s = .next t ∧ Quiet t

/-! ## Legal words (rules R81 to R88) -/

/-- A row of the opcode table: the fixed bits of its words, and whether it has a selector and a count. -/
structure Row where
  mask : Word
  bits : Word
  usesM : Bool
  usesN : Bool
  deriving DecidableEq, Repr

/-- The rows of one mask. -/
def rowsOf (mask : Word) (usesM usesN : Bool) (ops : List Nat) : List Row :=
  ops.map fun op => ⟨mask, BitVec.ofNat 32 (op * 2 ^ 24), usesM, usesN⟩

/-- The opcode table (rules R81 to R84, R87): the opcodes of each mask. -/
def rows : List Row :=
  rowsOf 0xFFFFFFFF false false
    [0x00, 0x01, 0x02, 0x12, 0x14, 0x16, 0x30, 0x35, 0x40, 0x43, 0x45, 0x70, 0x71, 0x73, 0x75] ++
  rowsOf 0xFF00FFFF true false [0x20, 0x21, 0x36, 0x37, 0x41, 0x46] ++
  rowsOf 0xFF00FFFE true false [0x22, 0x31] ++
  rowsOf 0xFFFFFFFE false false [0x10, 0x33, 0x72] ++
  rowsOf 0xFF0000FF true true [0x32] ++
  rowsOf 0xFFFF00FF false true [0x11, 0x15, 0x34, 0x44] ++
  rowsOf 0xFFFFFFCB false false [0x60, 0x62, 0x64, 0x65, 0x67] ++
  rowsOf 0xFFFFFFFB false false [0x50, 0x61, 0x63, 0x66, 0x68, 0x69, 0x76, 0x77] ++
  rowsOf 0xFFFFFFCF false false [0x74]

/-- A legal command word (rule R88): a row's fixed bits, a legal selector where the row has one, and a count of at most
32 where the row has one. -/
def LegalWord (w : Word) : Prop :=
  ∃ r ∈ rows, w &&& r.mask = r.bits ∧
    (r.usesM = true → (fieldM w).toNat ≤ 0x0E ∨ 0x10 ≤ (fieldM w).toNat ∧ (fieldM w).toNat ≤ 0x12) ∧
    (r.usesN = true → (fieldN w).toNat ≤ 32)

/-! ## Streams as bits (rules R52, R100, R101) -/

/-- The position of the next output bit, counted from bit 7 of byte 0. -/
def outPos (s : State) : Nat := 8 * s.bw.ptr.toNat + s.bw.cnt.toNat

/-- The output bit at a position below `outPos`: in STREAM below `BW_PTR`, in `BW_ACC` above. -/
def outBit (s : State) (i : Nat) : Option Bool :=
  if i / 8 < s.bw.ptr.toNat then (cellsRead s.stream (i / 8)).map fun b => b.getLsbD (7 - i % 8)
  else if i < outPos s then some (s.bw.acc.getLsbD (s.bw.cnt.toNat - 1 - i % 8))
  else none

/-- The `j`-th unread input bit, when there is one (rule R108) and its byte has been written. -/
def inBit (p : Config.Params) (s : State) (j : Nat) : Option Bool :=
  if j < s.br.cnt.toNat then some (s.br.buf.getLsbD (s.br.cnt.toNat - 1 - j))
  else
    let k := j - s.br.cnt.toNat
    let a := s.br.ptr.toNat + k / 8
    if a < s.br.stop.toNat ∧ a < p.streamBytes then
      (cellsRead s.stream a).map fun b => b.getLsbD (7 - k % 8)
    else none

/-- The next `n` unread bits as a number, the first bit most significant; `none` when one of them does not exist. -/
def peek (p : Config.Params) (s : State) : Nat → Option Nat
  | 0 => some 0
  | n + 1 =>
    match peek p s n, inBit p s n with
    | some v, some b => some (2 * v + bitNat b)
    | _, _ => none

/-- Reading `n` bits meets the end of the data (rule R108): after `k < n` bits, all of which exist and have been written,
the next bit would be the first of a byte at or beyond `BR_END` or the end of STREAM. -/
def Ended (p : Config.Params) (s : State) (n : Nat) : Prop :=
  ∃ k, k < n ∧ s.br.cnt.toNat ≤ k ∧ (k - s.br.cnt.toNat) % 8 = 0 ∧ (peek p s k).isSome = true ∧
    (s.br.stop.toNat ≤ s.br.ptr.toNat + (k - s.br.cnt.toNat) / 8 ∨
      p.streamBytes ≤ s.br.ptr.toNat + (k - s.br.cnt.toNat) / 8)

/-- The reader's registers once `n` bits are read: bytes are fetched one at a time, as they are needed. -/
def readerAfter (s : State) (n : Nat) : BitReader :=
  let c := s.br.cnt.toNat
  if n ≤ c then { s.br with cnt := BitVec.ofNat 4 (c - n) }
  else
    let bytes := (n - c + 7) / 8
    { buf := (cellsRead s.stream (s.br.ptr.toNat + bytes - 1)).getD 0
      cnt := BitVec.ofNat 4 (8 * bytes - (n - c))
      ptr := s.br.ptr + BitVec.ofNat 32 bytes
      stop := s.br.stop }

/-! ## Room in STREAM -/

/-- The writer can take `n` more bits: every byte they complete has a place (rule R51). -/
def writerRoom (p : Config.Params) (s : State) (n : Nat) : Prop :=
  (s.bw.cnt.toNat + n) / 8 ≤ p.streamBytes - s.bw.ptr.toNat

/-- The encoder can take `k` more bins: the bytes held back (rule R24) and one more for each bin have a place. -/
def encoderRoom (p : Config.Params) (s : State) (k : Nat) : Prop :=
  s.bw.ptr.toNat + s.ae.run.toNat + k ≤ p.streamBytes

/-! ## Invariants (rules R16 to R23, R176) -/

/-- `acc = 23 - AE_DEBT` (rule R21). -/
def accOf (e : Encoder) : Nat := (23 - debtOf e).toNat

/-- Rule R21 (a), (b), (c) between commands of an encode session; and, what makes a carry safe (rule R142): while
`AE_BUF` is 0xFF no carry can arrive. -/
structure EncoderInv (e : Encoder) : Prop where
  rng_ge : 256 ≤ e.rng.toNat
  rng_le : e.rng.toNat ≤ 510
  debt_ge : 12 ≤ debtOf e
  debt_le : debtOf e ≤ 23
  low_room : e.low.toNat + e.rng.toNat ≤ 2 ^ (10 + accOf e)
  carry_free : e.buf = 0xFF → e.low.toNat + e.rng.toNat ≤ 2 ^ (9 + accOf e)

/-- `u = AD_NEED + 8`, the unknown low bits of `AD_PAT` (rule R175). -/
def unknownBits (d : Decoder) : Nat := (d.need.toInt + 8).toNat

/-- Rule R23 (a), (b) and rule R175 (the unknown low bits are zeros) between commands of a decode session, whatever the
stream holds. -/
structure DecoderInv (d : Decoder) : Prop where
  rng_ge : 256 ≤ d.rng.toNat
  rng_le : d.rng.toNat ≤ 510
  need_ge : -8 ≤ d.need.toInt
  need_le : d.need.toInt ≤ -1
  low_zero : d.pat.toNat % 2 ^ unknownBits d = 0

/-- Rule R23 (c): the code word lies in the interval. -/
def PatternInside (d : Decoder) : Prop := d.pat.toNat < d.rng.toNat * 128

/-- What a bin of the decoder leaves (rules R171, R175) when it takes the part of the interval whose pattern is `base`,
shifts it by `n` to the range `rng` and, when `bits_needed` comes to 0 or more, pulls the next input byte `v`. -/
structure Renormed (s t : State) (base n rng v : Nat) : Prop where
  rng : t.ad.rng.toNat = rng
  pat : t.ad.pat.toNat =
    (base * 2 ^ n + if 0 ≤ s.ad.need.toInt + n then v * 2 ^ (s.ad.need.toInt + n).toNat else 0) % 2 ^ 32
  need : t.ad.need.toInt =
    if 0 ≤ s.ad.need.toInt + n then s.ad.need.toInt + n - 8 else s.ad.need.toInt + n
  reader : t.br = if 0 ≤ s.ad.need.toInt + n then readerAfter s 8 else s.br

/-- The machine's invariant while no fault is pending: the writer's and reader's counts (rules R18, R19), and each coder's
invariant while its session is open. -/
structure MachineInv (s : State) : Prop where
  writer : Quiet s → s.bw.cnt.toNat ≤ 7
  reader : Quiet s → s.br.cnt.toNat ≤ 8
  encoder : Quiet s → s.status.encOpen = true → EncoderInv s.ae
  decoder : Quiet s → s.status.decOpen = true → DecoderInv s.ad

/-- Every listed index is below the capacity. -/
def Below {α : Type} (bound : Nat) (m : Cells α) : Prop := ∀ c ∈ m, c.1 < bound

/-- A real buffer holds a square of a legal size. -/
def RealFits (b : Option RealBuf) : Prop := ∀ r, b = some r → r.n ≤ Config.nmax ∧ r.elems.length = r.n * r.n

/-- Nothing is listed where rules R50 and R56 say no storage exists. -/
structure MemoryFits (s : State) : Prop where
  stream : Below Config.params.streamBytes s.stream
  top : Below Config.nmax s.top
  left : Below Config.nmax s.left
  orig : Below (Config.nmax * Config.nmax) s.orig
  predb : Below (Config.nmax * Config.nmax) s.predb
  resd : Below (Config.nmax * Config.nmax) s.resd
  qidx : Below (Config.nmax * Config.nmax) s.qidx
  scan : Below (Config.nmax * Config.nmax) s.scan
  recb : Below (Config.nmax * Config.nmax) s.recb
  coef : RealFits s.coef
  dcoef : RealFits s.dcoef
  rres : RealFits s.rres

/-! ## The exact code value (rule R149) -/

/-- A list of bytes as one number, the first byte most significant. -/
def beValue (bs : List Byte) : Nat := bs.foldl (fun v b => 256 * v + b.toNat) 0

/-- The bytes the encoder holds back (rule R24): `AE_BUF`, then `AE_RUN - 1` bytes 0xFF. -/
def heldBytes (e : Encoder) : List Byte :=
  if e.run.toNat = 0 then [] else e.buf :: List.replicate (e.run.toNat - 1) 0xFF

/-- The lower end `L` of the coding interval of a session whose first byte is at `start`: the bytes written, the bytes
held back, and `AE_LOW` (rule R149). -/
def codeValue (start : Nat) (s : State) : Option Nat :=
  (cellsReadRange s.stream start (s.bw.ptr.toNat - start)).map fun bs =>
    beValue (bs ++ heldBytes s.ae) * 2 ^ (9 + accOf s.ae) + s.ae.low.toNat

/-- The writer and encoder of a session that began at byte `start` of STREAM: the writer is byte-aligned (rule R142) and
the encoder meets rule R21, (e) included. -/
structure Session (start : Nat) (s : State) : Prop where
  quiet : Quiet s
  aligned : s.bw.cnt = 0
  start_le : start ≤ s.bw.ptr.toNat
  inv : EncoderInv s.ae
  first : s.ae.run.toNat = 0 → s.ae.buf = 0xFF

/-- The bits a session has taken in so far: those written or held back as whole bytes, and those of `AE_LOW`. -/
def sessionBits (s : State) : Nat := 8 * (s.bw.ptr.toNat + s.ae.run.toNat) + accOf s.ae

/-- What a bin of the encoder leaves (rule R149) when the code value was `L`: the session goes on, the code value is
`L * 2^n + off`, the range `rng`, `n` more bits are taken in, and of the machine only the writer, the encoder, the models
and the STREAM bytes from the old `BW_PTR` up to the new one can have changed. -/
structure Coded (start : Nat) (s t : State) (L n off rng : Nat) : Prop where
  session : Session start t
  value : codeValue start t = some (L * 2 ^ n + off)
  rng : t.ae.rng.toNat = rng
  bits : sessionBits t = sessionBits s + n
  rest : t = { s with stream := t.stream, bw := t.bw, ae := t.ae, pm := t.pm }
  outside : ∀ a, a < s.bw.ptr.toNat ∨ t.bw.ptr.toNat ≤ a → cellsRead t.stream a = cellsRead s.stream a

/-! ## Bins (rules R9, R190, R286, R289) -/

/-- One binary decision: context-coded with a model, or bypass. -/
inductive Bin
  | ctx (m : Fin 15) (b : Bool)
  | byp (b : Bool)
  deriving DecidableEq, Repr

/-- A bin passed through the encoder. -/
def encodeBin (p : Config.Params) : Bin → Cmd Unit
  | .ctx m b => encodeBit p m b
  | .byp b => encodeBypass p b

/-- Bins passed through the encoder in order. -/
def encodeBins (p : Config.Params) : List Bin → Cmd Unit
  | [] => pure ()
  | x :: xs => do encodeBin p x; encodeBins p xs

/-- The decoder in state `s`, asked for bins with these models in this order, answers these values and ends in `t`. -/
def DecodesTo (p : Config.Params) : List Bin → State → State → Prop
  | [], s, t => t = s
  | .ctx m b :: xs, s, t => ∃ u, decodeBit p m s = .ok b u ∧ DecodesTo p xs u t
  | .byp b :: xs, s, t => ∃ u, decodeBypass p s = .ok b u ∧ DecodesTo p xs u t

/-- Bits `n-1 .. 0` of a number as bins of one model (rule R144). -/
def ctxBins (m : Fin 15) (v : Nat) : Nat → List Bin
  | 0 => []
  | n + 1 => .ctx m (v.testBit n) :: ctxBins m v n

/-- Bits `n-1 .. 0` of a number as bypass bins (rule R146). -/
def bypBins (v : Nat) : Nat → List Bin
  | 0 => []
  | n + 1 => .byp (v.testBit n) :: bypBins v n

/-- The Exp-Golomb code of `v` (rule R190): `k` zeros and a one with model `m`, then the low `k` bits of `v + 1`. -/
def egBins (m : Fin 15) (v : Nat) : List Bin :=
  let k := Nat.log2 (v + 1)
  List.replicate k (.ctx m false) ++ [.ctx m true] ++ bypBins (v + 1) k

/-- The bins of a prediction mode (rule R286). -/
def pmodeBins : PredMode → List Bin
  | .planar => [.ctx 3 true]
  | .dc => [.ctx 3 false, .ctx 4 true]
  | .horizontal => [.ctx 3 false, .ctx 4 false, .ctx 5 true]
  | .vertical => [.ctx 3 false, .ctx 4 false, .ctx 5 false]

/-- The number of a prediction mode (rule R86). -/
def pmNumber : PredMode → Word
  | .dc => 0
  | .vertical => 1
  | .horizontal => 2
  | .planar => 3

/-- A model of a three-element bank (rule R16). -/
def bankModel (base : Nat) (h : base ≤ 12) (bucket : Fin 3) : Fin 15 := ⟨base + bucket.val, by omega⟩

/-- The bins of coefficient `i` of value `c` (rule R289). -/
def coefficientBins (bucket : Fin 3) (isLast : Bool) (c : Int) : List Bin :=
  (if isLast then [] else [.ctx (bankModel 6 (by decide) bucket) (decide (c ≠ 0))]) ++
  (if c = 0 then []
   else
    [.ctx (bankModel 9 (by decide) bucket) (decide (1 < c.natAbs))] ++
    (if 1 < c.natAbs then egBins (bankModel 12 (by decide) bucket) (c.natAbs - 2) else []) ++
    [.byp (decide (c < 0))])

/-- The bins of coefficients `k-1` down to 0 (rule R289). -/
def coefficientsBins (n last : Nat) (xs : List Word) : Nat → List Bin
  | 0 => []
  | i + 1 =>
    coefficientBins (bucketAt n i) (i == last) (xs.getD i 0).toInt ++ coefficientsBins n last xs i

/-- The bins of the `k` coefficients from `last` downwards (rule R289). -/
def upperBins (n last : Nat) (xs : List Word) (k : Nat) : List Bin :=
  (List.range k).flatMap fun j => coefficientBins (bucketAt n (last - j)) (j == 0) (xs.getD (last - j) 0).toInt

/-- The bins by which coefficient `i`, when `last` is the last position, says that it is not zero and greater than one in
absolute value (rule R291). -/
def largeBins (n last i : Nat) : List Bin :=
  (if i = last then [] else [.ctx (bankModel 6 (by decide) (bucketAt n i)) true]) ++
    [.ctx (bankModel 9 (by decide) (bucketAt n i)) true]

/-- Bins that no encoder of a partition of size `n` writes, up to the one that shows it (rules R192, R291): a prefix of 32
zeros in the last position; a last position outside the partition; and, after the coefficients above position `i`, a prefix
of 32 zeros in the level of coefficient `i`, or a level above 2^31 - 1. -/
inductive BadBins (n : Nat) : List Bin → Prop
  | lastPrefix : BadBins n (.ctx 0 true :: List.replicate 32 (.ctx 1 false))
  | lastRange (last : Nat) : n * n ≤ last → last ≤ 2 ^ 32 - 2 → BadBins n (.ctx 0 true :: egBins 1 last)
  | levelPrefix (last i : Nat) (xs : List Word) : last < n * n → i ≤ last → 0x80000000 ∉ xs →
    (i < last → xs.getD last 0 ≠ 0) →
    BadBins n (.ctx 0 true :: egBins 1 last ++ upperBins n last xs (last - i) ++ largeBins n last i ++
      List.replicate 32 (.ctx (bankModel 12 (by decide) (bucketAt n i)) false))
  | levelRange (last i v : Nat) (xs : List Word) : last < n * n → i ≤ last → 0x80000000 ∉ xs →
    (i < last → xs.getD last 0 ≠ 0) → 2 ^ 31 - 1 < 2 + v → v ≤ 2 ^ 32 - 2 →
    BadBins n (.ctx 0 true :: egBins 1 last ++ upperBins n last xs (last - i) ++ largeBins n last i ++
      egBins (bankModel 12 (by decide) (bucketAt n i)) v)

/-- The bins of one partition's coefficients when `last` is the last non-zero position (rule R289). -/
def blockBins (n last : Nat) (xs : List Word) : List Bin :=
  [.ctx 0 true] ++ egBins 1 last ++ coefficientsBins n last xs (last + 1)

/-- `last` is the largest index with a non-zero value (rule R289). -/
def IsLast (xs : List Word) (last : Nat) : Prop :=
  last < xs.length ∧ xs.getD last 0 ≠ 0 ∧ ∀ i, last < i → xs.getD i 0 = 0

/-- The model an active alias stands for (rules R17, R85). -/
def aliasOf (bucket : Fin 3) : Selector → Option (Fin 15)
  | .model _ => none
  | .asig => some (bankModel 6 (by decide) bucket)
  | .agt1 => some (bankModel 9 (by decide) bucket)
  | .alvl => some (bankModel 12 (by decide) bucket)

/-- The registers of a model bank after a bin of model `m`: the model moved by the MPS table or by the LPS table, with
the flip of rule R122. -/
def modelAfter (x : Model) (mps : Bool) : Model :=
  if mps then ⟨Config.params.nextMps x.state, x.mps⟩
  else ⟨Config.params.nextLps x.state, if Config.params.nextLps x.state = 0 then !x.mps else x.mps⟩

/-! ## Partitions (rules R212, R231, R313) -/

/-- `CFG_BS` is legal: even, and 2 to 64 (rule R313). -/
def LegalSize (s : State) : Prop := 2 ≤ s.cfg.bs.toNat ∧ s.cfg.bs.toNat ≤ 64 ∧ s.cfg.bs.toNat % 2 = 0

/-- The partition size `N` (rule R313). -/
def sizeOf (s : State) : PartSize → Nat
  | .full => s.cfg.bs.toNat
  | .half => s.cfg.bs.toNat / 2

/-- The partition a command works on (rule R313). -/
def partitionOf : Instr → Option PartSize
  | .ctxSw h | .pred _ h | .resid h | .txf _ h | .quant h | .scanf _ h | .scani _ h | .deq h | .txi _ h | .recon h
  | .dist h | .encCoef h | .decCoef h => some h
  | .nop | .sreset | .ctxinit | .bwBit _ | .bwBits _ | .bwAlign | .brBit | .brBits _ | .brAlign | .pmMps _ | .pmLps _
  | .pmEst _ _ | .aeStart | .aeBit _ _ | .aeBits _ _ | .aeByp _ | .aeByps _ | .aeTerm | .aeEg _ | .aeEgest _ | .adStart
  | .adBit _ | .adByp | .adByps _ | .adTerm | .adEg _ | .hdrWr | .hdrRd | .encPart _ | .decPart | .encPmode _
  | .decPmode => none

/-- The number of elements of that partition, none for a command that works on no partition (rule R57). -/
def extentOf (i : Instr) (s : State) : Nat :=
  match partitionOf i with
  | some h => sizeOf s h * sizeOf s h
  | none => 0

/-- `q` is `a / b` rounded to nearest, ties to even (rules R5, R231). -/
def Rounded (a b q : Nat) : Prop :=
  2 * a ≤ (2 * q + 1) * b ∧ 2 * q * b ≤ 2 * a + b ∧
    ((2 * a = (2 * q + 1) * b ∨ 2 * q * b = 2 * a + b) → q % 2 = 0)

/-- The transform of the vertical axis of a mode (rule R212). -/
def verticalBasis : PredMode → Config.Basis
  | .dc | .horizontal => .dct2
  | .vertical | .planar => .dst7

/-- The transform of the horizontal axis of a mode (rule R212). -/
def horizontalBasis : PredMode → Config.Basis
  | .dc | .vertical => .dct2
  | .horizontal | .planar => .dst7

/-- The elements of a sparse memory from index `lo` on are the same. -/
def SameFrom {α : Type} (lo : Nat) (m m' : Cells α) : Prop := ∀ a, lo ≤ a → cellsRead m' a = cellsRead m a

/-- The sample of the effective top border (rule R230). -/
def TopIs (s : State) (n : Nat) (T : Nat → Nat) : Prop :=
  ∀ j, j < n → if s.cfg.availTop then (cellsRead s.top j).map BitVec.toNat = some (T j) else T j = 128

/-- The sample of the effective left border (rule R230). -/
def LeftIs (s : State) (n : Nat) (L : Nat → Nat) : Prop :=
  ∀ j, j < n → if s.cfg.availLeft then (cellsRead s.left j).map BitVec.toNat = some (L j) else L j = 128

/-- The sum of the first `n` values. -/
def sumTo (n : Nat) (f : Nat → Nat) : Nat := ((List.range n).map f).sum

/-! ## The host window (rules R14, R16, R55, R58) -/

/-- The bits a host write keeps at each readable and writable place of the window. -/
def writableBits (off : Nat) : Option Word :=
  if off % 4 ≠ 0 then none
  else if off = 0x04 ∨ off = 0x30 ∨ off = 0x40 ∨ off = 0x44 ∨ off = 0x80 then some 0xFFFFFFFF
  else if off = 0x10 ∨ off = 0x14 ∨ off = 0x18 then some 0x0000FFFF
  else if off = 0x1C then some 0x000000FF
  else if off = 0x20 then some 0x00000003
  else if 0x100 ≤ off ∧ off < 0x13C then some 0x0000007F
  else if 0x1000 ≤ off ∧ off < 0x1100 ∨ 0x1400 ≤ off ∧ off < 0x1500 then some 0x000000FF
  else if 0x10000 ≤ off ∧ off < 0x18000 then some 0x000000FF
  else if 0x18000 ≤ off ∧ off < 0x24000 then some 0xFFFFFFFF
  else if 0x24000 ≤ off ∧ off < 0x28000 then some 0x000000FF
  else none

/-! ## What a command may write (rules R86, R109, R179, R235, R361) -/

/-- The pieces of state a completed command may change. -/
inductive Part
  | arg | res | cfg | models | bucket | writer | reader | encoder | decoder | smAddr | encOpen | decOpen
  | stream | top | left | orig | predb | resd | coef | qidx | scan | dcoef | rres | recb
  deriving DecidableEq, Repr

/-- A piece is the same in two states. -/
def same : Part → State → State → Prop
  | .arg, s, t => t.arg = s.arg
  | .res, s, t => t.res = s.res
  | .cfg, s, t => t.cfg = s.cfg
  | .models, s, t => t.pm = s.pm
  | .bucket, s, t => t.bucket = s.bucket
  | .writer, s, t => t.bw = s.bw
  | .reader, s, t => t.br = s.br
  | .encoder, s, t => t.ae = s.ae
  | .decoder, s, t => t.ad = s.ad
  | .smAddr, s, t => t.smAddr = s.smAddr
  | .encOpen, s, t => t.status.encOpen = s.status.encOpen
  | .decOpen, s, t => t.status.decOpen = s.status.decOpen
  | .stream, s, t => t.stream = s.stream
  | .top, s, t => t.top = s.top
  | .left, s, t => t.left = s.left
  | .orig, s, t => t.orig = s.orig
  | .predb, s, t => t.predb = s.predb
  | .resd, s, t => t.resd = s.resd
  | .coef, s, t => t.coef = s.coef
  | .qidx, s, t => t.qidx = s.qidx
  | .scan, s, t => t.scan = s.scan
  | .dcoef, s, t => t.dcoef = s.dcoef
  | .rres, s, t => t.rres = s.rres
  | .recb, s, t => t.recb = s.recb

/-- What each command writes when it completes, from the command rules. -/
def writesOf : Instr → List Part
  | .nop => []
  | .sreset =>
    [.arg, .res, .cfg, .models, .bucket, .writer, .reader, .encoder, .decoder, .smAddr, .encOpen, .decOpen]
  | .ctxinit => [.models, .bucket]
  | .bwBit _ | .bwBits _ | .bwAlign | .hdrWr => [.writer, .stream]
  | .brBit | .brBits _ => [.res, .reader]
  | .brAlign => [.reader]
  | .pmMps _ | .pmLps _ => [.models]
  | .pmEst _ _ | .aeEgest _ | .dist _ => [.res]
  | .aeStart | .aeTerm => [.writer, .stream, .encoder, .encOpen]
  | .aeBit _ _ | .aeBits _ _ | .aeEg _ | .encPart _ | .encPmode _ => [.writer, .stream, .encoder, .models]
  | .aeByp _ | .aeByps _ => [.writer, .stream, .encoder]
  | .adStart => [.reader, .decoder, .decOpen]
  | .adBit _ | .adEg _ | .decPart | .decPmode => [.res, .reader, .decoder, .models]
  | .adByp | .adByps _ => [.res, .reader, .decoder]
  | .adTerm => [.decoder, .decOpen]
  | .ctxSw _ => [.bucket]
  | .pred _ _ => [.predb]
  | .resid _ => [.resd]
  | .txf _ _ => [.coef]
  | .quant _ | .scani _ _ => [.qidx]
  | .scanf _ _ => [.scan]
  | .deq _ => [.dcoef]
  | .txi _ _ => [.rres]
  | .recon _ => [.recb]
  | .hdrRd => [.reader, .cfg]
  | .encCoef _ => [.res, .models, .bucket, .writer, .stream, .encoder]
  | .decCoef _ => [.res, .models, .bucket, .reader, .decoder, .scan]

/-- The fault codes each well-formed command can raise (rule R332). -/
def faultsOf : Instr → List (BitVec 4)
  | .nop | .sreset | .ctxinit | .brAlign | .pmMps _ | .pmLps _ | .pmEst _ _ => []
  | .bwBit _ | .bwBits _ | .bwAlign | .hdrWr => [4]
  | .brBit | .brBits _ => [1]
  | .aeStart | .aeBit _ _ | .aeBits _ _ | .aeByp _ | .aeByps _ | .aeTerm => [4]
  | .aeEg _ => [6, 4]
  | .aeEgest _ => [6]
  | .adStart | .adBit _ | .adByp | .adByps _ => [1]
  | .adTerm => [2]
  | .adEg _ => [1, 7]
  | .ctxSw _ => [5, 6]
  | .pred _ _ | .resid _ | .txf _ _ | .scanf _ _ | .scani _ _ | .txi _ _ | .recon _ | .dist _ => [5]
  | .quant _ => [5, 6]
  | .deq _ => [5]
  | .hdrRd => [1, 5]
  | .encPart _ | .encPmode _ => [4]
  | .decPart | .decPmode => [1]
  | .encCoef _ => [5, 6, 4]
  | .decCoef _ => [5, 1, 7]

end Sys2Proof.Safety
end

