-- ==== Sys2Proof/Certificates/Slice0/Obligations.lean ====
section
/-! DEFINITION. The statements for the provers. Every one is about the machine as `exec` and `step` run it; a statement
whose room or numerics `Config.params` leaves open is said of every instance `p` that meets rule R126, with the machine's
own instance as a case of it. -/

section

open Sys2Proof Sys2Proof.Machine Sys2Proof.Safety

/-! ## Command words -/

/-- Rules R80 to R88: the decoder gives back every well-formed command from its word. -/
def Obligations.DecodeEncode : Prop := ∀ i : Instr, i.wf = true → decode (encode i) = .ok i

/-- Rules R80 to R88: a word that decodes is the word of the command it decodes to, so no two words are one command and
no bit of a legal word is ignored. -/
def Obligations.EncodeDecode : Prop :=
  ∀ (w : Word) (i : Instr), decode w = .ok i → i.wf = true ∧ encode i = w

/-- Rules R88, R323: the words that decode are those of the opcode table with a legal selector and a count of at most 32.
Any other word, written to `CMD` while no fault is pending, raises `IllegalCommand`: of the whole state only `STATUS` and
what `CMD` itself holds can differ. (Whether `CMD` holds an illegal word is not said here; see log 7.) -/
def Obligations.IllegalWords : Prop :=
  (∀ w : Word, (∃ i, decode w = .ok i) ↔ LegalWord w) ∧
  ∀ (s : State) (w : Word) (rest : List HostAction), Quiet s → s.pending = .write 0 w :: rest → ¬LegalWord w →
    ∃ c, step s = .next
      { s with pending := rest, cmd := c, status := { s.status with fault := true, code := 3 } }

/-- Rules R87, R90: words written out from the encoding tables decode to the commands they stand for. -/
def Obligations.DecodeWords : Prop :=
  decode 0x00000000 = .ok .nop ∧ decode 0x31000001 = .ok (.aeBit (.model 0) true) ∧
  decode 0x32070500 = .ok (.aeBits (.model 7) 5) ∧ decode 0x44000C00 = .ok (.adByps 12) ∧
  decode 0x60000034 = .ok (.pred .planar .half) ∧ decode 0x36120000 = .ok (.aeEg .alvl) ∧
  decode 0x74000020 = .ok (.encPmode .horizontal) ∧ decode 0x11002000 = .ok (.bwBits 32) ∧
  decode 0x21100000 = .ok (.pmLps .asig) ∧ decode 0x77000004 = .ok (.decCoef .half)

/-- Rules R10, R12, R60: a write of a command's word to `CMD` runs exactly that command, on the state in which the write
is done and `CMD` holds the word; while a fault is pending so does the `SRESET` word. `withFetchWord` places such a
write. -/
def Obligations.StepRunsCommand : Prop :=
  (∀ (s : State) (w : Word) (i : Instr) (rest : List HostAction), s.pending = .write 0 w :: rest → decode w = .ok i →
    (Quiet s ∨ w = 0x01000000) → step s = exec i { s with pending := rest, cmd := w }) ∧
  ∀ (s : State) (nbits w : Nat) (i : Instr), decodeTableWord nbits w = some i → Quiet s →
    step (s.withFetchWord nbits w) = exec i { s with cmd := tableWord nbits w }

/-! ## The host window and the fault state -/

/-- Rules R28, R324: while a fault is pending every command but `SRESET` changes nothing, every `CMD` write but the
`SRESET` word and every register write is ignored, and every read but that of `STATUS` returns a free value. That an
unspecified read is the free value drawn here, and that an ignored write of `CMD` leaves `CMD`, is the model's choice
(logs 4, 18). -/
def Obligations.FaultedIgnores : Prop :=
  ∀ (s : State) (rest : List HostAction) (off : Nat) (v : Word), s.status.fault = true → off % 4 = 0 → off < 0x28000 →
    (∀ i, i ≠ .sreset → exec i s = .next s) ∧
    (s.pending = .write off v :: rest → (off = 0 → v ≠ 0x01000000) → step s = .next { s with pending := rest }) ∧
    (s.pending = .read off :: rest → off ≠ 0x0C → step s = .next
      { s with pending := rest, hostOut := Config.freeWord s.draws .hostRead, draws := s.draws + 1 })

/-- Rules R13, R14, R16, R27, R55, R58: what the host reads at every place of the window: `STATUS`, also while a fault is
pending; the registers; the models, `state` in bits 6:1 and `mps` in bit 0; `PRED_AVAIL`, `AT` in bit 0 and `AL` in bit 1;
STREAM through `SM_DATA`; and the buffers, bytes zero-extended. -/
def Obligations.HostReads : Prop :=
  (∀ (s : State) (rest : List HostAction), s.pending = .read 0x0C :: rest →
    ∃ v, step s = .next { s with pending := rest, hostOut := v } ∧
      v.getLsbD 0 = s.status.fault ∧ v.extractLsb' 4 4 = s.status.code ∧ v.getLsbD 8 = s.status.encOpen ∧
      v.getLsbD 9 = s.status.decOpen ∧ ∀ k, k ∈ [1, 2, 3] ∨ 10 ≤ k → v.getLsbD k = false) ∧
  (∀ (s : State) (rest : List HostAction) (m : Fin 15), Quiet s → s.pending = .read (0x100 + 4 * m.val) :: rest →
    ∃ v, step s = .next { s with pending := rest, hostOut := v } ∧ v.extractLsb' 1 6 = s.pm[m.val].state ∧
      v.getLsbD 0 = s.pm[m.val].mps ∧ ∀ k, 7 ≤ k → v.getLsbD k = false) ∧
  (∀ (s : State) (rest : List HostAction), Quiet s → s.pending = .read 0x20 :: rest →
    ∃ v, step s = .next { s with pending := rest, hostOut := v } ∧ v.getLsbD 0 = s.cfg.availTop ∧
      v.getLsbD 1 = s.cfg.availLeft ∧ ∀ k, 2 ≤ k → v.getLsbD k = false) ∧
  (∀ (s : State) (rest : List HostAction), Quiet s → s.pending = .read 0x84 :: rest →
    (∀ b, s.smAddr.toNat < Config.params.streamBytes → cellsRead s.stream s.smAddr.toNat = some b →
      step s = .next { s with pending := rest, hostOut := b.setWidth 32 }) ∧
    (Config.params.streamBytes ≤ s.smAddr.toNat → step s = .next { s with pending := rest, hostOut := 0 })) ∧
  (∀ (s : State) (rest : List HostAction) (i : Nat), Quiet s →
    (∀ w ∈ [(0x1000, 64, s.top), (0x1400, 64, s.left), (0x10000, 4096, s.orig), (0x14000, 4096, s.predb),
        (0x24000, 4096, s.recb)],
      ∀ b : Byte, i < w.2.1 → cellsRead w.2.2 i = some b → s.pending = .read (w.1 + 4 * i) :: rest →
        step s = .next { s with pending := rest, hostOut := b.setWidth 32 }) ∧
    ∀ w ∈ [(0x18000, s.resd), (0x1C000, s.qidx), (0x20000, s.scan)],
      ∀ v : Word, i < 4096 → cellsRead w.2 i = some v → s.pending = .read (w.1 + 4 * i) :: rest →
        step s = .next { s with pending := rest, hostOut := v }) ∧
  ∀ (s : State) (rest : List HostAction) (off : Nat) (v : Word), Quiet s → s.pending = .read off :: rest →
    (off, v) ∈
      [(0x00, s.cmd), (0x04, s.arg), (0x08, s.res), (0x10, s.cfg.h.setWidth 32), (0x14, s.cfg.w.setWidth 32),
       (0x18, s.cfg.bs.setWidth 32), (0x1C, s.cfg.qp.setWidth 32), (0x24, BitVec.ofNat 32 s.bucket.val),
       (0x30, s.bw.ptr), (0x34, s.bw.acc.setWidth 32), (0x38, s.bw.cnt.setWidth 32), (0x40, s.br.ptr),
       (0x44, s.br.stop), (0x48, s.br.buf.setWidth 32), (0x4C, s.br.cnt.setWidth 32), (0x50, s.ae.low),
       (0x54, s.ae.rng.setWidth 32), (0x58, s.ae.buf.setWidth 32), (0x5C, s.ae.run), (0x60, s.ae.debt.signExtend 32),
       (0x70, s.ad.pat), (0x74, s.ad.rng.setWidth 32), (0x78, s.ad.need.signExtend 32), (0x80, s.smAddr)] →
    step s = .next { s with pending := rest, hostOut := v }

/-- Rules R14, R16, R27, R55, R58, R60: a place the host may write reads back what was written, in the bits the place
has; and so does STREAM through `SM_ADDR` and `SM_DATA`, below its capacity. -/
def Obligations.HostWriteRead : Prop :=
  ∀ (s : State) (off : Nat) (v : Word) (rest : List HostAction), Quiet s →
    s.pending = .write off v :: .read off :: rest →
    (∀ mask, writableBits off = some mask →
      ∃ t u, step s = .next t ∧ step t = .next u ∧ u.hostOut = v &&& mask ∧ u.pending = rest) ∧
    (off = 0x84 → s.smAddr.toNat < Config.params.streamBytes →
      ∃ t u, step s = .next t ∧ step t = .next u ∧ u.hostOut = v &&& 0xFF ∧ u.pending = rest ∧
        cellsRead t.stream s.smAddr.toNat = some (v.setWidth 8) ∧
        ∀ a, a ≠ s.smAddr.toNat → cellsRead t.stream a = cellsRead s.stream a) ∧
    (off = 0x84 → Config.params.streamBytes ≤ s.smAddr.toNat →
      step s = .next { s with pending := .read off :: rest } ∧
      step { s with pending := .read off :: rest } = .next { s with pending := rest, hostOut := 0 })

/-- Rules R27, R54, R55: a host write other than of `CMD` changes no other place's reading; a write at a place that is
read-only or not listed changes nothing; and a place not listed reads 0. (`SM_ADDR` selects what `SM_DATA` reads.) -/
def Obligations.HostWriteFrame : Prop :=
  ∀ (s : State) (off : Nat) (v : Word), Quiet s → off % 4 = 0 → off < 0x28000 → off ≠ 0 →
    (∃ t, hostWrite off v s = .next t ∧ Quiet t ∧
      ∀ off', off' % 4 = 0 → off' < 0x28000 → off' ≠ off → ¬(off = 0x80 ∧ off' = 0x84) →
        readReg Config.params t (locate off') = readReg Config.params s (locate off')) ∧
    (off ≠ 0x84 → writableBits off = none → hostWrite off v s = .next s) ∧
    (off ≠ 0x84 → writableBits off = none →
      off ∉ [0x08, 0x0C, 0x24, 0x34, 0x38, 0x48, 0x4C, 0x50, 0x54, 0x58, 0x5C, 0x60, 0x70, 0x74, 0x78] →
      hostRead off s = .next { s with hostOut := 0 })

/-! ## Reset -/

/-- Rule R350: the reset input puts every register at its reset value and leaves STREAM and the buffers; and the state
after power-on has those values. (What `CMD` holds is not said here; see log 1.) -/
def Obligations.ResetInput : Prop :=
  (∀ (s : State) (rest : List HostAction), s.pending = .reset :: rest →
    ∃ c, step s = .next
      { s with
        pending := rest, cmd := c, arg := 0, res := 0, status := ⟨false, 0, false, false⟩,
        cfg := ⟨0, 0, 0, 0, false, false⟩, pm := Vector.replicate 15 ⟨0, false⟩, bucket := 0, bw := ⟨0, 0, 0⟩,
        br := ⟨0, 0, 0, 0⟩, ae := ⟨0, 510, 0xFF, 0, 23⟩, ad := ⟨0, 510, 0xF8⟩, smAddr := 0 }) ∧
  (State.reset.arg = 0 ∧ State.reset.res = 0 ∧ State.reset.status = ⟨false, 0, false, false⟩ ∧
    State.reset.cfg = ⟨0, 0, 0, 0, false, false⟩ ∧ State.reset.pm = Vector.replicate 15 ⟨0, false⟩ ∧
    State.reset.bucket = 0 ∧ State.reset.bw = ⟨0, 0, 0⟩ ∧ State.reset.br = ⟨0, 0, 0, 0⟩ ∧
    State.reset.ae = ⟨0, 510, 0xFF, 0, 23⟩ ∧ State.reset.ad = ⟨0, 510, 0xF8⟩ ∧ State.reset.smAddr = 0)

/-- Rule R311: `SRESET`, in any state, faulted or not. That `CMD` keeps the word written is the model's choice (log 1). -/
def Obligations.Sreset : Prop :=
  decode 0x01000000 = .ok .sreset ∧
  (∀ s : State, exec .sreset s = .next
    { s with
      arg := 0, res := 0, status := ⟨false, 0, false, false⟩, cfg := ⟨0, 0, 0, 0, false, false⟩,
      pm := Vector.replicate 15 ⟨0, false⟩, bucket := 0, bw := ⟨0, 0, 0⟩, br := ⟨0, 0, 0, 0⟩,
      ae := ⟨0, 510, 0xFF, 0, 23⟩, ad := ⟨0, 510, 0xF8⟩, smAddr := 0 }) ∧
  ∀ (s : State) (rest : List HostAction) (w : Word), s.status.fault = true → s.pending = .write 0 w :: rest →
    (w ≠ 0x01000000 → step s = .next { s with pending := rest }) ∧
    (w = 0x01000000 → ∃ t, step s = .next t ∧ t.status = ⟨false, 0, false, false⟩)

/-- Rules R310, R312: `NOP` changes nothing; `CTXINIT` puts the fifteen models and `BUCKET` at 0 and changes nothing
else. -/
def Obligations.NopCtxinit : Prop :=
  decode 0x00000000 = .ok .nop ∧ decode 0x02000000 = .ok .ctxinit ∧
  ∀ s : State,
    exec .nop s = .next s ∧
    (Quiet s → exec .ctxinit s = .next { s with pm := Vector.replicate 15 ⟨0, false⟩, bucket := 0 })

/-! ## Bit input and output -/

/-- Rules R51, R52, R100, R102, R103: the writer appends its bits, most significant first, wherever it stands in a byte;
everything before them, every other STREAM byte and every other register stay. Without room for the bytes they complete
it raises `OutOverflow`. -/
def Obligations.BwBits : Prop :=
  ∀ (s : State) (i : Instr) (n v : Nat), Quiet s → s.bw.cnt.toNat ≤ 7 →
    ((∃ b, i = .bwBit b ∧ n = 1 ∧ v = bitNat b) ∨
      ∃ c : BitVec 8, i = .bwBits c ∧ n = c.toNat ∧ c.toNat ≤ 32 ∧ v = s.arg.toNat) →
    (writerRoom Config.params s n →
      ∃ t, exec i s = .next t ∧ outPos t = outPos s + n ∧ t.bw.cnt.toNat ≤ 7 ∧
        (∀ j, j < n → outBit t (outPos s + j) = some (v.testBit (n - 1 - j))) ∧
        (∀ k, k < outPos s → outBit t k = outBit s k) ∧
        (∀ a, a < s.bw.ptr.toNat ∨ t.bw.ptr.toNat ≤ a → cellsRead t.stream a = cellsRead s.stream a) ∧
        t = { s with stream := t.stream, bw := t.bw }) ∧
    (¬writerRoom Config.params s n → Raises i s 4)

/-- Rule R104: `BW_ALIGN` does nothing on a byte boundary; elsewhere it appends `8 - BW_CNT` zero bits and writes the one
byte they complete at `BW_PTR`, or raises `OutOverflow` when there is no such byte. -/
def Obligations.BwAlign : Prop :=
  encode .bwAlign = 0x12000000 ∧
  ∀ s : State, Quiet s → s.bw.cnt.toNat ≤ 7 →
    (s.bw.cnt = 0 → exec .bwAlign s = .next s) ∧
    (s.bw.cnt ≠ 0 → s.bw.ptr.toNat < Config.params.streamBytes →
      ∃ t, exec .bwAlign s = .next t ∧ t = { s with stream := t.stream, bw := ⟨0, 0, s.bw.ptr + 1⟩ } ∧
        cellsRead t.stream s.bw.ptr.toNat = some (s.bw.acc <<< (8 - s.bw.cnt.toNat)) ∧
        ∀ a, a ≠ s.bw.ptr.toNat → cellsRead t.stream a = cellsRead s.stream a) ∧
    (s.bw.cnt ≠ 0 → Config.params.streamBytes ≤ s.bw.ptr.toNat → Raises .bwAlign s 4)

/-- Rules R51, R52, R101, R105, R106, R108: the reader returns the next bits, the first one most significant, and moves
on past them, fetching bytes only as they are needed; at the end of the data it raises `EndOfStream`. -/
def Obligations.BrBits : Prop :=
  ∀ (s : State) (i : Instr) (n : Nat), Quiet s → s.br.cnt.toNat ≤ 8 →
    (i = .brBit ∧ n = 1 ∨ ∃ c : BitVec 8, i = .brBits c ∧ n = c.toNat ∧ c.toNat ≤ 32) →
    (∀ v, peek Config.params s n = some v →
      exec i s = .next { s with res := BitVec.ofNat 32 v, br := readerAfter s n }) ∧
    (Ended Config.params s n → Raises i s 1)

/-- Rule R107: `BR_ALIGN` sets `BR_CNT` to 0 and does nothing else; it reads nothing and never faults. -/
def Obligations.BrAlign : Prop :=
  encode .brAlign = 0x16000000 ∧
  ∀ s : State, Quiet s → exec .brAlign s = .next { s with br := { s.br with cnt := 0 } }

/-- Rules R52, R100, R101, R109: bits written with `BW_BITS` and padded with `BW_ALIGN` are read back by `BR_BITS` from
the byte they began at, whatever their number. -/
def Obligations.WriteThenRead : Prop :=
  ∀ (s : State) (n : BitVec 8), Quiet s → s.bw.cnt = 0 → n.toNat ≤ 32 → writerRoom Config.params s (n.toNat + 7) →
    ∃ t u, exec (.bwBits n) s = .next t ∧ exec .bwAlign t = .next u ∧
      ∀ b : Byte, ∃ x,
        exec (.brBits n) { u with br := ⟨b, 0, s.bw.ptr, u.bw.ptr⟩ } = .next x ∧
        x.res.toNat = s.arg.toNat % 2 ^ n.toNat ∧ x.br.ptr = u.bw.ptr

/-! ## Probability models -/

/-- Rules R121 to R124: `PM_MPS` and `PM_LPS` move one model by their tables, flip its `mps` where the LPS table reaches
state 0, and change nothing else; `PM_MPS` never lowers a state (rule R126 (b)). That the flip tests the state after it
advances, `LPS_FLIP = after`, is log 15. -/
def Obligations.PmUpdates : Prop :=
  ∀ (s : State) (m : Selector), Quiet s →
    let k := resolve m s
    let x := s.pm[k.val]
    exec (.pmMps m) s = .next { s with pm := s.pm.set k.val ⟨Config.params.nextMps x.state, x.mps⟩ } ∧
    exec (.pmLps m) s = .next
      { s with
        pm := s.pm.set k.val
          ⟨Config.params.nextLps x.state, if Config.params.nextLps x.state = 0 then !x.mps else x.mps⟩ } ∧
    x.state.toNat ≤ (Config.params.nextMps x.state).toNat

/-- Rules R125, R190, R196, R361: the two cost estimates write `RES` and change nothing else. -/
def Obligations.Estimates : Prop :=
  ∀ (s : State) (m : Selector) (b : Bool), Quiet s →
    let x := s.pm[(resolve m s).val]
    let cost := fun c : Bool => (Config.params.estBits x.state (c != x.mps)).toNat
    let k := Nat.log2 (s.arg.toNat + 1)
    exec (.pmEst m b) s = .next { s with res := Config.params.estBits x.state (b != x.mps) } ∧
    (s.arg ≠ 0xFFFFFFFF → exec (.aeEgest m) s = .next
      { s with res := BitVec.ofNat 32 (k * cost false + cost true + k * Config.params.estBypass.toNat) }) ∧
    (s.arg = 0xFFFFFFFF → Raises (.aeEgest m) s 6)

/-- Rules R17, R85: an active alias stands for the bank's model that `BUCKET` selects when the command starts. -/
def Obligations.ActiveAliases : Prop :=
  ∀ (s : State) (sel : Selector) (m : Fin 15) (b : Bool) (n : BitVec 8), aliasOf s.bucket sel = some m →
    exec (.pmMps sel) s = exec (.pmMps (.model m)) s ∧ exec (.pmLps sel) s = exec (.pmLps (.model m)) s ∧
    exec (.pmEst sel b) s = exec (.pmEst (.model m) b) s ∧ exec (.aeBit sel b) s = exec (.aeBit (.model m) b) s ∧
    exec (.aeBits sel n) s = exec (.aeBits (.model m) n) s ∧ exec (.aeEg sel) s = exec (.aeEg (.model m)) s ∧
    exec (.aeEgest sel) s = exec (.aeEgest (.model m)) s ∧ exec (.adBit sel) s = exec (.adBit (.model m)) s ∧
    exec (.adEg sel) s = exec (.adEg (.model m)) s

/-! ## The arithmetic encoder -/

/-- Rule R140: `AE_START` aligns the writer as `BW_ALIGN` does, puts the encoder at its initial values and opens the
session; on a byte boundary it begins a session (rules R21, R149) with the whole interval. -/
def Obligations.AeStart : Prop :=
  ∀ s : State, Quiet s → s.bw.cnt.toNat ≤ 7 →
    (∀ t, exec .bwAlign s = .next t → Quiet t →
      exec .aeStart s = .next { t with ae := ⟨0, 510, 0xFF, 0, 23⟩, status := { t.status with encOpen := true } }) ∧
    (∀ code, Raises .bwAlign s code → Raises .aeStart s code) ∧
    (s.bw.cnt = 0 → ∃ t, exec .aeStart s = .next t ∧ t.status = { s.status with encOpen := true } ∧
      t = { s with ae := t.ae, status := t.status } ∧ Session s.bw.ptr.toNat t ∧
      codeValue s.bw.ptr.toNat t = some 0 ∧ t.ae.rng = 510 ∧ sessionBits t = 8 * s.bw.ptr.toNat)

/-- Rules R21, R126, R127, R132, R141 to R143, R149: a context-coded bin takes the lower part of the interval for the MPS
and the upper part, of the table's width, for the LPS, doubles it until the range has nine bits, and moves the model (with
`LPS_FLIP = after`, log 15). -/
def Obligations.AeBit : Prop :=
  ∀ (s : State) (start L : Nat) (sel : Selector) (b : Bool), Session start s → codeValue start s = some L →
    encoderRoom Config.params s 1 →
    let m := resolve sel s
    let x := s.pm[m.val]
    let w := (Config.params.lpsWidth x.state (s.ae.rng.extractLsb' 6 2)).toNat
    let r := s.ae.rng.toNat - w
    let n := if b = x.mps then (if r < 256 then 1 else 0) else 8 - Nat.log2 w
    let off := if b = x.mps then 0 else r * 2 ^ n
    let part := if b = x.mps then r else w
    ∃ t, exec (.aeBit sel b) s = .next t ∧ Coded start s t L n off (part * 2 ^ n) ∧
      t.pm = s.pm.set m.val (modelAfter x (b == x.mps))

/-- Rules R141, R142, R145, R149: a bypass bin takes the lower half of the interval for 0 and the upper half for 1, and
consults no model. -/
def Obligations.AeByp : Prop :=
  ∀ (s : State) (start L : Nat) (b : Bool), Session start s → codeValue start s = some L →
    encoderRoom Config.params s 1 →
    ∃ t, exec (.aeByp b) s = .next t ∧
      Coded start s t L 1 (if b then s.ae.rng.toNat else 0) s.ae.rng.toNat ∧ t.pm = s.pm

/-- Rules R144, R146: `AE_BITS` is one `AE_BIT` for each bit of `ARG`, most significant first, all with the model the
selector names at the start; `AE_BYPS` is one `AE_BYP` for each. -/
def Obligations.AeBits : Prop :=
  ∀ (s : State) (start L : Nat) (sel : Selector) (n : BitVec 8), Session start s → codeValue start s = some L →
    n.toNat ≤ 32 → encoderRoom Config.params s n.toNat →
    (∃ t, exec (.aeBits sel n) s = .next t ∧ Session start t ∧
      Runs ((List.range n.toNat).map fun j =>
        .aeBit (.model (resolve sel s)) (s.arg.toNat.testBit (n.toNat - 1 - j))) s t) ∧
    ∃ t, exec (.aeByps n) s = .next t ∧ Session start t ∧
      Runs ((List.range n.toNat).map fun j => .aeByp (s.arg.toNat.testBit (n.toNat - 1 - j))) s t

/-- Rules R190, R191, R193: `AE_EG` codes `v = ARG` as `k` zeros and a one with its model, `k = floor(log2(v + 1))`, and
then the low `k` bits of `v + 1` as bypass bins; `v = 2^32 - 1` raises `OperandRange`. -/
def Obligations.AeEg : Prop :=
  ∀ (s : State) (start L : Nat) (sel : Selector), Session start s → codeValue start s = some L →
    let v := s.arg.toNat
    let k := Nat.log2 (v + 1)
    (s.arg ≠ 0xFFFFFFFF → encoderRoom Config.params s (2 * k + 1) →
      ∃ t, exec (.aeEg sel) s = .next t ∧ Session start t ∧
        Runs (List.replicate k (.aeBit (.model (resolve sel s)) false) ++ [.aeBit (.model (resolve sel s)) true] ++
          (List.range k).map fun j => .aeByp ((v + 1).testBit (k - 1 - j))) s t) ∧
    (s.arg = 0xFFFFFFFF → Raises (.aeEg sel) s 6)

/-- Rules R147 to R150, R363: `AE_TERM` closes the session with the writer on a byte boundary. The bytes from the
session's start on are then the code word, as long as the bits taken in, 7 for the terminating bin and 2 more, rounded up
to bytes: the largest odd number below the end of the interval, padded with zeros. Said of every instance `p`, because
`STREAM_BYTES` is open. -/
def Obligations.AeTerm : Prop :=
  ∀ p : Config.Params, p.Ok → ∀ (s : State) (start L : Nat), Session start s → codeValue start s = some L →
    (sessionBits s + 16) / 8 ≤ p.streamBytes →
    ∃ t bs, runCommand [] (aeTerm p) s = .next t ∧ (p = Config.params → exec .aeTerm s = .next t) ∧
      t.status = { s.status with encOpen := false } ∧ t.bw.cnt = 0 ∧
      t.bw.ptr.toNat = (sessionBits s + 16) / 8 ∧
      cellsReadRange t.stream start (t.bw.ptr.toNat - start) = some bs ∧
      beValue bs = ((L + s.ae.rng.toNat - 2) / 2 * 2 + 1) * 2 ^ (7 - sessionBits s % 8) ∧
      (∀ a, a < s.bw.ptr.toNat ∨ t.bw.ptr.toNat ≤ a → cellsRead t.stream a = cellsRead s.stream a) ∧
      t = { s with stream := t.stream, bw := t.bw, ae := t.ae, status := t.status }

/-! ## The arithmetic decoder -/

/-- Rule R170: `AD_START` aligns the reader, reads 16 bits and puts the decoder at its initial values; the session's
invariants hold then (rule R23), the pattern's bound exactly when the 16 bits are below 0xFF00. Without two bytes it
raises `EndOfStream`. Said of every instance `p`, because `STREAM_BYTES` is open. -/
def Obligations.AdStart : Prop :=
  ∀ p : Config.Params, p.Ok → ∀ s : State, Quiet s →
    let a := { s with br := { s.br with cnt := 0 } }
    (∀ v, peek p a 16 = some v →
      ∃ t, runCommand [] (adStart p) s = .next t ∧ (p = Config.params → exec .adStart s = .next t) ∧
        t = { s with
          br := readerAfter a 16, ad := ⟨BitVec.ofNat 32 v, 510, 0xF8⟩,
          status := { s.status with decOpen := true } } ∧
        t.ad.pat.toNat = v ∧ DecoderInv t.ad ∧ (PatternInside t.ad ↔ v < 0xFF00)) ∧
    (Ended p a 16 → FaultsWith (runCommand [] (adStart p) s) s 1 ∧ (p = Config.params → Raises .adStart s 1))

/-- Rules R23, R126, R127, R132, R171, R175: a context-coded bin compares the pattern with the lower part of the range,
scaled by 128: below it the bin is the MPS, otherwise the LPS and the lower part is subtracted. The part taken is shifted
until the range has nine bits, a byte is pulled when eight bits are open, and the model moves (with `LPS_FLIP = after`,
log 15). -/
def Obligations.AdBit : Prop :=
  ∀ (s : State) (sel : Selector) (v : Nat), Quiet s → DecoderInv s.ad → s.br.cnt.toNat ≤ 8 →
    let m := resolve sel s
    let x := s.pm[m.val]
    let w := (Config.params.lpsWidth x.state (s.ad.rng.extractLsb' 6 2)).toNat
    let r := s.ad.rng.toNat - w
    let lps := decide (r * 128 ≤ s.ad.pat.toNat)
    let n := if lps then 8 - Nat.log2 w else if r < 256 then 1 else 0
    let base := if lps then s.ad.pat.toNat - r * 128 else s.ad.pat.toNat
    let part := if lps then w else r
    ((0 ≤ s.ad.need.toInt + n → peek Config.params s 8 = some v) →
      ∃ t, exec (.adBit sel) s = .next t ∧ t.res = (if lps = x.mps then 0 else 1) ∧
        t.pm = s.pm.set m.val (modelAfter x (!lps)) ∧ Renormed s t base n (part * 2 ^ n) v ∧
        t = { s with res := t.res, br := t.br, ad := t.ad, pm := t.pm }) ∧
    (0 ≤ s.ad.need.toInt + n → Ended Config.params s 8 → Raises (.adBit sel) s 1)

/-- Rules R172, R175: a bypass bin doubles the pattern, pulls a byte when eight bits are open, and is 1 when the pattern
is then at least the range scaled by 128, which is subtracted. It consults no model. -/
def Obligations.AdByp : Prop :=
  ∀ (s : State) (v : Nat), Quiet s → DecoderInv s.ad → s.br.cnt.toNat ≤ 8 →
    let pulls := decide (s.ad.need.toInt = -1)
    let P := (2 * s.ad.pat.toNat + if pulls then v else 0) % 2 ^ 32
    let one := decide (s.ad.rng.toNat * 128 ≤ P)
    ((pulls = true → peek Config.params s 8 = some v) →
      exec .adByp s = .next
        { s with
          res := if one then 1 else 0,
          br := if pulls then readerAfter s 8 else s.br,
          ad :=
            { pat := BitVec.ofNat 32 (if one then P - s.ad.rng.toNat * 128 else P), rng := s.ad.rng,
              need := if pulls then 0xF8 else s.ad.need + 1 } }) ∧
    (pulls = true → Ended Config.params s 8 → Raises .adByp s 1)

/-- Rule R173: `AD_BYPS` puts the bins of that many bypass decodings together, the first one most significant, and it
needs no more input than one byte for each eight bits that open. -/
def Obligations.AdByps : Prop :=
  ∀ (s : State) (n : BitVec 8), Quiet s → n.toNat ≤ 32 →
    (∀ v t, v < 2 ^ n.toNat → DecodesTo Config.params (bypBins v n.toNat) s t →
      exec (.adByps n) s = .next { t with res := BitVec.ofNat 32 v }) ∧
    (DecoderInv s.ad → s.br.cnt.toNat ≤ 8 →
      (peek Config.params s (8 * (((s.ad.need.toInt + 8).toNat + n.toNat) / 8))).isSome = true →
      ∃ v t, v < 2 ^ n.toNat ∧ DecodesTo Config.params (bypBins v n.toNat) s t ∧
        exec (.adByps n) s = .next { t with res := BitVec.ofNat 32 v })

/-- Rule R174: `AD_TERM` takes 2 off the range; when the pattern is at least that range scaled by 128 the session is
closed and nothing else changes, and otherwise it raises `StreamCorrupt`. -/
def Obligations.AdTerm : Prop :=
  encode .adTerm = 0x45000000 ∧
  ∀ s : State, Quiet s → 2 ≤ s.ad.rng.toNat →
    ((s.ad.rng.toNat - 2) * 128 ≤ s.ad.pat.toNat → exec .adTerm s = .next
      { s with ad := { s.ad with rng := s.ad.rng - 2 }, status := { s.status with decOpen := false } }) ∧
    (s.ad.pat.toNat < (s.ad.rng.toNat - 2) * 128 → Raises .adTerm s 2)

/-- Rules R23 (c), R176 (a): the pattern stays inside the range through every command but `AD_START`, which sets it, and
`AD_TERM`, which ends the session, whatever the stream holds. -/
def Obligations.PatternBound : Prop :=
  ∀ (i : Instr) (s t : State), Quiet s → DecoderInv s.ad → PatternInside s.ad → i ≠ .adStart → i ≠ .adTerm →
    exec i s = .next t → Quiet t → DecoderInv t.ad ∧ PatternInside t.ad

/-- Rules R190, R192, R193: `AD_EG` returns `v` when the decoder answers the bins of `v`'s Exp-Golomb code, and raises
`SyntaxRange` at the thirty-second zero. With 63 bytes of input the decoder answers one or the other; and where the first
bin is 1 the command completes with 0, for one byte of input. Said of every instance `p`, because `STREAM_BYTES` is
open. -/
def Obligations.AdEg : Prop :=
  ∀ (p : Config.Params) (s : State) (sel : Selector), Quiet s →
    let m := resolve sel s
    (∀ v t, v ≤ 2 ^ 32 - 2 → DecodesTo p (egBins m v) s t →
      runCommand [] (adEg p sel) s = .next { t with res := BitVec.ofNat 32 v } ∧
        (p = Config.params → exec (.adEg sel) s = .next { t with res := BitVec.ofNat 32 v })) ∧
    (∀ t, DecodesTo p (List.replicate 32 (.ctx m false)) s t →
      FaultsWith (runCommand [] (adEg p sel) s) s 7 ∧ (p = Config.params → Raises (.adEg sel) s 7)) ∧
    (p.Ok → DecoderInv s.ad → s.br.cnt.toNat ≤ 8 →
      ((peek p s 504).isSome = true →
        (∃ v t, v ≤ 2 ^ 32 - 2 ∧ DecodesTo p (egBins m v) s t) ∨
          ∃ t, DecodesTo p (List.replicate 32 (.ctx m false)) s t) ∧
      ((peek p s 8).isSome = true →
        let x := s.pm[m.val]
        let w := (p.lpsWidth x.state (s.ad.rng.extractLsb' 6 2)).toNat
        decide ((s.ad.rng.toNat - w) * 128 ≤ s.ad.pat.toNat) = !x.mps →
        ∃ t, runCommand [] (adEg p sel) s = .next t ∧ (p = Config.params → exec (.adEg sel) s = .next t) ∧
          Quiet t ∧ t.res = 0))

/-! ## Context selection and the scan -/

/-- Rules R197 to R200: `CTX_SW` sets `BUCKET` to the class of the anti-diagonal of the `ARG`-th position of the diagonal
scan, below 4, below 7 or above, and changes nothing else; an index outside the partition raises `OperandRange`. -/
def Obligations.CtxSw : Prop :=
  ∀ (s : State) (h : PartSize), Quiet s → LegalSize s →
    (∀ r c, (diagScan (sizeOf s h))[s.arg.toNat]? = some (r, c) →
      exec (.ctxSw h) s = .next { s with bucket := if r + c < 4 then 0 else if r + c < 7 then 1 else 2 }) ∧
    (s.arg.toNat < sizeOf s h * sizeOf s h → ∃ r c, (diagScan (sizeOf s h))[s.arg.toNat]? = some (r, c)) ∧
    (sizeOf s h * sizeOf s h ≤ s.arg.toNat → Raises (.ctxSw h) s 6)

/-- Rules R198, R255: the diagonal scan visits every position of the square once, the anti-diagonals in increasing order
and each from its bottom-left end to its top-right end. -/
def Obligations.DiagonalScan : Prop :=
  ∀ n : Nat, 1 ≤ n →
    (diagScan n).length = n * n ∧ (∀ r c, (r, c) ∈ diagScan n ↔ r < n ∧ c < n) ∧
    (diagScan n).Pairwise fun x y => x.1 + x.2 < y.1 + y.2 ∨ x.1 + x.2 = y.1 + y.2 ∧ y.1 < x.1

/-- Rules R251, R313, R325: every command that works on a partition raises `ConfigError` when `CFG_BS` is odd, below 2 or
above 64, whatever else it would find; and `QUANT` and `DEQ` when `CFG_QP` is above 31. The limit 64 is `NMAX` of the
reference configuration, the model's choice (log 14). -/
def Obligations.ConfigErrors : Prop :=
  ∀ (s : State) (pm : PredMode) (h : PartSize), Quiet s →
    (¬LegalSize s → ∀ i ∈
      [Instr.ctxSw h, .pred pm h, .resid h, .txf pm h, .quant h, .scanf pm h, .scani pm h, .deq h, .txi pm h, .recon h,
       .dist h, .encCoef h, .decCoef h], Raises i s 5) ∧
    (31 < s.cfg.qp.toNat → Raises (.quant h) s 5 ∧ Raises (.deq h) s 5)

/-! ## Prediction, residual, transform, quantizer, reconstruction -/

/-- Rules R230 to R235: the prediction of each mode from the effective borders, an unavailable one being 128 throughout;
only elements below `N * N` of `PREDB` change. -/
def Obligations.Pred : Prop :=
  ∀ (s : State) (pm : PredMode) (h : PartSize) (T L : Nat → Nat), Quiet s → LegalSize s →
    TopIs s (sizeOf s h) T → LeftIs s (sizeOf s h) L →
    let n := sizeOf s h
    ∃ (t : State) (P : Nat → Nat → Nat), exec (.pred pm h) s = .next t ∧ t = { s with predb := t.predb } ∧ SameFrom (n * n) s.predb t.predb ∧
      (∀ r c, r < n → c < n → cellsRead t.predb (r * n + c) = some (BitVec.ofNat 8 (P r c)) ∧ P r c ≤ 255) ∧
      match pm with
      | .dc => ∃ v, (∀ r c, P r c = v) ∧
        (s.cfg.availTop = true → s.cfg.availLeft = true → Rounded (sumTo n T + sumTo n L) (2 * n) v) ∧
        (s.cfg.availTop = true → s.cfg.availLeft = false → Rounded (sumTo n T) n v) ∧
        (s.cfg.availTop = false → s.cfg.availLeft = true → Rounded (sumTo n L) n v) ∧
        (s.cfg.availTop = false → s.cfg.availLeft = false → v = 128)
      | .vertical => ∀ r c, r < n → c < n → P r c = T c
      | .horizontal => ∀ r c, r < n → c < n → P r c = L r
      | .planar => ∀ r c, r < n → c < n → P r c =
        ((n - 1 - c) * L r + (c + 1) * T (n - 1) + (n - 1 - r) * T c + (r + 1) * L (n - 1)) / (2 * n)

/-- Rule R250: `RESID` leaves the difference of `ORIG` and `PREDB` in every element of the partition, and changes nothing
else; with an illegal size it raises `ConfigError` (above 64: the model's `NMAX`, log 14). -/
def Obligations.Resid : Prop :=
  encode (.resid .full) = 0x61000000 ∧ encode (.resid .half) = 0x61000004 ∧
  ∀ (s : State) (h : PartSize), Quiet s →
    (LegalSize s → ∀ O P : Nat → Byte,
      let n := sizeOf s h
      (∀ i, i < n * n → cellsRead s.orig i = some (O i) ∧ cellsRead s.predb i = some (P i)) →
      ∃ t, exec (.resid h) s = .next t ∧ t = { s with resd := t.resd } ∧ SameFrom (n * n) s.resd t.resd ∧
        ∀ i, i < n * n → ∃ v : Word, cellsRead t.resd i = some v ∧ v.toInt = ((O i).toNat : Int) - (P i).toNat) ∧
    (¬LegalSize s → Raises (.resid h) s 5)

/-- Rules R57, R210 to R214, R216, R252: under every instance of `NUM`, `TXF` and `TXI` hand the partition in raster order,
with the bases of the mode's vertical and horizontal axes, to the instance and write the whole of its result. Where the
matrices are rational (size 1, and DC at size 2), and the operands too, the result is the exact product (rule R271's
example; log 10), and the coefficients of residuals are at most `255 N`. Under the reference instance every element is
that of the exact real product; that instance has `NUM_ZERO`, `NUM_ORTH` and `NUM_LIN`. -/
def Obligations.Transforms : Prop :=
  (∀ (p : Config.Params) (s : State) (pm : PredMode) (h : PartSize), Quiet s → LegalSize s →
    let n := sizeOf s h
    (∀ xs : List Word, cellsReadRange s.resd 0 (n * n) = some xs →
      let exact := Config.txfReal (verticalBasis pm) (horizontalBasis pm) n (xs.map fun x => (x.toInt : ℝ))
      ∃ ys : List Config.RealVal, runCommand [.coef] (txf p pm h) s = .next { s with coef := some ⟨n, ys⟩ } ∧
        (p = Config.params → exec (.txf pm h) s = .next { s with coef := some ⟨n, ys⟩ }) ∧ ys.length = n * n ∧
        (∀ u v, u < n → v < n → ys[u * n + v]? =
          some (p.num.txf (verticalBasis pm) (horizontalBasis pm) n (xs.map BitVec.toInt) u v)) ∧
        (p.Ok → n = 1 ∨ n = 2 ∧ pm = .dc → ∀ u v, u < n → v < n → (ys.getD (u * n + v) .zero).val = exact u v) ∧
        (p.Ok → (∀ x ∈ xs, x.toInt.natAbs ≤ 255) → ∀ y ∈ ys, |y.val| ≤ 255 * n) ∧
        (p.num = Config.exactNum → ∀ u v, u < n → v < n → (ys.getD (u * n + v) .zero).val = exact u v)) ∧
    ∀ ys : List Config.RealVal, s.dcoef = some ⟨n, ys⟩ →
      let exact := Config.txiReal (verticalBasis pm) (horizontalBasis pm) n (ys.map Config.RealVal.val)
      ∃ xs : List Config.RealVal, runCommand [.rres] (txi p pm h) s = .next { s with rres := some ⟨n, xs⟩ } ∧
        (p = Config.params → exec (.txi pm h) s = .next { s with rres := some ⟨n, xs⟩ }) ∧ xs.length = n * n ∧
        (∀ r c, r < n → c < n → xs[r * n + c]? =
          some (p.num.txi (verticalBasis pm) (horizontalBasis pm) n ys r c)) ∧
        (p.Ok → n = 1 ∨ n = 2 ∧ pm = .dc → (∀ y ∈ ys, y.quarters = 0 ∧ y.rest = []) →
          ∀ r c, r < n → c < n → (xs.getD (r * n + c) .zero).val = exact r c) ∧
        (p.num = Config.exactNum → ∀ r c, r < n → c < n → (xs.getD (r * n + c) .zero).val = exact r c)) ∧
  Config.exactNum.Ok ∧ Config.exactNum.Orth ∧ Config.exactNum.Lin

/-- Rules R216, R251, R252: under every instance of `NUM`, `QUANT` leaves the instance's index of each coefficient, and
changes nothing else; an index that does not fit raises `OperandRange`, which the coefficients of a residual cannot do.
The index is `sgn(y) * floor(|y| / STEP + 2/5)` of each coefficient `y`, with the real step `STEP = 2^(CFG_QP/4)`, in the
reference instance and in the machine's own: that the machine's own step and quantizer are exact too, and not only those of
the reference instance, is the model's choice (log 10). -/
def Obligations.Quant : Prop :=
  (∀ (s : State) (h : PartSize) (ys : List Config.RealVal), Quiet s → LegalSize s → s.cfg.qp.toNat ≤ 31 →
    s.coef = some ⟨sizeOf s h, ys⟩ → ys.length = sizeOf s h * sizeOf s h →
    let n := sizeOf s h
    let step : ℝ := 2 ^ ((s.cfg.qp.toNat : ℝ) / 4)
    let y := fun i => (ys.getD i .zero).val
    ∀ p : Config.Params,
      let q : Nat → Int := fun i => p.num.quant (ys.getD i .zero) (p.num.step s.cfg.qp.toNat)
      ((∀ i, i < n * n → (q i).natAbs ≤ 2 ^ 31 - 1) →
        ∃ t, runCommand [.qidx] (quant p h) s = .next t ∧ (p = Config.params → exec (.quant h) s = .next t) ∧
          t = { s with qidx := t.qidx } ∧ SameFrom (n * n) s.qidx t.qidx ∧
          ∀ i, i < n * n → ∃ v : Word, cellsRead t.qidx i = some v ∧ v.toInt = q i) ∧
      ((∃ i, i < n * n ∧ 2 ^ 31 - 1 < (q i).natAbs) →
        FaultsWith (runCommand [.qidx] (quant p h) s) s 6 ∧ (p = Config.params → Raises (.quant h) s 6)) ∧
      (p = Config.params ∨ p.num = Config.exactNum →
        ∀ i, i < n * n → q i = (SignType.sign (y i) : Int) * ⌊|y i| / step + 2 / 5⌋)) ∧
  ∀ (p : Config.Params) (s : State) (pm : PredMode) (h : PartSize), p.Ok → Quiet s → LegalSize s →
    s.cfg.qp.toNat ≤ 31 →
    (∀ i, i < sizeOf s h * sizeOf s h → (cellsRead s.orig i).isSome = true ∧ (cellsRead s.predb i).isSome = true) →
    ∃ t u v, exec (.resid h) s = .next t ∧ runCommand [.coef] (txf p pm h) t = .next u ∧
      runCommand [.qidx] (quant p h) u = .next v ∧ Quiet v ∧
      (p = Config.params → Runs [.resid h, .txf pm h, .quant h] s v)

/-- Rules R5, R216, R251, R253, R254: under every instance of `NUM`, `DEQ` leaves the instance's value of each index, and
`RECON` adds to the prediction the residual as the instance rounds it and clips to 0 to 255. Each changes nothing else. In
the reference instance and in the machine's own the value is the index times the real step `2^(CFG_QP/4)`, and the rounding
is to nearest, a tie to the even integer: that the machine's own step, dequantizer and rounding are exact too, and not only
those of the reference instance, is the model's choice (log 10). -/
def Obligations.DeqRecon : Prop :=
  ∀ (p : Config.Params) (s : State) (h : PartSize), Quiet s → LegalSize s →
    let n := sizeOf s h
    (∀ Q : Nat → Word, s.cfg.qp.toNat ≤ 31 → (∀ i, i < n * n → cellsRead s.qidx i = some (Q i)) →
      ∃ ys : List Config.RealVal, runCommand [.dcoef] (deq p h) s = .next { s with dcoef := some ⟨n, ys⟩ } ∧
        (p = Config.params → exec (.deq h) s = .next { s with dcoef := some ⟨n, ys⟩ }) ∧ ys.length = n * n ∧
        ∀ i, i < n * n → ys.getD i .zero = p.num.deq (Q i).toInt (p.num.step s.cfg.qp.toNat) ∧
          (p = Config.params ∨ p.num = Config.exactNum →
            (ys.getD i .zero).val = (Q i).toInt * (2 : ℝ) ^ ((s.cfg.qp.toNat : ℝ) / 4))) ∧
    ∀ (P : Nat → Byte) (xs : List Config.RealVal), (∀ i, i < n * n → cellsRead s.predb i = some (P i)) →
      s.rres = some ⟨n, xs⟩ → xs.length = n * n →
      ∃ t, runCommand [.recb] (recon p h) s = .next t ∧ (p = Config.params → exec (.recon h) s = .next t) ∧
        t = { s with recb := t.recb } ∧ SameFrom (n * n) s.recb t.recb ∧
        ∀ i, i < n * n → ∃ (v : Byte) (q : Int), cellsRead t.recb i = some v ∧
          q = p.num.round (xs.getD i .zero) ∧ (v.toNat : Int) = max 0 (min 255 ((P i).toNat + q)) ∧
          (p = Config.params ∨ p.num = Config.exactNum →
            |(xs.getD i .zero).val - q| ≤ 1 / 2 ∧ (|(xs.getD i .zero).val - q| = 1 / 2 → q % 2 = 0))

/-- Rule R256: `SCANF` puts the indices in scan order: diagonal for DC and Planar, transposed for Horizontal, unchanged for
Vertical; it changes nothing else, and with an illegal size raises `ConfigError` (above 64: the model's `NMAX`, log 14). -/
def Obligations.Scanf : Prop :=
  (∀ pm h, encode (.scanf pm h) =
    BitVec.ofNat 32 (0x64000000 + 16 * (pmNumber pm).toNat + if h = .half then 4 else 0)) ∧
  ∀ (s : State) (pm : PredMode) (h : PartSize), Quiet s →
    (LegalSize s → ∀ Q : Nat → Word,
      let n := sizeOf s h
      (∀ i, i < n * n → cellsRead s.qidx i = some (Q i)) →
      ∃ t, exec (.scanf pm h) s = .next t ∧ t = { s with scan := t.scan } ∧ SameFrom (n * n) s.scan t.scan ∧
        cellsRead t.scan 0 = some (Q 0) ∧
        match pm with
        | .dc | .planar => ∀ i r c, (diagScan n)[i]? = some (r, c) → cellsRead t.scan i = some (Q (r * n + c))
        | .horizontal => ∀ r c, r < n → c < n → cellsRead t.scan (r * n + c) = some (Q (c * n + r))
        | .vertical => ∀ i, i < n * n → cellsRead t.scan i = some (Q i)) ∧
    (¬LegalSize s → Raises (.scanf pm h) s 5)

/-- Rule R257: `SCANI` is the inverse of `SCANF`: its result element by element, and each of the two after the other, with
the same mode and size, restores the buffer the first one read. An illegal size raises `ConfigError` (above 64: the
model's `NMAX`, log 14). -/
def Obligations.Scani : Prop :=
  (∀ pm h, encode (.scani pm h) =
    BitVec.ofNat 32 (0x65000000 + 16 * (pmNumber pm).toNat + if h = .half then 4 else 0)) ∧
  ∀ (s : State) (pm : PredMode) (h : PartSize), Quiet s →
    (LegalSize s → ∀ X : Nat → Word,
      let n := sizeOf s h
      (∀ i, i < n * n → cellsRead s.scan i = some (X i)) →
      ∃ t, exec (.scani pm h) s = .next t ∧ t = { s with qidx := t.qidx } ∧ SameFrom (n * n) s.qidx t.qidx ∧
        (match pm with
        | .dc | .planar => ∀ i r c, (diagScan n)[i]? = some (r, c) → cellsRead t.qidx (r * n + c) = some (X i)
        | .horizontal => ∀ r c, r < n → c < n → cellsRead t.qidx (c * n + r) = some (X (r * n + c))
        | .vertical => ∀ i, i < n * n → cellsRead t.qidx i = some (X i)) ∧
        ∃ u, exec (.scanf pm h) t = .next u ∧ ∀ a, cellsRead u.scan a = cellsRead s.scan a) ∧
    (LegalSize s → (cellsReadRange s.qidx 0 (sizeOf s h * sizeOf s h)).isSome = true →
      ∃ t u, exec (.scanf pm h) s = .next t ∧ exec (.scani pm h) t = .next u ∧
        ∀ a, cellsRead u.qidx a = cellsRead s.qidx a) ∧
    (¬LegalSize s → Raises (.scani pm h) s 5)

/-- Rule R270: `DIST` returns the sum of squared errors, which fits `RES`, and changes nothing else. An illegal size raises
`ConfigError` (above 64: the model's `NMAX`, log 14). -/
def Obligations.Dist : Prop :=
  encode (.dist .full) = 0x69000000 ∧ encode (.dist .half) = 0x69000004 ∧
  ∀ (s : State) (h : PartSize), Quiet s →
    (LegalSize s → ∀ O R : Nat → Byte,
      let n := sizeOf s h
      (∀ i, i < n * n → cellsRead s.orig i = some (O i) ∧ cellsRead s.recb i = some (R i)) →
      ∃ v : Word, exec (.dist h) s = .next { s with res := v } ∧
        (v.toNat : Int) = ((List.range (n * n)).map fun i => (((O i).toNat : Int) - (R i).toNat) ^ 2).sum) ∧
    (¬LegalSize s → Raises (.dist h) s 5)

/-- Rule R273: a partition whose scanned coefficients are all zero reconstructs to its prediction, whatever the
numerics. -/
def Obligations.ZeroBlock : Prop :=
  ∀ (s : State) (pm : PredMode) (h : PartSize), Quiet s → LegalSize s → s.cfg.qp.toNat ≤ 31 →
    let n := sizeOf s h
    (∀ i, i < n * n → cellsRead s.scan i = some 0 ∧ (cellsRead s.predb i).isSome = true) →
    ∃ t, Runs [.scani pm h, .deq h, .txi pm h, .recon h] s t ∧
      t.dcoef = some ⟨n, List.replicate (n * n) .zero⟩ ∧ t.rres = some ⟨n, List.replicate (n * n) .zero⟩ ∧
      ∀ i, i < n * n → cellsRead t.qidx i = some 0 ∧ cellsRead t.recb i = cellsRead s.predb i

/-! ## Stream syntax -/

/-- Rules R52, R280, R281: `HDR_WR` appends the 56 bits of the header, height, width, block size and quality in this
order, at the writer's position; without room it raises `OutOverflow`. Said of every instance `p`, because `STREAM_BYTES`
is open. -/
def Obligations.HdrWr : Prop :=
  ∀ p : Config.Params, p.Ok → ∀ s : State, Quiet s → s.bw.cnt.toNat ≤ 7 →
    let v := s.cfg.h.toNat * 2 ^ 40 + s.cfg.w.toNat * 2 ^ 24 + s.cfg.bs.toNat * 2 ^ 8 + s.cfg.qp.toNat
    (writerRoom p s 56 →
      ∃ t, runCommand [] (hdrWr p) s = .next t ∧ (p = Config.params → exec .hdrWr s = .next t) ∧
        t.bw.ptr.toNat = s.bw.ptr.toNat + 7 ∧ t.bw.cnt = s.bw.cnt ∧
        (∀ j, j < 56 → outBit t (outPos s + j) = some (v.testBit (55 - j))) ∧
        (∀ k, k < outPos s → outBit t k = outBit s k) ∧
        (∀ a, a < s.bw.ptr.toNat ∨ t.bw.ptr.toNat ≤ a → cellsRead t.stream a = cellsRead s.stream a) ∧
        t = { s with stream := t.stream, bw := t.bw }) ∧
    (¬writerRoom p s 56 → FaultsWith (runCommand [] (hdrWr p) s) s 4 ∧ (p = Config.params → Raises .hdrWr s 4))

/-- Rules R280, R282, R325: `HDR_RD` reads 56 bits into the four configuration registers, when the quality is at most 31;
otherwise it raises `ConfigError`, after the 56 bits are read, so `EndOfStream` comes first. Said of every instance `p`,
because `STREAM_BYTES` is open. -/
def Obligations.HdrRd : Prop :=
  ∀ p : Config.Params, p.Ok → ∀ s : State, Quiet s → s.br.cnt.toNat ≤ 8 →
    (∀ h w bs qp, h < 2 ^ 16 → w < 2 ^ 16 → bs < 2 ^ 16 → qp < 2 ^ 8 →
      peek p s 56 = some (h * 2 ^ 40 + w * 2 ^ 24 + bs * 2 ^ 8 + qp) →
      (qp ≤ 31 → ∃ t, runCommand [] (hdrRd p) s = .next t ∧ (p = Config.params → exec .hdrRd s = .next t) ∧
        t = { s with
          br := readerAfter s 56
          cfg :=
            { s.cfg with
              h := BitVec.ofNat 16 h, w := BitVec.ofNat 16 w, bs := BitVec.ofNat 16 bs, qp := BitVec.ofNat 8 qp } }) ∧
      (31 < qp → FaultsWith (runCommand [] (hdrRd p) s) s 5 ∧ (p = Config.params → Raises .hdrRd s 5))) ∧
    (Ended p s 56 → FaultsWith (runCommand [] (hdrRd p) s) s 1 ∧ (p = Config.params → Raises .hdrRd s 1))

/-- Rules R284, R285, R294: `ENC_PART` and `DEC_PART` are `AE_BIT` and `AD_BIT` with model 2, in every state; and they
complete where those do: `DEC_PART` (rules R171, R175) in every state with the decoder's invariant and the byte it needs,
if it needs one, with the bin in `RES`. -/
def Obligations.PartBit : Prop :=
  ∀ (s : State) (b : Bool),
    exec (.encPart b) s = exec (.aeBit (.model 2) b) s ∧ exec .decPart s = exec (.adBit (.model 2)) s ∧
    (∀ start L, Session start s → codeValue start s = some L → encoderRoom Config.params s 1 →
      ∃ t, exec (.encPart b) s = .next t ∧ Session start t) ∧
    (∀ t, Quiet s → DecodesTo Config.params [.ctx 2 b] s t →
      exec .decPart s = .next { t with res := if b then 1 else 0 }) ∧
    (Quiet s → DecoderInv s.ad → s.br.cnt.toNat ≤ 8 →
      let x := s.pm[2]
      let w := (Config.params.lpsWidth x.state (s.ad.rng.extractLsb' 6 2)).toNat
      let r := s.ad.rng.toNat - w
      let lps := decide (r * 128 ≤ s.ad.pat.toNat)
      let n := if lps then 8 - Nat.log2 w else if r < 256 then 1 else 0
      (0 ≤ s.ad.need.toInt + n → (peek Config.params s 8).isSome = true) →
      ∃ t, exec .decPart s = .next t ∧ Quiet t ∧ t.res = (if lps = x.mps then 0 else 1) ∧
        t = { s with res := t.res, br := t.br, ad := t.ad, pm := t.pm })

/-- Rules R286, R287, R294: `ENC_PMODE` codes the bins of the mode's path through the tree, one to three, with models 3, 4
and 5. Said of every instance `p`, because `STREAM_BYTES` is open. -/
def Obligations.EncPmode : Prop :=
  ∀ p : Config.Params, p.Ok → ∀ (s : State) (start L : Nat) (pm : PredMode), Session start s →
    codeValue start s = some L → encoderRoom p s 3 →
    ∃ t, encodeBins p
        (match pm with
        | .planar => [.ctx 3 true]
        | .dc => [.ctx 3 false, .ctx 4 true]
        | .horizontal => [.ctx 3 false, .ctx 4 false, .ctx 5 true]
        | .vertical => [.ctx 3 false, .ctx 4 false, .ctx 5 false]) s = .ok () t ∧ Session start t ∧
      runCommand [] (encPmode p pm) s = .next t ∧ (p = Config.params → exec (.encPmode pm) s = .next t)

/-- Rules R86, R286, R288: `DEC_PMODE` returns the number of the mode whose bins the decoder answers, and every run of the
decoder through the tree's bins is the run of one mode. With three bytes of input it completes: said of every instance
`p`, because `STREAM_BYTES` is open. -/
def Obligations.DecPmode : Prop :=
  ∀ (s t : State), Quiet s →
    (∀ pm, DecodesTo Config.params (pmodeBins pm) s t → exec .decPmode s = .next { t with res := pmNumber pm }) ∧
    (∀ u, exec .decPmode s = .next u → Quiet u →
      ∃ pm t', DecodesTo Config.params (pmodeBins pm) s t' ∧ u = { t' with res := pmNumber pm }) ∧
    ∀ p : Config.Params, p.Ok → DecoderInv s.ad → s.br.cnt.toNat ≤ 8 → (peek p s 24).isSome = true →
      ∃ pm t', DecodesTo p (pmodeBins pm) s t' ∧
        runCommand [] (decPmode p) s = .next { t' with res := pmNumber pm } ∧
        (p = Config.params → exec .decPmode s = .next { t' with res := pmNumber pm })

/-- Rules R289, R290, R325: `ENC_COEF` of a partition of zeros codes the flag 0 and nothing else; a coefficient of -2^31
raises `OperandRange` before any bin. -/
def Obligations.EncCoefZero : Prop :=
  ∀ (s : State) (h : PartSize) (xs : List Word), Quiet s → LegalSize s →
    cellsReadRange s.scan 0 (sizeOf s h * sizeOf s h) = some xs →
    (∀ start L, (∀ x ∈ xs, x = 0) → Session start s → codeValue start s = some L → encoderRoom Config.params s 1 →
      ∃ t, exec (.aeBit (.model 0) false) s = .next t ∧ exec (.encCoef h) s = .next { t with res := 0 }) ∧
    (0x80000000 ∈ xs → Raises (.encCoef h) s 6)

/-- Rules R283, R289, R290, R294: `ENC_COEF` of a partition that is not all zero codes the bins of its last position and of
its coefficients from there down to 0, returns 1 and leaves `BUCKET` at 0. Said of every instance `p`, because
`STREAM_BYTES` is open. -/
def Obligations.EncCoef : Prop :=
  ∀ p : Config.Params, p.Ok → ∀ (s : State) (h : PartSize) (xs : List Word) (start L last : Nat),
    LegalSize s → cellsReadRange s.scan 0 (sizeOf s h * sizeOf s h) = some xs → 0x80000000 ∉ xs → IsLast xs last →
    Session start s → codeValue start s = some L →
    encoderRoom p s (blockBins (sizeOf s h) last xs).length →
    ∃ t, encodeBins p (blockBins (sizeOf s h) last xs) s = .ok () t ∧ Session start t ∧
      runCommand [] (encCoef p h) s = .next { t with res := 1, bucket := 0 } ∧
      (p = Config.params → exec (.encCoef h) s = .next { t with res := 1, bucket := 0 })

/-- Rules R283, R289, R291, R294: `DEC_COEF` returns in `SCAN` the coefficients whose bins the decoder answers, and zeros
elsewhere in the partition; a flag of 0 gives zeros alone, and needs one byte of input at most. Every input that no encoder
writes raises `SyntaxRange`: a last position outside the partition, a level above 2^31 - 1, and a thirty-second zero in
the prefix of either. -/
def Obligations.DecCoef : Prop :=
  ∀ (s u : State) (h : PartSize), Quiet s → LegalSize s →
    let n := sizeOf s h
    (DecodesTo Config.params [.ctx 0 false] s u →
      ∃ t, exec (.decCoef h) s = .next t ∧ t = { u with res := 0, scan := t.scan } ∧
        (∀ i, i < n * n → cellsRead t.scan i = some 0) ∧ SameFrom (n * n) s.scan t.scan) ∧
    (DecoderInv s.ad → s.br.cnt.toNat ≤ 8 → (peek Config.params s 8).isSome = true →
      let x := s.pm[0]
      let w := (Config.params.lpsWidth x.state (s.ad.rng.extractLsb' 6 2)).toNat
      decide ((s.ad.rng.toNat - w) * 128 ≤ s.ad.pat.toNat) = x.mps →
      ∃ t, exec (.decCoef h) s = .next t ∧ Quiet t ∧ t.res = 0 ∧ ∀ i, i < n * n → cellsRead t.scan i = some 0) ∧
    (∀ (xs : List Word) (last : Nat), xs.length = n * n → 0x80000000 ∉ xs → IsLast xs last →
      DecodesTo Config.params (blockBins n last xs) s u →
      ∃ t, exec (.decCoef h) s = .next t ∧ t = { u with res := 1, bucket := 0, scan := t.scan } ∧
        (∀ i, i < n * n → cellsRead t.scan i = xs[i]?) ∧ SameFrom (n * n) s.scan t.scan) ∧
    ∀ (p : Config.Params) (bins : List Bin), BadBins n bins → DecodesTo p bins s u →
      FaultsWith (runCommand [.scan] (decCoef p h) s) s 7 ∧ (p = Config.params → Raises (.decCoef h) s 7)

/-! ## The whole machine -/

/-- Rules R320, R324: a command that ends with a fault pending has recorded one of the seven codes, kept the session bits,
and left the STREAM bytes below its starting `BW_PTR` and every buffer it does not write as they were. (That the other
buffers stay is the model's choice: rule R324 (4) lets a host rely on `STATUS` and those STREAM bytes alone; log 6.) -/
def Obligations.FaultEntry : Prop :=
  ∀ (i : Instr) (s t : State), Quiet s → exec i s = .next t → ¬Quiet t →
    t.status = { s.status with fault := true, code := t.status.code } ∧
    1 ≤ t.status.code.toNat ∧ t.status.code.toNat ≤ 7 ∧
    (∀ a, a < s.bw.ptr.toNat → cellsRead t.stream a = cellsRead s.stream a) ∧
    (∀ q ∈ [Part.top, .left, .orig, .predb, .resd, .coef, .qidx, .scan, .dcoef, .rres, .recb],
      q ∉ writesOf i → same q s t) ∧
    t.pending = s.pending ∧ t.hostOut = s.hostOut

/-- Rule R332: a command raises no fault but those its row of the table lists. -/
def Obligations.FaultsPerCommand : Prop :=
  ∀ (i : Instr) (s t : State), i.wf = true → Quiet s → exec i s = .next t → ¬Quiet t → t.status.code ∈ faultsOf i

/-- Rules R11, R57, R86, R109, R131, R179, R361: a command that completes changes nothing but what its rule writes; of
STREAM only the bytes from the old `BW_PTR` up to the new one; of the buffers only the `N * N` elements of its own
partition, in a state whose buffers are within their sizes (which `MemoryStep` says every step keeps). (That `SRESET`
leaves `CMD` is the model's choice, log 1.) -/
def Obligations.Frame : Prop :=
  ∀ (i : Instr) (s t : State), Quiet s → MemoryFits s → exec i s = .next t → Quiet t →
    (∀ q, q ∉ writesOf i → same q s t) ∧
    t.cmd = s.cmd ∧ t.pending = s.pending ∧ t.hostOut = s.hostOut ∧ t.draws = s.draws ∧
    (i ≠ .sreset → t.status.code = s.status.code ∧
      ∀ a, a < s.bw.ptr.toNat ∨ t.bw.ptr.toNat ≤ a → cellsRead t.stream a = cellsRead s.stream a) ∧
    SameFrom (extentOf i s) s.predb t.predb ∧
    SameFrom (extentOf i s) s.resd t.resd ∧
    SameFrom (extentOf i s) s.qidx t.qidx ∧
    SameFrom (extentOf i s) s.scan t.scan ∧
    SameFrom (extentOf i s) s.recb t.recb

/-- Rules R50, R51, R56: every step, of a command or of the host, keeps the memories in their one canonical form and
inside their capacities. -/
def Obligations.MemoryStep : Prop :=
  ∀ s t : State, Memory.wf s → MemoryFits s → step s = .next t → Memory.wf t ∧ MemoryFits t

/-- Rules R18, R19, R21, R23, R175: every step keeps the machine's invariant: the writer's and reader's counts, the
encoder's registers while its session is open and the decoder's while its session is open, whatever the host does in
between. -/
def Obligations.MachineStep : Prop := ∀ s t : State, MachineInv s → step s = .next t → MachineInv t

/-- Rules R21, R23, R25: the state after reset meets the invariants of `MemoryStep` and `MachineStep`. -/
def Obligations.InvariantsAtReset : Prop :=
  Memory.wf State.reset ∧ MemoryFits State.reset ∧ MachineInv State.reset

/-- Rules R177, R178: what `AE_START`, any bins and `AE_TERM` write, `AD_START`, the same bins asked for in the same order
and `AD_TERM` read back, from equal models: every bin has the value it was given, the check passes, the models end equal,
and exactly the bytes written are read. Said of every instance of the tables that meets rule R126. A bin holds back at most
one byte more, so the bound on the bins keeps `AE_RUN` from wrapping (log 16). -/
def Obligations.RoundTrip : Prop :=
  ∀ p : Config.Params, p.Ok → ∀ (s s0 s1 s2 : State) (xs : List Bin) (b : Byte), Quiet s → s.bw.cnt.toNat ≤ 7 →
    xs.length ≤ 2 ^ 32 - 2 → aeStart p s = .ok () s0 → encodeBins p xs s0 = .ok () s1 → aeTerm p s1 = .ok () s2 →
    ∃ d0 d1 d2, adStart p { s2 with pm := s.pm, br := ⟨b, 0, s0.bw.ptr, s2.bw.ptr⟩ } = .ok () d0 ∧
      DecodesTo p xs d0 d1 ∧ adTerm d1 = .ok () d2 ∧ d2.pm = s2.pm ∧ d2.br.ptr = s2.bw.ptr ∧ d2.br.cnt = 0

end
end

