-- ==== Sys2Proof/Laws/Reals.lean ====
section
/-! SUPPORT. The exact arithmetic on real values gives the real-number formulas of rules R5, R15, R251 to R254; the
rational transforms are the real ones; and every sum of monomials has a real value that stands for exactly it. -/

namespace Sys2Proof.Machine

open Sys2Proof Sys2Proof.Config

/-! ## Numbers -/

/-- The first part of a real value as a number. -/
noncomputable def part (x : RealVal) : ℝ := (x.coef : ℝ) * 2 ^ ((x.quarters.val : ℝ) / 4)

@[simp] theorem sumVal_nil : sumVal [] = 0 := rfl

@[simp] theorem sumVal_cons (m : Monomial) (ms : List Monomial) : sumVal (m :: ms) = m.val + sumVal ms := by
  simp [sumVal]

theorem sumVal_append (ms ns : List Monomial) : sumVal (ms ++ ns) = sumVal ms + sumVal ns := by simp [sumVal]

@[simp] theorem val_first (x : RealVal) : x.first.val = part x := by simp [RealVal.first, Monomial.val, part]

theorem alike_refl (x : ℝ) : Alike x x := ⟨fun _ _ => rfl, rfl, rfl⟩

/-- Nothing tells a real value's number from its first part. -/
theorem alike_part (x : RealVal) : Alike (part x) x.val := by
  unfold RealVal.val RealVal.monomials
  split
  · rename_i h
    simpa using h
  · simpa using alike_refl (part x)

/-- A real value with an empty `rest` is its first part. -/
theorem val_of_rest {x : RealVal} (h : x.rest = []) : x.val = part x := by
  unfold RealVal.val RealVal.monomials
  rw [h]
  split <;> simp

@[simp] theorem part_zero : part .zero = 0 := by simp [part, RealVal.zero]

@[simp] theorem part_ofRat (c : ℚ) : part (.ofRat c) = c := by simp [part, RealVal.ofRat]

@[simp] theorem val_zero : RealVal.zero.val = 0 := by rw [val_of_rest rfl, part_zero]

@[simp] theorem val_ofRat (c : ℚ) : (RealVal.ofRat c).val = c := by rw [val_of_rest rfl, part_ofRat]

theorem two_rpow_pow (k : Nat) : ((2 : ℝ) ^ ((k : ℝ) / 4)) ^ 4 = 2 ^ k := by
  rw [← Real.rpow_natCast, ← Real.rpow_mul (by norm_num), ← Real.rpow_natCast]
  congr 1
  push_cast
  ring

theorem two_rpow_pos (t : ℝ) : (0 : ℝ) < 2 ^ t := Real.rpow_pos_of_pos (by norm_num) t

theorem stepReal_pos (qp : Nat) : 0 < stepReal qp := two_rpow_pos _

/-- `c * 2^(k/4)` is what `scaled` stands for. -/
theorem part_scaled (c : ℚ) (k : Nat) : part (scaled c k) = c * 2 ^ ((k : ℝ) / 4) := by
  unfold scaled
  split
  · rename_i h; simp [h]
  · simp only [part]
    push_cast
    rw [mul_assoc, ← Real.rpow_natCast, ← Real.rpow_add (by norm_num)]
    congr 2
    have h : (k : ℝ) = 4 * ((k / 4 : Nat) : ℝ) + ((k % 4 : Nat) : ℝ) := by
      exact_mod_cast (Nat.div_add_mod k 4).symm
    push_cast at h ⊢
    linarith

theorem part_stepOf (qp : Nat) : part (stepOf qp) = stepReal qp := by
  rw [stepOf, part_scaled]
  simp [stepReal]

theorem rest_stepOf (qp : Nat) : (stepOf qp).rest = [] := by
  unfold stepOf scaled
  rw [if_neg (by norm_num)]

/-- Rule R15: the step is `2^(qp/4)`. -/
theorem val_stepOf (qp : Nat) : (stepOf qp).val = stepReal qp := by rw [val_of_rest (rest_stepOf qp), part_stepOf]

theorem coef_stepOf_pos (qp : Nat) : 0 < (stepOf qp).coef := by
  unfold stepOf scaled
  rw [if_neg (by norm_num)]
  positivity

/-- Rule R253: the dequantized value is the index times the step. -/
theorem val_dequantize (q : Int) (qp : Nat) : (dequantize q (stepOf qp)).val = q * stepReal qp := by
  rw [← part_stepOf]
  unfold dequantize
  split
  · rename_i h; simp [h]
  · rw [val_of_rest rfl]
    simp only [part]
    push_cast
    ring

theorem part_divStep (y st : RealVal) (h : st.coef ≠ 0) : part (divStep y st) = part y / part st := by
  have h' : (st.coef : ℝ) ≠ 0 := by exact_mod_cast h
  have hy := y.quarters.isLt
  have hs := st.quarters.isLt
  have p1 := (two_rpow_pos ((st.quarters.val : ℝ) / 4)).ne'
  rw [eq_div_iff (by unfold part; positivity)]
  unfold divStep part
  by_cases hlt : y.quarters < st.quarters
  · have hq : ((y.quarters - st.quarters : Fin 4).val : ℝ) = 4 + (y.quarters.val : ℝ) - st.quarters.val := by
      have : (y.quarters - st.quarters : Fin 4).val = 4 + y.quarters.val - st.quarters.val := by
        rw [Fin.sub_def]; simp only; have := Fin.lt_def.1 hlt; omega
      rw [this, Nat.cast_sub (by omega)]
      push_cast
      ring
    simp only [if_pos hlt, hq]
    rw [show (4 + (y.quarters.val : ℝ) - st.quarters.val) / 4 =
        1 + (y.quarters.val : ℝ) / 4 - (st.quarters.val : ℝ) / 4 by ring,
      Real.rpow_sub (by norm_num), Real.rpow_add (by norm_num), Real.rpow_one]
    push_cast
    field_simp
  · have hq : ((y.quarters - st.quarters : Fin 4).val : ℝ) = (y.quarters.val : ℝ) - st.quarters.val := by
      have hle := Fin.le_def.1 (not_lt.1 hlt)
      have : (y.quarters - st.quarters : Fin 4).val = y.quarters.val - st.quarters.val := by
        rw [Fin.sub_def]; simp only; omega
      rw [this, Nat.cast_sub hle]
    simp only [if_neg hlt, hq]
    rw [show ((y.quarters.val : ℝ) - st.quarters.val) / 4 =
        (y.quarters.val : ℝ) / 4 - (st.quarters.val : ℝ) / 4 by ring, Real.rpow_sub (by norm_num)]
    push_cast
    field_simp

/-! ## Floors -/

theorem rootBits_spec (t : Nat) : ∀ k m, m ^ 4 ≤ t → t < (m + 2 ^ k) ^ 4 →
    rootBits t k m ^ 4 ≤ t ∧ t < (rootBits t k m + 1) ^ 4 := by
  intro k
  induction k with
  | zero => intro m h1 h2; exact ⟨h1, h2⟩
  | succ k ih =>
    intro m h1 h2
    unfold rootBits
    split
    · rename_i h
      exact ih _ h (by rw [show m + 2 ^ k + 2 ^ k = m + 2 ^ (k + 1) by ring]; exact h2)
    · rename_i h
      exact ih _ h1 (by omega)

/-- The fourth root, rounded down. -/
theorem root4_spec (t : Nat) : root4 t ^ 4 ≤ t ∧ t < (root4 t + 1) ^ 4 := by
  unfold root4
  refine rootBits_spec t _ 0 (by simp) ?_
  rw [zero_add, ← pow_mul]
  refine lt_of_lt_of_le Nat.lt_log2_self (Nat.pow_le_pow_right (by norm_num) ?_)
  omega

theorem part_fourth (k : Nat) (x : RealVal) :
    ((k : ℝ) * |part x|) ^ 4 = (fourthNum k x : ℝ) / (x.coef.den : ℝ) ^ 4 := by
  have hd : (x.coef.den : ℝ) ≠ 0 := by exact_mod_cast x.coef.den_ne_zero
  have hc : |(x.coef : ℝ)| = (x.coef.num.natAbs : ℝ) / x.coef.den := by
    rw [Rat.cast_def, abs_div, Nat.abs_cast, Nat.cast_natAbs]
    push_cast
    rfl
  unfold part fourthNum
  rw [abs_mul, abs_of_pos (two_rpow_pos _), hc, mul_pow, mul_pow, two_rpow_pow]
  push_cast
  rw [mul_pow, div_pow]
  ring

/-- `floorAbs` is the floor of the multiple of the absolute value. -/
theorem floorAbs_spec (k : Nat) (x : RealVal) : floorAbs k x = ⌊(k : ℝ) * |part x|⌋₊ := by
  have hx : 0 ≤ (k : ℝ) * |part x| := by positivity
  have hd : 0 < x.coef.den ^ 4 := pow_pos x.coef.den_pos 4
  have hdr : (0 : ℝ) < (x.coef.den : ℝ) ^ 4 := by exact_mod_cast hd
  obtain ⟨h1, h2⟩ := root4_spec (fourthNum k x / x.coef.den ^ 4)
  symm
  rw [Nat.floor_eq_iff hx]
  change ((floorAbs k x : Nat) : ℝ) ≤ _ ∧ _ < ((floorAbs k x : Nat) : ℝ) + 1
  constructor
  · rw [← pow_le_pow_iff_left₀ (Nat.cast_nonneg _) hx (by norm_num : 4 ≠ 0), part_fourth, le_div_iff₀ hdr]
    have := (Nat.le_div_iff_mul_le hd).1 h1
    exact_mod_cast this
  · rw [← pow_lt_pow_iff_left₀ hx (by positivity) (by norm_num : 4 ≠ 0), part_fourth, div_lt_iff₀ hdr]
    have := (Nat.div_lt_iff_lt_mul hd).1 h2
    exact_mod_cast this

/-- `(floor(b x) + a) / b` is `floor(x + a/b)`. -/
theorem floor_biased {x : ℝ} (hx : 0 ≤ x) (a b : Nat) (hb : 0 < b) :
    (⌊(b : ℝ) * x⌋₊ + a) / b = ⌊x + (a : ℝ) / b⌋₊ := by
  have hbr : (0 : ℝ) < b := by exact_mod_cast hb
  rw [← Nat.floor_add_natCast (by positivity), ← Nat.floor_div_natCast]
  congr 1
  field_simp

/-- `atMost` compares the magnitude of a real value with a natural number. -/
theorem atMost_iff (k : Nat) (x : RealVal) : atMost k x = true ↔ |x.val| ≤ k := by
  have hdr : (0 : ℝ) < (x.coef.den : ℝ) ^ 4 := by have := x.coef.den_pos; positivity
  have h4 := part_fourth 1 x
  rw [Nat.cast_one, one_mul] at h4
  have key : |part x| ≤ k ↔ |x.val| ≤ k := by
    have h := (alike_part x).2.2
    rw [← Int.cast_natCast, ← Int.ceil_le, ← Int.ceil_le, h]
  rw [← key, ← pow_le_pow_iff_left₀ (abs_nonneg _) (Nat.cast_nonneg k) (by norm_num : 4 ≠ 0), h4, div_le_iff₀ hdr,
    ← mul_pow]
  unfold atMost
  rw [decide_eq_true_eq]
  exact_mod_cast Iff.rfl

/-! ## Signs -/

theorem part_neg_iff (x : RealVal) : part x < 0 ↔ x.coef < 0 := by
  unfold part
  rw [mul_neg_iff]
  constructor
  · rintro (⟨-, h⟩ | ⟨h, -⟩)
    · exact absurd h (not_lt.2 (two_rpow_pos _).le)
    · exact_mod_cast h
  · exact fun h => .inr ⟨by exact_mod_cast h, two_rpow_pos _⟩

theorem signed_eq (x : RealVal) (n : Nat) (h : part x = 0 → n = 0) :
    signed x n = (SignType.sign (part x) : Int) * n := by
  unfold signed
  rcases lt_trichotomy (part x) 0 with hx | hx | hx
  · rw [if_pos ((part_neg_iff x).1 hx), sign_neg hx]; simp
  · rw [h hx]; simp
  · rw [if_neg (fun hc => absurd ((part_neg_iff x).2 hc) (not_lt.2 hx.le)), sign_pos hx]; simp

/-! ## The quantizer and the rounding -/

/-- Rule R252: the index is `sgn(y) * floor(|y| / STEP + 2/5)`. -/
theorem quantize_eq (y : RealVal) {qp : Nat} (hq : qp ≤ qpMax) :
    quantize y (stepOf qp) = quantReal y.val (stepReal qp) := by
  rw [← (alike_part y).1 qp hq]
  have hs := stepReal_pos qp
  have hv : |part (divStep y (stepOf qp))| = |part y| / stepReal qp := by
    rw [part_divStep y _ (coef_stepOf_pos qp).ne', part_stepOf, abs_div, abs_of_pos hs]
  have hden : qBias.den = 5 := by decide +kernel
  have hnum : qBias.num.toNat = 2 := by decide +kernel
  have hn : (floorAbs qBias.den (divStep y (stepOf qp)) + qBias.num.toNat) / qBias.den =
      ⌊|part y| / stepReal qp + 2 / 5⌋₊ := by
    rw [hden, hnum, floorAbs_spec, hv, floor_biased (by positivity) 2 5 (by norm_num)]
    norm_num
  unfold quantize quantReal
  rw [hn, signed_eq]
  · congr 1
    exact Int.natCast_floor_eq_floor (by positivity)
  · intro h
    rw [h]
    norm_num

theorem roundReal_low {x : ℝ} {f : Int} (h1 : (f : ℝ) ≤ x) (h2 : x - f < 1 / 2) : roundReal x = f := by
  have hf : ⌊x⌋ = f := Int.floor_eq_iff.2 ⟨h1, by linarith⟩
  unfold roundReal
  rw [hf, if_pos h2]

theorem roundReal_high {x : ℝ} {f : Int} (h1 : 1 / 2 < x - f) (h2 : x < f + 1) : roundReal x = f + 1 := by
  have hf : ⌊x⌋ = f := Int.floor_eq_iff.2 ⟨by linarith, h2⟩
  unfold roundReal
  rw [hf, if_neg (not_lt.2 h1.le), if_pos h1]

theorem roundReal_tie {x : ℝ} {f : Int} (h : x - f = 1 / 2) : roundReal x = if Even f then f else f + 1 := by
  have hf : ⌊x⌋ = f := Int.floor_eq_iff.2 ⟨by linarith, by linarith⟩
  unfold roundReal
  rw [hf, if_neg (by rw [h]; exact lt_irrefl _), if_neg (by rw [h]; exact lt_irrefl _)]

theorem roundReal_nonneg {x : ℝ} (hx : 0 ≤ x) (tie : Bool) (ht : tie = true ↔ (⌊2 * x⌋₊ : ℝ) = 2 * x) :
    (nearest ⌊2 * x⌋₊ tie : Int) = roundReal x := by
  obtain ⟨h1, h2⟩ := (Nat.floor_eq_iff (by positivity : 0 ≤ 2 * x)).1 (rfl : ⌊2 * x⌋₊ = _)
  generalize ⌊2 * x⌋₊ = m at *
  obtain ⟨j, hm⟩ : ∃ j, m = 2 * j ∨ m = 2 * j + 1 := ⟨m / 2, by omega⟩
  unfold nearest
  rcases hm with rfl | rfl
  · push_cast at h1 h2
    rw [if_pos (by omega), Nat.mul_div_cancel_left j (by norm_num),
      roundReal_low (f := (j : Int)) (by push_cast; linarith) (by push_cast; linarith)]
  · have hj : (2 * j + 1) / 2 = j := by omega
    push_cast at h1 h2 ht
    rw [if_neg (by omega), hj]
    by_cases htie : tie = true
    · have hx2 := ht.1 htie
      rw [roundReal_tie (f := (j : Int)) (by push_cast; linarith), htie]
      have he : Even (j : Int) ↔ j % 2 = 0 := by rw [Int.even_iff]; omega
      by_cases h : j % 2 = 0 <;> simp [h, he]
    · have hlt := lt_of_le_of_ne h1 fun h => htie (ht.2 h)
      rw [roundReal_high (f := (j : Int)) (by push_cast; linarith) (by push_cast; linarith)]
      simp [htie]

theorem roundReal_neg (x : ℝ) : roundReal (-x) = - roundReal x := by
  have hle := Int.floor_le x
  have hlt := Int.lt_floor_add_one x
  rcases lt_trichotomy (x - ⌊x⌋) (1 / 2) with h | h | h
  · rw [roundReal_low hle h]
    by_cases hz : (⌊x⌋ : ℝ) = x
    · exact roundReal_low (by push_cast; linarith) (by push_cast; linarith)
    · have := lt_of_le_of_ne hle hz
      rw [roundReal_high (f := -⌊x⌋ - 1) (by push_cast; linarith) (by push_cast; linarith)]
      ring
  · rw [roundReal_tie h, roundReal_tie (f := -⌊x⌋ - 1) (by push_cast; linarith)]
    have hev : Even (-⌊x⌋ - 1) ↔ ¬ Even ⌊x⌋ := by rw [Int.even_iff, Int.even_iff]; omega
    by_cases he : Even ⌊x⌋
    · rw [if_neg (by rw [hev]; exact not_not.2 he), if_pos he]; ring
    · rw [if_pos (hev.2 he), if_neg he]; ring
  · rw [roundReal_high h hlt, roundReal_low (f := -⌊x⌋ - 1) (by push_cast; linarith) (by push_cast; linarith)]
    ring

/-- Rule R5: `roundHalfEven` is rounding to nearest, ties to even. -/
theorem roundHalfEven_eq (x : RealVal) : roundHalfEven x = roundReal x.val := by
  rw [← (alike_part x).2.1]
  have hd : (0 : ℝ) < (x.coef.den : ℝ) ^ 4 := by have := x.coef.den_pos; positivity
  have hm := floorAbs_spec 2 x
  have htie : (floorAbs 2 x ^ 4 * x.coef.den ^ 4 == fourthNum 2 x) = true ↔ (⌊2 * |part x|⌋₊ : ℝ) = 2 * |part x| := by
    have h4 := part_fourth 2 x
    rw [beq_iff_eq, ← pow_left_inj₀ (a := (⌊2 * |part x|⌋₊ : ℝ)) (Nat.cast_nonneg _) (by positivity) (by norm_num : 4 ≠ 0)]
    push_cast at h4 hm
    rw [h4, eq_div_iff hd.ne', ← hm]
    exact_mod_cast Iff.rfl
  have key := roundReal_nonneg (abs_nonneg (part x)) _ htie
  push_cast at hm
  rw [← hm] at key
  unfold roundHalfEven
  simp only
  unfold signed
  rw [key]
  split
  · rename_i h
    rw [abs_of_neg ((part_neg_iff x).2 h), roundReal_neg, neg_neg]
  · rename_i h
    rw [abs_of_nonneg (not_lt.1 fun hc => h ((part_neg_iff x).1 hc))]

/-! ## Real numbers and the real values that stand for them -/

theorem quantReal_neg (y st : ℝ) : quantReal (-y) st = - quantReal y st := by
  unfold quantReal
  rw [Left.sign_neg, abs_neg]
  push_cast
  ring

/-- The floor of an increasing linear function does not change just above a point. -/
theorem floor_right {c : ℝ} (hc : 0 < c) (d y : ℝ) :
    ∃ e > 0, ∀ z, y ≤ z → z < y + e → ⌊z / c + d⌋ = ⌊y / c + d⌋ := by
  refine ⟨(⌊y / c + d⌋ + 1 - d - y / c) * c, ?_, fun z h1 h2 => ?_⟩
  · have := Int.lt_floor_add_one (y / c + d)
    exact mul_pos (by linarith) hc
  · rw [Int.floor_eq_iff]
    have hf := Int.floor_le (y / c + d)
    have hz : y / c ≤ z / c := div_le_div_of_nonneg_right h1 hc.le
    refine ⟨by linarith, ?_⟩
    have : z / c < ⌊y / c + d⌋ + 1 - d := by
      rw [div_lt_iff₀ hc]
      have : y / c * c = y := div_mul_cancel₀ y hc.ne'
      nlinarith
    linarith

theorem floors_right (y : ℝ) : ∀ k : Nat, ∃ e > 0, ∀ z, y ≤ z → z < y + e →
    ⌊2 * z⌋ = ⌊2 * y⌋ ∧ ∀ qp < k, ⌊z / stepReal qp + 2 / 5⌋ = ⌊y / stepReal qp + 2 / 5⌋ := by
  intro k
  induction k with
  | zero =>
    obtain ⟨e, he, h⟩ := floor_right (c := 1 / 2) (by norm_num) 0 y
    refine ⟨e, he, fun z h1 h2 => ⟨?_, fun qp hq => absurd hq (by omega)⟩⟩
    have := h z h1 h2
    simpa [mul_comm] using this
  | succ k ih =>
    obtain ⟨e, he, h⟩ := ih
    obtain ⟨e', he', h'⟩ := floor_right (stepReal_pos k) (2 / 5) y
    refine ⟨min e e', lt_min he he', fun z h1 h2 => ?_⟩
    obtain ⟨r, q⟩ := h z h1 (lt_of_lt_of_le h2 (by linarith [min_le_left e e']))
    refine ⟨r, fun qp hq => ?_⟩
    by_cases hk : qp = k
    · rw [hk]; exact h' z h1 (lt_of_lt_of_le h2 (by linarith [min_le_right e e']))
    · exact q qp (by omega)

theorem ceil_of_floor {x z : ℝ} (h : ⌊2 * z⌋ = ⌊2 * x⌋) (hx : (⌊2 * x⌋ : ℝ) ≠ 2 * x) (hz : (⌊2 * z⌋ : ℝ) ≠ 2 * z) :
    ⌈z⌉ = ⌈x⌉ := by
  have x1 := lt_of_le_of_ne (Int.floor_le (2 * x)) hx
  have x2 := Int.lt_floor_add_one (2 * x)
  have z1 := lt_of_le_of_ne (Int.floor_le (2 * z)) hz
  have z2 := Int.lt_floor_add_one (2 * z)
  rw [h] at z1 z2
  generalize ⌊2 * x⌋ = m at *
  obtain ⟨j, hm⟩ : ∃ j, m = 2 * j ∨ m = 2 * j + 1 := ⟨m / 2, by omega⟩
  rw [(Int.ceil_eq_iff (z := j + 1)).2, (Int.ceil_eq_iff (z := j + 1)).2] <;>
    rcases hm with rfl | rfl <;> push_cast at x1 x2 z1 z2 ⊢ <;> constructor <;> linarith

/-- A number strictly inside a half-unit cell rounds as the cell says. -/
theorem roundReal_of_floor {x z : ℝ} (h : ⌊2 * z⌋ = ⌊2 * x⌋) (hx : (⌊2 * x⌋ : ℝ) ≠ 2 * x) (hz : (⌊2 * z⌋ : ℝ) ≠ 2 * z) :
    roundReal z = roundReal x := by
  have x1 := lt_of_le_of_ne (Int.floor_le (2 * x)) hx
  have x2 := Int.lt_floor_add_one (2 * x)
  have z1 := lt_of_le_of_ne (Int.floor_le (2 * z)) hz
  have z2 := Int.lt_floor_add_one (2 * z)
  rw [h] at z1 z2
  generalize ⌊2 * x⌋ = m at *
  obtain ⟨j, hm⟩ : ∃ j, m = 2 * j ∨ m = 2 * j + 1 := ⟨m / 2, by omega⟩
  rcases hm with rfl | rfl <;> push_cast at x1 x2 z1 z2
  · rw [roundReal_low (f := j) (by linarith) (by linarith), roundReal_low (f := j) (by linarith) (by linarith)]
  · rw [roundReal_high (f := j) (by linarith) (by linarith), roundReal_high (f := j) (by linarith) (by linarith)]

theorem alike_neg {x y : ℝ} (h : Alike x y) : Alike (-x) (-y) :=
  ⟨fun qp hq => by rw [quantReal_neg, quantReal_neg, h.1 qp hq], by rw [roundReal_neg, roundReal_neg, h.2.1],
    by rw [abs_neg, abs_neg, h.2.2]⟩

/-- For every real number there is a rational number that nothing tells from it (log 10). -/
theorem exists_alike (y : ℝ) : ∃ q : ℚ, Alike q y := by
  by_cases hr : ∃ q : ℚ, (q : ℝ) = y
  · obtain ⟨q, rfl⟩ := hr
    exact ⟨q, alike_refl _⟩
  have pos : ∀ y : ℝ, 0 < y → (¬ ∃ q : ℚ, (q : ℝ) = y) → ∃ q : ℚ, Alike q y := by
    intro y hy hirr
    obtain ⟨e, he, h⟩ := floors_right y 32
    obtain ⟨q, h1, h2⟩ := exists_rat_btwn (show y < y + e by linarith)
    obtain ⟨r, i⟩ := h q h1.le h2
    have hq : (0 : ℝ) < q := hy.trans h1
    have ny : (⌊2 * y⌋ : ℝ) ≠ 2 * y := fun hz => hirr ⟨⌊2 * y⌋ / 2, by push_cast; linarith⟩
    have nq : (⌊2 * (q : ℝ)⌋ : ℝ) ≠ 2 * q := by
      intro hz
      have := Int.floor_le (2 * y)
      rw [r] at hz
      linarith
    refine ⟨q, fun qp hqp => ?_, roundReal_of_floor r ny nq, ?_⟩
    · unfold quantReal
      rw [sign_pos hq, sign_pos hy, abs_of_pos hq, abs_of_pos hy, i qp (by unfold qpMax at hqp; omega)]
    · rw [abs_of_pos hq, abs_of_pos hy, ceil_of_floor r ny nq]
  rcases lt_trichotomy y 0 with hy | hy | hy
  · obtain ⟨q, hq⟩ := pos (-y) (by linarith) fun ⟨q, hq⟩ => hr ⟨-q, by push_cast; linarith⟩
    refine ⟨-q, ?_⟩
    have := alike_neg hq
    rwa [neg_neg, ← Rat.cast_neg] at this
  · exact absurd ⟨0, by simp [hy]⟩ hr
  · exact pos y hy hr

/-- A sum of monomials that is rational has one form. -/
theorem ofMonomials_rat {ms : List Monomial} {c : ℚ} (e : sumVal ms = c) : RealVal.ofMonomials ms = .ofRat c := by
  have h : ∃ q : ℚ, (q : ℝ) = sumVal ms := ⟨c, e.symm⟩
  unfold RealVal.ofMonomials
  rw [dif_pos h, show h.choose = c from by exact_mod_cast h.choose_spec.trans e]

/-- The real value of a sum of monomials stands for exactly that sum. -/
theorem val_ofMonomials (ms : List Monomial) : (RealVal.ofMonomials ms).val = sumVal ms := by
  unfold RealVal.ofMonomials
  split
  · rename_i h
    rw [val_ofRat, h.choose_spec]
  · rw [dif_pos (exists_alike (sumVal ms))]
    generalize (exists_alike (sumVal ms)).choose = q, (exists_alike (sumVal ms)).choose_spec = hq
    have hs : (q : ℝ) + ((⟨-q, 0, []⟩ : Monomial).val + sumVal ms) = sumVal ms := by simp [Monomial.val]
    have hp : part ⟨q, 0, ⟨-q, 0, []⟩ :: ms⟩ = q := by simp [part]
    have hs' : sumVal ((⟨q, 0, ⟨-q, 0, []⟩ :: ms⟩ : RealVal).first :: ⟨-q, 0, []⟩ :: ms) = sumVal ms := by
      rw [sumVal_cons, sumVal_cons, val_first, hp, hs]
    unfold RealVal.val RealVal.monomials
    rw [if_pos (by rw [hs', val_first, hp]; exact hq), hs']

theorem sumVal_monomials (x : RealVal) : sumVal x.monomials = x.val := rfl

theorem sumVal_scale (k : ℝ) (f : Monomial → Monomial) (h : ∀ m, (f m).val = k * m.val) (ms : List Monomial) :
    sumVal (ms.map f) = k * sumVal ms := by
  induction ms with
  | nil => simp
  | cons m ms ih => rw [List.map_cons, sumVal_cons, sumVal_cons, h, ih]; ring

theorem sumVal_flatMap {α : Type} (f : α → List Monomial) (l : List α) :
    sumVal (l.flatMap f) = (l.map fun x => sumVal (f x)).sum := by
  induction l with
  | nil => simp
  | cons x l ih => rw [List.flatMap_cons, sumVal_append, ih, List.map_cons, List.sum_cons]

/-! ## The rational transforms -/

theorem entry_one (a : Basis) : a.entry 1 0 0 = 1 := by
  cases a
  · simp [Basis.entry]
  · simp only [Basis.entry]
    norm_num

theorem entry_two (k j : Nat) (hk : k < 2) (hj : j < 2) :
    Basis.dct2.entry 2 k j = (if k * j % 2 = 0 then 1 else -1) * (√2 / 2) := by
  have h12 : √(1 / 2 : ℝ) = √2 / 2 := by rw [Real.sqrt_div (by norm_num)]; field_simp; norm_num
  have c3 : Real.cos (Real.pi * 3 / 4) = -(√2 / 2) := by
    rw [show Real.pi * 3 / 4 = Real.pi - Real.pi / 4 by ring, Real.cos_pi_sub, Real.cos_pi_div_four]
  have c1 : Real.cos (Real.pi / 4) = √2 / 2 := Real.cos_pi_div_four
  interval_cases k <;> interval_cases j <;> simp only [Basis.entry] <;> norm_num
  · simpa using h12
  · simpa using h12
  · exact c3

theorem entry_rational {a b : Basis} {n u v r c : Nat} (h : rationalAt a b n u v = true) (hr : r < n) (hc : c < n) :
    a.entry n u r * b.entry n v c = (rationalEntry n u r v c : ℝ) := by
  simp only [rationalAt, Bool.and_eq_true, Bool.or_eq_true, decide_eq_true_eq, beq_iff_eq] at h
  obtain ⟨⟨hu, hv⟩, rfl | ⟨⟨rfl, rfl⟩, rfl⟩⟩ := h
  · obtain rfl : u = 0 := by omega
    obtain rfl : v = 0 := by omega
    obtain rfl : r = 0 := by omega
    obtain rfl : c = 0 := by omega
    rw [entry_one, entry_one]
    simp [rationalEntry]
  · have h2 : √2 / 2 * (√2 / 2) = (1 / 2 : ℝ) := by
      have := Real.mul_self_sqrt (show (0 : ℝ) ≤ 2 by norm_num)
      nlinarith
    rw [entry_two u r hu hr, entry_two v c hv hc]
    unfold rationalEntry
    interval_cases u <;> interval_cases r <;> interval_cases v <;> interval_cases c <;> norm_num <;> linarith

theorem getD_map {α β : Type} (f : α → β) (l : List α) (i : Nat) (d : α) : (l.map f).getD i (f d) = f (l.getD i d) := by
  rw [List.getD_eq_getElem?_getD, List.getD_eq_getElem?_getD, List.getElem?_map]
  cases l[i]? <;> rfl

theorem txfReal_rational {a b : Basis} {n u v : Nat} (h : rationalAt a b n u v = true) (xs : List Int) :
    txfReal a b n (xs.map fun x : Int => (x : ℝ)) u v = (rationalTxf n xs u v : ℝ) := by
  unfold txfReal rationalTxf
  rw [Rat.cast_list_sum, List.map_map]
  congr 1
  refine List.map_congr_left fun i hi => ?_
  have hn : 0 < n := by rcases Nat.eq_zero_or_pos n with rfl | h0 <;> simp_all
  have hi' := List.mem_range.1 hi
  simp only [Function.comp]
  have hx := getD_map (fun x : Int => (x : ℝ)) xs i 0
  simp only [Int.cast_zero] at hx
  rw [entry_rational h (Nat.div_lt_of_lt_mul hi') (Nat.mod_lt _ hn), hx]
  push_cast
  rfl

theorem rationalAt_swap {a b : Basis} {n r c u v : Nat} (h : rationalAt a b n r c = true) (hu : u < n) (hv : v < n) :
    rationalAt a b n u v = true := by
  simp only [rationalAt, Bool.and_eq_true, decide_eq_true_eq] at h ⊢
  exact ⟨⟨hu, hv⟩, h.2⟩

theorem txiReal_rational {a b : Basis} {n r c : Nat} (h : rationalAt a b n r c = true) {ys : List RealVal}
    (hy : allRational ys = true) :
    txiReal a b n (ys.map RealVal.val) r c = (rationalTxi n (ys.map RealVal.coef) r c : ℝ) := by
  unfold txiReal rationalTxi
  rw [Rat.cast_list_sum, List.map_map]
  congr 1
  refine List.map_congr_left fun i hi => ?_
  have hrc : r < n ∧ c < n := by
    simp only [rationalAt, Bool.and_eq_true, decide_eq_true_eq] at h
    exact h.1
  have hi' := List.mem_range.1 hi
  simp only [Function.comp]
  rw [entry_rational (rationalAt_swap h (Nat.div_lt_of_lt_mul hi') (Nat.mod_lt _ (by omega))) hrc.1 hrc.2]
  push_cast
  congr 1
  rw [List.getD_eq_getElem?_getD, List.getD_eq_getElem?_getD, List.getElem?_map, List.getElem?_map]
  cases e : ys[i]? with
  | none => simp
  | some y =>
    have := List.all_eq_true.1 hy y (List.mem_of_getElem? e)
    simp only [Bool.and_eq_true, beq_iff_eq, List.isEmpty_iff] at this
    simp [val_of_rest this.2, part, this.1]

end Sys2Proof.Machine
end

