-- ==== Sys2Proof/Laws/Basis.lean ====
section
/-! SUPPORT. The basis matrices have orthonormal rows (rules R210, R211), and so no coefficient of a bounded residual is
larger than rule R252 says. -/

namespace Sys2Proof.Config

/-! ## Sums of cosines -/

theorem sin_ne_zero_of_lt {m d : ℤ} (hm : m ≠ 0) (hd : |m| < d) : Real.sin (Real.pi * m / d) ≠ 0 := by
  have hd0 : 0 < d := (abs_nonneg m).trans_lt hd
  have hdr : (d : ℝ) ≠ 0 := by exact_mod_cast hd0.ne'
  rw [Real.sin_ne_zero_iff]
  intro i h
  rw [eq_div_iff hdr] at h
  have : (i * d : ℝ) = m := mul_left_cancel₀ Real.pi_ne_zero (by linarith)
  exact hm (Int.eq_zero_of_abs_lt_dvd ⟨i, by rw [mul_comm]; exact_mod_cast this.symm⟩ hd)

theorem sum_cos_odd (t : ℝ) (n : Nat) :
    2 * Real.sin t * ∑ j ∈ Finset.range n, Real.cos ((2 * j + 1) * t) = Real.sin (2 * n * t) := by
  induction n with
  | zero => simp
  | succ n ih =>
    rw [Finset.sum_range_succ, mul_add, ih]
    have h : 2 * Real.sin t * Real.cos ((2 * n + 1) * t) = Real.sin ((2 * n + 1) * t + t) - Real.sin ((2 * n + 1) * t - t) := by
      rw [Real.sin_add, Real.sin_sub]; ring
    rw [h]
    push_cast
    rw [show (2 * (n : ℝ) + 1) * t - t = 2 * n * t by ring, show (2 * (n : ℝ) + 1) * t + t = 2 * (n + 1) * t by ring]
    ring

theorem sum_cos_whole (t : ℝ) (n : Nat) :
    2 * Real.sin t * ∑ j ∈ Finset.range n, Real.cos (2 * (j + 1) * t) = Real.sin ((2 * n + 1) * t) - Real.sin t := by
  induction n with
  | zero => simp
  | succ n ih =>
    rw [Finset.sum_range_succ, mul_add, ih]
    have h : 2 * Real.sin t * Real.cos (2 * (n + 1) * t) =
        Real.sin (2 * (n + 1) * t + t) - Real.sin (2 * (n + 1) * t - t) := by
      rw [Real.sin_add, Real.sin_sub]; ring
    rw [h]
    push_cast
    rw [show 2 * ((n : ℝ) + 1) * t - t = (2 * n + 1) * t by ring,
      show 2 * ((n : ℝ) + 1) * t + t = (2 * (n + 1) + 1) * t by ring]
    ring

/-- The cosines of the DCT over a row add up to `n` or to nothing. -/
theorem sum_cos_dct {n : Nat} {m : ℤ} (h : |m| < 2 * n) :
    ∑ j ∈ Finset.range n, Real.cos ((2 * j + 1) * (Real.pi * m / (2 * n))) = if m = 0 then (n : ℝ) else 0 := by
  split
  · rename_i hm; simp [hm]
  · rename_i hm
    have hn : (n : ℝ) ≠ 0 := by
      intro h0
      have : n = 0 := by exact_mod_cast h0
      subst this
      have := abs_nonneg m
      simp at h
      omega
    have hs : Real.sin (Real.pi * m / (2 * n)) ≠ 0 := by
      have := sin_ne_zero_of_lt hm h
      push_cast at this
      exact this
    have key := sum_cos_odd (Real.pi * m / (2 * n)) n
    rw [show 2 * (n : ℝ) * (Real.pi * m / (2 * n)) = m * Real.pi by field_simp, Real.sin_int_mul_pi] at key
    exact (mul_eq_zero.1 key).resolve_left (mul_ne_zero two_ne_zero hs)

/-- The cosines of the DST over a row add up to `n` or to `-1/2`. -/
theorem sum_cos_dst {n : Nat} {m : ℤ} (h : |m| < 2 * n + 1) :
    ∑ j ∈ Finset.range n, Real.cos (2 * (j + 1) * (Real.pi * m / (2 * n + 1))) =
      if m = 0 then (n : ℝ) else -1 / 2 := by
  split
  · rename_i hm; simp [hm]
  · rename_i hm
    have hn : (2 * (n : ℝ) + 1) ≠ 0 := by positivity
    have hs : Real.sin (Real.pi * m / (2 * n + 1)) ≠ 0 := by
      have := sin_ne_zero_of_lt hm h
      push_cast at this
      exact this
    have key := sum_cos_whole (Real.pi * m / (2 * n + 1)) n
    rw [show (2 * (n : ℝ) + 1) * (Real.pi * m / (2 * n + 1)) = m * Real.pi by field_simp, Real.sin_int_mul_pi] at key
    have : Real.sin (Real.pi * m / (2 * n + 1)) *
        (2 * ∑ j ∈ Finset.range n, Real.cos (2 * (j + 1) * (Real.pi * m / (2 * n + 1))) + 1) = 0 := by linarith
    have := (mul_eq_zero.1 this).resolve_left hs
    linarith

/-! ## Orthonormal rows -/

theorem dct_row (n k j : Nat) : Basis.dct2.entry n k j =
    √(1 / n) * (if k = 0 then 1 else √2) * Real.cos ((2 * j + 1) * (Real.pi * k / (2 * n))) := by
  simp only [Basis.entry]
  rw [show Real.pi * (2 * (j : ℝ) + 1) * k / (2 * n) = (2 * j + 1) * (Real.pi * k / (2 * n)) by ring]
  split
  · ring
  · rw [show (2 / n : ℝ) = 1 / n * 2 by ring, Real.sqrt_mul (by positivity)]

/-- Rules R210, R211: the rows of each matrix are orthonormal. -/
theorem entry_orthonormal (b : Basis) {n k l : Nat} (hk : k < n) (hl : l < n) :
    ∑ j ∈ Finset.range n, b.entry n k j * b.entry n l j = if k = l then 1 else 0 := by
  have hn : (0 : ℝ) < n := by exact_mod_cast (by omega : 0 < n)
  cases b with
  | dct2 =>
    have hsq : √(1 / n : ℝ) * √(1 / n) = 1 / n := Real.mul_self_sqrt (by positivity)
    have h1 := sum_cos_dct (n := n) (m := (k : ℤ) - l) (by rw [abs_lt]; omega)
    have h2 := sum_cos_dct (n := n) (m := (k : ℤ) + l) (by rw [abs_lt]; omega)
    have hterm : ∀ j ∈ Finset.range n, Basis.dct2.entry n k j * Basis.dct2.entry n l j =
        √(1 / n : ℝ) * √(1 / n) * ((if k = 0 then 1 else √2) * (if l = 0 then 1 else √2)) / 2 *
          (Real.cos ((2 * j + 1) * (Real.pi * ((k : ℤ) - l : ℤ) / (2 * n))) +
            Real.cos ((2 * j + 1) * (Real.pi * ((k : ℤ) + l : ℤ) / (2 * n)))) := by
      intro j _
      rw [dct_row, dct_row]
      push_cast
      rw [show (2 * (j : ℝ) + 1) * (Real.pi * ((k : ℝ) - l) / (2 * n)) =
          (2 * j + 1) * (Real.pi * k / (2 * n)) - (2 * j + 1) * (Real.pi * l / (2 * n)) by ring,
        show (2 * (j : ℝ) + 1) * (Real.pi * ((k : ℝ) + l) / (2 * n)) =
          (2 * j + 1) * (Real.pi * k / (2 * n)) + (2 * j + 1) * (Real.pi * l / (2 * n)) by ring,
        Real.cos_sub, Real.cos_add]
      ring
    rw [Finset.sum_congr rfl hterm, ← Finset.mul_sum, Finset.sum_add_distrib, h1, h2, hsq]
    have h22 : √2 * √2 = (2 : ℝ) := Real.mul_self_sqrt (by norm_num)
    by_cases hkl : k = l
    · subst hkl
      by_cases h0 : k = 0
      · subst h0; simp; field_simp; norm_num
      · have : (k : ℤ) + k ≠ 0 := by omega
        simp only [h0, this, sub_self, if_true, if_false, h22]
        field_simp
        ring
    · have a1 : (k : ℤ) - l ≠ 0 := by omega
      have a2 : (k : ℤ) + l ≠ 0 := by omega
      simp [hkl, a1, a2]
  | dst7 =>
    have hsq : √(4 / (2 * n + 1) : ℝ) * √(4 / (2 * n + 1)) = 4 / (2 * n + 1) := Real.mul_self_sqrt (by positivity)
    have h1 := sum_cos_dst (n := n) (m := (k : ℤ) - l) (by rw [abs_lt]; omega)
    have h2 := sum_cos_dst (n := n) (m := (k : ℤ) + l + 1) (by rw [abs_lt]; omega)
    have hterm : ∀ j ∈ Finset.range n, Basis.dst7.entry n k j * Basis.dst7.entry n l j =
        √(4 / (2 * n + 1) : ℝ) * √(4 / (2 * n + 1)) / 2 *
          (Real.cos (2 * (j + 1) * (Real.pi * ((k : ℤ) - l : ℤ) / (2 * n + 1))) -
            Real.cos (2 * (j + 1) * (Real.pi * ((k : ℤ) + l + 1 : ℤ) / (2 * n + 1)))) := by
      intro j _
      simp only [Basis.entry]
      push_cast
      rw [show 2 * ((j : ℝ) + 1) * (Real.pi * ((k : ℝ) - l) / (2 * n + 1)) =
          Real.pi * (2 * k + 1) * (j + 1) / (2 * n + 1) - Real.pi * (2 * l + 1) * (j + 1) / (2 * n + 1) by ring,
        show 2 * ((j : ℝ) + 1) * (Real.pi * ((k : ℝ) + l + 1) / (2 * n + 1)) =
          Real.pi * (2 * k + 1) * (j + 1) / (2 * n + 1) + Real.pi * (2 * l + 1) * (j + 1) / (2 * n + 1) by ring,
        Real.cos_sub, Real.cos_add]
      ring
    rw [Finset.sum_congr rfl hterm, ← Finset.mul_sum, Finset.sum_sub_distrib, h1, h2, hsq]
    have a2 : (k : ℤ) + l + 1 ≠ 0 := by omega
    by_cases hkl : k = l
    · subst hkl
      simp only [a2, sub_self, if_true, if_false]
      field_simp
      ring
    · have a1 : (k : ℤ) - l ≠ 0 := by omega
      simp [hkl, a1, a2]

/-! ## Sums over a partition -/

theorem sum_list_range (f : Nat → ℝ) (n : Nat) : ((List.range n).map f).sum = ∑ i ∈ Finset.range n, f i := by
  induction n with
  | zero => simp
  | succ n ih => rw [List.range_succ, List.map_append, List.sum_append, ih, Finset.sum_range_succ]; simp

/-- A sum over a partition in raster order is a sum over its rows and columns. -/
theorem sum_raster (f : Nat → Nat → ℝ) (m n : Nat) :
    ∑ i ∈ Finset.range (m * n), f (i / n) (i % n) = ∑ r ∈ Finset.range m, ∑ c ∈ Finset.range n, f r c := by
  induction m with
  | zero => simp
  | succ m ih =>
    rw [Nat.succ_mul, Finset.sum_range_add, ih, Finset.sum_range_succ]
    congr 1
    refine Finset.sum_congr rfl fun c hc => ?_
    have hc' := Finset.mem_range.1 hc
    rw [Nat.add_comm, Nat.add_mul_div_right _ _ (by omega), Nat.add_mul_mod_self_right, Nat.div_eq_of_lt hc',
      Nat.mod_eq_of_lt hc', zero_add]

/-- Rule R252: the coefficients of numbers between -255 and 255 are between `-255 N` and `255 N`. -/
theorem txfReal_bound (a b : Basis) {n u v : Nat} (hu : u < n) (hv : v < n) {xs : List ℝ}
    (hx : ∀ i, |xs.getD i 0| ≤ 255) : |txfReal a b n xs u v| ≤ 255 * n := by
  have hentries : ∑ i ∈ Finset.range (n * n), (a.entry n u (i / n) * b.entry n v (i % n)) ^ 2 = 1 := by
    rw [sum_raster fun r c => (a.entry n u r * b.entry n v c) ^ 2]
    have ha := entry_orthonormal a hu hu
    have hb := entry_orthonormal b hv hv
    rw [if_pos rfl] at ha hb
    calc _ = ∑ r ∈ Finset.range n, a.entry n u r * a.entry n u r *
          ∑ c ∈ Finset.range n, b.entry n v c * b.entry n v c := by
          refine Finset.sum_congr rfl fun r _ => ?_
          rw [Finset.mul_sum]
          exact Finset.sum_congr rfl fun c _ => by ring
      _ = 1 := by rw [hb]; simpa using ha
  have hsquares : ∑ i ∈ Finset.range (n * n), xs.getD i 0 ^ 2 ≤ (255 * n : ℝ) ^ 2 := by
    calc _ ≤ ∑ _i ∈ Finset.range (n * n), (255 : ℝ) ^ 2 := Finset.sum_le_sum fun i _ => by
          rw [← sq_abs]; exact pow_le_pow_left₀ (abs_nonneg _) (hx i) 2
      _ = _ := by rw [Finset.sum_const, Finset.card_range, nsmul_eq_mul]; push_cast; ring
  refine abs_le_of_sq_le_sq ?_ (by positivity)
  unfold txfReal
  rw [sum_list_range]
  refine (Finset.sum_mul_sq_le_sq_mul_sq _ _ _).trans ?_
  rw [hentries, one_mul]
  exact hsquares

end Sys2Proof.Config
end

