-- ==== Sys2Proof/Laws/Cells.lean ====
section
/-! SUPPORT. Sparse memories: what a read answers after each operation, that every operation keeps the canonical form and
the capacity, and what reading a range answers. -/

namespace Sys2Proof.Machine

open Sys2Proof Sys2Proof.Safety

variable {α : Type}

/-! ## Reads after writes -/

@[simp] theorem cellsRead_nil (a : Nat) : cellsRead ([] : Cells α) a = none := rfl

@[simp] theorem cellsRead_write_same (m : Cells α) (a : Nat) (v : α) : cellsRead (cellsWrite m a v) a = some v := by
  induction m with
  | nil => simp [cellsWrite, cellsRead]
  | cons c rest ih =>
    obtain ⟨b, w⟩ := c
    simp only [cellsWrite]
    split
    · simp [cellsRead]
    · split
      · simp [cellsRead]
      · simp [cellsRead, *]

theorem cellsRead_write_other (m : Cells α) {a b : Nat} (v : α) (h : b ≠ a) :
    cellsRead (cellsWrite m a v) b = cellsRead m b := by
  induction m with
  | nil => simp [cellsWrite, cellsRead, h]
  | cons c rest ih =>
    obtain ⟨d, w⟩ := c
    simp only [cellsWrite]
    split
    · simp [cellsRead, h]
    · split
      · subst_vars; simp [cellsRead, h]
      · simp [cellsRead, ih]

theorem cellsRead_lose (m : Cells α) (lo : Nat) (f : Nat → α) (a : Nat) :
    cellsRead (cellsLose m lo f) a = if lo ≤ a then (cellsRead m a).map fun _ => f a else cellsRead m a := by
  induction m with
  | nil => simp [cellsLose]
  | cons c rest ih =>
    obtain ⟨b, w⟩ := c
    have ih' : cellsRead (List.map (fun c : Nat × α => if lo ≤ c.1 then (c.1, f c.1) else c) rest) a = _ := ih
    by_cases hb : lo ≤ b
    · simp only [cellsLose, List.map_cons, hb, if_true, cellsRead]
      by_cases hab : a = b
      · subst hab; simp [hb]
      · simp [hab, ih']
    · simp only [cellsLose, List.map_cons, hb, if_false, cellsRead]
      by_cases hab : a = b
      · subst hab; simp [hb]
      · simp [hab, ih']

theorem cellsRead_lose_below (m : Cells α) {lo a : Nat} (f : Nat → α) (h : a < lo) :
    cellsRead (cellsLose m lo f) a = cellsRead m a := by
  rw [cellsRead_lose, if_neg (by omega)]

/-- Reading behind a prefix that does not list the index. -/
theorem cellsRead_append_of_forall_ne (m n : Cells α) (a : Nat) (h : ∀ c ∈ m, c.1 ≠ a) :
    cellsRead (m ++ n) a = cellsRead n a := by
  induction m with
  | nil => rfl
  | cons c rest ih =>
    obtain ⟨b, w⟩ := c
    have hb : a ≠ b := fun e => h (b, w) (by simp) e.symm
    simp only [List.cons_append, cellsRead, hb, if_false]
    exact ih fun c hc => h c (by simp [hc])

theorem cellsRead_filter_ge (m : Cells α) {n a : Nat} (h : n ≤ a) :
    cellsRead (m.filter fun c => n ≤ c.1) a = cellsRead m a := by
  induction m with
  | nil => rfl
  | cons c rest ih =>
    obtain ⟨b, w⟩ := c
    by_cases hb : n ≤ b
    · simp [hb, cellsRead, ih]
    · have hab : a ≠ b := by omega
      simp [hb, cellsRead, hab, ih]

theorem cellsRead_indexed (vs : List α) (k a : Nat) (n : Cells α) :
    cellsRead (((vs.zipIdx k).map fun p => (p.2, p.1)) ++ n) a =
      if k ≤ a ∧ a < k + vs.length then vs[a - k]? else cellsRead n a := by
  induction vs generalizing k with
  | nil =>
    have : ¬(k ≤ a ∧ a < k) := by omega
    simp [this]
  | cons v rest ih =>
    simp only [List.zipIdx_cons, List.map_cons, List.cons_append, cellsRead, List.length_cons]
    by_cases hak : a = k
    · subst hak; simp
    · rw [if_neg hak, ih (k + 1)]
      by_cases hc : k + 1 ≤ a ∧ a < k + 1 + rest.length
      · rw [if_pos hc, if_pos (by omega)]
        obtain ⟨d, hd⟩ : ∃ d, a - k = d + 1 := ⟨a - k - 1, by omega⟩
        rw [hd, List.getElem?_cons_succ, show a - (k + 1) = d by omega]
      · rw [if_neg hc, if_neg (by omega)]

theorem cellsRead_fill (m : Cells α) (vs : List α) (a : Nat) :
    cellsRead (cellsFill m vs) a = if a < vs.length then vs[a]? else cellsRead m a := by
  unfold cellsFill
  have := cellsRead_indexed vs 0 a (m.filter fun c => decide (vs.length ≤ c.1))
  simp only [Nat.zero_le, true_and, Nat.zero_add, Nat.sub_zero] at this
  rw [this]
  split
  · rfl
  · exact cellsRead_filter_ge m (by omega)

theorem cellsRead_fill_of_lt (m : Cells α) (vs : List α) {a : Nat} (h : a < vs.length) :
    cellsRead (cellsFill m vs) a = some vs[a] := by
  rw [cellsRead_fill, if_pos h, List.getElem?_eq_getElem h]

theorem cellsRead_fill_of_ge (m : Cells α) (vs : List α) {a : Nat} (h : vs.length ≤ a) :
    cellsRead (cellsFill m vs) a = cellsRead m a := by
  rw [cellsRead_fill, if_neg (by omega)]

/-! ## The canonical form -/

theorem cellsWf_nil : CellsWf ([] : Cells α) := List.Pairwise.nil

theorem mem_cellsWrite {m : Cells α} {a : Nat} {v : α} {c : Nat × α} (h : c ∈ cellsWrite m a v) :
    c = (a, v) ∨ c ∈ m := by
  induction m with
  | nil => simpa [cellsWrite] using h
  | cons d rest ih =>
    obtain ⟨b, w⟩ := d
    simp only [cellsWrite] at h
    split at h
    · simpa using h
    · split at h
      · simp only [List.mem_cons] at h ⊢; tauto
      · simp only [List.mem_cons] at h ⊢
        rcases h with h | h
        · tauto
        · rcases ih h with h | h <;> tauto

theorem cellsWrite_wf {m : Cells α} (h : CellsWf m) (a : Nat) (v : α) : CellsWf (cellsWrite m a v) := by
  induction m with
  | nil => exact List.pairwise_singleton _ _
  | cons d rest ih =>
    obtain ⟨b, w⟩ := d
    simp only [CellsWf, List.map_cons, List.pairwise_cons, List.mem_map, forall_exists_index, and_imp,
      forall_apply_eq_imp_iff₂] at h ih ⊢
    simp only [cellsWrite]
    split
    · rename_i hab
      simp only [List.map_cons, List.pairwise_cons, List.mem_cons, List.mem_map]
      refine ⟨?_, ?_, h.2⟩
      · rintro x (rfl | ⟨c, hc, rfl⟩)
        · exact hab
        · exact lt_trans hab (h.1 c hc)
      · rintro x ⟨c, hc, rfl⟩; exact h.1 c hc
    · split
      · rename_i _ hab
        subst hab
        simp only [List.map_cons, List.pairwise_cons, List.mem_map]
        exact ⟨by rintro x ⟨c, hc, rfl⟩; exact h.1 c hc, h.2⟩
      · rename_i h1 h2
        simp only [List.map_cons, List.pairwise_cons, List.mem_map]
        refine ⟨?_, ih h.2⟩
        rintro x ⟨c, hc, rfl⟩
        rcases mem_cellsWrite hc with rfl | hc
        · simp; omega
        · exact h.1 c hc

theorem cellsLose_indices (m : Cells α) (lo : Nat) (f : Nat → α) :
    (cellsLose m lo f).map Prod.fst = m.map Prod.fst := by
  simp only [cellsLose, List.map_map]
  apply List.map_congr_left
  intro c _
  simp only [Function.comp]
  split <;> rfl

theorem cellsLose_wf {m : Cells α} (h : CellsWf m) (lo : Nat) (f : Nat → α) : CellsWf (cellsLose m lo f) := by
  unfold CellsWf
  rw [cellsLose_indices]
  exact h

theorem indexed_indices (vs : List α) (k : Nat) :
    ((vs.zipIdx k).map fun p => (p.2, p.1)).map Prod.fst = List.range' k vs.length := by
  induction vs generalizing k with
  | nil => rfl
  | cons v rest ih => simp [List.zipIdx_cons, List.range'_succ, ← ih (k + 1)]

theorem cellsFill_wf {m : Cells α} (h : CellsWf m) (vs : List α) : CellsWf (cellsFill m vs) := by
  unfold CellsWf cellsFill
  rw [List.map_append, indexed_indices, List.pairwise_append]
  refine ⟨List.pairwise_lt_range', ?_, ?_⟩
  · exact List.Pairwise.sublist (List.filter_sublist.map _) h
  · intro a ha b hb
    simp only [List.mem_range'_1, List.mem_map, List.mem_filter, decide_eq_true_eq] at ha hb
    obtain ⟨c, ⟨_, hc⟩, rfl⟩ := hb
    omega

/-! ## Capacity -/

theorem below_nil (n : Nat) : Below n ([] : Cells α) := by simp [Below]

theorem below_write {n : Nat} {m : Cells α} (h : Below n m) {a : Nat} (ha : a < n) (v : α) :
    Below n (cellsWrite m a v) := by
  intro c hc
  rcases mem_cellsWrite hc with rfl | hc
  · exact ha
  · exact h c hc

theorem below_lose {n : Nat} {m : Cells α} (h : Below n m) (lo : Nat) (f : Nat → α) : Below n (cellsLose m lo f) := by
  intro c hc
  simp only [cellsLose, List.mem_map] at hc
  obtain ⟨d, hd, rfl⟩ := hc
  have := h d hd
  split <;> exact this

theorem below_fill {n : Nat} {m : Cells α} (h : Below n m) {vs : List α} (hv : vs.length ≤ n) :
    Below n (cellsFill m vs) := by
  intro c hc
  simp only [cellsFill, List.mem_append, List.mem_map, List.mem_filter] at hc
  rcases hc with ⟨p, hp, rfl⟩ | ⟨hc, _⟩
  · have := List.snd_lt_of_mem_zipIdx hp
    simp at this ⊢
    omega
  · exact h c hc

/-! ## Ranges -/

/-- A range reads exactly when each of its elements does. -/
theorem cellsReadRange_eq_some (m : Cells α) (start count : Nat) (xs : List α) :
    cellsReadRange m start count = some xs ↔
      xs.length = count ∧ ∀ i, i < count → cellsRead m (start + i) = xs[i]? := by
  induction count generalizing start xs with
  | zero =>
    simp only [cellsReadRange, Option.some.injEq]
    constructor
    · rintro rfl; simp
    · rintro ⟨h, _⟩; exact (List.length_eq_zero_iff.1 h).symm
  | succ n ih =>
    simp only [cellsReadRange]
    constructor
    · intro h
      cases h1 : cellsRead m start with
      | none => simp [h1] at h
      | some x =>
        cases h2 : cellsReadRange m (start + 1) n with
        | none => simp [h1, h2] at h
        | some ys =>
          simp only [h1, h2, Option.some.injEq] at h
          subst h
          obtain ⟨hl, hr⟩ := (ih (start + 1) ys).1 h2
          refine ⟨by simp [hl], ?_⟩
          intro i hi
          cases i with
          | zero => simpa using h1
          | succ i => simpa [Nat.add_assoc, Nat.add_comm 1 i] using hr i (by omega)
    · rintro ⟨hl, hr⟩
      cases xs with
      | nil => simp at hl
      | cons x ys =>
        have h1 : cellsRead m start = some x := by simpa using hr 0 (by omega)
        have h2 : cellsReadRange m (start + 1) n = some ys := by
          refine (ih (start + 1) ys).2 ⟨by simpa using hl, ?_⟩
          intro i hi
          have := hr (i + 1) (by omega)
          simpa [Nat.add_assoc, Nat.add_comm 1 i] using this
        simp [h1, h2]

/-- A range with an unwritten element does not read. -/
theorem cellsReadRange_eq_none (m : Cells α) (start count : Nat) :
    cellsReadRange m start count = none ↔ ∃ i, i < count ∧ cellsRead m (start + i) = none := by
  induction count generalizing start with
  | zero => simp [cellsReadRange]
  | succ n ih =>
    simp only [cellsReadRange]
    constructor
    · intro h
      cases h1 : cellsRead m start with
      | none => exact ⟨0, by omega, by simpa using h1⟩
      | some x =>
        cases h2 : cellsReadRange m (start + 1) n with
        | none =>
          obtain ⟨i, hi, hr⟩ := (ih (start + 1)).1 h2
          exact ⟨i + 1, by omega, by simpa [Nat.add_assoc, Nat.add_comm 1 i] using hr⟩
        | some ys => simp [h1, h2] at h
    · rintro ⟨i, hi, hr⟩
      cases i with
      | zero => simp only [Nat.add_zero] at hr; simp [hr]
      | succ i =>
        have : cellsReadRange m (start + 1) n = none :=
          (ih (start + 1)).2 ⟨i, by omega, by simpa [Nat.add_assoc, Nat.add_comm 1 i] using hr⟩
        rw [this]
        cases cellsRead m start <;> rfl

theorem cellsReadRange_length {m : Cells α} {start count : Nat} {xs : List α}
    (h : cellsReadRange m start count = some xs) : xs.length = count :=
  ((cellsReadRange_eq_some m start count xs).1 h).1

theorem cellsReadRange_congr {m n : Cells α} {start count : Nat}
    (h : ∀ a, start ≤ a → a < start + count → cellsRead n a = cellsRead m a) :
    cellsReadRange n start count = cellsReadRange m start count := by
  induction count generalizing start with
  | zero => rfl
  | succ k ih =>
    simp only [cellsReadRange]
    rw [h start (by omega) (by omega), ih fun a h1 h2 => h a (by omega) (by omega)]

theorem cellsReadRange_append (m : Cells α) (start j k : Nat) :
    cellsReadRange m start (j + k) =
      (cellsReadRange m start j).bind fun xs => (cellsReadRange m (start + j) k).map fun ys => xs ++ ys := by
  induction j generalizing start with
  | zero => simp [cellsReadRange]
  | succ j ih =>
    rw [show j + 1 + k = (j + k) + 1 by omega]
    simp only [cellsReadRange, ih]
    rw [show start + 1 + j = start + (j + 1) by omega]
    cases cellsRead m start <;> cases cellsReadRange m (start + 1) j <;>
      cases cellsReadRange m (start + (j + 1)) k <;> rfl

/-- After a fill, the filled range reads the list. -/
theorem cellsReadRange_fill (m : Cells α) (vs : List α) :
    cellsReadRange (cellsFill m vs) 0 vs.length = some vs := by
  rw [cellsReadRange_eq_some]
  refine ⟨rfl, ?_⟩
  intro i hi
  rw [Nat.zero_add, cellsRead_fill, if_pos hi]

end Sys2Proof.Machine
end

