-- ==== Sys2Proof/Laws/Cmd.lean ====
section
/-! SUPPORT. The command monad: what running a primitive answers, how a sequence succeeds, and how a relation between
the starting and the ending state passes from steps to sequences and loops. -/

namespace Sys2Proof.Machine

open Sys2Proof

variable {α β : Type}

/-! ## Running the primitives -/

@[simp] theorem cmd_pure (a : α) (s : State) : (pure a : Cmd α) s = .ok a s := rfl

@[simp] theorem cmd_get (s : State) : (get : Cmd State) s = .ok s s := rfl

@[simp] theorem cmd_modify (f : State → State) (s : State) : (modify f : Cmd Unit) s = .ok () (f s) := rfl

@[simp] theorem cmd_raise (k : FaultKind) (s : State) : (raise k : Cmd α) s = .error (.fault k) s := rfl

@[simp] theorem cmd_refuse (r : Refusal) (s : State) : (refuse r : Cmd α) s = .error (.refuse r) s := rfl

@[simp] theorem setRes_run (v : Word) (s : State) : setRes v s = .ok () { s with res := v } := rfl

@[simp] theorem setModel_run (m : Fin 15) (x : Model) (s : State) : setModel m x s = .ok () (withModel s m x) := rfl

theorem cmd_bind (c : Cmd α) (f : α → Cmd β) (s : State) :
    (c >>= f) s = match c s with
      | .ok a t => f a t
      | .error e t => .error e t := by
  change EStateM.bind c f s = _
  unfold EStateM.bind
  cases c s <;> rfl

/-- A sequence whose first command succeeds goes on from its end. -/
theorem cmd_bind_of_ok {c : Cmd α} {f : α → Cmd β} {s t : State} {a : α} (h : c s = .ok a t) :
    (c >>= f) s = f a t := by rw [cmd_bind, h]

/-- A sequence whose first command stops has stopped. -/
theorem cmd_bind_of_error {c : Cmd α} {f : α → Cmd β} {s t : State} {e : Stop} (h : c s = .error e t) :
    (c >>= f) s = .error e t := by rw [cmd_bind, h]

/-- A sequence succeeds exactly when both its commands do. -/
theorem cmd_bind_ok_iff {c : Cmd α} {f : α → Cmd β} {s u : State} {b : β} :
    (c >>= f) s = .ok b u ↔ ∃ a t, c s = .ok a t ∧ f a t = .ok b u := by
  rw [cmd_bind]
  cases h : c s with
  | ok a t => simp
  | error e t => simp

/-- A sequence stops in its first command or, that one done, in its second. -/
theorem cmd_bind_error_iff {c : Cmd α} {f : α → Cmd β} {s u : State} {e : Stop} :
    (c >>= f) s = .error e u ↔ c s = .error e u ∨ ∃ a t, c s = .ok a t ∧ f a t = .error e u := by
  rw [cmd_bind]
  cases h : c s with
  | ok a t => simp
  | error e t => simp

/-! ## Relations every end of a command keeps -/

/-- The state a command ends in, done or stopped. -/
def endState : EStateM.Result Stop State α → State
  | .ok _ t => t
  | .error _ t => t

/-- `R` holds between the start and the end of a command, done or stopped. -/
def Keeps (R : State → State → Prop) (c : Cmd α) : Prop := ∀ s, R s (endState (c s))

/-- `R` holds between the start and the end of a command that is done. -/
def KeepsOk (R : State → State → Prop) (c : Cmd α) : Prop := ∀ s a t, c s = .ok a t → R s t

/-- What a loop or a sequence asks of a relation. -/
structure Chains (R : State → State → Prop) : Prop where
  refl : ∀ s, R s s
  trans : ∀ s t u, R s t → R t u → R s u

section keeps

variable {R : State → State → Prop}

theorem Keeps.ok {c : Cmd α} (h : Keeps R c) : KeepsOk R c := fun s a t e => by
  have := h s
  rwa [e] at this

theorem Keeps.of_ok_eq {c : Cmd α} (h : Keeps R c) {s t : State} {a : α} (e : c s = .ok a t) : R s t := h.ok s a t e

theorem Keeps.of_error_eq {c : Cmd α} (h : Keeps R c) {s t : State} {e : Stop} (he : c s = .error e t) : R s t := by
  have := h s
  rwa [he] at this

theorem keeps_pure (hR : Chains R) (a : α) : Keeps R (pure a : Cmd α) := fun s => hR.refl s

theorem keeps_get (hR : Chains R) : Keeps R (get : Cmd State) := fun s => hR.refl s

theorem keeps_raise (hR : Chains R) (k : FaultKind) : Keeps R (raise k : Cmd α) := fun s => hR.refl s

theorem keeps_modify {f : State → State} (h : ∀ s, R s (f s)) : Keeps R (modify f : Cmd Unit) := h

theorem keeps_bind (hR : Chains R) {c : Cmd α} {f : α → Cmd β} (hc : Keeps R c) (hf : ∀ a, Keeps R (f a)) :
    Keeps R (c >>= f) := by
  intro s
  rw [cmd_bind]
  have h1 := hc s
  cases h : c s with
  | ok a t => rw [h] at h1; exact hR.trans s t _ h1 (hf a t)
  | error e t => rw [h] at h1; exact h1

theorem keeps_ite {P : Prop} [Decidable P] {c d : Cmd α} (hc : Keeps R c) (hd : Keeps R d) :
    Keeps R (if P then c else d) := by
  split <;> assumption

theorem keeps_when (hR : Chains R) (b : Bool) {c : Cmd Unit} (hc : Keeps R c) : Keeps R (whenCmd b c) :=
  keeps_ite hc (keeps_pure hR ())

theorem keeps_forBits (hR : Chains R) {f : Bool → Cmd Unit} (hf : ∀ b, Keeps R (f b)) (v : Word) :
    ∀ n, Keeps R (forBits f v n)
  | 0 => keeps_pure hR ()
  | n + 1 => keeps_bind hR (hf _) fun _ => keeps_forBits hR hf v n

theorem keeps_repeatCmd (hR : Chains R) {c : Cmd Unit} (hc : Keeps R c) : ∀ n, Keeps R (repeatCmd c n)
  | 0 => keeps_pure hR ()
  | n + 1 => keeps_bind hR hc fun _ => keeps_repeatCmd hR hc n

theorem keeps_collectBits (hR : Chains R) {f : Cmd Bool} (hf : Keeps R f) :
    ∀ n acc, Keeps R (collectBits f n acc)
  | 0, acc => keeps_pure hR acc
  | n + 1, _ => keeps_bind hR hf fun _ => keeps_collectBits hR hf n _

theorem keepsOk_pure (hR : Chains R) (a : α) : KeepsOk R (pure a : Cmd α) := (keeps_pure hR a).ok

theorem keepsOk_get (hR : Chains R) : KeepsOk R (get : Cmd State) := (keeps_get hR).ok

theorem keepsOk_raise (k : FaultKind) : KeepsOk R (raise k : Cmd α) := fun _ _ _ h => by simp at h

theorem keepsOk_modify {f : State → State} (h : ∀ s, R s (f s)) : KeepsOk R (modify f : Cmd Unit) :=
  (keeps_modify h).ok

theorem keepsOk_bind (hR : Chains R) {c : Cmd α} {f : α → Cmd β} (hc : KeepsOk R c) (hf : ∀ a, KeepsOk R (f a)) :
    KeepsOk R (c >>= f) := by
  intro s b u h
  obtain ⟨a, t, h1, h2⟩ := cmd_bind_ok_iff.1 h
  exact hR.trans s t u (hc s a t h1) (hf a t b u h2)

theorem keepsOk_ite {P : Prop} [Decidable P] {c d : Cmd α} (hc : KeepsOk R c) (hd : KeepsOk R d) :
    KeepsOk R (if P then c else d) := by
  split <;> assumption

theorem keepsOk_when (hR : Chains R) (b : Bool) {c : Cmd Unit} (hc : KeepsOk R c) : KeepsOk R (whenCmd b c) :=
  keepsOk_ite hc (keepsOk_pure hR ())

theorem keepsOk_forBits (hR : Chains R) {f : Bool → Cmd Unit} (hf : ∀ b, KeepsOk R (f b)) (v : Word) :
    ∀ n, KeepsOk R (forBits f v n)
  | 0 => keepsOk_pure hR ()
  | n + 1 => keepsOk_bind hR (hf _) fun _ => keepsOk_forBits hR hf v n

theorem keepsOk_repeatCmd (hR : Chains R) {c : Cmd Unit} (hc : KeepsOk R c) : ∀ n, KeepsOk R (repeatCmd c n)
  | 0 => keepsOk_pure hR ()
  | n + 1 => keepsOk_bind hR hc fun _ => keepsOk_repeatCmd hR hc n

theorem keepsOk_collectBits (hR : Chains R) {f : Cmd Bool} (hf : KeepsOk R f) :
    ∀ n acc, KeepsOk R (collectBits f n acc)
  | 0, acc => keepsOk_pure hR acc
  | n + 1, _ => keepsOk_bind hR hf fun _ => keepsOk_collectBits hR hf n _

end keeps

/-! ## Running a whole command (rule R324) -/

theorem runCommand_of_fault {w : List BufName} {c : Cmd Unit} {s : State} (h : s.status.fault = true) :
    runCommand w c s = .next s := by simp [runCommand, h]

theorem runCommand_of_ok {w : List BufName} {c : Cmd Unit} {s t : State} (h : s.status.fault = false)
    (e : c s = .ok () t) : runCommand w c s = .next t := by simp [runCommand, h, e]

theorem runCommand_of_raise {w : List BufName} {c : Cmd Unit} {s t : State} {k : FaultKind}
    (h : s.status.fault = false) (e : c s = .error (.fault k) t) :
    runCommand w c s = .next (takeFault k w s t) := by simp [runCommand, h, e]

theorem runCommand_of_refuse {w : List BufName} {c : Cmd Unit} {s t : State} {r : Refusal}
    (h : s.status.fault = false) (e : c s = .error (.refuse r) t) : runCommand w c s = .refused r := by
  simp [runCommand, h, e]

/-- All a command can answer: nothing happens while a fault is pending; else it is done, or it takes a fault. -/
theorem runCommand_next {w : List BufName} {c : Cmd Unit} {s t : State} (h : runCommand w c s = .next t) :
    (s.status.fault = true ∧ t = s) ∨
      (s.status.fault = false ∧ c s = .ok () t) ∨
      (s.status.fault = false ∧ ∃ k u, c s = .error (.fault k) u ∧ t = takeFault k w s u) := by
  unfold runCommand at h
  cases hf : s.status.fault with
  | true => simp [hf] at h; simp [h]
  | false =>
    simp only [hf, Bool.false_eq_true, if_false] at h
    cases hc : c s with
    | ok a u => simp [hc] at h; simp [h]
    | error e u =>
      cases e with
      | fault k =>
        simp only [hc, Host.Outcome.next.injEq] at h
        exact Or.inr (Or.inr ⟨rfl, k, u, rfl, h.symm⟩)
      | refuse r => simp [hc] at h

end Sys2Proof.Machine
end

