-- ==== Sys2Proof/Laws/BitIO.lean ====
section
/-! SUPPORT. The bit writer and the bit reader as operations on a stream of bits (rules R100, R101). -/

namespace Sys2Proof.Machine

open Sys2Proof Sys2Proof.Safety

variable {p : Config.Params} {s t u : State}

/-! ## Writing -/

/-- The bits `bs` have been written, first bit first: the writer has moved on by their number, they stand where it was,
and the output before them, every other STREAM byte and every other register are as they were. -/
structure Written (s : State) (bs : List Bool) (t : State) : Prop where
  pos : outPos t = outPos s + bs.length
  cnt : t.bw.cnt.toNat ≤ 7
  new : ∀ j b, bs[j]? = some b → outBit t (outPos s + j) = some b
  old : ∀ i, i < outPos s → outBit t i = outBit s i
  outside : ∀ a, a < s.bw.ptr.toNat ∨ t.bw.ptr.toNat ≤ a → cellsRead t.stream a = cellsRead s.stream a
  rest : t = { s with stream := t.stream, bw := t.bw }

theorem Written.refl (h : s.bw.cnt.toNat ≤ 7) : Written s [] s :=
  ⟨rfl, h, fun j b e => by simp at e, fun _ _ => rfl, fun _ _ => rfl, rfl⟩

theorem Written.ptr_le {bs : List Bool} (h : Written s bs t) (hc : s.bw.cnt.toNat ≤ 7) :
    s.bw.ptr.toNat ≤ t.bw.ptr.toNat := by
  have := h.pos
  have := h.cnt
  simp only [outPos] at *
  omega

theorem Written.trans {bs cs : List Bool} (h : Written s bs t) (k : Written t cs u) (hc : s.bw.cnt.toNat ≤ 7) :
    Written s (bs ++ cs) u where
  pos := by rw [k.pos, h.pos, List.length_append, Nat.add_assoc]
  cnt := k.cnt
  new j b e := by
    rcases Nat.lt_or_ge j bs.length with hj | hj
    · rw [List.getElem?_append_left hj] at e
      rw [k.old _ (by rw [h.pos]; omega)]
      exact h.new j b e
    · rw [List.getElem?_append_right hj] at e
      have := k.new _ b e
      rwa [h.pos, show outPos s + bs.length + (j - bs.length) = outPos s + j by omega] at this
  old i hi := by rw [k.old i (by rw [h.pos]; omega), h.old i hi]
  outside a ha := by
    have h1 := h.ptr_le hc
    have h2 := k.ptr_le h.cnt
    rw [k.outside a (by omega), h.outside a (by omega)]
  rest := by rw [k.rest, h.rest]

/-- A byte with one more bit shifted in. -/
theorem shiftIn_bit (acc : Byte) (b : Bool) (i : Nat) :
    ((acc <<< 1) ||| (if b then 1 else 0) : Byte).getLsbD i =
      if i = 0 then b else decide (i < 8) && acc.getLsbD (i - 1) := by
  rcases i with _ | i <;> cases b <;> simp [BitVec.getLsbD_shiftLeft]

theorem outBit_stream {i : Nat} (h : i / 8 < s.bw.ptr.toNat) :
    outBit s i = (cellsRead s.stream (i / 8)).map fun b => b.getLsbD (7 - i % 8) := if_pos h

theorem outBit_acc {i : Nat} (h : ¬i / 8 < s.bw.ptr.toNat) (hi : i < outPos s) :
    outBit s i = some (s.bw.acc.getLsbD (s.bw.cnt.toNat - 1 - i % 8)) := by
  rw [outBit, if_neg h, if_pos hi]

/-- The accumulator with one more bit. -/
def shiftIn (acc : Byte) (b : Bool) : Byte := (acc <<< 1) ||| (if b then 1 else 0)

theorem putBit_short (b : Bool) (hc : s.bw.cnt.toNat < 7) :
    putBit p b s = .ok () { s with bw := { s.bw with acc := shiftIn s.bw.acc b, cnt := s.bw.cnt + 1 } } :=
  if_neg (show ¬s.bw.cnt + 1 = 8 by bv_omega)

theorem putBit_byte (b : Bool) (hc : s.bw.cnt.toNat = 7) (hp : s.bw.ptr.toNat < p.streamBytes) :
    putBit p b s = .ok () { s with
      stream := cellsWrite s.stream s.bw.ptr.toNat (shiftIn s.bw.acc b), bw := { acc := 0, cnt := 0, ptr := s.bw.ptr + 1 } } := by
  have h : s.bw.cnt + 1 = 8 := by bv_omega
  unfold putBit
  simp only [if_pos h]
  exact if_neg (by omega)

theorem putBit_full (b : Bool) (hc : s.bw.cnt.toNat = 7) (hp : p.streamBytes ≤ s.bw.ptr.toNat) :
    ∃ t, putBit p b s = .error (.fault .outOverflow) t := by
  have h : s.bw.cnt + 1 = 8 := by bv_omega
  refine ⟨{ s with bw := { s.bw with acc := shiftIn s.bw.acc b, cnt := s.bw.cnt + 1 } }, ?_⟩
  unfold putBit
  simp only [if_pos h]
  exact if_pos hp

/-- `put_bit` writes its bit where there is room for it. -/
theorem putBit_written (b : Bool) (hc : s.bw.cnt.toNat ≤ 7) (hp : p.streamBytes ≤ 2 ^ 32 - 1)
    (room : writerRoom p s 1) : ∃ t, putBit p b s = .ok () t ∧ Written s [b] t := by
  simp only [writerRoom] at room
  by_cases h7 : s.bw.cnt.toNat = 7
  · have hlt : s.bw.ptr.toNat < p.streamBytes := by omega
    have hptr : (s.bw.ptr + 1).toNat = s.bw.ptr.toNat + 1 := by bv_omega
    refine ⟨_, putBit_byte b h7 hlt, ?_⟩
    constructor
    · simp only [outPos, hptr, List.length_singleton]
      change 8 * (s.bw.ptr.toNat + 1) + 0 = _
      omega
    · exact Nat.zero_le 7
    · intro j x e
      obtain ⟨rfl, rfl⟩ : j = 0 ∧ b = x := by
        rcases j with _ | j
        · simpa using e
        · simp at e
      simp only [outBit, outPos, hptr]
      rw [if_pos (by omega), show (8 * s.bw.ptr.toNat + s.bw.cnt.toNat + 0) / 8 = s.bw.ptr.toNat by omega,
        cellsRead_write_same, Option.map_some, shiftIn, shiftIn_bit, if_pos (by omega)]
    · intro i hi
      have hi' := hi
      simp only [outPos] at hi'
      rw [outBit_stream (s := { s with stream := _, bw := _ }) (by simp only [hptr]; omega)]
      by_cases h8 : i / 8 < s.bw.ptr.toNat
      · rw [outBit_stream h8, cellsRead_write_other _ _ (by omega)]
      · rw [outBit_acc h8 hi, show i / 8 = s.bw.ptr.toNat by omega, cellsRead_write_same,
          Option.map_some, shiftIn, shiftIn_bit, if_neg (by omega)]
        rw [show 7 - i % 8 - 1 = s.bw.cnt.toNat - 1 - i % 8 by omega]
        simp only [Option.some.injEq, Bool.and_eq_right_iff_imp, decide_eq_true_eq]
        omega
    · intro a ha
      simp only [hptr] at ha
      rw [cellsRead_write_other _ _ (by omega)]
    · rfl
  · have hlt : s.bw.cnt.toNat < 7 := by omega
    have hcnt : (s.bw.cnt + 1).toNat = s.bw.cnt.toNat + 1 := by bv_omega
    refine ⟨_, putBit_short b hlt, ?_⟩
    constructor
    · simp only [outPos, hcnt, List.length_singleton]
      omega
    · simp only [hcnt]
      omega
    · intro j x e
      obtain ⟨rfl, rfl⟩ : j = 0 ∧ b = x := by
        rcases j with _ | j
        · simpa using e
        · simp at e
      simp only [outBit, outPos, hcnt]
      rw [if_neg (by omega), if_pos (by omega), shiftIn, shiftIn_bit, if_pos (by omega)]
    · intro i hi
      have hi' := hi
      simp only [outPos] at hi'
      by_cases h8 : i / 8 < s.bw.ptr.toNat
      · rw [outBit_stream h8]
        exact outBit_stream (s := { s with bw := { s.bw with acc := _, cnt := _ } }) h8
      · rw [outBit_acc h8 hi]
        refine (outBit_acc
          (s := { s with bw := { s.bw with acc := shiftIn s.bw.acc b, cnt := s.bw.cnt + 1 } }) h8
          (by simp only [outPos, hcnt]; omega)).trans ?_
        rw [shiftIn, shiftIn_bit, if_neg (by simp only [hcnt]; omega)]
        simp only [hcnt]
        rw [show s.bw.cnt.toNat + 1 - 1 - i % 8 - 1 = s.bw.cnt.toNat - 1 - i % 8 by omega]
        simp only [Option.some.injEq, Bool.and_eq_right_iff_imp, decide_eq_true_eq]
        omega
    · exact fun _ _ => rfl
    · rfl

/-- Room for many bits is room for the first ones, and what they leave is room for the rest. -/
theorem Written.room {bs : List Bool} (h : Written s bs t) (hc : s.bw.cnt.toNat ≤ 7) {n : Nat}
    (room : writerRoom p s (bs.length + n)) : writerRoom p t n := by
  have h1 := h.pos
  have h2 := h.cnt
  simp only [outPos, writerRoom] at *
  omega

theorem writerRoom_mono {m n : Nat} (h : m ≤ n) (room : writerRoom p s n) : writerRoom p s m := by
  simp only [writerRoom] at *
  omega

/-- Bits `n-1 .. 0` of a word, the order in which commands write and encode them. -/
def bitsOf (v : Word) : Nat → List Bool
  | 0 => []
  | n + 1 => v.getLsbD n :: bitsOf v n

theorem bitsOf_length (v : Word) (n : Nat) : (bitsOf v n).length = n := by
  induction n with
  | zero => rfl
  | succ n ih => simp [bitsOf, ih]

theorem bitsOf_getElem (v : Word) {n j : Nat} (h : j < n) : (bitsOf v n)[j]? = some (v.getLsbD (n - 1 - j)) := by
  induction n generalizing j with
  | zero => omega
  | succ n ih =>
    rcases j with _ | j
    · simp [bitsOf]
    · simp only [bitsOf, List.getElem?_cons_succ]
      rw [ih (by omega), show n + 1 - 1 - (j + 1) = n - 1 - j by omega]

/-- `put_bits` writes its bits, most significant first, where there is room for them. -/
theorem putBits_written (v : Word) (n : Nat) (hc : s.bw.cnt.toNat ≤ 7) (hp : p.streamBytes ≤ 2 ^ 32 - 1)
    (room : writerRoom p s n) : ∃ t, putBits p v n s = .ok () t ∧ Written s (bitsOf v n) t := by
  induction n generalizing s with
  | zero => exact ⟨s, rfl, Written.refl hc⟩
  | succ n ih =>
    obtain ⟨t, e, h⟩ := putBit_written (p := p) (v.getLsbD n) hc hp (writerRoom_mono (by omega) room)
    obtain ⟨u, f, k⟩ := ih h.cnt (h.room hc (by simpa [Nat.add_comm] using room))
    exact ⟨u, by rw [putBits, forBits, cmd_bind_of_ok e]; exact f, h.trans k hc⟩

/-- Without room for its bits, `put_bits` ends in `OutOverflow`. -/
theorem putBits_overflow (v : Word) (n : Nat) (hc : s.bw.cnt.toNat ≤ 7) (hp : p.streamBytes ≤ 2 ^ 32 - 1)
    (full : ¬writerRoom p s n) : ∃ t, putBits p v n s = .error (.fault .outOverflow) t := by
  induction n generalizing s with
  | zero => exact absurd (by simp only [writerRoom]; omega) full
  | succ n ih =>
    by_cases room : writerRoom p s 1
    · obtain ⟨t, e, h⟩ := putBit_written (p := p) (v.getLsbD n) hc hp room
      have h1 := h.pos
      have h2 := h.cnt
      obtain ⟨u, f⟩ := ih (s := t) h2 (by simp only [outPos, writerRoom, List.length_singleton] at *; omega)
      exact ⟨u, by rw [putBits, forBits, cmd_bind_of_ok e]; exact f⟩
    · obtain ⟨t, e⟩ := putBit_full (p := p) (s := s) (v.getLsbD n) (by simp only [writerRoom] at room; omega)
        (by simp only [writerRoom] at room; omega)
      exact ⟨t, by rw [putBits, forBits, cmd_bind_of_error e]⟩

/-! ## Whole bytes and alignment -/

/-- The state with one more byte written at a byte boundary. -/
def withByte (s : State) (b : Byte) : State :=
  { s with stream := cellsWrite s.stream s.bw.ptr.toNat b, bw := { acc := 0, cnt := 0, ptr := s.bw.ptr + 1 } }

/-- The accumulator after the bits of a list. -/
def shiftAll (acc : Byte) : List Bool → Byte
  | [] => acc
  | b :: bs => shiftAll (shiftIn acc b) bs

theorem shiftAll_bits (b acc : Byte) : shiftAll acc (bitsOf (b.setWidth 32) 8) = b := by
  apply BitVec.eq_of_getLsbD_eq
  intro i hi
  simp only [bitsOf, shiftAll, shiftIn, shiftIn_bit, BitVec.getLsbD_setWidth]
  interval_cases i <;> simp

theorem putBits_short (v : Word) (n : Nat) (h : s.bw.cnt.toNat + n ≤ 7) :
    putBits p v n s = .ok () { s with
      bw := { s.bw with acc := shiftAll s.bw.acc (bitsOf v n), cnt := s.bw.cnt + BitVec.ofNat 4 n } } := by
  induction n generalizing s with
  | zero => simp [putBits, forBits, bitsOf, shiftAll]
  | succ n ih =>
    rw [putBits, forBits, cmd_bind_of_ok (putBit_short _ (by omega))]
    refine (ih ?_).trans ?_
    · have : (s.bw.cnt + 1).toNat = s.bw.cnt.toNat + 1 := by bv_omega
      simp only [this]
      omega
    · simp only [bitsOf, shiftAll, EStateM.Result.ok.injEq, true_and]
      rw [show s.bw.cnt + 1 + BitVec.ofNat 4 n = s.bw.cnt + BitVec.ofNat 4 (n + 1) by
        rw [BitVec.add_assoc, BitVec.add_comm 1, show (1 : BitVec 4) = BitVec.ofNat 4 1 from rfl, ← BitVec.ofNat_add]]

theorem forBits_add (f : Bool → Cmd Unit) (v : Word) (m : Nat) (n : Nat) :
    forBits f v (m + n) s = (do forBits f (v >>> n) m; forBits f v n : Cmd Unit) s := by
  induction m generalizing s with
  | zero => rw [Nat.zero_add]; rfl
  | succ m ih =>
    rw [show m + 1 + n = (m + n) + 1 by omega, forBits, forBits]
    have : (v >>> n).getLsbD m = v.getLsbD (m + n) := by rw [BitVec.getLsbD_ushiftRight, Nat.add_comm]
    rw [this]
    simp only [cmd_bind]
    cases f (v.getLsbD (m + n)) s with
    | ok a t => simpa [cmd_bind] using ih (s := t)
    | error e t => rfl

/-- At a byte boundary `put_bits(b, 8)` writes one byte. -/
theorem putByte_aligned (b : Byte) (hc : s.bw.cnt = 0) (hp : s.bw.ptr.toNat < p.streamBytes) :
    putByte p b s = .ok () (withByte s b) := by
  have h := putBits_short (p := p) (s := s) ((b.setWidth 32) >>> 1) 7 (by rw [hc]; decide)
  refine (forBits_add (putBit p) (b.setWidth 32) 7 1).trans ((cmd_bind_of_ok h).trans ?_)
  have h2 := putBit_byte (p := p)
    (s := { s with bw := { s.bw with
      acc := shiftAll s.bw.acc (bitsOf (b.setWidth 32 >>> 1) 7), cnt := s.bw.cnt + BitVec.ofNat 4 7 } })
    ((b.setWidth 32).getLsbD 0) (by simp [hc]) hp
  refine (cmd_bind_of_ok h2).trans ?_
  simp only [forBits, cmd_pure, withByte, EStateM.Result.ok.injEq, true_and]
  rw [show shiftIn (shiftAll s.bw.acc (bitsOf (b.setWidth 32 >>> 1) 7)) ((b.setWidth 32).getLsbD 0) = b from ?_]
  refine Eq.trans ?_ (shiftAll_bits b s.bw.acc)
  simp only [bitsOf, shiftAll, BitVec.getLsbD_ushiftRight]

theorem putByte_full (b : Byte) (hc : s.bw.cnt = 0) (hp : p.streamBytes ≤ s.bw.ptr.toNat) (h32 : p.streamBytes ≤ 2 ^ 32 - 1) :
    ∃ t, putByte p b s = .error (.fault .outOverflow) t :=
  putBits_overflow _ 8 (by rw [hc]; decide) h32 (by simp only [writerRoom, hc]; simp; omega)

/-- `put_align()` fills the pending byte with zeros, if there is one. -/
theorem putAlign_aligned (hc : s.bw.cnt = 0) : putAlign p s = .ok () s := if_pos hc

theorem alignLoop_run (k : Nat) (hc : s.bw.cnt ≠ 0) (h7 : s.bw.cnt.toNat ≤ 7) (hk : 8 ≤ s.bw.cnt.toNat + k)
    (hp : s.bw.ptr.toNat < p.streamBytes) :
    alignLoop p k s = .ok () (withByte s (s.bw.acc <<< (8 - s.bw.cnt.toNat))) := by
  induction k generalizing s with
  | zero => omega
  | succ k ih =>
    have hz : ∀ a : Byte, shiftIn a false = a <<< 1 := by intro a; simp [shiftIn]
    have h0 : s.bw.cnt.toNat ≠ 0 := fun h => hc (BitVec.eq_of_toNat_eq h)
    refine (if_neg hc).trans ?_
    by_cases h : s.bw.cnt.toNat = 7
    · rw [cmd_bind_of_ok (putBit_byte false h hp)]
      have done : ∀ (t : State) (k : Nat), t.bw.cnt = 0 → alignLoop p k t = .ok () t := by
        intro t k ht
        cases k with
        | zero => rfl
        | succ k => exact if_pos ht
      rw [done _ k rfl, withByte, hz, h]
    · have hcnt : (s.bw.cnt + 1).toNat = s.bw.cnt.toNat + 1 := by bv_omega
      rw [cmd_bind_of_ok (putBit_short false (by omega))]
      refine (ih (s := { s with bw := { s.bw with acc := shiftIn s.bw.acc false, cnt := s.bw.cnt + 1 } })
        (by intro e; have := congrArg BitVec.toNat e; simp only [hcnt] at this; simp at this)
        (by simp only [hcnt]; omega) (by simp only [hcnt]; omega) hp).trans ?_
      simp only [withByte, hz, hcnt, EStateM.Result.ok.injEq, true_and]
      rw [← BitVec.shiftLeft_add,
        show 1 + (8 - (s.bw.cnt.toNat + 1)) = 8 - s.bw.cnt.toNat by omega]

theorem putAlign_run (hc : s.bw.cnt ≠ 0) (h7 : s.bw.cnt.toNat ≤ 7) (hp : s.bw.ptr.toNat < p.streamBytes) :
    putAlign p s = .ok () (withByte s (s.bw.acc <<< (8 - s.bw.cnt.toNat))) :=
  alignLoop_run 16 hc h7 (by omega) hp

theorem putAlign_full (hc : s.bw.cnt ≠ 0) (h7 : s.bw.cnt.toNat ≤ 7) (hp : p.streamBytes ≤ s.bw.ptr.toNat) :
    ∃ t, putAlign p s = .error (.fault .outOverflow) t := by
  have loop : ∀ (k : Nat) (s : State), s.bw.cnt ≠ 0 → s.bw.cnt.toNat ≤ 7 → 8 ≤ s.bw.cnt.toNat + k →
      p.streamBytes ≤ s.bw.ptr.toNat → ∃ t, alignLoop p k s = .error (.fault .outOverflow) t := by
    intro k
    induction k with
    | zero => intro s _ _ _ _; omega
    | succ k ih =>
      intro s hc h7 hk hp
      by_cases h : s.bw.cnt.toNat = 7
      · obtain ⟨t, e⟩ := putBit_full (p := p) (s := s) false h hp
        exact ⟨t, (if_neg hc).trans (cmd_bind_of_error e)⟩
      · have hcnt : (s.bw.cnt + 1).toNat = s.bw.cnt.toNat + 1 := by bv_omega
        obtain ⟨t, e⟩ := ih { s with bw := { s.bw with acc := shiftIn s.bw.acc false, cnt := s.bw.cnt + 1 } }
          (by intro e; have := congrArg BitVec.toNat e; simp only [hcnt] at this; simp at this)
          (by simp only [hcnt]; omega) (by simp only [hcnt]; omega) hp
        exact ⟨t, (if_neg hc).trans ((cmd_bind_of_ok (putBit_short false (by omega))).trans e)⟩
  exact loop 16 s hc h7 (by omega) hp

end Sys2Proof.Machine
end

