-- ==== Sys2Proof/Laws/BitReader.lean ====
section
/-! SUPPORT. The bit reader as a reader of a stream of bits (rules R101, R108). -/

namespace Sys2Proof.Machine

open Sys2Proof Sys2Proof.Safety

variable {p : Config.Params} {s t u : State}

theorem fetchByte_of_end (h : s.br.stop.toNat ≤ s.br.ptr.toNat ∨ p.streamBytes ≤ s.br.ptr.toNat) :
    fetchByte p s = .error (.fault .endOfStream) s := if_pos h

theorem fetchByte_of_some {b : Byte} (h1 : s.br.ptr.toNat < s.br.stop.toNat) (h2 : s.br.ptr.toNat < p.streamBytes)
    (h : cellsRead s.stream s.br.ptr.toNat = some b) :
    fetchByte p s = .ok () { s with br := { s.br with buf := b, cnt := 8, ptr := s.br.ptr + 1 } } := by
  unfold fetchByte
  rw [if_neg (by omega), h]

theorem getBit_of_cnt (h : s.br.cnt ≠ 0) : getBit p s = takeBit s := if_neg h

theorem getBit_of_empty (h : s.br.cnt = 0) : getBit p s = (do fetchByte p; takeBit : Cmd Bool) s := if_pos h

/-- `get_bit` with an empty byte buffer fetches a byte and answers its top bit. -/
theorem getBit_fetch {r : BitReader} {b : Byte} (h0 : r.cnt = 0) (h1 : r.ptr.toNat < r.stop.toNat)
    (h2 : r.ptr.toNat < p.streamBytes) (h : cellsRead s.stream r.ptr.toNat = some b) :
    getBit p { s with br := r } =
      .ok (b.getLsbD 7) { s with br := { buf := b, cnt := 7, ptr := r.ptr + 1, stop := r.stop } } := by
  rw [getBit_of_empty (s := { s with br := r }) h0,
    cmd_bind_of_ok (fetchByte_of_some (s := { s with br := r }) (b := b) h1 h2 h)]
  simp only [takeBit, show (8 - 1 : BitVec 4) = 7 by decide, show (7 : BitVec 4).toNat = 7 by decide]

/-- The unread bit in the byte buffer. -/
theorem inBit_buf {j : Nat} (h : j < s.br.cnt.toNat) :
    inBit p s j = some (s.br.buf.getLsbD (s.br.cnt.toNat - 1 - j)) := if_pos h

/-- An unread bit in STREAM: its byte is inside the readable part and has been written. -/
theorem inBit_stream {j : Nat} {b : Bool} (h : s.br.cnt.toNat ≤ j) (e : inBit p s j = some b) :
    ∃ byte, s.br.ptr.toNat + (j - s.br.cnt.toNat) / 8 < s.br.stop.toNat ∧
      s.br.ptr.toNat + (j - s.br.cnt.toNat) / 8 < p.streamBytes ∧
      cellsRead s.stream (s.br.ptr.toNat + (j - s.br.cnt.toNat) / 8) = some byte ∧
      b = byte.getLsbD (7 - (j - s.br.cnt.toNat) % 8) := by
  rw [inBit, if_neg (by omega)] at e
  simp only at e
  split at e
  · rename_i hlt
    obtain ⟨byte, h1, h2⟩ := Option.map_eq_some_iff.1 e
    exact ⟨byte, hlt.1, hlt.2, h1, h2.symm⟩
  · simp at e

theorem readerAfter_le {n : Nat} (h : n ≤ s.br.cnt.toNat) :
    readerAfter s n = { s.br with cnt := BitVec.ofNat 4 (s.br.cnt.toNat - n) } := if_pos h

theorem readerAfter_gt {n : Nat} (h : s.br.cnt.toNat < n) :
    readerAfter s n =
      { buf := (cellsRead s.stream (s.br.ptr.toNat + (n - s.br.cnt.toNat + 7) / 8 - 1)).getD 0
        cnt := BitVec.ofNat 4 (8 * ((n - s.br.cnt.toNat + 7) / 8) - (n - s.br.cnt.toNat))
        ptr := s.br.ptr + BitVec.ofNat 32 ((n - s.br.cnt.toNat + 7) / 8)
        stop := s.br.stop } := if_neg (by omega)

theorem readerAfter_zero : readerAfter s 0 = s.br := by
  rw [readerAfter_le (Nat.zero_le _), Nat.sub_zero, BitVec.ofNat_toNat, BitVec.setWidth_eq]

/-- The state once `n` bits are read. -/
def afterRead (s : State) (n : Nat) : State := { s with br := readerAfter s n }

theorem afterRead_zero : afterRead s 0 = s := by rw [afterRead, readerAfter_zero]

/-- `get_bit` at the `n`-th bit of a run of reads. -/
theorem getBit_afterRead {n : Nat} {b : Bool} (hc : s.br.cnt.toNat ≤ 8) (hp : p.streamBytes ≤ 2 ^ 32 - 1)
    (e : inBit p s n = some b) : getBit p (afterRead s n) = .ok b (afterRead s (n + 1)) := by
  rcases Nat.lt_or_ge n s.br.cnt.toNat with h | h
  · rw [inBit_buf h] at e
    have hcnt : (BitVec.ofNat 4 (s.br.cnt.toNat - n)).toNat = s.br.cnt.toNat - n := by
      rw [BitVec.toNat_ofNat, Nat.mod_eq_of_lt (by omega)]
    have h1 : (afterRead s n).br.cnt ≠ 0 := by
      rw [afterRead, readerAfter_le (by omega)]
      intro h0
      have := congrArg BitVec.toNat h0
      simp only [hcnt] at this
      simp at this
      omega
    have hsub : (BitVec.ofNat 4 (s.br.cnt.toNat - n) - 1).toNat = s.br.cnt.toNat - 1 - n := by
      rw [BitVec.toNat_sub_of_le (by rw [BitVec.le_def, hcnt]; simp; omega), hcnt]
      simp
      omega
    rw [getBit_of_cnt h1]
    simp only [takeBit, afterRead, readerAfter_le (show n ≤ s.br.cnt.toNat by omega),
      readerAfter_le (show n + 1 ≤ s.br.cnt.toNat by omega), hsub]
    cases e
    refine congrArg (fun c => EStateM.Result.ok _ { s with br := { s.br with cnt := c } }) ?_
    apply BitVec.eq_of_toNat_eq
    rw [hsub, BitVec.toNat_ofNat, Nat.mod_eq_of_lt (by omega)]
    omega
  · obtain ⟨byte, h1, h2, h3, rfl⟩ := inBit_stream h e
    have hd : n - s.br.cnt.toNat + s.br.cnt.toNat = n := by omega
    generalize hk : n - s.br.cnt.toNat = k at *
    by_cases h8 : k % 8 = 0
    · have hptr : (s.br.ptr + BitVec.ofNat 32 (k / 8)).toNat = s.br.ptr.toNat + k / 8 := by
        rw [BitVec.toNat_add, BitVec.toNat_ofNat]
        omega
      have hn : (readerAfter s n).cnt = 0 ∧ (readerAfter s n).ptr = s.br.ptr + BitVec.ofNat 32 (k / 8) ∧
          (readerAfter s n).stop = s.br.stop := by
        rcases Nat.eq_zero_or_pos k with h0 | h0
        · subst h0
          rw [readerAfter_le (show n ≤ s.br.cnt.toNat by omega), show s.br.cnt.toNat - n = 0 by omega]
          simp
        · rw [readerAfter_gt (show s.br.cnt.toNat < n by omega), hk, show (k + 7) / 8 = k / 8 by omega,
            show 8 * (k / 8) - k = 0 by omega]
          simp
      have hn1 : afterRead s (n + 1) = { s with br := { s.br with
          buf := byte, cnt := 7, ptr := s.br.ptr + BitVec.ofNat 32 (k / 8) + 1 } } := by
        simp only [afterRead, readerAfter_gt (show s.br.cnt.toNat < n + 1 by omega)]
        rw [show n + 1 - s.br.cnt.toNat = k + 1 by omega, show (k + 1 + 7) / 8 = k / 8 + 1 by omega,
          show s.br.ptr.toNat + (k / 8 + 1) - 1 = s.br.ptr.toNat + k / 8 by omega, h3,
          show 8 * (k / 8 + 1) - (k + 1) = 7 by omega, BitVec.ofNat_add, ← BitVec.add_assoc]
        rfl
      rw [hn1, h8, afterRead, getBit_fetch (b := byte) hn.1 (by rw [hn.2.1, hn.2.2, hptr]; exact h1)
        (by rw [hn.2.1, hptr]; exact h2) (by rw [hn.2.1, hptr]; exact h3), hn.2.1, hn.2.2]
    · have hcnt : (BitVec.ofNat 4 (8 - k % 8)).toNat = 8 - k % 8 := by
        rw [BitVec.toNat_ofNat]
        omega
      have hn : afterRead s n = { s with br := { s.br with
          buf := byte, cnt := BitVec.ofNat 4 (8 - k % 8), ptr := s.br.ptr + BitVec.ofNat 32 (k / 8 + 1) } } := by
        simp only [afterRead, readerAfter_gt (show s.br.cnt.toNat < n by omega)]
        rw [hk, show (k + 7) / 8 = k / 8 + 1 by omega,
          show s.br.ptr.toNat + (k / 8 + 1) - 1 = s.br.ptr.toNat + k / 8 by omega, h3,
          show 8 * (k / 8 + 1) - k = 8 - k % 8 by omega]
        rfl
      have hn1 : afterRead s (n + 1) = { s with br := { s.br with
          buf := byte, cnt := BitVec.ofNat 4 (7 - k % 8), ptr := s.br.ptr + BitVec.ofNat 32 (k / 8 + 1) } } := by
        simp only [afterRead, readerAfter_gt (show s.br.cnt.toNat < n + 1 by omega)]
        rw [show n + 1 - s.br.cnt.toNat = k + 1 by omega, show (k + 1 + 7) / 8 = k / 8 + 1 by omega,
          show s.br.ptr.toNat + (k / 8 + 1) - 1 = s.br.ptr.toNat + k / 8 by omega, h3,
          show 8 * (k / 8 + 1) - (k + 1) = 7 - k % 8 by omega]
        rfl
      have hsub : BitVec.ofNat 4 (8 - k % 8) - 1 = BitVec.ofNat 4 (7 - k % 8) := by
        apply BitVec.eq_of_toNat_eq
        rw [BitVec.toNat_sub_of_le (by rw [BitVec.le_def, hcnt]; simp; omega), hcnt, BitVec.toNat_ofNat]
        simp
        omega
      rw [hn1, hn, getBit_of_cnt (by
        intro h0
        have := congrArg BitVec.toNat h0
        simp only [hcnt] at this
        simp at this
        omega)]
      simp only [takeBit, hsub]
      rw [BitVec.toNat_ofNat, Nat.mod_eq_of_lt (by omega)]

/-- A run of `n + 1` reads is a run of `n` and one more. -/
theorem collectBits_succ (f : Cmd Bool) (n : Nat) (acc : Word) (s : State) :
    collectBits f (n + 1) acc s = (do let v ← collectBits f n acc; let b ← f; pure ((v <<< 1) ||| bitWord b) : Cmd Word) s := by
  induction n generalizing acc s with
  | zero =>
    simp only [collectBits, cmd_bind, cmd_pure]
  | succ n ih =>
    rw [collectBits, cmd_bind, collectBits, cmd_bind (c := (do let b ← f; collectBits f n _ : Cmd Word)), cmd_bind (c := f)]
    cases h : f s with
    | ok b t => exact (ih _ t).trans (by rw [cmd_bind])
    | error e t => rfl

/-- A number shifted by one bit. -/
theorem shift_ofNat (v : Nat) (b : Bool) :
    ((BitVec.ofNat 32 v <<< 1) ||| bitWord b : Word) = BitVec.ofNat 32 (2 * v + bitNat b) := by
  have h : (BitVec.ofNat 32 v <<< 1 : Word) = BitVec.ofNat 32 (2 * v) := by
    apply BitVec.eq_of_toNat_eq
    simp only [BitVec.toNat_shiftLeft, BitVec.toNat_ofNat, Nat.shiftLeft_eq]
    omega
  have h2 : ((BitVec.ofNat 32 v <<< 1) ||| bitWord b : Word) = (BitVec.ofNat 32 v <<< 1) + bitWord b := by
    symm
    apply BitVec.add_eq_or_of_and_eq_zero
    apply BitVec.eq_of_getLsbD_eq
    intro i hi
    rcases i with _ | i <;> cases b <;> simp [bitWord, BitVec.getLsbD_shiftLeft]
  rw [h2, h, BitVec.ofNat_add]
  cases b <;> rfl

/-- `get_bits(n)` answers the next `n` bits and moves the reader on by them. -/
theorem getBits_run {n v : Nat} (hc : s.br.cnt.toNat ≤ 8) (hp : p.streamBytes ≤ 2 ^ 32 - 1)
    (e : peek p s n = some v) : getBits p n s = .ok (BitVec.ofNat 32 v) (afterRead s n) := by
  induction n generalizing v with
  | zero =>
    cases e
    exact congrArg (EStateM.Result.ok _) afterRead_zero.symm
  | succ n ih =>
    rw [peek] at e
    split at e
    · rename_i w b hw hb
      cases e
      refine (collectBits_succ _ n 0 s).trans ?_
      refine (cmd_bind_of_ok (ih hw)).trans ?_
      rw [cmd_bind_of_ok (getBit_afterRead hc hp hb), cmd_pure, shift_ofNat]
    · simp at e

/-- A run of reads that stops stops the longer run. -/
theorem collectBits_error_mono {f : Cmd Bool} {k : Nat} {e : Stop} {t : State} {acc : Word}
    (h : collectBits f k acc s = .error e t) (j : Nat) : collectBits f (k + j) acc s = .error e t := by
  induction j with
  | zero => exact h
  | succ j ih => exact (collectBits_succ f (k + j) acc s).trans (cmd_bind_of_error ih)

/-- At the end of the data `get_bits` ends in `EndOfStream`. -/
theorem getBits_ended {n k v : Nat} (hc : s.br.cnt.toNat ≤ 8) (hp : p.streamBytes ≤ 2 ^ 32 - 1) (hk : k < n)
    (e : peek p s k = some v) (hcnt : s.br.cnt.toNat ≤ k)
    (hend : s.br.stop.toNat ≤ s.br.ptr.toNat + (k - s.br.cnt.toNat) / 8 ∨
      p.streamBytes ≤ s.br.ptr.toNat + (k - s.br.cnt.toNat) / 8) :
    ∃ t, getBits p n s = .error (.fault .endOfStream) t := by
  have hlast : ∀ k', k = k' + 1 → s.br.cnt.toNat ≤ k' → (k' - s.br.cnt.toNat) / 8 < (k - s.br.cnt.toNat) / 8 ∧
      s.br.ptr.toNat + (k' - s.br.cnt.toNat) / 8 < 2 ^ 32 - 1 := by
    rintro k' rfl hk'
    rw [peek] at e
    split at e
    · rename_i w b hw hb
      obtain ⟨byte, h1, h2, _⟩ := inBit_stream hk' hb
      omega
    · simp at e
  have h8 : (k - s.br.cnt.toNat) % 8 = 0 := by
    rcases Nat.lt_or_ge s.br.cnt.toNat k with h | h
    · have := hlast (k - 1) (by omega) (by omega)
      omega
    · rw [show k - s.br.cnt.toNat = 0 by omega]
  have hcnt0 : (readerAfter s k).cnt = 0 := by
    rcases Nat.lt_or_ge s.br.cnt.toNat k with h | h
    · rw [readerAfter_gt h]
      simp only
      rw [show 8 * ((k - s.br.cnt.toNat + 7) / 8) - (k - s.br.cnt.toNat) = 0 by omega]
      rfl
    · rw [readerAfter_le h, show s.br.cnt.toNat - k = 0 by omega]
      rfl
  have hptr : (readerAfter s k).ptr.toNat = s.br.ptr.toNat + (k - s.br.cnt.toNat) / 8 := by
    rcases Nat.lt_or_ge s.br.cnt.toNat k with h | h
    · have := (hlast (k - 1) (by omega) (by omega)).2
      rw [readerAfter_gt h]
      simp only
      rw [BitVec.toNat_add, BitVec.toNat_ofNat]
      omega
    · rw [readerAfter_le h, show k - s.br.cnt.toNat = 0 by omega]
      rfl
  have hstop : (readerAfter s k).stop = s.br.stop := by
    rcases Nat.lt_or_ge s.br.cnt.toNat k with h | h
    · rw [readerAfter_gt h]
    · rw [readerAfter_le h]
  have hget : getBit p (afterRead s k) = .error (.fault .endOfStream) (afterRead s k) := by
    rw [getBit_of_empty hcnt0]
    exact cmd_bind_of_error (fetchByte_of_end (by
      simp only [afterRead, hptr, hstop]
      exact hend))
  have hk1 : collectBits (getBit p) (k + 1) 0 s = .error (.fault .endOfStream) (afterRead s k) := by
    refine (collectBits_succ _ k 0 s).trans ?_
    exact (cmd_bind_of_ok (getBits_run hc hp e)).trans (cmd_bind_of_error hget)
  refine ⟨afterRead s k, ?_⟩
  have := collectBits_error_mono hk1 (n - (k + 1))
  rwa [show k + 1 + (n - (k + 1)) = n by omega] at this

end Sys2Proof.Machine
end

