-- ==== Sys2Proof/Laws/State.lean ====
section
/-! SUPPORT. One lemma per field per named update of the state, so that no later proof unfolds an update. -/

namespace Sys2Proof.Machine

open Sys2Proof Sys2Proof.Safety

variable (s : State) (m k : Fin 15) (x : Model)

/-! ## `withModel` -/

@[simp] theorem modelAt_withModel_same : modelAt (withModel s m x) m = x := by simp [modelAt, withModel]

theorem modelAt_withModel_other (h : k ≠ m) : modelAt (withModel s m x) k = modelAt s k := by
  have : m.val ≠ k.val := fun e => h (Fin.ext e.symm)
  simp [modelAt, withModel, Vector.getElem_set_ne, this]

@[simp] theorem withModel_pm : (withModel s m x).pm = s.pm.set m.val x := rfl
@[simp] theorem withModel_cmd : (withModel s m x).cmd = s.cmd := rfl
@[simp] theorem withModel_arg : (withModel s m x).arg = s.arg := rfl
@[simp] theorem withModel_res : (withModel s m x).res = s.res := rfl
@[simp] theorem withModel_status : (withModel s m x).status = s.status := rfl
@[simp] theorem withModel_cfg : (withModel s m x).cfg = s.cfg := rfl
@[simp] theorem withModel_bucket : (withModel s m x).bucket = s.bucket := rfl
@[simp] theorem withModel_bw : (withModel s m x).bw = s.bw := rfl
@[simp] theorem withModel_br : (withModel s m x).br = s.br := rfl
@[simp] theorem withModel_ae : (withModel s m x).ae = s.ae := rfl
@[simp] theorem withModel_ad : (withModel s m x).ad = s.ad := rfl
@[simp] theorem withModel_smAddr : (withModel s m x).smAddr = s.smAddr := rfl
@[simp] theorem withModel_stream : (withModel s m x).stream = s.stream := rfl
@[simp] theorem withModel_scan : (withModel s m x).scan = s.scan := rfl
@[simp] theorem withModel_pending : (withModel s m x).pending = s.pending := rfl
@[simp] theorem withModel_hostOut : (withModel s m x).hostOut = s.hostOut := rfl
@[simp] theorem withModel_draws : (withModel s m x).draws = s.draws := rfl

/-! ## `resetRegisters` (rules R25, R351) -/

@[simp] theorem resetRegisters_cmd : (resetRegisters s).cmd = s.cmd := rfl
@[simp] theorem resetRegisters_arg : (resetRegisters s).arg = 0 := rfl
@[simp] theorem resetRegisters_res : (resetRegisters s).res = 0 := rfl
@[simp] theorem resetRegisters_status : (resetRegisters s).status = ⟨false, 0, false, false⟩ := rfl
@[simp] theorem resetRegisters_cfg : (resetRegisters s).cfg = ⟨0, 0, 0, 0, false, false⟩ := rfl
@[simp] theorem resetRegisters_pm : (resetRegisters s).pm = Vector.replicate 15 ⟨0, false⟩ := rfl
@[simp] theorem resetRegisters_bucket : (resetRegisters s).bucket = 0 := rfl
@[simp] theorem resetRegisters_bw : (resetRegisters s).bw = ⟨0, 0, 0⟩ := rfl
@[simp] theorem resetRegisters_br : (resetRegisters s).br = ⟨0, 0, 0, 0⟩ := rfl
@[simp] theorem resetRegisters_ae : (resetRegisters s).ae = ⟨0, 510, 0xFF, 0, 23⟩ := rfl
@[simp] theorem resetRegisters_ad : (resetRegisters s).ad = ⟨0, 510, 0xF8⟩ := rfl
@[simp] theorem resetRegisters_smAddr : (resetRegisters s).smAddr = 0 := rfl
@[simp] theorem resetRegisters_stream : (resetRegisters s).stream = s.stream := rfl
@[simp] theorem resetRegisters_pending : (resetRegisters s).pending = s.pending := rfl
@[simp] theorem resetRegisters_draws : (resetRegisters s).draws = s.draws := rfl
@[simp] theorem resetRegisters_hostOut : (resetRegisters s).hostOut = s.hostOut := rfl

/-! ## `loseRegisters` (rule R324) -/

@[simp] theorem loseRegisters_status : (loseRegisters s).status = s.status := rfl
@[simp] theorem loseRegisters_stream : (loseRegisters s).stream = s.stream := rfl
@[simp] theorem loseRegisters_top : (loseRegisters s).top = s.top := rfl
@[simp] theorem loseRegisters_left : (loseRegisters s).left = s.left := rfl
@[simp] theorem loseRegisters_orig : (loseRegisters s).orig = s.orig := rfl
@[simp] theorem loseRegisters_predb : (loseRegisters s).predb = s.predb := rfl
@[simp] theorem loseRegisters_resd : (loseRegisters s).resd = s.resd := rfl
@[simp] theorem loseRegisters_coef : (loseRegisters s).coef = s.coef := rfl
@[simp] theorem loseRegisters_qidx : (loseRegisters s).qidx = s.qidx := rfl
@[simp] theorem loseRegisters_scan : (loseRegisters s).scan = s.scan := rfl
@[simp] theorem loseRegisters_dcoef : (loseRegisters s).dcoef = s.dcoef := rfl
@[simp] theorem loseRegisters_rres : (loseRegisters s).rres = s.rres := rfl
@[simp] theorem loseRegisters_recb : (loseRegisters s).recb = s.recb := rfl
@[simp] theorem loseRegisters_pending : (loseRegisters s).pending = s.pending := rfl
@[simp] theorem loseRegisters_hostOut : (loseRegisters s).hostOut = s.hostOut := rfl
@[simp] theorem loseRegisters_draws : (loseRegisters s).draws = s.draws := rfl

/-! ## `loseStream` and `placeCommand` -/

@[simp] theorem loseStream_stream (p : Nat) :
    (loseStream s p).stream = cellsLose s.stream p fun a => (Config.freeWord s.draws (.stream a)).setWidth 8 := rfl
@[simp] theorem loseStream_status (p : Nat) : (loseStream s p).status = s.status := rfl
@[simp] theorem loseStream_pending (p : Nat) : (loseStream s p).pending = s.pending := rfl
@[simp] theorem loseStream_hostOut (p : Nat) : (loseStream s p).hostOut = s.hostOut := rfl
@[simp] theorem placeCommand_pending (w : Word) : (placeCommand w s).pending = .write 0 w :: s.pending := rfl
@[simp] theorem placeCommand_status (w : Word) : (placeCommand w s).status = s.status := rfl

end Sys2Proof.Machine
end

