-- ==== Sys2Proof/Laws/Fault.lean ====
section
/-! SUPPORT. Taking a fault (rules R323, R324): all it can do, piece by piece. -/

namespace Sys2Proof.Machine

open Sys2Proof Sys2Proof.Safety

/-- The piece of state that a buffer's name stands for. -/
def bufPart : BufName → Part
  | .top => .top | .left => .left | .orig => .orig | .predb => .predb | .resd => .resd | .qidx => .qidx
  | .scan => .scan | .recb => .recb | .coef => .coef | .dcoef => .dcoef | .rres => .rres

@[simp] theorem loseBuffer_status (s : State) (b : BufName) : (loseBuffer s b).status = s.status := by cases b <;> rfl
@[simp] theorem loseBuffer_stream (s : State) (b : BufName) : (loseBuffer s b).stream = s.stream := by cases b <;> rfl
@[simp] theorem loseBuffer_pending (s : State) (b : BufName) : (loseBuffer s b).pending = s.pending := by
  cases b <;> rfl
@[simp] theorem loseBuffer_hostOut (s : State) (b : BufName) : (loseBuffer s b).hostOut = s.hostOut := by
  cases b <;> rfl

/-- Losing one buffer leaves every other piece. -/
theorem loseBuffer_same (s : State) (b : BufName) {q : Part} (h : q ≠ bufPart b) : same q s (loseBuffer s b) := by
  cases b <;> cases q <;> first | rfl | exact absurd rfl h

theorem loseBuffers_stream (w : List BufName) (s : State) : (w.foldl loseBuffer s).stream = s.stream := by
  induction w generalizing s with
  | nil => rfl
  | cons b rest ih => simp [List.foldl_cons, ih]

theorem loseBuffers_pending (w : List BufName) (s : State) : (w.foldl loseBuffer s).pending = s.pending := by
  induction w generalizing s with
  | nil => rfl
  | cons b rest ih => simp [List.foldl_cons, ih]

theorem same_refl (q : Part) (s : State) : same q s s := by cases q <;> rfl

theorem same_trans (q : Part) {s t u : State} (h1 : same q s t) (h2 : same q t u) : same q s u := by
  cases q <;> exact Eq.trans h2 h1

theorem loseBuffers_same (w : List BufName) (s : State) {q : Part} (h : ∀ b ∈ w, q ≠ bufPart b) :
    same q s (w.foldl loseBuffer s) := by
  induction w generalizing s with
  | nil => exact same_refl q s
  | cons b rest ih =>
    exact same_trans q (loseBuffer_same s b (h b (by simp))) (ih (loseBuffer s b) fun c hc => h c (by simp [hc]))

/-- An illegal command changes nothing but `STATUS` (rule R323). -/
theorem takeFault_illegal (w : List BufName) (start s : State) :
    takeFault .illegalCommand w start s = { start with status := statusRaised start.status .illegalCommand } := rfl

/-- Every other fault: the status raised, the registers and the named buffers lost, STREAM lost from the starting
`BW_PTR` on (rule R324). -/
theorem takeFault_of_ne {k : FaultKind} (h : k ≠ .illegalCommand) (w : List BufName) (start s : State) :
    takeFault k w start s =
      { (w.foldl loseBuffer (loseStream (loseRegisters s) start.bw.ptr.toNat)) with
        status := statusRaised start.status k, draws := s.draws + 1 } := by
  cases k <;> first | rfl | exact absurd rfl h

@[simp] theorem takeFault_status (k : FaultKind) (w : List BufName) (start s : State) :
    (takeFault k w start s).status = statusRaised start.status k := by
  cases k <;> rfl

theorem statusRaised_quiet {st : Status} (h : st.fault = false) (k : FaultKind) :
    statusRaised st k = { st with fault := true, code := faultCode k } := by simp [statusRaised, h]

theorem statusRaised_fault (st : Status) (k : FaultKind) : (statusRaised st k).fault = true := by
  cases h : st.fault <;> simp [statusRaised, h]

theorem takeFault_not_quiet (k : FaultKind) (w : List BufName) (start s : State) :
    ¬ Quiet (takeFault k w start s) := by
  simp [Quiet, statusRaised_fault]

theorem takeFault_stream {k : FaultKind} (h : k ≠ .illegalCommand) (w : List BufName) (start s : State) :
    (takeFault k w start s).stream =
      cellsLose s.stream start.bw.ptr.toNat fun a => (Config.freeWord s.draws (.stream a)).setWidth 8 := by
  rw [takeFault_of_ne h]
  simp only [loseBuffers_stream]
  rfl

/-- Rule R324 (5): below the starting `BW_PTR` a fault leaves STREAM as the command left it. -/
theorem takeFault_stream_below (k : FaultKind) (w : List BufName) (start s : State)
    (h : ∀ a, a < start.bw.ptr.toNat → cellsRead s.stream a = cellsRead start.stream a) {a : Nat}
    (ha : a < start.bw.ptr.toNat) : cellsRead (takeFault k w start s).stream a = cellsRead start.stream a := by
  by_cases hk : k = .illegalCommand
  · subst hk; rfl
  · rw [takeFault_stream hk, cellsRead_lose_below _ _ ha, h a ha]

/-- The pieces that rule R324 calls unspecified after a fault, but for the buffers the command writes. -/
def lostParts : List Part :=
  [.arg, .res, .cfg, .models, .bucket, .writer, .reader, .encoder, .decoder, .smAddr, .stream]

theorem loseStream_same (s : State) (p : Nat) {q : Part} (h : q ≠ .stream) : same q s (loseStream s p) := by
  cases q <;> first | rfl | exact absurd rfl h

theorem loseRegisters_same (s : State) {q : Part} (h : q ∉ lostParts) : same q s (loseRegisters s) := by
  cases q <;> first | rfl | exact absurd (by decide) h

/-- A buffer that the command does not write is the same after a fault as where the command stopped. -/
theorem takeFault_same {k : FaultKind} (hk : k ≠ .illegalCommand) (w : List BufName) (start s : State) {q : Part}
    (hq : q ∉ lostParts) (hw : ∀ b ∈ w, q ≠ bufPart b) (he : q ≠ .encOpen) (hd : q ≠ .decOpen) :
    same q s (takeFault k w start s) := by
  have h1 := loseRegisters_same s hq
  have h2 := loseStream_same (loseRegisters s) start.bw.ptr.toNat (q := q) (by rintro rfl; exact hq (by decide))
  have h3 := loseBuffers_same w (loseStream (loseRegisters s) start.bw.ptr.toNat) hw
  have h := same_trans q (same_trans q h1 h2) h3
  rw [takeFault_of_ne hk]
  cases q <;> first | exact h | exact absurd rfl he | exact absurd rfl hd

theorem takeFault_pending {k : FaultKind} (hk : k ≠ .illegalCommand) (w : List BufName) (start s : State) :
    (takeFault k w start s).pending = s.pending := by
  rw [takeFault_of_ne hk]
  simp only [loseBuffers_pending]
  rfl

end Sys2Proof.Machine
end

