-- ==== Sys2Proof/Laws/Frame.lean ====
section
/-! SUPPORT. What each command can change: the frame of every helper and of every command, from the smallest operation up
(rules R86, R109, R179, R361). -/

namespace Sys2Proof.Machine

open Sys2Proof Sys2Proof.Safety

/-- Between two states nothing changes but the listed pieces (and, of `STATUS`, the session bits when listed). -/
structure OnlyChanges (ps : List Part) (s t : State) : Prop where
  cmd : t.cmd = s.cmd
  pending : t.pending = s.pending
  hostOut : t.hostOut = s.hostOut
  draws : t.draws = s.draws
  fault : t.status.fault = s.status.fault
  code : t.status.code = s.status.code
  parts : ∀ q, q ∉ ps → same q s t

theorem onlyChanges_chains (ps : List Part) : Chains (OnlyChanges ps) where
  refl s := ⟨rfl, rfl, rfl, rfl, rfl, rfl, fun q _ => same_refl q s⟩
  trans s t u h1 h2 :=
    ⟨h2.cmd.trans h1.cmd, h2.pending.trans h1.pending, h2.hostOut.trans h1.hostOut, h2.draws.trans h1.draws,
      h2.fault.trans h1.fault, h2.code.trans h1.code, fun q hq => same_trans q (h1.parts q hq) (h2.parts q hq)⟩

theorem OnlyChanges.mono {ps qs : List Part} {s t : State} (h : OnlyChanges ps s t) (hs : ∀ q ∈ ps, q ∈ qs) :
    OnlyChanges qs s t :=
  ⟨h.cmd, h.pending, h.hostOut, h.draws, h.fault, h.code, fun q hq => h.parts q fun hp => hq (hs q hp)⟩

theorem Keeps.mono {α : Type} {ps qs : List Part} {c : Cmd α} (h : Keeps (OnlyChanges ps) c)
    (hs : ∀ q ∈ ps, q ∈ qs) : Keeps (OnlyChanges qs) c := fun s => (h s).mono hs

theorem Keeps.run {α : Type} {ps : List Part} {c : Cmd α} (h : Keeps (OnlyChanges ps) c) (s : State) :
    OnlyChanges ps s (endState (c s)) := h s

/-! ## Updates of one unit -/

section units

variable (s : State)

theorem onlyChanges_writer (w : BitWriter) (m : List Host.Cell) :
    OnlyChanges [.writer, .stream] s { s with bw := w, stream := m } :=
  ⟨rfl, rfl, rfl, rfl, rfl, rfl, fun q hq => by cases q <;> first | rfl | simp at hq⟩

theorem onlyChanges_reader (r : BitReader) : OnlyChanges [.reader] s { s with br := r } :=
  ⟨rfl, rfl, rfl, rfl, rfl, rfl, fun q hq => by cases q <;> first | rfl | simp at hq⟩

theorem onlyChanges_res (v : Word) : OnlyChanges [.res] s { s with res := v } :=
  ⟨rfl, rfl, rfl, rfl, rfl, rfl, fun q hq => by cases q <;> first | rfl | simp at hq⟩

theorem onlyChanges_models (x : Vector Model 15) : OnlyChanges [.models] s { s with pm := x } :=
  ⟨rfl, rfl, rfl, rfl, rfl, rfl, fun q hq => by cases q <;> first | rfl | simp at hq⟩

theorem onlyChanges_bucket (b : Fin 3) : OnlyChanges [.bucket] s { s with bucket := b } :=
  ⟨rfl, rfl, rfl, rfl, rfl, rfl, fun q hq => by cases q <;> first | rfl | simp at hq⟩

theorem onlyChanges_ae (e : Encoder) : OnlyChanges [.encoder] s { s with ae := e } :=
  ⟨rfl, rfl, rfl, rfl, rfl, rfl, fun q hq => by cases q <;> first | rfl | simp at hq⟩

theorem onlyChanges_ad (d : Decoder) : OnlyChanges [.decoder] s { s with ad := d } :=
  ⟨rfl, rfl, rfl, rfl, rfl, rfl, fun q hq => by cases q <;> first | rfl | simp at hq⟩

theorem onlyChanges_scan (m : Cells Word) : OnlyChanges [.scan] s { s with scan := m } :=
  ⟨rfl, rfl, rfl, rfl, rfl, rfl, fun q hq => by cases q <;> first | rfl | simp at hq⟩

end units

/-! ## Bit writer and reader (rule R109) -/

theorem putBit_frame (p : Config.Params) (b : Bool) : Keeps (OnlyChanges [.writer, .stream]) (putBit p b) := by
  intro s
  simp only [putBit]
  split
  · split
    · exact onlyChanges_writer s _ s.stream
    · exact onlyChanges_writer s _ _
  · exact onlyChanges_writer s _ s.stream

theorem putBits_frame (p : Config.Params) (v : Word) (n : Nat) :
    Keeps (OnlyChanges [.writer, .stream]) (putBits p v n) :=
  keeps_forBits (onlyChanges_chains _) (putBit_frame p) v n

theorem putByte_frame (p : Config.Params) (b : Byte) : Keeps (OnlyChanges [.writer, .stream]) (putByte p b) :=
  putBits_frame p _ 8

theorem alignLoop_frame (p : Config.Params) : ∀ k, Keeps (OnlyChanges [.writer, .stream]) (alignLoop p k)
  | 0 => keeps_pure (onlyChanges_chains _) ()
  | k + 1 => by
    intro s
    simp only [alignLoop]
    split
    · exact (onlyChanges_chains _).refl s
    · exact keeps_bind (onlyChanges_chains _) (putBit_frame p false) (fun _ => alignLoop_frame p k) s

theorem putAlign_frame (p : Config.Params) : Keeps (OnlyChanges [.writer, .stream]) (putAlign p) :=
  alignLoop_frame p 16

theorem fetchByte_frame (p : Config.Params) : Keeps (OnlyChanges [.reader]) (fetchByte p) := by
  intro s
  simp only [fetchByte]
  split
  · exact (onlyChanges_chains _).refl s
  · split
    · exact onlyChanges_reader s _
    · exact (onlyChanges_chains _).refl s

theorem takeBit_frame : Keeps (OnlyChanges [.reader]) takeBit :=
  fun s => onlyChanges_reader s _

theorem getBit_frame (p : Config.Params) : Keeps (OnlyChanges [.reader]) (getBit p) := by
  intro s
  simp only [getBit]
  split
  · exact keeps_bind (onlyChanges_chains _) (fetchByte_frame p) (fun _ => takeBit_frame) s
  · exact takeBit_frame s

theorem getBits_frame (p : Config.Params) (n : Nat) : Keeps (OnlyChanges [.reader]) (getBits p n) :=
  keeps_collectBits (onlyChanges_chains _) (getBit_frame p) n 0

theorem getAlign_frame : Keeps (OnlyChanges [.reader]) getAlign :=
  fun s => onlyChanges_reader s _

theorem setRes_frame (v : Word) : Keeps (OnlyChanges [.res]) (setRes v) :=
  fun s => onlyChanges_res s _

theorem checkCount_frame (n : BitVec 8) (ps : List Part) : Keeps (OnlyChanges ps) (checkCount n) :=
  keeps_ite (keeps_pure (onlyChanges_chains _) ()) (keeps_raise (onlyChanges_chains _) _)

/-! ## Models -/

theorem updateMps_frame (p : Config.Params) (m : Fin 15) : Keeps (OnlyChanges [.models]) (updateMps p m) :=
  fun s => onlyChanges_models s _

theorem updateLps_frame (p : Config.Params) (m : Fin 15) : Keeps (OnlyChanges [.models]) (updateLps p m) :=
  fun s => onlyChanges_models s _

/-! ## Encoder -/

/-- The pieces a byte move of the encoder writes. -/
abbrev encoderParts : List Part := [.writer, .stream, .encoder]

theorem modify_ae_frame (f : State → Encoder) :
    Keeps (OnlyChanges encoderParts) (modify fun s => { s with ae := f s } : Cmd Unit) :=
  fun s => ((onlyChanges_ae s (f s)).mono (by decide))

theorem drainRun_frame (p : Config.Params) (fill : Byte) : ∀ k, Keeps (OnlyChanges encoderParts) (drainRun p fill k)
  | 0 => keeps_pure (onlyChanges_chains _) ()
  | k + 1 => keeps_bind (onlyChanges_chains _) ((putByte_frame p fill).mono (by decide)) fun _ =>
      keeps_bind (onlyChanges_chains _) (modify_ae_frame _) fun _ => drainRun_frame p fill k

theorem placeLead_frame (p : Config.Params) (lead : Nat) : Keeps (OnlyChanges encoderParts) (placeLead p lead) := by
  intro s
  simp only [placeLead]
  split
  · exact ((onlyChanges_ae s _).mono (by decide))
  · split
    · exact Keeps.run (keeps_bind (onlyChanges_chains _) ((putByte_frame p _).mono (by decide))
        fun _ => keeps_bind (onlyChanges_chains _) (modify_ae_frame _) fun _ => drainRun_frame p _ _) s
    · exact ((onlyChanges_ae s _).mono (by decide))

theorem aeWriteOut_frame (p : Config.Params) : Keeps (OnlyChanges encoderParts) (aeWriteOut p) := fun s =>
  (onlyChanges_chains _).trans _ _ _ ((onlyChanges_ae s _).mono (by decide)) (placeLead_frame p _ _)

theorem aeFlush_frame (p : Config.Params) : Keeps (OnlyChanges encoderParts) (aeFlush p) := by
  intro s
  simp only [aeFlush]
  split
  · exact aeWriteOut_frame p s
  · exact (onlyChanges_chains _).refl s

theorem finishHeld_frame (p : Config.Params) : Keeps (OnlyChanges encoderParts) (finishHeld p) := by
  intro s
  simp only [finishHeld]
  split
  · exact Keeps.run (keeps_bind (onlyChanges_chains _) ((putByte_frame p _).mono (by decide))
      fun _ => keeps_bind (onlyChanges_chains _) (drainRun_frame p _ _) fun _ => modify_ae_frame _) s
  · exact Keeps.run (keeps_bind (onlyChanges_chains _)
      (keeps_when (onlyChanges_chains _) _ ((putByte_frame p _).mono (by decide)))
      fun _ => drainRun_frame p _ _) s

theorem aeFinish_frame (p : Config.Params) : Keeps (OnlyChanges encoderParts) (aeFinish p) :=
  keeps_bind (onlyChanges_chains _) (finishHeld_frame p) fun _ =>
    keeps_bind (onlyChanges_chains _) (keeps_get (onlyChanges_chains _)) fun _ => ((putBits_frame p _ _).mono (by decide))

/-- The pieces a context-coded bin writes. -/
abbrev binParts : List Part := [.writer, .stream, .encoder, .models]

theorem encodeBit_frame (p : Config.Params) (m : Fin 15) (b : Bool) :
    Keeps (OnlyChanges binParts) (encodeBit p m b) := by
  intro s
  simp only [encodeBit]
  split
  · exact (onlyChanges_chains _).trans _ _ _ ((onlyChanges_ae s _).mono (by decide))
      (Keeps.run (keeps_bind (onlyChanges_chains _) ((aeFlush_frame p).mono (by decide)) fun _ => (updateLps_frame p m).mono (by decide)) _)
  · split
    · exact (onlyChanges_chains _).trans _ _ _ ((onlyChanges_ae s _).mono (by decide))
        (Keeps.run (keeps_bind (onlyChanges_chains _) ((aeFlush_frame p).mono (by decide)) fun _ => (updateMps_frame p m).mono (by decide)) _)
    · exact (onlyChanges_chains _).trans _ _ _ ((onlyChanges_ae s _).mono (by decide))
        (Keeps.run ((updateMps_frame p m).mono (by decide)) _)

theorem encodeBypass_frame (p : Config.Params) (b : Bool) : Keeps (OnlyChanges encoderParts) (encodeBypass p b) :=
  fun s => (onlyChanges_chains _).trans _ _ _ ((onlyChanges_ae s _).mono (by decide)) (aeFlush_frame p _)

theorem encodeEg_frame (p : Config.Params) (m : Fin 15) (v : Nat) :
    Keeps (OnlyChanges binParts) (encodeEg p m v) :=
  keeps_bind (onlyChanges_chains _) (keeps_repeatCmd (onlyChanges_chains _) (encodeBit_frame p m false) _) fun _ =>
    keeps_bind (onlyChanges_chains _) (encodeBit_frame p m true) fun _ =>
      keeps_forBits (onlyChanges_chains _) (fun b => (encodeBypass_frame p b).mono (by decide)) _ _

/-! ## Decoder (rule R179) -/

/-- The pieces a pull of the decoder writes. -/
abbrev pullParts : List Part := [.reader, .decoder]

theorem modify_ad_frame (f : State → Decoder) :
    Keeps (OnlyChanges pullParts) (modify fun s => { s with ad := f s } : Cmd Unit) :=
  fun s => ((onlyChanges_ad s (f s)).mono (by decide))

theorem pullAtZero_frame (p : Config.Params) : Keeps (OnlyChanges pullParts) (pullAtZero p) := by
  intro s
  simp only [pullAtZero]
  split
  · exact (onlyChanges_chains _).trans _ _ _ ((onlyChanges_ad s _).mono (by decide))
      (Keeps.run (keeps_bind (onlyChanges_chains _) ((getBits_frame p 8).mono (by decide)) fun _ => modify_ad_frame _) _)
  · exact (onlyChanges_chains _).refl s

theorem pullNonneg_frame (p : Config.Params) : Keeps (OnlyChanges pullParts) (pullNonneg p) := by
  intro s
  simp only [pullNonneg]
  split
  · exact Keeps.run (keeps_bind (onlyChanges_chains _) ((getBits_frame p 8).mono (by decide)) fun _ => modify_ad_frame _) s
  · exact (onlyChanges_chains _).refl s

theorem pullBypass_frame (p : Config.Params) : Keeps (OnlyChanges pullParts) (pullBypass p) := by
  intro s
  simp only [pullBypass]
  split
  · exact (onlyChanges_chains _).trans _ _ _ ((onlyChanges_ad s _).mono (by decide))
      (Keeps.run (keeps_bind (onlyChanges_chains _) ((getBits_frame p 8).mono (by decide)) fun _ => modify_ad_frame _) _)
  · exact (onlyChanges_chains _).refl s

theorem compareBypass_frame : Keeps (OnlyChanges [.decoder]) compareBypass := by
  intro s
  simp only [compareBypass]
  split
  · exact onlyChanges_ad s _
  · exact (onlyChanges_chains _).refl s

theorem decodeBypass_frame (p : Config.Params) : Keeps (OnlyChanges pullParts) (decodeBypass p) :=
  keeps_bind (onlyChanges_chains _) (modify_ad_frame _) fun _ =>
    keeps_bind (onlyChanges_chains _) (pullBypass_frame p) fun _ => compareBypass_frame.mono (by decide)

/-- The pieces a decoded context bin writes. -/
abbrev unbinParts : List Part := [.reader, .decoder, .models]

theorem decodeBit_frame (p : Config.Params) (m : Fin 15) : Keeps (OnlyChanges unbinParts) (decodeBit p m) := by
  intro s
  simp only [decodeBit]
  split
  · split
    · exact (onlyChanges_chains _).trans _ _ _ ((onlyChanges_ad s _).mono (by decide))
        (Keeps.run (keeps_bind (onlyChanges_chains _) ((pullAtZero_frame p).mono (by decide)) fun _ =>
          keeps_bind (onlyChanges_chains _) ((updateMps_frame p m).mono (by decide)) fun _ =>
            keeps_pure (onlyChanges_chains _) _) _)
    · exact (onlyChanges_chains _).trans _ _ _ ((onlyChanges_ad s _).mono (by decide))
        (Keeps.run (keeps_bind (onlyChanges_chains _) ((updateMps_frame p m).mono (by decide)) fun _ =>
          keeps_pure (onlyChanges_chains _) _) _)
  · exact (onlyChanges_chains _).trans _ _ _ ((onlyChanges_ad s _).mono (by decide))
      (Keeps.run (keeps_bind (onlyChanges_chains _) ((pullNonneg_frame p).mono (by decide)) fun _ =>
        keeps_bind (onlyChanges_chains _) ((updateLps_frame p m).mono (by decide)) fun _ =>
          keeps_pure (onlyChanges_chains _) _) _)

theorem decodePrefix_frame (p : Config.Params) (m : Fin 15) :
    ∀ left, Keeps (OnlyChanges unbinParts) (decodePrefix p m left)
  | 0 => keeps_raise (onlyChanges_chains _) _
  | left + 1 => keeps_bind (onlyChanges_chains _) (decodeBit_frame p m) fun _ =>
      keeps_ite (keeps_pure (onlyChanges_chains _) _) (decodePrefix_frame p m left)

theorem decodeEg_frame (p : Config.Params) (m : Fin 15) : Keeps (OnlyChanges unbinParts) (decodeEg p m) :=
  keeps_bind (onlyChanges_chains _) (decodePrefix_frame p m 32) fun _ =>
    keeps_bind (onlyChanges_chains _) (keeps_collectBits (onlyChanges_chains _) ((decodeBypass_frame p).mono (by decide)) _ _)
      fun _ => keeps_pure (onlyChanges_chains _) _

/-! ## Sizes, contexts and buffers -/

theorem cfgN_frame (h : PartSize) (ps : List Part) : Keeps (OnlyChanges ps) (cfgN h) := by
  intro s
  simp only [cfgN]
  split <;> exact (onlyChanges_chains _).refl s

theorem checkQp_frame (ps : List Part) : Keeps (OnlyChanges ps) checkQp := by
  intro s
  simp only [checkQp]
  split <;> exact (onlyChanges_chains _).refl s

theorem checkEgValue_frame (ps : List Part) : Keeps (OnlyChanges ps) checkEgValue := by
  intro s
  simp only [checkEgValue]
  split <;> exact (onlyChanges_chains _).refl s

theorem switchContext_frame (n i : Nat) : Keeps (OnlyChanges [.bucket]) (switchContext n i) :=
  fun s => onlyChanges_bucket s _

theorem readBytes_frame (b : BufName) (get : State → Cells Byte) (n : Nat) (ps : List Part) :
    Keeps (OnlyChanges ps) (readBytes b get n) := by
  intro s
  simp only [readBytes]
  split <;> exact (onlyChanges_chains _).refl s

theorem readWords_frame (b : BufName) (get : State → Cells Word) (n : Nat) (ps : List Part) :
    Keeps (OnlyChanges ps) (readWords b get n) := by
  intro s
  simp only [readWords]
  split <;> exact (onlyChanges_chains _).refl s

theorem readReals_frame (b : BufName) (get : State → Option RealBuf) (n : Nat) (ps : List Part) :
    Keeps (OnlyChanges ps) (readReals b get n) := by
  intro s
  simp only [readReals]
  split
  · split <;> exact (onlyChanges_chains _).refl s
  · exact (onlyChanges_chains _).refl s

theorem border_frame (a : Bool) (b : BufName) (get : State → Cells Byte) (n : Nat) (ps : List Part) :
    Keeps (OnlyChanges ps) (border a b get n) :=
  keeps_ite (keeps_bind (onlyChanges_chains _) (readBytes_frame b get n ps) fun _ =>
    keeps_pure (onlyChanges_chains _) _) (keeps_pure (onlyChanges_chains _) _)

theorem setScan_frame (i : Nat) (v : Word) : Keeps (OnlyChanges [.scan]) (setScan i v) :=
  fun s => onlyChanges_scan s _

/-! ## Coefficients -/

/-- The pieces one coded coefficient writes. -/
abbrev coefParts : List Part := [.models, .bucket, .writer, .stream, .encoder]

theorem encodeLevel_frame (p : Config.Params) (k : Fin 3) (c : Int) :
    Keeps (OnlyChanges binParts) (encodeLevel p k c) := by
  unfold encodeLevel
  refine keeps_bind (onlyChanges_chains _) (encodeBit_frame p _ _) fun _ => ?_
  refine keeps_bind (onlyChanges_chains _) ?_ fun _ => (encodeBypass_frame p _).mono (by decide)
  exact keeps_when (onlyChanges_chains _) _ (encodeEg_frame p _ _)

theorem encodeCoefficient_frame (p : Config.Params) (n last i : Nat) (c : Int) :
    Keeps (OnlyChanges coefParts) (encodeCoefficient p n last i c) := by
  unfold encodeCoefficient
  refine keeps_bind (onlyChanges_chains _) ((switchContext_frame n i).mono (by decide)) fun _ => ?_
  refine keeps_bind (onlyChanges_chains _) ?_ fun _ => ?_
  · exact keeps_when (onlyChanges_chains _) _ ((encodeBit_frame p _ _).mono (by decide))
  · exact keeps_when (onlyChanges_chains _) _ ((encodeLevel_frame p _ c).mono (by decide))

theorem encodeCoefficients_frame (p : Config.Params) (n : Nat) (xs : List Word) (last : Nat) :
    ∀ k, Keeps (OnlyChanges coefParts) (encodeCoefficients p n xs last k)
  | 0 => keeps_pure (onlyChanges_chains _) ()
  | k + 1 => keeps_bind (onlyChanges_chains _) (encodeCoefficient_frame p n last k _) fun _ =>
      encodeCoefficients_frame p n xs last k

/-- The pieces one decoded coefficient writes. -/
abbrev uncoefParts : List Part := [.models, .bucket, .reader, .decoder, .scan]

theorem decodeMagnitude_frame (p : Config.Params) (k : Fin 3) :
    Keeps (OnlyChanges unbinParts) (decodeMagnitude p k) := by
  unfold decodeMagnitude
  refine keeps_bind (onlyChanges_chains _) (decodeBit_frame p _) fun _ => keeps_ite ?_ ?_
  · refine keeps_bind (onlyChanges_chains _) (decodeEg_frame p _) fun _ => keeps_ite ?_ ?_
    · exact keeps_raise (onlyChanges_chains _) _
    · exact keeps_pure (onlyChanges_chains _) _
  · exact keeps_pure (onlyChanges_chains _) _

theorem decodeSig_frame (p : Config.Params) (n last i : Nat) :
    Keeps (OnlyChanges unbinParts) (decodeSig p n last i) :=
  keeps_ite (keeps_pure (onlyChanges_chains _) true) (decodeBit_frame p _)

theorem decodeLevel_frame (p : Config.Params) (k : Fin 3) (i : Nat) :
    Keeps (OnlyChanges uncoefParts) (decodeLevel p k i) :=
  keeps_bind (onlyChanges_chains _) ((decodeMagnitude_frame p _).mono (by decide)) fun _ =>
    keeps_bind (onlyChanges_chains _) ((decodeBypass_frame p).mono (by decide)) fun _ =>
      (setScan_frame i _).mono (by decide)

theorem decodeCoefficient_frame (p : Config.Params) (n last i : Nat) :
    Keeps (OnlyChanges uncoefParts) (decodeCoefficient p n last i) :=
  keeps_bind (onlyChanges_chains _) ((switchContext_frame n i).mono (by decide)) fun _ =>
    keeps_bind (onlyChanges_chains _) ((decodeSig_frame p n last i).mono (by decide)) fun _ =>
      keeps_when (onlyChanges_chains _) _ (decodeLevel_frame p _ i)

theorem decodeCoefficients_frame (p : Config.Params) (n last : Nat) :
    ∀ k, Keeps (OnlyChanges uncoefParts) (decodeCoefficients p n last k)
  | 0 => keeps_pure (onlyChanges_chains _) ()
  | k + 1 => keeps_bind (onlyChanges_chains _) (decodeCoefficient_frame p n last k) fun _ =>
      decodeCoefficients_frame p n last k

end Sys2Proof.Machine
end

