-- ==== Sys2Proof/Laws/Commands.lean ====
section
/-! SUPPORT. Every command but `SRESET` as one shape: a pseudocode run by `runCommand`. One case split over the commands
serves every statement about all of them; and the frame of each command. -/

namespace Sys2Proof.Machine

open Sys2Proof Sys2Proof.Safety

/-- The buffers a command writes and its pseudocode. (`SRESET` is not of this shape; its entry is not used.) -/
def commandOf (p : Config.Params) : Instr → List BufName × Cmd Unit
  | .nop => ([], pure ())
  | .sreset => ([], pure ())
  | .ctxinit => ([], ctxinit)
  | .bwBit b => ([], bwBit p b)
  | .bwBits n => ([], bwBits p n)
  | .bwAlign => ([], bwAlign p)
  | .brBit => ([], brBit p)
  | .brBits n => ([], brBits p n)
  | .brAlign => ([], getAlign)
  | .pmMps m => ([], pmMps p m)
  | .pmLps m => ([], pmLps p m)
  | .pmEst m b => ([], pmEst p m b)
  | .aeStart => ([], aeStart p)
  | .aeBit m b => ([], aeBit p m b)
  | .aeBits m n => ([], aeBits p m n)
  | .aeByp b => ([], aeByp p b)
  | .aeByps n => ([], aeByps p n)
  | .aeTerm => ([], aeTerm p)
  | .aeEg m => ([], aeEg p m)
  | .aeEgest m => ([], aeEgest p m)
  | .adStart => ([], adStart p)
  | .adBit m => ([], adBit p m)
  | .adByp => ([], adByp p)
  | .adByps n => ([], adByps p n)
  | .adTerm => ([], adTerm)
  | .adEg m => ([], adEg p m)
  | .ctxSw h => ([], ctxSw h)
  | .pred pm h => ([.predb], pred pm h)
  | .resid h => ([.resd], resid h)
  | .txf pm h => ([.coef], txf p pm h)
  | .quant h => ([.qidx], quant p h)
  | .scanf pm h => ([.scan], scanf pm h)
  | .scani pm h => ([.qidx], scani pm h)
  | .deq h => ([.dcoef], deq p h)
  | .txi pm h => ([.rres], txi p pm h)
  | .recon h => ([.recb], recon p h)
  | .dist h => ([], dist h)
  | .hdrWr => ([], hdrWr p)
  | .hdrRd => ([], hdrRd p)
  | .encPart b => ([], encPart p b)
  | .decPart => ([], decPart p)
  | .encPmode pm => ([], encPmode p pm)
  | .decPmode => ([], decPmode p)
  | .encCoef h => ([], encCoef p h)
  | .decCoef h => ([.scan], decCoef p h)

theorem exec_eq_runCommand {i : Instr} (h : i ≠ .sreset) (s : State) :
    exec i s = runCommand (commandOf Config.params i).1 (commandOf Config.params i).2 s := by
  cases i <;> first | rfl | exact absurd rfl h

theorem exec_sreset (s : State) : exec .sreset s = .next (resetRegisters s) := rfl

/-- All a command can answer with a next state (rule R324). -/
theorem exec_next {i : Instr} {s t : State} (h : exec i s = .next t) (hi : i ≠ .sreset) (hq : Quiet s) :
    (commandOf Config.params i).2 s = .ok () t ∨
      ∃ k u, (commandOf Config.params i).2 s = .error (.fault k) u ∧
        t = takeFault k (commandOf Config.params i).1 s u := by
  rw [exec_eq_runCommand hi] at h
  rcases runCommand_next h with ⟨hf, _⟩ | ⟨_, h⟩ | ⟨_, h⟩
  · simp [Quiet, hf] at hq
  · exact Or.inl h
  · exact Or.inr h

/-- A command that ends quietly has run to its end. -/
theorem exec_quiet {i : Instr} {s t : State} (h : exec i s = .next t) (hi : i ≠ .sreset) (hq : Quiet s) (ht : Quiet t) :
    (commandOf Config.params i).2 s = .ok () t := by
  rcases exec_next h hi hq with h | ⟨k, u, _, rfl⟩
  · exact h
  · exact absurd ht (takeFault_not_quiet _ _ _ _)

/-! ## The frame of each command -/

theorem ctxinit_frame : Keeps (OnlyChanges [.models, .bucket]) ctxinit := fun s =>
  ⟨rfl, rfl, rfl, rfl, rfl, rfl, fun q hq => by cases q <;> first | rfl | simp at hq⟩

theorem onlyChanges_cfg (s : State) (c : Cfg) : OnlyChanges [.cfg] s { s with cfg := c } :=
  ⟨rfl, rfl, rfl, rfl, rfl, rfl, fun q hq => by cases q <;> first | rfl | simp at hq⟩

theorem onlyChanges_encStart (s : State) (e : Encoder) (b : Bool) :
    OnlyChanges [.encoder, .encOpen] s { s with ae := e, status := { s.status with encOpen := b } } :=
  ⟨rfl, rfl, rfl, rfl, rfl, rfl, fun q hq => by cases q <;> first | rfl | simp at hq⟩

theorem onlyChanges_decStart (s : State) (d : Decoder) (b : Bool) :
    OnlyChanges [.decoder, .decOpen] s { s with ad := d, status := { s.status with decOpen := b } } :=
  ⟨rfl, rfl, rfl, rfl, rfl, rfl, fun q hq => by cases q <;> first | rfl | simp at hq⟩

theorem aeStart_frame (p : Config.Params) :
    Keeps (OnlyChanges [.writer, .stream, .encoder, .encOpen]) (aeStart p) :=
  keeps_bind (onlyChanges_chains _) ((putAlign_frame p).mono (by decide)) fun _ s =>
    (onlyChanges_encStart s _ true).mono (by decide)

theorem aeTerm_frame (p : Config.Params) :
    Keeps (OnlyChanges [.writer, .stream, .encoder, .encOpen]) (aeTerm p) :=
  keeps_bind (onlyChanges_chains _) (fun s => (onlyChanges_ae s _).mono (by decide)) fun _ =>
    keeps_bind (onlyChanges_chains _) ((aeFlush_frame p).mono (by decide)) fun _ =>
      keeps_bind (onlyChanges_chains _) ((aeFinish_frame p).mono (by decide)) fun _ =>
        keeps_bind (onlyChanges_chains _) ((putBit_frame p _).mono (by decide)) fun _ =>
          keeps_bind (onlyChanges_chains _) ((putAlign_frame p).mono (by decide)) fun _ s =>
            (onlyChanges_encStart s s.ae false).mono (by decide)

theorem adStart_frame (p : Config.Params) : Keeps (OnlyChanges [.reader, .decoder, .decOpen]) (adStart p) :=
  keeps_bind (onlyChanges_chains _) (getAlign_frame.mono (by decide)) fun _ =>
    keeps_bind (onlyChanges_chains _) ((getBits_frame p _).mono (by decide)) fun _ s =>
      (onlyChanges_decStart s _ true).mono (by decide)

theorem adTerm_frame : Keeps (OnlyChanges [.decoder, .decOpen]) adTerm := by
  intro s
  simp only [adTerm]
  split
  · exact onlyChanges_decStart s _ false
  · exact (onlyChanges_ad s _).mono (by decide)

theorem encPmode_frame (p : Config.Params) (pm : PredMode) : Keeps (OnlyChanges binParts) (encPmode p pm) := by
  have one := fun m b => encodeBit_frame p m b
  have chain := onlyChanges_chains binParts
  cases pm
  · exact keeps_bind chain (one _ _) fun _ => one _ _
  · exact keeps_bind chain (one _ _) fun _ => keeps_bind chain (one _ _) fun _ => one _ _
  · exact keeps_bind chain (one _ _) fun _ => keeps_bind chain (one _ _) fun _ => one _ _
  · exact one _ _

theorem decPmode_frame (p : Config.Params) :
    Keeps (OnlyChanges [.res, .reader, .decoder, .models]) (decPmode p) := by
  have one := fun m => (decodeBit_frame p m).mono (qs := [.res, .reader, .decoder, .models]) (by decide)
  have res := fun v => (setRes_frame v).mono (qs := [.res, .reader, .decoder, .models]) (by decide)
  have chain := onlyChanges_chains [.res, .reader, .decoder, .models]
  exact keeps_bind chain (one _) fun _ => keeps_ite (res _) (keeps_bind chain (one _) fun _ =>
    keeps_ite (res _) (keeps_bind chain (one _) fun _ => keeps_ite (res _) (res _)))

theorem encCoef_frame (p : Config.Params) (h : PartSize) :
    Keeps (OnlyChanges [.res, .models, .bucket, .writer, .stream, .encoder]) (encCoef p h) := by
  have chain := onlyChanges_chains [.res, .models, .bucket, .writer, .stream, .encoder]
  have res := fun v => (setRes_frame v).mono (qs := [.res, .models, .bucket, .writer, .stream, .encoder]) (by decide)
  refine keeps_bind chain (cfgN_frame h _) fun n => keeps_bind chain (readWords_frame _ _ _ _) fun xs => ?_
  refine keeps_ite (keeps_raise chain _) (keeps_ite ?_ ?_)
  · exact keeps_bind chain ((encodeBit_frame p _ _).mono (by decide)) fun _ => res _
  · exact keeps_bind chain ((encodeBit_frame p _ _).mono (by decide)) fun _ =>
      keeps_bind chain ((encodeEg_frame p _ _).mono (by decide)) fun _ =>
        keeps_bind chain ((encodeCoefficients_frame p _ _ _ _).mono (by decide)) fun _ => res _

theorem decCoef_frame (p : Config.Params) (h : PartSize) :
    Keeps (OnlyChanges [.res, .models, .bucket, .reader, .decoder, .scan]) (decCoef p h) := by
  have chain := onlyChanges_chains [.res, .models, .bucket, .reader, .decoder, .scan]
  have res := fun v => (setRes_frame v).mono (qs := [.res, .models, .bucket, .reader, .decoder, .scan]) (by decide)
  refine keeps_bind chain (cfgN_frame h _) fun n => ?_
  refine keeps_bind chain (fun s => (onlyChanges_scan s _).mono (by decide)) fun _ => ?_
  refine keeps_bind chain ((decodeBit_frame p _).mono (by decide)) fun cbf => keeps_ite ?_ (res _)
  refine keeps_bind chain ((decodeEg_frame p _).mono (by decide)) fun last => keeps_ite (keeps_raise chain _) ?_
  exact keeps_bind chain ((decodeCoefficients_frame p _ _ _).mono (by decide)) fun _ => res _

theorem hdrWr_frame (p : Config.Params) : Keeps (OnlyChanges [.writer, .stream]) (hdrWr p) :=
  keeps_bind (onlyChanges_chains _) (keeps_get (onlyChanges_chains _)) fun _ =>
    keeps_bind (onlyChanges_chains _) (putBits_frame p _ _) fun _ =>
      keeps_bind (onlyChanges_chains _) (putBits_frame p _ _) fun _ =>
        keeps_bind (onlyChanges_chains _) (putBits_frame p _ _) fun _ => putBits_frame p _ _

theorem hdrRd_frame (p : Config.Params) : Keeps (OnlyChanges [.reader, .cfg]) (hdrRd p) := by
  have chain := onlyChanges_chains [.reader, .cfg]
  have bits := fun n => (getBits_frame p n).mono (qs := [.reader, .cfg]) (by decide)
  exact keeps_bind chain (bits _) fun _ => keeps_bind chain (bits _) fun _ => keeps_bind chain (bits _) fun _ =>
    keeps_bind chain (bits _) fun _ => keeps_ite (keeps_raise chain _) fun s =>
      (onlyChanges_cfg s _).mono (by decide)

/-- A command that reads the size, then the buffers, then writes one buffer. -/
theorem writeOne_frame (ps : List Part) {h : PartSize} {f : Nat → Cmd Unit} (hf : ∀ n, Keeps (OnlyChanges ps) (f n)) :
    Keeps (OnlyChanges ps) (cfgN h >>= f) := keeps_bind (onlyChanges_chains _) (cfgN_frame h ps) hf

theorem ctxSw_frame (h : PartSize) : Keeps (OnlyChanges [.bucket]) (ctxSw h) :=
  writeOne_frame _ fun _ => keeps_bind (onlyChanges_chains _) (keeps_get (onlyChanges_chains _)) fun _ =>
    keeps_ite (keeps_raise (onlyChanges_chains _) _) (switchContext_frame _ _)

theorem pred_frame (pm : PredMode) (h : PartSize) : Keeps (OnlyChanges [.predb]) (pred pm h) :=
  writeOne_frame _ fun _ => keeps_bind (onlyChanges_chains _) (keeps_get (onlyChanges_chains _)) fun _ =>
    keeps_bind (onlyChanges_chains _) (border_frame _ _ _ _ _) fun _ =>
      keeps_bind (onlyChanges_chains _) (border_frame _ _ _ _ _) fun _ _ =>
        ⟨rfl, rfl, rfl, rfl, rfl, rfl, fun q hq => by cases q <;> first | rfl | simp at hq⟩

theorem resid_frame (h : PartSize) : Keeps (OnlyChanges [.resd]) (resid h) :=
  writeOne_frame _ fun _ => keeps_bind (onlyChanges_chains _) (readBytes_frame _ _ _ _) fun _ =>
    keeps_bind (onlyChanges_chains _) (readBytes_frame _ _ _ _) fun _ _ =>
      ⟨rfl, rfl, rfl, rfl, rfl, rfl, fun q hq => by cases q <;> first | rfl | simp at hq⟩

theorem txf_frame (p : Config.Params) (pm : PredMode) (h : PartSize) : Keeps (OnlyChanges [.coef]) (txf p pm h) :=
  writeOne_frame _ fun _ => keeps_bind (onlyChanges_chains _) (readWords_frame _ _ _ _) fun _ _ =>
    ⟨rfl, rfl, rfl, rfl, rfl, rfl, fun q hq => by cases q <;> first | rfl | simp at hq⟩

theorem txi_frame (p : Config.Params) (pm : PredMode) (h : PartSize) : Keeps (OnlyChanges [.rres]) (txi p pm h) :=
  writeOne_frame _ fun _ => keeps_bind (onlyChanges_chains _) (readReals_frame _ _ _ _) fun _ _ =>
    ⟨rfl, rfl, rfl, rfl, rfl, rfl, fun q hq => by cases q <;> first | rfl | simp at hq⟩

theorem quant_frame (p : Config.Params) (h : PartSize) : Keeps (OnlyChanges [.qidx]) (quant p h) :=
  writeOne_frame _ fun _ => keeps_bind (onlyChanges_chains _) (checkQp_frame _) fun _ =>
    keeps_bind (onlyChanges_chains _) (readReals_frame _ _ _ _) fun _ =>
      keeps_bind (onlyChanges_chains _) (keeps_get (onlyChanges_chains _)) fun _ =>
        keeps_ite (keeps_raise (onlyChanges_chains _) _) fun _ =>
          ⟨rfl, rfl, rfl, rfl, rfl, rfl, fun q hq => by cases q <;> first | rfl | simp at hq⟩

theorem deq_frame (p : Config.Params) (h : PartSize) : Keeps (OnlyChanges [.dcoef]) (deq p h) :=
  writeOne_frame _ fun _ => keeps_bind (onlyChanges_chains _) (checkQp_frame _) fun _ =>
    keeps_bind (onlyChanges_chains _) (readWords_frame _ _ _ _) fun _ _ =>
      ⟨rfl, rfl, rfl, rfl, rfl, rfl, fun q hq => by cases q <;> first | rfl | simp at hq⟩

theorem recon_frame (p : Config.Params) (h : PartSize) : Keeps (OnlyChanges [.recb]) (recon p h) :=
  writeOne_frame _ fun _ => keeps_bind (onlyChanges_chains _) (readBytes_frame _ _ _ _) fun _ =>
    keeps_bind (onlyChanges_chains _) (readReals_frame _ _ _ _) fun _ _ =>
      ⟨rfl, rfl, rfl, rfl, rfl, rfl, fun q hq => by cases q <;> first | rfl | simp at hq⟩

theorem scanf_frame (pm : PredMode) (h : PartSize) : Keeps (OnlyChanges [.scan]) (scanf pm h) :=
  writeOne_frame _ fun _ => keeps_bind (onlyChanges_chains _) (readWords_frame _ _ _ _) fun _ _ =>
    ⟨rfl, rfl, rfl, rfl, rfl, rfl, fun q hq => by cases q <;> first | rfl | simp at hq⟩

theorem scani_frame (pm : PredMode) (h : PartSize) : Keeps (OnlyChanges [.qidx]) (scani pm h) :=
  writeOne_frame _ fun _ => keeps_bind (onlyChanges_chains _) (readWords_frame _ _ _ _) fun _ _ =>
    ⟨rfl, rfl, rfl, rfl, rfl, rfl, fun q hq => by cases q <;> first | rfl | simp at hq⟩

theorem dist_frame (h : PartSize) : Keeps (OnlyChanges [.res]) (dist h) :=
  writeOne_frame _ fun _ => keeps_bind (onlyChanges_chains _) (readBytes_frame _ _ _ _) fun _ =>
    keeps_bind (onlyChanges_chains _) (readBytes_frame _ _ _ _) fun _ => setRes_frame _

/-- A command that reads the state and then acts. -/
theorem getThen_frame (ps : List Part) {f : State → Cmd Unit} (hf : ∀ s, Keeps (OnlyChanges ps) (f s)) :
    Keeps (OnlyChanges ps) (get >>= f) := keeps_bind (onlyChanges_chains _) (keeps_get (onlyChanges_chains _)) hf

/-- A command that reads bits and answers in `RES`. -/
theorem answer_frame {α : Type} (ps : List Part) {c : Cmd α} {f : α → Word} (hc : Keeps (OnlyChanges ps) c) :
    Keeps (OnlyChanges (.res :: ps)) (do let a ← c; setRes (f a)) :=
  keeps_bind (onlyChanges_chains _) (hc.mono fun q hq => List.mem_cons_of_mem _ hq) fun _ =>
    (setRes_frame _).mono fun q hq => by simp at hq; simp [hq]

/-- A command that checks its count first. -/
theorem counted_frame (ps : List Part) {n : BitVec 8} {c : Cmd Unit} (hc : Keeps (OnlyChanges ps) c) :
    Keeps (OnlyChanges ps) (do checkCount n; c) :=
  keeps_bind (onlyChanges_chains _) (checkCount_frame n _) fun _ => hc

/-- Every command changes only what rule R86, R109, R179, R361 and its own rule let it write. -/
theorem commandOf_frame (p : Config.Params) (i : Instr) : Keeps (OnlyChanges (writesOf i)) (commandOf p i).2 := by
  cases i with
  | nop => exact keeps_pure (onlyChanges_chains _) ()
  | sreset => exact keeps_pure (onlyChanges_chains _) ()
  | ctxinit => exact ctxinit_frame
  | bwBit b => exact putBit_frame p b
  | bwBits n => exact keeps_bind (onlyChanges_chains _) (checkCount_frame n _) fun _ =>
      getThen_frame _ fun _ => putBits_frame p _ _
  | bwAlign => exact putAlign_frame p
  | brBit => exact answer_frame [.reader] (getBit_frame p)
  | brBits n => exact counted_frame _ (answer_frame [.reader] (f := id) (getBits_frame p _))
  | brAlign => exact getAlign_frame
  | pmMps m => exact getThen_frame _ fun _ => updateMps_frame p _
  | pmLps m => exact getThen_frame _ fun _ => updateLps_frame p _
  | pmEst m b => exact getThen_frame _ fun _ => setRes_frame _
  | aeStart => exact aeStart_frame p
  | aeBit m b => exact getThen_frame _ fun _ => encodeBit_frame p _ b
  | aeBits m n => exact keeps_bind (onlyChanges_chains _) (checkCount_frame n _) fun _ =>
      getThen_frame _ fun _ => keeps_forBits (onlyChanges_chains _) (fun b => encodeBit_frame p _ b) _ _
  | aeByp b => exact encodeBypass_frame p b
  | aeByps n => exact keeps_bind (onlyChanges_chains _) (checkCount_frame n _) fun _ =>
      getThen_frame _ fun _ => keeps_forBits (onlyChanges_chains _) (encodeBypass_frame p) _ _
  | aeTerm => exact aeTerm_frame p
  | aeEg m => exact keeps_bind (onlyChanges_chains _) (checkEgValue_frame _) fun _ =>
      getThen_frame _ fun _ => encodeEg_frame p _ _
  | aeEgest m => exact keeps_bind (onlyChanges_chains _) (checkEgValue_frame _) fun _ =>
      getThen_frame _ fun _ => setRes_frame _
  | adStart => exact adStart_frame p
  | adBit m => exact getThen_frame _ fun _ => answer_frame unbinParts (decodeBit_frame p _)
  | adByp => exact answer_frame pullParts (decodeBypass_frame p)
  | adByps n => exact counted_frame _ (answer_frame pullParts (f := id)
      (keeps_collectBits (onlyChanges_chains _) (decodeBypass_frame p) _ _))
  | adTerm => exact adTerm_frame
  | adEg m => exact getThen_frame _ fun _ => answer_frame unbinParts (decodeEg_frame p _)
  | ctxSw h => exact ctxSw_frame h
  | pred pm h => exact pred_frame pm h
  | resid h => exact resid_frame h
  | txf pm h => exact txf_frame p pm h
  | quant h => exact quant_frame p h
  | scanf pm h => exact scanf_frame pm h
  | scani pm h => exact scani_frame pm h
  | deq h => exact deq_frame p h
  | txi pm h => exact txi_frame p pm h
  | recon h => exact recon_frame p h
  | dist h => exact dist_frame h
  | hdrWr => exact hdrWr_frame p
  | hdrRd => exact hdrRd_frame p
  | encPart b => exact encodeBit_frame p _ b
  | decPart => exact answer_frame unbinParts (decodeBit_frame p _)
  | encPmode pm => exact encPmode_frame p pm
  | decPmode => exact decPmode_frame p
  | encCoef h => exact encCoef_frame p h
  | decCoef h => exact decCoef_frame p h

end Sys2Proof.Machine
end

