-- ==== Sys2Proof/Laws/Closure.lean ====
section
/-! SUPPORT. Packaged inductions over the commands: a property of pseudocode that passes through sequencing, and that holds
of the few leaves which touch a unit, holds of every command. -/

namespace Sys2Proof.Machine

open Sys2Proof Sys2Proof.Safety

/-- A property of pseudocode that sequencing keeps and that code changing only the pieces `ps` has. -/
structure Closed (ps : List Part) (K : (α : Type) → Cmd α → Prop) : Prop where
  bind : ∀ {α β : Type} {c : Cmd α} {f : α → Cmd β}, K α c → (∀ a, K β (f a)) → K β (c >>= f)
  plain : ∀ {α : Type} {c : Cmd α}, Keeps (OnlyChanges ps) c → K α c
  dep : ∀ {α : Type} {g : Cmd α},
    (∀ s, ∃ (c : Cmd α) (u : State), OnlyChanges ps s u ∧ K α c ∧ g s = c u) → K α g

/-- A relation that ignores the pieces `ps` is kept by code that changes only them. -/
theorem closed_keeps {ps : List Part} {R : State → State → Prop} (hR : Chains R)
    (blind : ∀ s t, OnlyChanges ps s t → R s t) : Closed ps fun _ c => Keeps R c where
  bind hc hf := keeps_bind hR hc hf
  plain h s := blind _ _ (h s)
  dep h s := by
    obtain ⟨c, u, h1, h2, h3⟩ := h s
    rw [h3]
    exact hR.trans _ _ _ (blind _ _ h1) (h2 u)

theorem closed_keepsOk {ps : List Part} {R : State → State → Prop} (hR : Chains R)
    (blind : ∀ s t, OnlyChanges ps s t → R s t) : Closed ps fun _ c => KeepsOk R c where
  bind hc hf := keepsOk_bind hR hc hf
  plain h s a t e := blind _ _ (h.of_ok_eq e)
  dep h s a t e := by
    obtain ⟨c, u, h1, h2, h3⟩ := h s
    rw [h3] at e
    exact hR.trans _ _ _ (blind _ _ h1) (h2 u a t e)

section closed

variable {ps : List Part} {K : (α : Type) → Cmd α → Prop}

theorem Closed.mono (C : Closed ps K) {qs : List Part} (h : ∀ q ∈ qs, q ∈ ps) : Closed qs K where
  bind := C.bind
  plain hc := C.plain (hc.mono h)
  dep hg := C.dep fun s => by
    obtain ⟨c, u, h1, h2, h3⟩ := hg s
    exact ⟨c, u, h1.mono h, h2, h3⟩

theorem Closed.pure (C : Closed ps K) {α : Type} (a : α) : K α (pure a) :=
  C.plain (keeps_pure (onlyChanges_chains _) a)

theorem Closed.ite {α : Type} {P : Prop} [Decidable P] {c d : Cmd α} (hc : K α c) (hd : K α d) :
    K α (if P then c else d) := by split <;> assumption

theorem Closed.when (C : Closed ps K) (b : Bool) {c : Cmd Unit} (hc : K Unit c) : K Unit (whenCmd b c) :=
  Closed.ite hc (C.pure ())

theorem Closed.forBits (C : Closed ps K) {f : Bool → Cmd Unit} (hf : ∀ b, K Unit (f b)) (v : Word) :
    ∀ n, K Unit (forBits f v n)
  | 0 => C.pure ()
  | n + 1 => C.bind (hf _) fun _ => C.forBits hf v n

theorem Closed.repeatCmd (C : Closed ps K) {c : Cmd Unit} (hc : K Unit c) : ∀ n, K Unit (repeatCmd c n)
  | 0 => C.pure ()
  | n + 1 => C.bind hc fun _ => C.repeatCmd hc n

theorem Closed.collectBits (C : Closed ps K) {f : Cmd Bool} (hf : K Bool f) : ∀ n acc, K Word (collectBits f n acc)
  | 0, acc => C.pure acc
  | n + 1, _ => C.bind hf fun _ => C.collectBits hf n _

end closed

/-! ## From `put_bit` to the encoder -/

/-- Every piece but the writer and STREAM. -/
def notWriter : List Part :=
  [.arg, .res, .cfg, .models, .bucket, .reader, .encoder, .decoder, .smAddr, .encOpen, .decOpen, .top, .left, .orig,
    .predb, .resd, .coef, .qidx, .scan, .dcoef, .rres, .recb]

section put

variable {p : Config.Params} {K : (α : Type) → Cmd α → Prop}

theorem Closed.putBits (C : Closed notWriter K) (put : ∀ b, K Unit (putBit p b)) (v : Word) (n : Nat) :
    K Unit (putBits p v n) := C.forBits put v n

theorem Closed.alignLoop (C : Closed notWriter K) (put : ∀ b, K Unit (putBit p b)) : ∀ k, K Unit (alignLoop p k)
  | 0 => C.pure ()
  | k + 1 => C.dep fun s => by
    by_cases h : s.bw.cnt = 0
    · exact ⟨Pure.pure (), s, (onlyChanges_chains _).refl s, C.pure (), by simp [Machine.alignLoop, h]⟩
    · exact ⟨do putBit p false; Machine.alignLoop p k, s, (onlyChanges_chains _).refl s,
        C.bind (put false) fun _ => C.alignLoop put k, by simp only [Machine.alignLoop, if_neg h]⟩

theorem Closed.putAlign (C : Closed notWriter K) (put : ∀ b, K Unit (putBit p b)) : K Unit (putAlign p) :=
  C.alignLoop put 16

theorem Closed.modifyAe (C : Closed notWriter K) (f : State → Encoder) :
    K Unit (modify fun s => { s with ae := f s } : Cmd Unit) :=
  C.plain fun s => (onlyChanges_ae s (f s)).mono (by decide)

theorem Closed.drainRun (C : Closed notWriter K) (put : ∀ b, K Unit (putBit p b)) (fill : Byte) :
    ∀ k, K Unit (drainRun p fill k)
  | 0 => C.pure ()
  | k + 1 => C.bind (C.putBits put _ 8) fun _ => C.bind (C.modifyAe _) fun _ => C.drainRun put fill k

theorem Closed.placeLead (C : Closed notWriter K) (put : ∀ b, K Unit (putBit p b)) (lead : Nat) :
    K Unit (placeLead p lead) := C.dep fun s => by
  by_cases h1 : lead = 0xFF
  · exact ⟨Pure.pure (), _, (onlyChanges_ae s _).mono (by decide), C.pure (), by simp only [Machine.placeLead, if_pos h1]; rfl⟩
  · by_cases h2 : 0 < s.ae.run.toNat
    · exact ⟨_, s, (onlyChanges_chains _).refl s,
        C.bind (C.putBits put _ 8) fun _ => C.bind (C.modifyAe _) fun _ => C.drainRun put _ _,
        by simp only [Machine.placeLead, if_neg h1, if_pos h2]; rfl⟩
    · exact ⟨Pure.pure (), _, (onlyChanges_ae s _).mono (by decide), C.pure (),
        by simp only [Machine.placeLead, if_neg h1, if_neg h2]; rfl⟩

theorem Closed.aeWriteOut (C : Closed notWriter K) (put : ∀ b, K Unit (putBit p b)) : K Unit (aeWriteOut p) :=
  C.dep fun s => ⟨_, _, (onlyChanges_ae s _).mono (by decide), C.placeLead put _, rfl⟩

theorem Closed.aeFlush (C : Closed notWriter K) (put : ∀ b, K Unit (putBit p b)) : K Unit (aeFlush p) :=
  C.dep fun s => by
    by_cases h : debtOf s.ae < Config.flushT
    · exact ⟨_, s, (onlyChanges_chains _).refl s, C.aeWriteOut put, by simp only [Machine.aeFlush, if_pos h]⟩
    · exact ⟨Pure.pure (), s, (onlyChanges_chains _).refl s, C.pure (), by simp only [Machine.aeFlush, if_neg h]; rfl⟩

theorem Closed.finishHeld (C : Closed notWriter K) (put : ∀ b, K Unit (putBit p b)) : K Unit (finishHeld p) :=
  C.dep fun s => by
    by_cases h : carryOf s.ae ≠ 0
    · exact ⟨_, s, (onlyChanges_chains _).refl s,
        C.bind (C.putBits put _ 8) fun _ => C.bind (C.drainRun put _ _) fun _ => C.modifyAe _,
        by simp only [Machine.finishHeld, if_pos h]; rfl⟩
    · exact ⟨_, s, (onlyChanges_chains _).refl s,
        C.bind (C.when _ (C.putBits put _ 8)) fun _ => C.drainRun put _ _,
        by simp only [Machine.finishHeld, if_neg h]; rfl⟩

theorem Closed.aeFinish (C : Closed notWriter K) (put : ∀ b, K Unit (putBit p b)) : K Unit (aeFinish p) :=
  C.bind (C.finishHeld put) fun _ => C.bind (C.plain (keeps_get (onlyChanges_chains _))) fun _ => C.putBits put _ _

theorem Closed.encodeBit (C : Closed notWriter K) (put : ∀ b, K Unit (putBit p b)) (m : Fin 15) (b : Bool) :
    K Unit (encodeBit p m b) := C.dep fun s => by
  have mps : K Unit (updateMps p m) := C.plain ((updateMps_frame p m).mono (by decide))
  have lps : K Unit (updateLps p m) := C.plain ((updateLps_frame p m).mono (by decide))
  by_cases h1 : (b != (modelAt s m).mps) = true
  · exact ⟨_, _, (onlyChanges_ae s _).mono (by decide), C.bind (C.aeFlush put) fun _ => lps,
      by simp only [Machine.encodeBit, if_pos h1]; rfl⟩
  · by_cases h2 : (s.ae.rng - (encodeWidth p s m).setWidth 9).toNat < 256
    · exact ⟨_, _, (onlyChanges_ae s _).mono (by decide), C.bind (C.aeFlush put) fun _ => mps,
        by simp only [Machine.encodeBit, if_neg h1, if_pos h2]; rfl⟩
    · exact ⟨_, _, (onlyChanges_ae s _).mono (by decide), mps,
        by simp only [Machine.encodeBit, if_neg h1, if_neg h2]; rfl⟩

theorem Closed.encodeBypass (C : Closed notWriter K) (put : ∀ b, K Unit (putBit p b)) (b : Bool) :
    K Unit (encodeBypass p b) :=
  C.dep fun s => ⟨_, _, (onlyChanges_ae s _).mono (by decide), C.aeFlush put, rfl⟩

theorem Closed.aeStart (C : Closed notWriter K) (put : ∀ b, K Unit (putBit p b)) : K Unit (aeStart p) :=
  C.bind (C.putAlign put) fun _ => C.plain fun s => (onlyChanges_encStart s _ true).mono (by decide)

theorem Closed.aeTerm (C : Closed notWriter K) (put : ∀ b, K Unit (putBit p b)) : K Unit (aeTerm p) :=
  C.bind (C.modifyAe _) fun _ => C.bind (C.aeFlush put) fun _ => C.bind (C.aeFinish put) fun _ =>
    C.bind (put true) fun _ => C.bind (C.putAlign put) fun _ =>
      C.plain fun s => (onlyChanges_encStart s s.ae false).mono (by decide)

end put

/-! ## From `get_bit` to the decoder -/

/-- Every piece but the reader, the writer and STREAM. -/
def notReader : List Part :=
  [.arg, .res, .cfg, .models, .bucket, .encoder, .decoder, .smAddr, .encOpen, .decOpen, .top, .left, .orig,
    .predb, .resd, .coef, .qidx, .scan, .dcoef, .rres, .recb]

section read

variable {p : Config.Params} {K : (α : Type) → Cmd α → Prop}

theorem Closed.getBits (C : Closed notReader K) (rd : K Bool (getBit p)) (n : Nat) : K Word (getBits p n) :=
  C.collectBits rd n 0

theorem Closed.modifyAd (C : Closed notReader K) (f : State → Decoder) :
    K Unit (modify fun s => { s with ad := f s } : Cmd Unit) :=
  C.plain fun s => (onlyChanges_ad s (f s)).mono (by decide)

theorem Closed.pullAtZero (C : Closed notReader K) (rd : K Bool (getBit p)) : K Unit (pullAtZero p) :=
  C.dep fun s => by
    by_cases h : s.ad.need = 0
    · exact ⟨_, _, (onlyChanges_ad s _).mono (by decide), C.bind (C.getBits rd 8) fun _ => C.modifyAd _,
        by simp only [Machine.pullAtZero, if_pos h]; rfl⟩
    · exact ⟨Pure.pure (), s, (onlyChanges_chains _).refl s, C.pure (), by simp only [Machine.pullAtZero, if_neg h]; rfl⟩

theorem Closed.pullNonneg (C : Closed notReader K) (rd : K Bool (getBit p)) : K Unit (pullNonneg p) :=
  C.dep fun s => by
    by_cases h : 0 ≤ s.ad.need.toInt
    · exact ⟨_, s, (onlyChanges_chains _).refl s, C.bind (C.getBits rd 8) fun _ => C.modifyAd _,
        by simp only [Machine.pullNonneg, if_pos h]; rfl⟩
    · exact ⟨Pure.pure (), s, (onlyChanges_chains _).refl s, C.pure (), by simp only [Machine.pullNonneg, if_neg h]; rfl⟩

theorem Closed.pullBypass (C : Closed notReader K) (rd : K Bool (getBit p)) : K Unit (pullBypass p) :=
  C.dep fun s => by
    by_cases h : 0 ≤ s.ad.need.toInt
    · exact ⟨_, _, (onlyChanges_ad s _).mono (by decide), C.bind (C.getBits rd 8) fun _ => C.modifyAd _,
        by simp only [Machine.pullBypass, if_pos h]; rfl⟩
    · exact ⟨Pure.pure (), s, (onlyChanges_chains _).refl s, C.pure (), by simp only [Machine.pullBypass, if_neg h]; rfl⟩

theorem Closed.decodeBypass (C : Closed notReader K) (rd : K Bool (getBit p)) : K Bool (decodeBypass p) :=
  C.bind (C.modifyAd _) fun _ => C.bind (C.pullBypass rd) fun _ => C.plain (compareBypass_frame.mono (by decide))

theorem Closed.decodeBit (C : Closed notReader K) (rd : K Bool (getBit p)) (m : Fin 15) : K Bool (decodeBit p m) :=
  C.dep fun s => by
    have mps : K Unit (updateMps p m) := C.plain ((updateMps_frame p m).mono (by decide))
    have lps : K Unit (updateLps p m) := C.plain ((updateLps_frame p m).mono (by decide))
    by_cases h1 : s.ad.pat.toNat < (scaledRange (s.ad.rng - (decodeWidth p s m).setWidth 9)).toNat
    · by_cases h2 : (s.ad.rng - (decodeWidth p s m).setWidth 9).toNat < 256
      · exact ⟨_, _, (onlyChanges_ad s _).mono (by decide), C.bind (C.pullAtZero rd) fun _ => C.bind mps fun _ => C.pure _,
          by simp only [Machine.decodeBit, if_pos h1, if_pos h2]; rfl⟩
      · exact ⟨_, _, (onlyChanges_ad s _).mono (by decide), C.bind mps fun _ => C.pure _,
          by simp only [Machine.decodeBit, if_pos h1, if_neg h2]; rfl⟩
    · exact ⟨_, _, (onlyChanges_ad s _).mono (by decide), C.bind (C.pullNonneg rd) fun _ => C.bind lps fun _ => C.pure _,
        by simp only [Machine.decodeBit, if_neg h1]; rfl⟩

end read

/-! ## From the coder's leaves to every command -/

/-- The pieces that belong to no stream and no coder. -/
def plainParts : List Part :=
  [.res, .cfg, .models, .bucket, .top, .left, .orig, .predb, .resd, .coef, .qidx, .scan, .dcoef, .rres, .recb]

/-- What the induction over the commands asks of a property: sequencing, and the leaves that touch a stream or a coder
inside a session. -/
structure BinLeaves (p : Config.Params) (K : (α : Type) → Cmd α → Prop) : Prop where
  closed : Closed plainParts K
  put : ∀ b, K Unit (putBit p b)
  align : K Unit (putAlign p)
  enc : ∀ m b, K Unit (encodeBit p m b)
  byp : ∀ b, K Unit (encodeBypass p b)
  get : K Bool (getBit p)
  getAlign : K Unit getAlign
  dec : ∀ m, K Bool (decodeBit p m)
  dby : K Bool (decodeBypass p)

/-- And of the four commands that open and close a session. -/
structure Leaves (p : Config.Params) (K : (α : Type) → Cmd α → Prop) : Prop extends BinLeaves p K where
  start : K Unit (aeStart p)
  term : K Unit (aeTerm p)
  dstart : K Unit (adStart p)
  dterm : K Unit adTerm

section leaves

variable {p : Config.Params} {K : (α : Type) → Cmd α → Prop} (L : BinLeaves p K)
include L

theorem BinLeaves.encodeEg (m : Fin 15) (v : Nat) : K Unit (encodeEg p m v) :=
  L.closed.bind (L.closed.repeatCmd (L.enc m false) _) fun _ =>
    L.closed.bind (L.enc m true) fun _ => L.closed.forBits L.byp _ _

theorem BinLeaves.decodePrefix (m : Fin 15) : ∀ left, K Nat (decodePrefix p m left)
  | 0 => L.closed.plain (keeps_raise (onlyChanges_chains _) _)
  | left + 1 => L.closed.bind (L.dec m) fun _ => Closed.ite (L.closed.pure _) (BinLeaves.decodePrefix m left)

theorem BinLeaves.decodeEg (m : Fin 15) : K Nat (decodeEg p m) :=
  L.closed.bind (L.decodePrefix m 32) fun _ =>
    L.closed.bind (L.closed.collectBits L.dby _ _) fun _ => L.closed.pure _

theorem BinLeaves.encodeCoefficients (n : Nat) (xs : List Word) (last : Nat) :
    ∀ k, K Unit (encodeCoefficients p n xs last k)
  | 0 => L.closed.pure ()
  | k + 1 => by
    refine L.closed.bind ?_ fun _ => BinLeaves.encodeCoefficients n xs last k
    refine L.closed.bind (L.closed.plain ((switchContext_frame n k).mono (by decide))) fun _ => ?_
    refine L.closed.bind (L.closed.when _ (L.enc _ _)) fun _ => L.closed.when _ ?_
    exact L.closed.bind (L.enc _ _) fun _ => L.closed.bind (L.closed.when _ (L.encodeEg _ _)) fun _ => L.byp _

theorem BinLeaves.decodeMagnitude (k : Fin 3) : K Nat (decodeMagnitude p k) := by
  refine L.closed.bind (L.dec _) fun g => Closed.ite ?_ (L.closed.pure _)
  refine L.closed.bind (L.decodeEg _) fun v => Closed.ite ?_ (L.closed.pure _)
  exact L.closed.plain (keeps_raise (onlyChanges_chains _) _)

theorem BinLeaves.decodeCoefficients (n last : Nat) : ∀ k, K Unit (decodeCoefficients p n last k)
  | 0 => L.closed.pure ()
  | k + 1 => by
    refine L.closed.bind ?_ fun _ => BinLeaves.decodeCoefficients n last k
    refine L.closed.bind (L.closed.plain ((switchContext_frame n k).mono (by decide))) fun _ => ?_
    refine L.closed.bind (Closed.ite (L.closed.pure _) (L.dec _)) fun _ => L.closed.when _ ?_
    refine L.closed.bind (L.decodeMagnitude _) fun _ => L.closed.bind L.dby fun _ => ?_
    exact L.closed.plain ((setScan_frame k _).mono (by decide))

theorem BinLeaves.res (v : Word) : K Unit (setRes v) := L.closed.plain ((setRes_frame v).mono (by decide))

theorem BinLeaves.state : K State (MonadState.get : Cmd State) := L.closed.plain (keeps_get (onlyChanges_chains _))

theorem BinLeaves.count (n : BitVec 8) : K Unit (checkCount n) := L.closed.plain (checkCount_frame n _)

theorem BinLeaves.size (h : PartSize) : K Nat (cfgN h) := L.closed.plain (cfgN_frame h _)

/-- Every command that neither opens nor closes a session has the property. -/
theorem commandOf_of_bins {i : Instr} (h1 : i ≠ .aeStart) (h2 : i ≠ .aeTerm) (h3 : i ≠ .adStart) (h4 : i ≠ .adTerm) :
    K Unit (commandOf p i).2 := by
  have bind := @Closed.bind _ _ L.closed
  have bits : ∀ n, K Word (getBits p n) := fun n => L.closed.collectBits L.get n 0
  have raise : ∀ (α : Type) (k : FaultKind), K α (raise k) := fun α k =>
    L.closed.plain (keeps_raise (onlyChanges_chains _) k)
  cases i with
  | nop => exact L.closed.pure ()
  | sreset => exact L.closed.pure ()
  | ctxinit => exact L.closed.plain (ctxinit_frame.mono (by decide))
  | bwBit b => exact L.put b
  | bwBits n => exact bind (L.count n) fun _ => bind L.state fun _ => L.closed.forBits L.put _ _
  | bwAlign => exact L.align
  | brBit => exact bind L.get fun _ => L.res _
  | brBits n => exact bind (L.count n) fun _ => bind (bits _) fun _ => L.res _
  | brAlign => exact L.getAlign
  | pmMps m => exact bind L.state fun _ => L.closed.plain ((updateMps_frame p _).mono (by decide))
  | pmLps m => exact bind L.state fun _ => L.closed.plain ((updateLps_frame p _).mono (by decide))
  | pmEst m b => exact bind L.state fun _ => L.res _
  | aeStart => exact absurd rfl h1
  | aeBit m b => exact bind L.state fun _ => L.enc _ b
  | aeBits m n => exact bind (L.count n) fun _ => bind L.state fun _ => L.closed.forBits (L.enc _) _ _
  | aeByp b => exact L.byp b
  | aeByps n => exact bind (L.count n) fun _ => bind L.state fun _ => L.closed.forBits L.byp _ _
  | aeTerm => exact absurd rfl h2
  | aeEg m => exact bind (L.closed.plain (checkEgValue_frame _)) fun _ => bind L.state fun _ => L.encodeEg _ _
  | aeEgest m => exact bind (L.closed.plain (checkEgValue_frame _)) fun _ => bind L.state fun _ => L.res _
  | adStart => exact absurd rfl h3
  | adBit m => exact bind L.state fun _ => bind (L.dec _) fun _ => L.res _
  | adByp => exact bind L.dby fun _ => L.res _
  | adByps n => exact bind (L.count n) fun _ => bind (L.closed.collectBits L.dby _ _) fun _ => L.res _
  | adTerm => exact absurd rfl h4
  | adEg m => exact bind L.state fun _ => bind (L.decodeEg _) fun _ => L.res _
  | ctxSw h => exact L.closed.plain ((ctxSw_frame h).mono (by decide))
  | pred pm h => exact L.closed.plain ((pred_frame pm h).mono (by decide))
  | resid h => exact L.closed.plain ((resid_frame h).mono (by decide))
  | txf pm h => exact L.closed.plain ((txf_frame p pm h).mono (by decide))
  | quant h => exact L.closed.plain ((quant_frame p h).mono (by decide))
  | scanf pm h => exact L.closed.plain ((scanf_frame pm h).mono (by decide))
  | scani pm h => exact L.closed.plain ((scani_frame pm h).mono (by decide))
  | deq h => exact L.closed.plain ((deq_frame p h).mono (by decide))
  | txi pm h => exact L.closed.plain ((txi_frame p pm h).mono (by decide))
  | recon h => exact L.closed.plain ((recon_frame p h).mono (by decide))
  | dist h => exact L.closed.plain ((dist_frame h).mono (by decide))
  | hdrWr =>
    have put : ∀ v n, K Unit (putBits p v n) := fun v n => L.closed.forBits L.put v n
    exact bind L.state fun _ => bind (put _ _) fun _ => bind (put _ _) fun _ => bind (put _ _) fun _ => put _ _
  | hdrRd =>
    refine bind (bits _) fun _ => bind (bits _) fun _ => bind (bits _) fun _ => bind (bits _) fun _ => ?_
    exact Closed.ite (raise _ _) (L.closed.plain fun s => (onlyChanges_cfg s _).mono (by decide))
  | encPart b => exact L.enc _ b
  | decPart => exact bind (L.dec _) fun _ => L.res _
  | encPmode pm =>
    cases pm
    · exact bind (L.enc _ _) fun _ => L.enc _ _
    · exact bind (L.enc _ _) fun _ => bind (L.enc _ _) fun _ => L.enc _ _
    · exact bind (L.enc _ _) fun _ => bind (L.enc _ _) fun _ => L.enc _ _
    · exact L.enc _ _
  | decPmode =>
    exact bind (L.dec _) fun _ => Closed.ite (L.res _) (bind (L.dec _) fun _ =>
      Closed.ite (L.res _) (bind (L.dec _) fun _ => Closed.ite (L.res _) (L.res _)))
  | encCoef h =>
    refine bind (L.size h) fun n => bind (L.closed.plain (readWords_frame _ _ _ _)) fun xs => ?_
    refine Closed.ite (raise _ _) (Closed.ite (bind (L.enc _ _) fun _ => L.res _) ?_)
    exact bind (L.enc _ _) fun _ => bind (L.encodeEg _ _) fun _ =>
      bind (L.encodeCoefficients _ _ _ _) fun _ => L.res _
  | decCoef h =>
    refine bind (L.size h) fun n => bind (L.closed.plain fun s => (onlyChanges_scan s _).mono (by decide)) fun _ => ?_
    refine bind (L.dec _) fun cbf => Closed.ite ?_ (L.res _)
    refine bind (L.decodeEg _) fun last => Closed.ite (raise _ _) ?_
    exact bind (L.decodeCoefficients _ _ _) fun _ => L.res _

end leaves

/-- Every command has the property. -/
theorem commandOf_of_leaves {p : Config.Params} {K : (α : Type) → Cmd α → Prop} (L : Leaves p K) (i : Instr) :
    K Unit (commandOf p i).2 := by
  by_cases h1 : i = .aeStart
  · subst h1; exact L.start
  by_cases h2 : i = .aeTerm
  · subst h2; exact L.term
  by_cases h3 : i = .adStart
  · subst h3; exact L.dstart
  by_cases h4 : i = .adTerm
  · subst h4; exact L.dterm
  exact commandOf_of_bins L.toBinLeaves h1 h2 h3 h4

/-- A property that ignores everything but the writer and STREAM holds of every command once `put_bit` has it. -/
theorem leaves_of_put {p : Config.Params} {K : (α : Type) → Cmd α → Prop} (C : Closed notWriter K)
    (put : ∀ b, K Unit (putBit p b)) : Leaves p K where
  closed := C.mono (by decide)
  put := put
  align := C.putAlign put
  enc := C.encodeBit put
  byp := C.encodeBypass put
  start := C.aeStart put
  term := C.aeTerm put
  get := C.plain ((getBit_frame p).mono (by decide))
  getAlign := C.plain (getAlign_frame.mono (by decide))
  dec m := C.plain ((decodeBit_frame p m).mono (by decide))
  dby := C.plain ((decodeBypass_frame p).mono (by decide))
  dstart := C.plain ((adStart_frame p).mono (by decide))
  dterm := C.plain (adTerm_frame.mono (by decide))

/-- Every piece but the reader. -/
def notBr : List Part := .writer :: .stream :: notReader

/-- A property that ignores everything but the reader holds of every command once `get_bit` and `get_align` have it. -/
theorem leaves_of_get {p : Config.Params} {K : (α : Type) → Cmd α → Prop} (C : Closed notBr K)
    (rd : K Bool (getBit p)) (al : K Unit getAlign) : Leaves p K where
  closed := C.mono (by decide)
  put b := C.plain ((putBit_frame p b).mono (by decide))
  align := C.plain ((putAlign_frame p).mono (by decide))
  enc m b := C.plain ((encodeBit_frame p m b).mono (by decide))
  byp b := C.plain ((encodeBypass_frame p b).mono (by decide))
  start := C.plain ((aeStart_frame p).mono (by decide))
  term := C.plain ((aeTerm_frame p).mono (by decide))
  get := rd
  getAlign := al
  dec m := (C.mono (by decide)).decodeBit rd m
  dby := (C.mono (by decide)).decodeBypass rd
  dstart := C.bind al fun _ => C.bind ((C.mono (by decide : ∀ q ∈ notReader, q ∈ notBr)).getBits rd _) fun _ =>
    C.plain fun s => (onlyChanges_decStart s _ true).mono (by decide)
  dterm := C.plain (adTerm_frame.mono (by decide))

end Sys2Proof.Machine
end

