-- ==== Sys2Proof/Laws/EncoderBytes.lean ====
section
/-! SUPPORT. The encoder's byte output at a byte boundary: which bytes a flush writes and what registers it leaves
(rules R141, R142, R148). -/

namespace Sys2Proof.Machine

open Sys2Proof Sys2Proof.Safety

variable {p : Config.Params} {s t u : State}

/-! ## Writing a list of bytes -/

/-- The state with a list of bytes written at a byte boundary. -/
def withBytes (s : State) : List Byte → State
  | [] => s
  | b :: bs => withBytes (withByte s b) bs

theorem withBytes_append (s : State) (bs cs : List Byte) : withBytes s (bs ++ cs) = withBytes (withBytes s bs) cs := by
  induction bs generalizing s with
  | nil => rfl
  | cons b bs ih => exact ih (withByte s b)

/-- Only the writer and STREAM change. -/
theorem withBytes_rest (s : State) (bs : List Byte) :
    withBytes s bs = { s with stream := (withBytes s bs).stream, bw := (withBytes s bs).bw } := by
  induction bs generalizing s with
  | nil => rfl
  | cons b bs ih =>
    rw [withBytes, ih (withByte s b)]
    rfl

theorem withBytes_ae (s : State) (bs : List Byte) : (withBytes s bs).ae = s.ae := by rw [withBytes_rest]

theorem withBytes_cnt (bs : List Byte) (hc : s.bw.cnt = 0) : (withBytes s bs).bw.cnt = 0 := by
  induction bs generalizing s with
  | nil => exact hc
  | cons b bs ih => exact ih rfl

theorem withBytes_ptr (bs : List Byte) (h : s.bw.ptr.toNat + bs.length < 2 ^ 32) :
    (withBytes s bs).bw.ptr.toNat = s.bw.ptr.toNat + bs.length := by
  induction bs generalizing s with
  | nil => rfl
  | cons b bs ih =>
    rw [List.length_cons] at h
    have h1 : (s.bw.ptr + 1).toNat = s.bw.ptr.toNat + 1 := by bv_omega
    rw [withBytes, ih (by simp only [withByte, h1]; omega)]
    simp only [withByte, h1, List.length_cons]
    omega

theorem withBytes_outside (bs : List Byte) (h : s.bw.ptr.toNat + bs.length < 2 ^ 32) {a : Nat}
    (ha : a < s.bw.ptr.toNat ∨ s.bw.ptr.toNat + bs.length ≤ a) :
    cellsRead (withBytes s bs).stream a = cellsRead s.stream a := by
  induction bs generalizing s with
  | nil => rfl
  | cons b bs ih =>
    rw [List.length_cons] at h ha
    have h1 : (s.bw.ptr + 1).toNat = s.bw.ptr.toNat + 1 := by bv_omega
    rw [withBytes, ih (by simp only [withByte, h1]; omega) (by simp only [withByte, h1]; omega)]
    exact cellsRead_write_other _ _ (by omega)

/-- The bytes stand where the writer was. -/
theorem withBytes_read (bs : List Byte) (h : s.bw.ptr.toNat + bs.length < 2 ^ 32) :
    cellsReadRange (withBytes s bs).stream s.bw.ptr.toNat bs.length = some bs := by
  rw [cellsReadRange_eq_some]
  induction bs generalizing s with
  | nil => exact ⟨rfl, fun i hi => by simp at hi⟩
  | cons b bs ih =>
    rw [List.length_cons] at h
    have h1 : (s.bw.ptr + 1).toNat = s.bw.ptr.toNat + 1 := by bv_omega
    refine ⟨rfl, fun i hi => ?_⟩
    rcases i with _ | i
    · rw [withBytes, withBytes_outside (s := withByte s b) bs (by simp only [withByte, h1]; omega)
        (by simp only [withByte, h1]; omega)]
      exact cellsRead_write_same _ _ _
    · have h2 := (ih (s := withByte s b) (by simp only [withByte, h1]; omega)).2 i (by simpa using hi)
      rw [withBytes, List.getElem?_cons_succ, ← h2]
      simp only [withByte, h1, Nat.add_assoc, Nat.add_comm 1]

theorem withBytes_setAe (s : State) (bs : List Byte) (e : Encoder) :
    withBytes { s with ae := e } bs = { withBytes s bs with ae := e } := by
  induction bs generalizing s with
  | nil => rfl
  | cons b bs ih => exact ih (withByte s b)

/-! ## Moving bytes out -/

/-- The run loop writes `k` fill bytes and counts the run down by `k`. -/
theorem drainRun_run (fill : Byte) (k : Nat) (hc : s.bw.cnt = 0) (hp : p.streamBytes ≤ 2 ^ 32 - 1)
    (h : s.bw.ptr.toNat + k ≤ p.streamBytes) :
    drainRun p fill k s = .ok ()
      { withBytes s (List.replicate k fill) with ae := { s.ae with run := s.ae.run - BitVec.ofNat 32 k } } := by
  induction k generalizing s with
  | zero => simp [drainRun, withBytes]
  | succ k ih =>
    have h1 : (s.bw.ptr + 1).toNat = s.bw.ptr.toNat + 1 := by bv_omega
    rw [drainRun, cmd_bind_of_ok (putByte_aligned fill hc (by omega)), cmd_bind_of_ok (cmd_modify _ _)]
    rw [ih rfl (by simp only [withByte, h1]; omega)]
    rw [List.replicate_succ, withBytes, withBytes_setAe]
    rw [show (k + 1) = 1 + k by omega, BitVec.ofNat_add, ← BitVec.sub_sub]
    rfl

/-- The bytes `ae_write_out` sends to the writer for a lead byte (rule R142). -/
def emitted (e : Encoder) (lead : Nat) : List Byte :=
  if lead = 0xFF ∨ e.run.toNat = 0 then []
  else BitVec.ofNat 8 (e.buf.toNat + lead / 256) ::
    List.replicate (e.run.toNat - 1) (BitVec.ofNat 8 (0xFF + lead / 256))

/-- The registers `ae_write_out` leaves for a lead byte (rule R142). -/
def placed (e : Encoder) (lead : Nat) : Encoder :=
  if lead = 0xFF then { e with run := e.run + 1 } else { e with run := 1, buf := BitVec.ofNat 8 lead }

theorem emitted_length (e : Encoder) (lead : Nat) :
    (emitted e lead).length = if lead = 0xFF then 0 else e.run.toNat := by
  unfold emitted
  by_cases h : lead = 0xFF
  · simp [h]
  · by_cases h0 : e.run.toNat = 0
    · simp [h0]
    · rw [if_neg (by simp [h, h0]), if_neg h, List.length_cons, List.length_replicate]
      omega

theorem placeLead_run (lead : Nat) (hc : s.bw.cnt = 0) (hp : p.streamBytes ≤ 2 ^ 32 - 1)
    (room : s.bw.ptr.toNat + s.ae.run.toNat ≤ p.streamBytes) :
    placeLead p lead s = .ok () { withBytes s (emitted s.ae lead) with ae := placed s.ae lead } := by
  unfold placeLead
  by_cases h : lead = 0xFF
  · rw [if_pos h, emitted, if_pos (Or.inl h), placed, if_pos h]
    rfl
  · rw [if_neg h]
    by_cases h0 : s.ae.run.toNat = 0
    · rw [if_neg (by omega), emitted, if_pos (Or.inr h0), placed, if_neg h]
      rfl
    · have h1 : (s.bw.ptr + 1).toNat = s.bw.ptr.toNat + 1 := by bv_omega
      rw [if_pos (by omega), cmd_bind_of_ok (putByte_aligned _ hc (by omega)), cmd_bind_of_ok (cmd_modify _ _)]
      rw [drainRun_run _ _ rfl hp (by simp only [withByte, h1, drainTurns]; omega), emitted, if_neg (by simp [h, h0]),
        withBytes, withBytes_setAe, placed, if_neg h]
      have hrun : s.ae.run - BitVec.ofNat 32 (drainTurns s.ae.run) = 1 := by
        apply BitVec.eq_of_toNat_eq
        have : s.ae.run.toNat < 2 ^ 32 := s.ae.run.isLt
        rw [drainTurns, BitVec.toNat_sub, BitVec.toNat_ofNat]
        simp
        omega
      rw [← hrun]
      rfl

/-- The bytes a flush writes. -/
def flushBytes (e : Encoder) : List Byte :=
  if debtOf e < Config.flushT then emitted (dropLead e) (leadOf e) else []

/-- The registers a flush leaves. -/
def flushRegs (e : Encoder) : Encoder :=
  if debtOf e < Config.flushT then placed (dropLead e) (leadOf e) else e

/-- `ae_flush()` at a byte boundary with room for the bytes held back. -/
theorem aeFlush_run (hc : s.bw.cnt = 0) (hp : p.streamBytes ≤ 2 ^ 32 - 1)
    (room : s.bw.ptr.toNat + s.ae.run.toNat ≤ p.streamBytes) :
    aeFlush p s = .ok () { withBytes s (flushBytes s.ae) with ae := flushRegs s.ae } := by
  unfold aeFlush flushBytes flushRegs
  by_cases h : debtOf s.ae < Config.flushT
  · rw [if_pos h, if_pos h, if_pos h, aeWriteOut]
    have := placeLead_run (p := p) (s := { s with ae := dropLead s.ae }) (leadOf s.ae) hc hp room
    rw [withBytes_setAe] at this
    exact this
  · rw [if_neg h, if_neg h, if_neg h]
    rfl

theorem flushBytes_length_le (e : Encoder) : (flushBytes e).length ≤ e.run.toNat := by
  unfold flushBytes
  split
  · rw [emitted_length]
    split
    · omega
    · exact Nat.le_refl _
  · simp

/-- A flush turns the held bytes into written ones and holds at most one more. -/
theorem flush_run_le (e : Encoder) : (flushBytes e).length + (flushRegs e).run.toNat ≤ e.run.toNat + 1 := by
  unfold flushBytes flushRegs
  by_cases h : debtOf e < Config.flushT
  · rw [if_pos h, if_pos h, emitted_length]
    unfold placed
    have : (dropLead e).run = e.run := rfl
    split
    · simp only [this]
      have := e.run.isLt
      rw [BitVec.toNat_add]
      simp
      omega
    · simp only [this]
      simp
  · rw [if_neg h, if_neg h]
    simp

end Sys2Proof.Machine
end

