-- ==== Sys2Proof/Laws/Params.lean ====
section
/-! SUPPORT. The machine's parameters, the reference tables and the exact numerics meet the obligations of rules R126 and
R216. -/

namespace Sys2Proof.Config

/-- `RANGE_Q` of a legal range is its 64-wide column (rule R132). -/
theorem rangeColumn {r : BitVec 9} (h : 256 ≤ r.toNat) :
    (r.extractLsb' 6 2).toNat = r.toNat / 64 - 4 := by
  have hr := r.isLt
  simp only [BitVec.extractLsb'_toNat, Nat.shiftRight_eq_div_pow]
  omega

theorem widthBound_room {r : BitVec 9} (h : 256 ≤ r.toNat) (w : Nat) (hw : w ≤ widthBound (r.extractLsb' 6 2)) :
    w + 128 ≤ r.toNat := by
  rw [widthBound, rangeColumn h] at hw
  omega

theorem rationalTxf_zero {n : Nat} {xs : List Int} (h : ∀ x ∈ xs, x = 0) (u v : Nat) : rationalTxf n xs u v = 0 := by
  unfold rationalTxf
  refine List.sum_eq_zero fun x hx => ?_
  obtain ⟨i, -, rfl⟩ := List.mem_map.1 hx
  have : xs.getD i 0 = 0 := by
    rw [List.getD_eq_getElem?_getD]
    cases e : xs[i]? with
    | none => rfl
    | some x => simpa using h x (List.mem_of_getElem? e)
  rw [this]
  simp

theorem rationalTxi_zero {n : Nat} {ys : List Rat} (h : ∀ y ∈ ys, y = 0) (r c : Nat) : rationalTxi n ys r c = 0 := by
  unfold rationalTxi
  refine List.sum_eq_zero fun x hx => ?_
  obtain ⟨i, -, rfl⟩ := List.mem_map.1 hx
  have : ys.getD i 0 = 0 := by
    rw [List.getD_eq_getElem?_getD]
    cases e : ys[i]? with
    | none => rfl
    | some x => simpa using h x (List.mem_of_getElem? e)
  rw [this]
  simp

theorem coef_zero {ys : List RealVal} (h : ∀ y ∈ ys, y = .zero) : ∀ y ∈ ys.map RealVal.coef, y = 0 := by
  intro y hy
  obtain ⟨x, hx, rfl⟩ := List.mem_map.1 hy
  rw [h x hx]
  rfl

theorem allRational_zero {ys : List RealVal} (h : ∀ y ∈ ys, y = .zero) : allRational ys = true :=
  List.all_eq_true.2 fun y hy => by rw [h y hy]; rfl

theorem getD_of_all {P : Int → Prop} {xs : List Int} (h0 : P 0) (h : ∀ x ∈ xs, P x) (i : Nat) : P (xs.getD i 0) := by
  rw [List.getD_eq_getElem?_getD]
  cases e : xs[i]? with
  | none => exact h0
  | some x => exact h x (List.mem_of_getElem? e)

/-- Rule R252: a coefficient of a residual is at most `255 N`. -/
theorem txfReal_residual (a b : Basis) {n u v : Nat} (hu : u < n) (hv : v < n) {xs : List Int}
    (hx : ∀ x ∈ xs, x.natAbs ≤ 255) : |txfReal a b n (xs.map fun x : Int => (x : ℝ)) u v| ≤ 255 * n := by
  refine txfReal_bound a b hu hv fun i => ?_
  have h := Machine.getD_map (fun x : Int => (x : ℝ)) xs i 0
  rw [Int.cast_zero] at h
  rw [h]
  have := getD_of_all (P := fun x => x.natAbs ≤ 255) (by decide) hx i
  rw [← Int.cast_abs]
  exact_mod_cast (by rw [Int.abs_eq_natAbs]; exact_mod_cast this : |xs.getD i 0| ≤ 255)

/-- Rule R252: the index of a coefficient of a residual fits `QIDX`. -/
theorem quantReal_range {y : ℝ} (hy : |y| ≤ 255 * 64) (qp : Nat) : (quantReal y (stepReal qp)).natAbs ≤ 2 ^ 31 - 1 := by
  have hs : 1 ≤ stepReal qp := Real.one_le_rpow (by norm_num) (by positivity)
  have hq : |y| / stepReal qp ≤ 255 * 64 := (div_le_self (abs_nonneg y) hs).trans hy
  have h0 : 0 ≤ ⌊|y| / stepReal qp + 2 / 5⌋ := Int.floor_nonneg.2 (by positivity)
  have h1 : ⌊|y| / stepReal qp + 2 / 5⌋ ≤ 16321 := by
    have : ⌊|y| / stepReal qp + 2 / 5⌋ < 16322 := Int.floor_lt.2 (by push_cast; linarith)
    omega
  unfold quantReal
  rw [Int.natAbs_mul]
  have : ((SignType.sign y : Int)).natAbs ≤ 1 := by
    rcases lt_trichotomy y 0 with h | h | h
    · simp [sign_neg h]
    · simp [h]
    · simp [sign_pos h]
  calc _ ≤ 1 * (⌊|y| / stepReal qp + 2 / 5⌋).natAbs := Nat.mul_le_mul_right _ this
    _ ≤ _ := by omega

/-- The machine's numerics meet every obligation, whatever the transforms are. -/
theorem num_guarded_ok (raw : Num) : raw.guarded.Ok where
  txf_zero a b size xs u v h := by
    simp only [Num.guarded]
    split
    · rw [rationalTxf_zero h]; rfl
    · rw [if_pos (by simpa using h)]
  txi_zero a b size ys r c h := by
    simp only [Num.guarded]
    split
    · rw [rationalTxi_zero (coef_zero h)]; rfl
    · rw [if_pos (by simpa using h)]
  quant_zero st := by
    have h : Machine.floorAbs qBias.den (Machine.divStep .zero st) = 0 := by
      rw [Machine.floorAbs_spec]
      have : (Machine.divStep .zero st).coef = 0 := by simp [Machine.divStep, RealVal.zero]
      simp [Machine.part, this]
    simp only [Num.guarded, Machine.quantize, h]
    decide +kernel
  deq_zero st := by simp [Num.guarded, Machine.dequantize]
  round_zero := show Machine.roundHalfEven .zero = 0 by decide +kernel
  step_exact k := by simp [Num.guarded, Machine.stepOf, Machine.scaled, RealVal.ofRat]
  txf_exact a b size xs u v h := by simp only [Num.guarded, if_pos h]
  txi_exact a b size ys r c h hy := by simp only [Num.guarded, h, hy, Bool.and_self, if_true]
  txf_bound a b size xs u v hu hv hx := by
    simp only [Num.guarded]
    split
    · rename_i h
      rw [Machine.val_ofRat, ← Machine.txfReal_rational h]
      exact txfReal_residual a b hu hv hx
    · split
      · simp
      · split
        · simp
        · rename_i h
          have hall : xs.all (fun x => x.natAbs ≤ 255) = true := by simpa using hx
          have := (Machine.atMost_iff (255 * size) (raw.txf a b size xs u v)).1 (by simpa [hu, hv, hall] using h)
          push_cast at this
          exact this
  quant_range qp y hq hy := by
    simp only [Num.guarded]
    rw [Machine.quantize_eq y hq]
    exact quantReal_range hy qp

/-- Transforms that meet `Num.Ok` are not changed by the guard: those of every lawful instance are the machine's for some
value of the open constant. -/
theorem num_guarded_of_ok {raw : Num} (h : raw.Ok) : raw.guarded.txf = raw.txf ∧ raw.guarded.txi = raw.txi := by
  refine ⟨?_, ?_⟩
  · funext a b n xs u v
    simp only [Num.guarded]
    split
    · rename_i hr
      exact (h.txf_exact a b n xs u v hr).symm
    · split
      · rename_i hx
        exact (h.txf_zero a b n xs u v (by simpa using hx)).symm
      · split
        · rename_i hb
          simp only [Bool.and_eq_true, decide_eq_true_eq, List.all_eq_true, Bool.not_eq_true'] at hb
          obtain ⟨⟨⟨hu, hv⟩, hx⟩, hm⟩ := hb
          have := h.txf_bound a b n xs u v hu hv hx
          rw [(Machine.atMost_iff _ _).2 (by push_cast; exact this)] at hm
          cases hm
        · rfl
  · funext a b n ys r c
    simp only [Num.guarded]
    split
    · rename_i hr
      rw [Bool.and_eq_true] at hr
      exact (h.txi_exact a b n ys r c hr.1 hr.2).symm
    · split
      · rename_i hy
        exact (h.txi_zero a b n ys r c (by simpa using hy)).symm
      · rfl

/-- The machine's parameters meet every obligation, whatever the open constants are. -/
theorem params_ok : params.Ok where
  stream_pos := by simp [params]
  stream_le := by simp [params]
  width_ge s q := by
    simp only [params, BitVec.toNat_ofNat, widthBound]
    omega
  width_room s r h1 h2 := by
    apply widthBound_room h1
    have : (BitVec.extractLsb' 6 2 r).toNat < 4 := (BitVec.extractLsb' 6 2 r).isLt
    simp only [params, BitVec.toNat_ofNat, widthBound]
    omega
  mps_monotone s := by
    simp only [params]
    split
    · assumption
    · exact le_refl _
  num_ok := num_guarded_ok rawNum

/-- The reference parameters of file 41 with a STREAM of `bytes` bytes, unit costs, and any numerics. -/
def refParams (bytes : Nat) (num : Num) : Params where
  streamBytes := bytes
  lpsWidth := refLpsWidth
  nextMps := refNextMps
  nextLps := refNextLps
  lpsFlip := .after
  estBits _ _ := 1
  estBypass := 1
  num := num

/-- Rule R128: the reference widths lie in rule R126 (a)'s bounds. -/
theorem refLpsWidth_bounds : ∀ s q, 2 ≤ (refLpsWidth s q).toNat ∧ (refLpsWidth s q).toNat ≤ widthBound q := by
  decide +kernel

theorem refNextMps_monotone : ∀ s, s.toNat ≤ (refNextMps s).toNat := by decide +kernel

/-- The reference instances meet rule R126. -/
theorem refParams_ok {bytes : Nat} {num : Num} (h1 : 1 ≤ bytes) (h2 : bytes ≤ 2 ^ 32 - 1) (hn : num.Ok) :
    (refParams bytes num).Ok where
  stream_pos := h1
  stream_le := h2
  width_ge s q := (refLpsWidth_bounds s q).1
  width_room s _ hr _ := widthBound_room hr _ (refLpsWidth_bounds s _).2
  mps_monotone := refNextMps_monotone
  num_ok := hn

/-! ## The reference numerics -/

theorem sumVal_txf (a b : Basis) (n : Nat) (xs : List Int) (u v : Nat) :
    sumVal ((List.range (n * n)).map fun i => ⟨xs.getD i 0, 0, [⟨a, n, u, i / n⟩, ⟨b, n, v, i % n⟩]⟩) =
      txfReal a b n (xs.map fun x : Int => (x : ℝ)) u v := by
  unfold sumVal txfReal
  rw [List.map_map]
  congr 1
  refine List.map_congr_left fun i _ => ?_
  have h := Machine.getD_map (fun x : Int => (x : ℝ)) xs i 0
  rw [Int.cast_zero] at h
  rw [h]
  simp [Monomial.val]
  ring

theorem sumVal_txi (a b : Basis) (n : Nat) (ys : List RealVal) (r c : Nat) :
    sumVal ((List.range (n * n)).flatMap fun i => (ys.getD i .zero).monomials.map fun m =>
      { m with factors := ⟨a, n, i / n, r⟩ :: ⟨b, n, i % n, c⟩ :: m.factors }) =
      txiReal a b n (ys.map RealVal.val) r c := by
  rw [Machine.sumVal_flatMap]
  unfold txiReal
  congr 1
  refine List.map_congr_left fun i _ => ?_
  have h := Machine.getD_map RealVal.val ys i .zero
  rw [Machine.val_zero] at h
  rw [h, Machine.sumVal_scale (a.entry n (i / n) r * b.entry n (i % n) c) _ fun m => by simp [Monomial.val]; ring]
  rfl

/-- Rule R213: the reference `txf` is the exact product. -/
theorem val_exact_txf (a b : Basis) (n : Nat) (xs : List Int) (u v : Nat) :
    (exactNum.txf a b n xs u v).val = txfReal a b n (xs.map fun x : Int => (x : ℝ)) u v := by
  simp only [exactNum]
  rw [Machine.val_ofMonomials, sumVal_txf]

/-- Rule R214: the reference `txi` is the exact product. -/
theorem val_exact_txi (a b : Basis) (n : Nat) (ys : List RealVal) (r c : Nat) :
    (exactNum.txi a b n ys r c).val = txiReal a b n (ys.map RealVal.val) r c := by
  simp only [exactNum]
  rw [Machine.val_ofMonomials, sumVal_txi]

theorem sumVal_step (qp : Nat) : sumVal [⟨2 ^ (qp / 4), qp % 4, []⟩] = stepReal qp := by
  simp only [Machine.sumVal_cons, Machine.sumVal_nil, Monomial.val, stepReal, List.map_nil, List.prod_nil]
  push_cast
  rw [mul_one, add_zero, ← Real.rpow_natCast, ← Real.rpow_add (by norm_num)]
  congr 1
  have h : (qp : ℝ) = 4 * ((qp / 4 : Nat) : ℝ) + ((qp % 4 : Nat) : ℝ) := by
    exact_mod_cast (Nat.div_add_mod qp 4).symm
  linarith

/-- Rule R251: the reference step is `2^(qp/4)`. -/
theorem val_exact_step (qp : Nat) : (exactNum.step qp).val = stepReal qp := by
  simp only [exactNum]
  rw [Machine.val_ofMonomials, sumVal_step]

theorem sumVal_deq (q : Int) (st : RealVal) :
    sumVal (st.monomials.map fun m => { m with coef := q * m.coef }) = q * st.val := by
  rw [Machine.sumVal_scale (q : ℝ) _ fun m => by simp [Monomial.val]; ring]
  rfl

/-- Rule R253: the reference dequantizer is the product. -/
theorem val_exact_deq (q : Int) (st : RealVal) : (exactNum.deq q st).val = q * st.val := by
  simp only [exactNum]
  rw [Machine.val_ofMonomials, sumVal_deq]

/-- The exact-real numerics meet what is asked of every instance. -/
theorem exactNum_ok : exactNum.Ok where
  txf_zero a b size xs u v h := by
    refine Machine.ofMonomials_rat (c := 0) ?_
    rw [sumVal_txf, Rat.cast_zero]
    refine List.sum_eq_zero fun x hx => ?_
    obtain ⟨i, -, rfl⟩ := List.mem_map.1 hx
    have hz := Machine.getD_map (fun x : Int => (x : ℝ)) xs i 0
    rw [Int.cast_zero] at hz
    rw [hz, getD_of_all (P := (· = 0)) rfl h i]
    simp
  txi_zero a b size ys r c h := by
    refine Machine.ofMonomials_rat (c := 0) ?_
    rw [sumVal_txi, Rat.cast_zero]
    refine List.sum_eq_zero fun x hx => ?_
    obtain ⟨i, -, rfl⟩ := List.mem_map.1 hx
    have hz := Machine.getD_map RealVal.val ys i .zero
    rw [Machine.val_zero] at hz
    rw [hz, List.getD_eq_getElem?_getD]
    cases e : ys[i]? with
    | none => simp
    | some y => simp [h y (List.mem_of_getElem? e)]
  quant_zero st := by simp [exactNum, quantReal]
  deq_zero st := Machine.ofMonomials_rat (c := 0) (by rw [sumVal_deq]; simp)
  round_zero := by simp [exactNum, roundReal]
  step_exact k := Machine.ofMonomials_rat (by
    rw [sumVal_step, stepReal]
    push_cast
    rw [mul_div_cancel_left₀ _ (by norm_num), Real.rpow_natCast])
  txf_exact a b size xs u v h := Machine.ofMonomials_rat (by rw [sumVal_txf, Machine.txfReal_rational h])
  txi_exact a b size ys r c h hy := Machine.ofMonomials_rat (by rw [sumVal_txi, Machine.txiReal_rational h hy])
  txf_bound a b size xs u v hu hv hx := by rw [val_exact_txf]; exact txfReal_residual a b hu hv hx
  quant_range qp y _ hy := by
    simp only [exactNum.eq_1]
    exact val_exact_step qp ▸ quantReal_range hy qp

end Sys2Proof.Config
end

