-- ==== Sys2Proof/Laws/EncoderInterval.lean ====
section
/-! SUPPORT. The encoder's interval: a flush keeps the exact code value and restores the invariant of rule R21, and each
bin takes its part of the interval (rules R142, R143, R145, R149). -/

namespace Sys2Proof.Machine

open Sys2Proof Sys2Proof.Safety

variable {p : Config.Params} {s t u : State} {e : Encoder}

/-! ## Numbers from bytes -/

/-- Bytes appended to a number, the first byte most significant. -/
def beFold (v : Nat) (bs : List Byte) : Nat := bs.foldl (fun v b => 256 * v + b.toNat) v

theorem beValue_append (as bs : List Byte) : beValue (as ++ bs) = beFold (beValue as) bs := by
  simp [beValue, beFold, List.foldl_append]

theorem beFold_cons (v : Nat) (b : Byte) (bs : List Byte) : beFold v (b :: bs) = beFold (256 * v + b.toNat) bs := rfl

theorem beFold_append (v : Nat) (as bs : List Byte) : beFold v (as ++ bs) = beFold (beFold v as) bs :=
  List.foldl_append

theorem beFold_ones (v k : Nat) : beFold v (List.replicate k (BitVec.ofNat 8 0xFF)) + 1 = (v + 1) * 256 ^ k := by
  induction k generalizing v with
  | zero => simp [beFold]
  | succ k ih =>
    rw [List.replicate_succ, beFold_cons, ih, show (BitVec.ofNat 8 0xFF).toNat = 255 from rfl, pow_succ]
    ring

theorem beFold_zeros (v k : Nat) : beFold v (List.replicate k (BitVec.ofNat 8 0x100)) = v * 256 ^ k := by
  induction k generalizing v with
  | zero => simp [beFold]
  | succ k ih =>
    rw [List.replicate_succ, beFold_cons, ih, show (BitVec.ofNat 8 0x100).toNat = 0 from rfl, pow_succ]
    ring

theorem heldBytes_zero (h : e.run.toNat = 0) : heldBytes e = [] := if_pos h

theorem heldBytes_pos (h : e.run.toNat ≠ 0) :
    heldBytes e = e.buf :: List.replicate (e.run.toNat - 1) (BitVec.ofNat 8 0xFF) := if_neg h

/-- Placing a lead byte appends it, carry and all, to the bytes written and held. -/
theorem emitted_value (lead : Nat) (hl : lead ≤ 511) (hcarry : 256 ≤ lead → e.buf ≠ 0xFF)
    (first : e.run.toNat = 0 → e.buf = 0xFF) (hrun : e.run.toNat + 1 < 2 ^ 32) (v : Nat) :
    beFold v (emitted e lead ++ heldBytes (placed e lead)) = 256 * beFold v (heldBytes e) + lead := by
  have hrun1 : (e.run + 1).toNat = e.run.toNat + 1 := by bv_omega
  by_cases h : lead = 0xFF
  · rw [emitted, if_pos (Or.inl h), placed, if_pos h, List.nil_append, heldBytes_pos (by simp only [hrun1]; omega)]
    simp only [hrun1]
    by_cases h0 : e.run.toNat = 0
    · rw [heldBytes_zero h0, h0, first h0, h]
      simp [beFold]
    · rw [heldBytes_pos h0, show e.run.toNat + 1 - 1 = e.run.toNat - 1 + 1 by omega, List.replicate_succ',
        ← List.cons_append, beFold_append, h]
      rfl
  · have hnew : (placed e lead).run.toNat = 1 := by
      rw [placed, if_neg h]
      rfl
    have hheld : heldBytes (placed e lead) = [BitVec.ofNat 8 lead] := by
      rw [heldBytes_pos (by omega), hnew]
      rw [placed, if_neg h]
      rfl
    rw [hheld]
    by_cases h0 : e.run.toNat = 0
    · have : lead < 256 := by
        by_contra hge
        exact hcarry (by omega) (first h0)
      rw [emitted, if_pos (Or.inr h0), List.nil_append, heldBytes_zero h0, beFold_cons]
      simp only [beFold, List.foldl_nil, BitVec.toNat_ofNat]
      omega
    · rw [emitted, if_neg (by simp [h, h0]), heldBytes_pos h0, beFold_append, beFold_cons, beFold_cons, beFold_cons]
      rcases Nat.lt_or_ge lead 256 with hlt | hge
      · rw [show lead / 256 = 0 by omega, Nat.add_zero, Nat.add_zero, BitVec.ofNat_toNat, BitVec.setWidth_eq]
        simp only [beFold, List.foldl_nil, BitVec.toNat_ofNat]
        omega
      · have hb : e.buf.toNat ≠ 255 := fun hb => hcarry hge (BitVec.eq_of_toNat_eq hb)
        have hb' := e.buf.isLt
        rw [show lead / 256 = 1 by omega, show 0xFF + 1 = 0x100 from rfl, beFold_zeros, BitVec.toNat_ofNat,
          Nat.mod_eq_of_lt (show e.buf.toNat + 1 < 2 ^ 8 by omega)]
        have h1 := beFold_ones (256 * v + e.buf.toNat) (e.run.toNat - 1)
        simp only [beFold, List.foldl_nil, BitVec.toNat_ofNat] at h1 ⊢
        rw [show 256 * v + (e.buf.toNat + 1) = 256 * v + e.buf.toNat + 1 by omega, ← h1]
        omega

/-! ## A flush -/

/-- The encoder between a bin's shift and its flush. -/
structure Unflushed (e : Encoder) : Prop where
  rng_ge : 256 ≤ e.rng.toNat
  rng_le : e.rng.toNat ≤ 510
  debt_ge : 4 ≤ debtOf e
  debt_le : debtOf e ≤ 23
  low_room : e.low.toNat + e.rng.toNat ≤ 2 ^ (10 + accOf e)
  carry_free : e.buf = 0xFF → e.low.toNat + e.rng.toNat ≤ 2 ^ (9 + accOf e)

theorem debt_toNat (h : 0 ≤ debtOf e) : (e.debt.toNat : Int) = debtOf e ∧ e.debt.toNat < 128 := by
  have h1 := e.debt.isLt
  have h2 := BitVec.toInt_eq_toNat_cond e.debt
  unfold debtOf at *
  split at h2 <;> omega

theorem debtOf_ofNat (low : Word) (rng : BitVec 9) (buf : Byte) (run : Word) {d : Nat} (h : d < 128) :
    debtOf ⟨low, rng, buf, run, BitVec.ofNat 8 d⟩ = d := by
  simp only [debtOf]
  rw [BitVec.toInt_eq_toNat_of_lt] <;> simp <;> omega

theorem mask_toNat (x : Word) {k : Nat} (h : k ≤ 32) : (x &&& (0xFFFFFFFF#32 >>> k)).toNat = x.toNat % 2 ^ (32 - k) := by
  rw [BitVec.toNat_and, BitVec.toNat_ushiftRight, Nat.shiftRight_eq_div_pow]
  rw [show (0xFFFFFFFF#32).toNat = 2 ^ 32 - 1 from rfl]
  rw [show (2 ^ 32 - 1) / 2 ^ k = 2 ^ (32 - k) - 1 from ?_, Nat.and_two_pow_sub_one_eq_mod]
  have hk : 2 ^ 32 = 2 ^ (32 - k) * 2 ^ k := by rw [← pow_add]; congr 1; omega
  have h1 : 0 < 2 ^ k := by positivity
  have h2 : 0 < 2 ^ (32 - k) := by positivity
  rw [hk]
  apply Nat.div_eq_of_lt_le
  · rw [Nat.sub_mul]
    omega
  · rw [Nat.sub_add_cancel h2]
    have : 0 < 2 ^ (32 - k) * 2 ^ k := Nat.mul_pos h2 h1
    omega

/-- The numbers of a flush that writes out: the lead byte is the top of `AE_LOW`, and the rest stays. -/
theorem flush_numbers (h : Unflushed e) (hf : debtOf e < 12) :
    (dropLead e).low.toNat = e.low.toNat % 2 ^ (1 + accOf e) ∧ leadOf e = e.low.toNat / 2 ^ (1 + accOf e) ∧
      leadOf e ≤ 511 ∧ (256 ≤ leadOf e → e.buf ≠ 0xFF) ∧ debtOf (dropLead e) = debtOf e + 8 ∧
      accOf e = accOf (dropLead e) + 8 ∧ 2 ^ 13 ≤ 2 ^ (1 + accOf e) := by
  obtain ⟨hd, hd128⟩ := debt_toNat (e := e) (by have := h.debt_ge; omega)
  have hge := h.debt_ge
  have hrg := h.rng_ge
  generalize hD : e.debt.toNat = d at *
  have hacc : accOf e = 23 - d := by unfold accOf; omega
  have hlead : leadOf e = e.low.toNat / 2 ^ (1 + accOf e) := by
    unfold leadOf
    congr 2
    omega
  have hdebt : e.debt + 8 = BitVec.ofNat 8 (d + 8) := by
    apply BitVec.eq_of_toNat_eq
    rw [BitVec.toNat_add, hD, BitVec.toNat_ofNat]
    rfl
  have hint : (BitVec.ofNat 8 (d + 8)).toInt = (d + 8 : Nat) := by
    rw [BitVec.toInt_eq_toNat_of_lt] <;> simp <;> omega
  have hlow : (dropLead e).low.toNat = e.low.toNat % 2 ^ (1 + accOf e) := by
    simp only [dropLead, hdebt, hint, Int.toNat_natCast]
    rw [mask_toNat _ (by omega), show 32 - (d + 8) = 1 + accOf e by omega]
  have hdl : debtOf (dropLead e) = debtOf e + 8 := by
    simp only [debtOf, dropLead, hdebt, hint]
    unfold debtOf at hd
    omega
  have hroom := h.low_room
  have hcf := h.carry_free
  have hP : 2 ^ 13 ≤ 2 ^ (1 + accOf e) := Nat.pow_le_pow_right (by omega) (by omega)
  rw [show 10 + accOf e = 9 + (1 + accOf e) by omega, pow_add] at hroom
  rw [show 9 + accOf e = 8 + (1 + accOf e) by omega, pow_add] at hcf
  refine ⟨hlow, hlead, ?_, ?_, hdl, by unfold accOf at *; omega, hP⟩
  · rw [hlead, Nat.div_le_iff_le_mul_add_pred (by positivity)]
    omega
  · intro h256 hb
    have h1 := hcf hb
    rw [hlead] at h256
    have h2 : 2 ^ (1 + accOf e) * 256 ≤ 2 ^ (1 + accOf e) * (e.low.toNat / 2 ^ (1 + accOf e)) :=
      Nat.mul_le_mul_left _ h256
    have h3 := Nat.div_add_mod e.low.toNat (2 ^ (1 + accOf e))
    omega

theorem placed_fields (e : Encoder) (lead : Nat) :
    (placed e lead).low = e.low ∧ (placed e lead).rng = e.rng ∧ (placed e lead).debt = e.debt := by
  unfold placed
  split <;> exact ⟨rfl, rfl, rfl⟩

/-- A flush restores the invariant of rule R21. -/
theorem flush_inv (h : Unflushed e) : EncoderInv (flushRegs e) ∧ (flushRegs e).rng = e.rng := by
  have hge := h.debt_ge
  have hle := h.debt_le
  have hrg := h.rng_ge
  have hrl := h.rng_le
  unfold flushRegs
  by_cases hf : debtOf e < Config.flushT
  · obtain ⟨hlow, hlead, hl511, hcarry, hdebt, hacc, hP⟩ := flush_numbers h hf
    obtain ⟨f1, f2, f3⟩ := placed_fields (dropLead e) (leadOf e)
    have hf' : debtOf e < 12 := hf
    have hdebt' : debtOf (placed (dropLead e) (leadOf e)) = debtOf e + 8 := by
      rw [← hdebt, debtOf, debtOf, f3]
    have hacc' : accOf (placed (dropLead e) (leadOf e)) = accOf (dropLead e) := by
      rw [accOf, accOf, hdebt', hdebt]
    have hdiv := Nat.div_add_mod e.low.toNat (2 ^ (1 + accOf e))
    have hmod := Nat.mod_lt e.low.toNat (show 0 < 2 ^ (1 + accOf e) by positivity)
    have hroom := h.low_room
    have hcf := h.carry_free
    rw [show 10 + accOf e = 9 + (1 + accOf e) by omega, pow_add] at hroom
    rw [show 9 + accOf e = 8 + (1 + accOf e) by omega, pow_add] at hcf
    rw [if_pos hf]
    refine ⟨⟨by rw [f2]; exact hrg, by rw [f2]; exact hrl, by omega, by omega, ?_, ?_⟩, f2⟩
    · rw [f1, f2, hacc', hlow, show 10 + accOf (dropLead e) = 1 + (1 + accOf e) by omega,
        show 2 ^ (1 + (1 + accOf e)) = 2 * 2 ^ (1 + accOf e) by rw [pow_add 2 1 (1 + accOf e)]; rfl]
      change _ + e.rng.toNat ≤ _
      omega
    · intro hb
      rw [f1, f2, hacc', hlow, show 9 + accOf (dropLead e) = 1 + accOf e by omega]
      change _ + e.rng.toNat ≤ _
      by_cases hl : leadOf e = 0xFF
      · have hb' : e.buf = 0xFF := by
          rw [placed, if_pos hl] at hb
          exact hb
        have h1 := hcf hb'
        rw [← hlead, hl] at hdiv
        generalize e.low.toNat % 2 ^ (1 + accOf e) = rest at *
        omega
      · rw [placed, if_neg hl] at hb
        have h1 := congrArg BitVec.toNat hb
        simp only [BitVec.toNat_ofNat] at h1
        have h511 : leadOf e = 511 := by
          have : (0xFF : Byte).toNat = 255 := rfl
          omega
        rw [← hlead, h511] at hdiv
        generalize e.low.toNat % 2 ^ (1 + accOf e) = rest at *
        omega
  · have hf' : ¬debtOf e < 12 := hf
    rw [if_neg hf]
    exact ⟨⟨hrg, hrl, by omega, hle, h.low_room, h.carry_free⟩, rfl⟩

/-- A flush keeps the code value, whatever the bytes before. -/
theorem flush_value (h : Unflushed e) (first : e.run.toNat = 0 → e.buf = 0xFF) (hrun : e.run.toNat + 1 < 2 ^ 32) :
    ((flushRegs e).run.toNat = 0 → (flushRegs e).buf = 0xFF) ∧
      ∀ v, beFold v (flushBytes e ++ heldBytes (flushRegs e)) * 2 ^ (9 + accOf (flushRegs e)) +
          (flushRegs e).low.toNat =
        beFold v (heldBytes e) * 2 ^ (9 + accOf e) + e.low.toNat := by
  unfold flushRegs flushBytes
  by_cases hf : debtOf e < Config.flushT
  · obtain ⟨hlow, hlead, hl511, hcarry, hdebt, hacc, hP⟩ := flush_numbers h hf
    obtain ⟨f1, f2, f3⟩ := placed_fields (dropLead e) (leadOf e)
    have hacc' : accOf (placed (dropLead e) (leadOf e)) = accOf (dropLead e) := by
      rw [accOf, accOf, debtOf, debtOf, f3]
    have hrun' : (dropLead e).run = e.run := rfl
    have hbuf' : (dropLead e).buf = e.buf := rfl
    have hdiv := Nat.div_add_mod e.low.toNat (2 ^ (1 + accOf e))
    rw [if_pos hf, if_pos hf]
    refine ⟨?_, fun v => ?_⟩
    · intro h0
      unfold placed at h0
      split at h0
      · simp only [hrun'] at h0
        rw [show (e.run + 1).toNat = e.run.toNat + 1 by bv_omega] at h0
        omega
      · simp at h0
    · rw [emitted_value _ hl511 (by rw [hbuf']; exact hcarry) (by rw [hrun', hbuf']; exact first)
        (by rw [hrun']; exact hrun), f1, hacc', hlow, show 9 + accOf (dropLead e) = 1 + accOf e by omega,
        show 9 + accOf e = 8 + (1 + accOf e) by omega, pow_add 2 8, Nat.add_mul]
      rw [show heldBytes (dropLead e) = heldBytes e from rfl]
      rw [← hlead] at hdiv
      rw [show 256 * beFold v (heldBytes e) * 2 ^ (1 + accOf e) =
        beFold v (heldBytes e) * (2 ^ 8 * 2 ^ (1 + accOf e)) by ring, Nat.mul_comm (leadOf e)]
      omega
  · rw [if_neg hf, if_neg hf]
    exact ⟨first, fun v => rfl⟩

/-! ## Taking a part of the interval -/

/-- `e'` holds the part of `e`'s interval, shifted by `n`, that starts `off` above its low end. -/
structure Narrowed (e e' : Encoder) (n off : Nat) : Prop where
  shift_le : n ≤ 8
  low : e'.low.toNat = e.low.toNat * 2 ^ n + off
  debt : debtOf e' = debtOf e - n
  inside : off + e'.rng.toNat ≤ e.rng.toNat * 2 ^ n
  rng_ge : 256 ≤ e'.rng.toNat
  rng_le : e'.rng.toNat ≤ 510
  buf : e'.buf = e.buf
  run : e'.run = e.run

theorem Narrowed.acc {e e' : Encoder} {n off : Nat} (h : Narrowed e e' n off) (hi : EncoderInv e) :
    accOf e' = accOf e + n := by
  have := h.debt
  have := h.shift_le
  have := hi.debt_ge
  have := hi.debt_le
  unfold accOf
  omega

theorem Narrowed.unflushed {e e' : Encoder} {n off : Nat} (h : Narrowed e e' n off) (hi : EncoderInv e) :
    Unflushed e' := by
  have h1 := h.debt
  have h2 := h.shift_le
  have h3 := hi.debt_ge
  have h4 := hi.debt_le
  have h5 := h.inside
  have key : e'.low.toNat + e'.rng.toNat ≤ (e.low.toNat + e.rng.toNat) * 2 ^ n := by
    rw [h.low, Nat.add_mul]
    omega
  refine ⟨h.rng_ge, h.rng_le, by omega, by omega, ?_, ?_⟩
  · rw [h.acc hi, ← Nat.add_assoc, pow_add]
    exact key.trans (Nat.mul_le_mul_right _ hi.low_room)
  · intro hb
    rw [h.acc hi, ← Nat.add_assoc, pow_add]
    exact key.trans (Nat.mul_le_mul_right _ (hi.carry_free (by rw [← h.buf]; exact hb)))

/-- There is room in 32 bits for every shift of the interval. -/
theorem encoder_fits {n : Nat} (hi : EncoderInv e) (hn : n ≤ 8) : (e.low.toNat + e.rng.toNat) * 2 ^ n ≤ 2 ^ 29 := by
  have h1 := hi.debt_ge
  have h2 := hi.debt_le
  have hacc : accOf e ≤ 11 := by unfold accOf; omega
  calc (e.low.toNat + e.rng.toNat) * 2 ^ n ≤ 2 ^ (10 + accOf e) * 2 ^ n := Nat.mul_le_mul_right _ hi.low_room
    _ = 2 ^ (10 + accOf e + n) := (pow_add _ _ _).symm
    _ ≤ 2 ^ 29 := Nat.pow_le_pow_right (by omega) (by omega)

theorem debt_sub {d : BitVec 8} {n : Nat} (hn : n ≤ 8) (h12 : 12 ≤ d.toInt) : (d - BitVec.ofNat 8 n).toInt = d.toInt - n := by
  obtain ⟨h1, h2⟩ := debt_toNat (e := ⟨0, 0, 0, 0, d⟩) (show 0 ≤ d.toInt by omega)
  simp only [debtOf] at h1 h2
  have h3 : (d - BitVec.ofNat 8 n).toNat = d.toNat - n := by
    rw [BitVec.toNat_sub, BitVec.toNat_ofNat]
    omega
  rw [BitVec.toInt_eq_toNat_of_lt (by omega), h3]
  omega

/-- The LPS shift brings every width to `256 .. 510`, and shifts by at most 7. -/
theorem renorm_bounds : ∀ w : BitVec 8, 2 ≤ w.toNat → renormShift w ≤ 7 ∧
    256 ≤ w.toNat * 2 ^ renormShift w ∧ w.toNat * 2 ^ renormShift w ≤ 510 := by decide +kernel

theorem low_shift (x : Word) {y : BitVec 9} {n : Nat} (h : (x.toNat + y.toNat) * 2 ^ n < 2 ^ 32) :
    ((x + y.setWidth 32) <<< n : Word).toNat = (x.toNat + y.toNat) * 2 ^ n := by
  have h1 : x.toNat + y.toNat ≤ (x.toNat + y.toNat) * 2 ^ n := Nat.le_mul_of_pos_right _ (by positivity)
  rw [BitVec.toNat_shiftLeft, BitVec.toNat_add, BitVec.toNat_setWidth, Nat.shiftLeft_eq]
  have h2 : y.toNat < 2 ^ 9 := y.isLt
  rw [Nat.mod_eq_of_lt (show y.toNat < 2 ^ 32 by omega), Nat.mod_eq_of_lt (show x.toNat + y.toNat < 2 ^ 32 by omega),
    Nat.mod_eq_of_lt h]

theorem rng_sub {r : BitVec 9} {w : BitVec 8} (h : w.toNat ≤ r.toNat) :
    (r - w.setWidth 9).toNat = r.toNat - w.toNat := by
  have := r.isLt
  have := w.isLt
  rw [BitVec.toNat_sub, BitVec.toNat_setWidth]
  omega

/-- The LPS part: the top `w` of the interval (rule R143). -/
theorem encodeLps_narrowed {w : BitVec 8} (hi : EncoderInv e) (h2 : 2 ≤ w.toNat) (hw : w.toNat + 128 ≤ e.rng.toNat) :
    Narrowed e (encodeLps e w) (renormShift w)
      ((e.rng.toNat - w.toNat) * 2 ^ renormShift w) ∧
      (encodeLps e w).rng.toNat = w.toNat * 2 ^ renormShift w := by
  obtain ⟨hn, hge, hle⟩ := renorm_bounds w h2
  have hs := rng_sub (r := e.rng) (w := w) (by omega)
  have hfit := encoder_fits hi (show renormShift w ≤ 8 by omega)
  have hrng : (encodeLps e w).rng.toNat = w.toNat * 2 ^ renormShift w := by
    simp only [encodeLps]
    rw [BitVec.toNat_shiftLeft, BitVec.toNat_setWidth, Nat.shiftLeft_eq, Nat.mod_eq_of_lt (show w.toNat < 2 ^ 9 by
      have := w.isLt; omega), Nat.mod_eq_of_lt (by omega)]
  have hmul : (e.low.toNat + (e.rng.toNat - w.toNat)) * 2 ^ renormShift w ≤
      (e.low.toNat + e.rng.toNat) * 2 ^ renormShift w := Nat.mul_le_mul_right _ (by omega)
  refine ⟨⟨by omega, ?_, ?_, ?_, by omega, by omega, rfl, rfl⟩, hrng⟩
  · simp only [encodeLps]
    rw [low_shift _ (by rw [hs]; omega), hs, Nat.add_mul]
  · simp only [encodeLps, debtOf]
    exact debt_sub (by omega) hi.debt_ge
  · rw [hrng, ← Nat.add_mul]
    exact Nat.mul_le_mul_right _ (by omega)

/-- The MPS part when it needs a shift (rule R143). -/
theorem encodeMpsShift_narrowed {w : BitVec 8} (hi : EncoderInv e) (hw : w.toNat + 128 ≤ e.rng.toNat)
    (h256 : e.rng.toNat - w.toNat < 256) :
    Narrowed e (encodeMpsShift e w) 1 0 ∧ (encodeMpsShift e w).rng.toNat = 2 * (e.rng.toNat - w.toNat) := by
  have hs := rng_sub (r := e.rng) (w := w) (by omega)
  have hfit := encoder_fits hi (n := 1) (by omega)
  have hrng : (encodeMpsShift e w).rng.toNat = 2 * (e.rng.toNat - w.toNat) := by
    simp only [encodeMpsShift]
    rw [BitVec.toNat_shiftLeft, hs, Nat.shiftLeft_eq]
    omega
  refine ⟨⟨by omega, ?_, ?_, by omega, by omega, by omega, rfl, rfl⟩, hrng⟩
  · simp only [encodeMpsShift]
    rw [BitVec.toNat_shiftLeft, Nat.shiftLeft_eq]
    omega
  · simp only [encodeMpsShift, debtOf]
    exact debt_sub (n := 1) (by omega) hi.debt_ge

/-- The MPS part when it needs no shift (rule R143). -/
theorem encodeMps_narrowed {w : BitVec 8} (hi : EncoderInv e) (hw : w.toNat + 128 ≤ e.rng.toNat)
    (h256 : 256 ≤ e.rng.toNat - w.toNat) :
    Narrowed e { e with rng := e.rng - w.setWidth 9 } 0 0 ∧
      (e.rng - w.setWidth 9).toNat = e.rng.toNat - w.toNat := by
  have hs := rng_sub (r := e.rng) (w := w) (by omega)
  have := hi.rng_le
  exact ⟨⟨by omega, by simp, by simp [debtOf], by simp only [hs]; omega, by simp only [hs]; omega,
    by simp only [hs]; omega, rfl, rfl⟩, hs⟩

/-- A half of the interval (rule R145). -/
theorem encodeBypass_narrowed (b : Bool) (hi : EncoderInv e) :
    Narrowed e (encodeBypassRegs e b) 1 (if b then e.rng.toNat else 0) ∧ (encodeBypassRegs e b).rng = e.rng := by
  have hfit := encoder_fits hi (n := 1) (by omega)
  have hlow : (e.low <<< 1 : Word).toNat = 2 * e.low.toNat := by
    rw [BitVec.toNat_shiftLeft, Nat.shiftLeft_eq]
    omega
  have hge := hi.rng_ge
  have hle := hi.rng_le
  refine ⟨⟨by omega, ?_, ?_, ?_, hge, hle, rfl, rfl⟩, rfl⟩
  · cases b with
    | false => simp [encodeBypassRegs, hlow]; omega
    | true =>
      simp only [encodeBypassRegs, if_true]
      rw [BitVec.toNat_add, hlow, BitVec.toNat_setWidth]
      omega
  · simp only [encodeBypassRegs, debtOf]
    exact debt_sub (n := 1) (by omega) hi.debt_ge
  · cases b <;> simp only [encodeBypassRegs, if_true] <;> simp <;> omega

end Sys2Proof.Machine
end

