-- ==== Sys2Proof/Laws/Decoder.lean ====
section
/-! SUPPORT. One bin through the decoder: what it does to every register, and that it keeps the invariants of rules R23 and
R176 (rules R171, R172, R175). -/

namespace Sys2Proof.Machine

open Sys2Proof Sys2Proof.Safety

variable {p : Config.Params} {s t u : State} {d : Decoder}

theorem peek_lt {n v : Nat} (e : peek p s n = some v) : v < 2 ^ n := by
  induction n generalizing v with
  | zero => cases e; decide
  | succ n ih =>
    rw [peek] at e
    split at e
    · rename_i w b hw hb
      cases e
      have := ih hw
      rw [pow_succ]
      cases b <;> simp only [bitNat] <;> simp <;> omega
    · simp at e

theorem scaledRange_toNat (r : BitVec 9) : (scaledRange r).toNat = r.toNat * 128 := by
  have : r.toNat < 2 ^ 9 := r.isLt
  rw [scaledRange, BitVec.toNat_shiftLeft, BitVec.toNat_setWidth, Nat.shiftLeft_eq]
  omega

/-- `bits_needed` counted up by at most 8 stays an 8-bit number. -/
theorem need_add {d : BitVec 8} {n : Nat} (hn : n ≤ 8) (h1 : -8 ≤ d.toInt) (h2 : d.toInt ≤ -1) :
    (d + BitVec.ofNat 8 n).toInt = d.toInt + n := by
  have hn' : (BitVec.ofNat 8 n).toInt = n := by
    rw [BitVec.toInt_eq_toNat_of_lt] <;> simp <;> omega
  rw [BitVec.toInt_add, hn', Int.bmod_def]
  omega

theorem need_sub {d : BitVec 8} (h1 : 0 ≤ d.toInt) (h2 : d.toInt ≤ 8) : (d - 8).toInt = d.toInt - 8 := by
  rw [BitVec.toInt_sub, show (8 : BitVec 8).toInt = 8 from rfl, Int.bmod_def]
  omega

/-- The state once the registers `d` have pulled the byte they need, if they need one (rule R175). -/
def pulled (s : State) (d : Decoder) (v : Nat) : State :=
  if 0 ≤ d.need.toInt then
    { s with
      ad := { d with pat := d.pat + (BitVec.ofNat 32 v <<< d.need.toInt.toNat), need := d.need - 8 }
      br := readerAfter s 8 }
  else { s with ad := d }

theorem pulled_of_zero {v : Nat} (h : d.need = 0) :
    pulled s d v =
      { s with ad := { d with pat := d.pat + BitVec.ofNat 32 v, need := Config.needInit }, br := readerAfter s 8 } := by
  unfold pulled
  rw [if_pos (by rw [h]; decide), h, show (0 : BitVec 8).toInt.toNat = 0 by decide, BitVec.shiftLeft_zero,
    show (0 - 8 : BitVec 8) = Config.needInit by decide]

theorem pulled_rest (s : State) (d : Decoder) (v : Nat) :
    pulled s d v = { s with ad := (pulled s d v).ad, br := (pulled s d v).br } := by
  unfold pulled
  split <;> rfl

/-- The pull of a context bin's LPS branch, from the registers `d`. -/
theorem pullNonneg_run {v : Nat} (hc : s.br.cnt.toNat ≤ 8) (hp : p.streamBytes ≤ 2 ^ 32 - 1)
    (e : 0 ≤ d.need.toInt → peek p s 8 = some v) : pullNonneg p { s with ad := d } = .ok () (pulled s d v) := by
  unfold pullNonneg pulled
  by_cases h : 0 ≤ d.need.toInt
  · rw [if_pos h, if_pos h]
    have hb := getBits_run (p := p) (s := { s with ad := d }) (n := 8) (v := v) hc hp (e h)
    rw [cmd_bind_of_ok hb]
    rfl
  · rw [if_neg h, if_neg h]

/-- The pull of a bypass bin (rule R172). -/
theorem pullBypass_run {v : Nat} (hc : s.br.cnt.toNat ≤ 8) (hp : p.streamBytes ≤ 2 ^ 32 - 1) (h0 : d.need.toInt ≤ 0)
    (e : 0 ≤ d.need.toInt → peek p s 8 = some v) : pullBypass p { s with ad := d } = .ok () (pulled s d v) := by
  unfold pullBypass
  by_cases h : 0 ≤ d.need.toInt
  · have hz : d.need = 0 := BitVec.eq_of_toInt_eq (by simp; omega)
    rw [if_pos h, pulled_of_zero hz]
    have hb := getBits_run (p := p) (s := { s with ad := { d with need := Config.needInit } }) (n := 8) (v := v) hc hp
      (e h)
    rw [cmd_bind_of_ok hb]
    rfl
  · rw [if_neg h, pulled, if_neg h]

/-- The pull of a context bin's MPS branch. -/
theorem pullAtZero_run {v : Nat} (hc : s.br.cnt.toNat ≤ 8) (hp : p.streamBytes ≤ 2 ^ 32 - 1) (h0 : d.need.toInt ≤ 0)
    (e : 0 ≤ d.need.toInt → peek p s 8 = some v) : pullAtZero p { s with ad := d } = .ok () (pulled s d v) := by
  unfold pullAtZero
  by_cases h : 0 ≤ d.need.toInt
  · have hz : d.need = 0 := BitVec.eq_of_toInt_eq (by simp; omega)
    rw [if_pos hz, pulled_of_zero hz]
    have hb := getBits_run (p := p) (s := { s with ad := { d with need := Config.needInit } }) (n := 8) (v := v) hc hp
      (e h)
    rw [cmd_bind_of_ok hb]
    rfl
  · rw [if_neg (fun hz => h (by rw [hz]; decide)), pulled, if_neg h]

/-- The registers after a pull, in numbers. -/
theorem pulled_renormed {v base n : Nat} (hn : d.need.toInt = s.ad.need.toInt + n) (h8 : d.need.toInt ≤ 8)
    (hpat : d.pat.toNat = base * 2 ^ n % 2 ^ 32) : Renormed s (pulled s d v) base n d.rng.toNat v := by
  unfold pulled
  by_cases h : 0 ≤ d.need.toInt
  · rw [if_pos h]
    refine ⟨rfl, ?_, ?_, ?_⟩
    · rw [if_pos (by omega), ← hn]
      simp only
      rw [BitVec.toNat_add, BitVec.toNat_shiftLeft, BitVec.toNat_ofNat, Nat.shiftLeft_eq, hpat, Nat.mod_mul_mod,
        ← Nat.add_mod]
    · rw [if_pos (by omega), ← hn]
      exact need_sub h h8
    · rw [if_pos (by omega)]
  · rw [if_neg h]
    refine ⟨rfl, ?_, ?_, ?_⟩
    · rw [if_neg (by omega), Nat.add_zero]
      exact hpat
    · rw [if_neg (by omega)]
      exact hn
    · rw [if_neg (by omega)]

/-- What a context bin chooses: whether the least probable part, how far it shifts, and the part's width (rule R171). -/
def adLps (p : Config.Params) (s : State) (m : Fin 15) : Bool :=
  (s.ad.rng.toNat - (decodeWidth p s m).toNat) * 128 ≤ s.ad.pat.toNat

def adShift (p : Config.Params) (s : State) (m : Fin 15) : Nat :=
  if adLps p s m then renormShift (decodeWidth p s m)
  else if s.ad.rng.toNat - (decodeWidth p s m).toNat < 256 then 1 else 0

def adPart (p : Config.Params) (s : State) (m : Fin 15) : Nat :=
  if adLps p s m then (decodeWidth p s m).toNat else s.ad.rng.toNat - (decodeWidth p s m).toNat

def adBase (p : Config.Params) (s : State) (m : Fin 15) : Nat :=
  if adLps p s m then s.ad.pat.toNat - (s.ad.rng.toNat - (decodeWidth p s m).toNat) * 128 else s.ad.pat.toNat

theorem decodeWidth_bounds (hp : p.Ok) (hi : DecoderInv s.ad) (m : Fin 15) :
    2 ≤ (decodeWidth p s m).toNat ∧ (decodeWidth p s m).toNat + 128 ≤ s.ad.rng.toNat :=
  ⟨hp.width_ge _ _, hp.width_room _ _ hi.rng_ge hi.rng_le⟩

theorem adShift_le (hp : p.Ok) (hi : DecoderInv s.ad) (m : Fin 15) : adShift p s m ≤ 7 := by
  unfold adShift
  split
  · exact (renorm_bounds _ (decodeWidth_bounds hp hi m).1).1
  · split <;> omega

/-- The end of a context bin: its model's update and its value. -/
theorem updateMps_run (m : Fin 15) (b : Bool) (hpm : u.pm = s.pm) :
    (do updateMps p m; pure b : Cmd Bool) u = .ok b (withModel u m (mpsNext p (modelAt s m))) := by
  simp only [updateMps, cmd_bind, cmd_modify, cmd_pure, modelAt, hpm]

theorem updateLps_run (m : Fin 15) (b : Bool) (hpm : u.pm = s.pm) :
    (do updateLps p m; pure b : Cmd Bool) u = .ok b (withModel u m (lpsNext p (modelAt s m))) := by
  simp only [updateLps, cmd_bind, cmd_modify, cmd_pure, modelAt, hpm]

/-- The registers of a context bin before its pull (rule R171). -/
def adRegs (p : Config.Params) (s : State) (m : Fin 15) : Decoder :=
  let mpsWidth := s.ad.rng - (decodeWidth p s m).setWidth 9
  if adLps p s m then decodeLps s.ad mpsWidth (decodeWidth p s m)
  else if s.ad.rng.toNat - (decodeWidth p s m).toNat < 256 then decodeMpsShift s.ad mpsWidth
  else { s.ad with rng := mpsWidth }

theorem adRegs_numbers (m : Fin 15) (hp : p.Ok) (hi : DecoderInv s.ad) :
    (adRegs p s m).need.toInt = s.ad.need.toInt + adShift p s m ∧
      (adRegs p s m).pat.toNat = adBase p s m * 2 ^ adShift p s m % 2 ^ 32 ∧
      (adRegs p s m).rng.toNat = adPart p s m * 2 ^ adShift p s m := by
  obtain ⟨hw2, hw⟩ := decodeWidth_bounds hp hi m
  have hs := rng_sub (r := s.ad.rng) (w := decodeWidth p s m) (by omega)
  have hn1 := hi.need_ge
  have hn2 := hi.need_le
  have hle := hi.rng_le
  have hpat := s.ad.pat.isLt
  have hw8 := (decodeWidth p s m).isLt
  unfold adRegs adShift adBase adPart
  by_cases hl : adLps p s m = true
  · obtain ⟨hr7, hrge, hrle⟩ := renorm_bounds _ hw2
    simp only [hl, if_true]
    have hge : (s.ad.rng.toNat - (decodeWidth p s m).toNat) * 128 ≤ s.ad.pat.toNat := by
      unfold adLps at hl
      simpa using hl
    refine ⟨?_, ?_, ?_⟩
    · exact need_add (by omega) hn1 hn2
    · simp only [decodeLps]
      rw [BitVec.toNat_shiftLeft, Nat.shiftLeft_eq,
        BitVec.toNat_sub_of_le (by rw [BitVec.le_def, scaledRange_toNat, hs]; exact hge), scaledRange_toNat, hs]
    · simp only [decodeLps]
      rw [BitVec.toNat_shiftLeft, BitVec.toNat_setWidth, Nat.shiftLeft_eq,
        Nat.mod_eq_of_lt (show (decodeWidth p s m).toNat < 2 ^ 9 by omega), Nat.mod_eq_of_lt (by omega)]
  · simp only [hl, Bool.false_eq_true, if_false]
    by_cases h256 : s.ad.rng.toNat - (decodeWidth p s m).toNat < 256
    · simp only [if_pos h256]
      refine ⟨need_add (n := 1) (by omega) hn1 hn2, ?_, ?_⟩
      · simp only [decodeMpsShift]
        rw [BitVec.toNat_shiftLeft, Nat.shiftLeft_eq]
      · simp only [decodeMpsShift]
        rw [BitVec.toNat_shiftLeft, hs, Nat.shiftLeft_eq]
        omega
    · simp only [if_neg h256]
      exact ⟨by simp, by simp; omega, by rw [hs]; simp⟩

/-- `AD_BIT` where the byte it needs, if it needs one, can be read: every register it leaves (rules R171, R175). -/
theorem decodeBit_run {v : Nat} (m : Fin 15) (hp : p.Ok) (hi : DecoderInv s.ad) (hc : s.br.cnt.toNat ≤ 8)
    (input : 0 ≤ s.ad.need.toInt + adShift p s m → peek p s 8 = some v) :
    decodeBit p m s = .ok (adLps p s m != (modelAt s m).mps)
        (withModel (pulled s (adRegs p s m) v) m
          (if adLps p s m then lpsNext p (modelAt s m) else mpsNext p (modelAt s m))) ∧
      Renormed s (pulled s (adRegs p s m) v) (adBase p s m) (adShift p s m) (adPart p s m * 2 ^ adShift p s m) v := by
  obtain ⟨hneed, hpat, hrng⟩ := adRegs_numbers m hp hi
  obtain ⟨hw2, hw⟩ := decodeWidth_bounds hp hi m
  have hs := rng_sub (r := s.ad.rng) (w := decodeWidth p s m) (by omega)
  have hn2 := hi.need_le
  have hn7 := adShift_le hp hi m
  refine ⟨?_, by rw [← hrng]; exact pulled_renormed hneed (by omega) hpat⟩
  have hin : 0 ≤ (adRegs p s m).need.toInt → peek p s 8 = some v := fun h => input (by omega)
  have hpm : (pulled s (adRegs p s m) v).pm = s.pm := by rw [pulled_rest]
  unfold decodeBit
  simp only [scaledRange_toNat, hs]
  by_cases hl : adLps p s m = true
  · have hge : (s.ad.rng.toNat - (decodeWidth p s m).toNat) * 128 ≤ s.ad.pat.toNat := by
      unfold adLps at hl
      simpa using hl
    have hregs : adRegs p s m =
        decodeLps s.ad (s.ad.rng - (decodeWidth p s m).setWidth 9) (decodeWidth p s m) := by
      unfold adRegs
      rw [if_pos hl]
    rw [if_neg (by omega), ← hregs, cmd_bind_of_ok (pullNonneg_run hc hp.stream_le hin), updateLps_run m _ hpm, hl]
    cases (modelAt s m).mps <;> rfl
  · have hlt : s.ad.pat.toNat < (s.ad.rng.toNat - (decodeWidth p s m).toNat) * 128 := by
      unfold adLps at hl
      simpa using hl
    have hmps : (false != (modelAt s m).mps) = (modelAt s m).mps := by cases (modelAt s m).mps <;> rfl
    rw [if_pos hlt, Bool.eq_false_iff.2 hl, hmps]
    by_cases h256 : s.ad.rng.toNat - (decodeWidth p s m).toNat < 256
    · have hregs : adRegs p s m = decodeMpsShift s.ad (s.ad.rng - (decodeWidth p s m).setWidth 9) := by
        unfold adRegs
        simp only [if_neg hl, if_pos h256]
      have hsh : adShift p s m = 1 := by
        unfold adShift
        rw [if_neg hl, if_pos h256]
      rw [if_pos h256, ← hregs, cmd_bind_of_ok (pullAtZero_run hc hp.stream_le (by omega) hin)]
      exact updateMps_run m _ hpm
    · have hregs : adRegs p s m = { s.ad with rng := s.ad.rng - (decodeWidth p s m).setWidth 9 } := by
        unfold adRegs
        simp only [if_neg hl, if_neg h256]
      have hpull : pulled s (adRegs p s m) v = { s with ad := { s.ad with rng := s.ad.rng - (decodeWidth p s m).setWidth 9 } } := by
        rw [hregs, pulled, if_neg (by simp only; omega)]
      rw [if_neg h256, ← hpull]
      exact updateMps_run m _ hpm

/-- `AD_BYP` where the byte it needs, if it needs one, can be read (rule R172). -/
theorem decodeBypass_run {v : Nat} (hp : p.Ok) (hi : DecoderInv s.ad) (hc : s.br.cnt.toNat ≤ 8)
    (input : s.ad.need.toInt = -1 → peek p s 8 = some v) :
    ∃ d, Renormed s (pulled s d v) s.ad.pat.toNat 1 s.ad.rng.toNat v ∧
      decodeBypass p s = compareBypass (pulled s d v) := by
  have hn1 := hi.need_ge
  have hn2 := hi.need_le
  have hneed : (s.ad.need + 1 : BitVec 8).toInt = s.ad.need.toInt + 1 := need_add (n := 1) (by omega) hn1 hn2
  refine ⟨{ s.ad with pat := s.ad.pat <<< 1, need := s.ad.need + 1 }, ?_, ?_⟩
  · refine pulled_renormed hneed (by simp only [hneed]; omega) ?_
    simp only
    rw [BitVec.toNat_shiftLeft, Nat.shiftLeft_eq]
  · unfold decodeBypass
    rw [cmd_bind_of_ok (cmd_modify _ _), cmd_bind_of_ok (pullBypass_run (v := v) hc hp.stream_le
      (by simp only [hneed]; omega) (fun h => input (by simp only [hneed] at h; omega)))]

end Sys2Proof.Machine
end

