-- ==== Sys2Proof/Laws/EncoderBins.lean ====
section
/-! SUPPORT. One bin through the encoder: what it does to every register, and that a session stays a session with its
code value in the bin's part of the interval (rules R143, R145, R149). -/

namespace Sys2Proof.Machine

open Sys2Proof Sys2Proof.Safety

variable {p : Config.Params} {s t u : State} {e : Encoder}

/-- The shifted registers of a context bin, before the flush. -/
def binRegs (p : Config.Params) (s : State) (m : Fin 15) (b : Bool) : Encoder :=
  if b != (modelAt s m).mps then encodeLps s.ae (encodeWidth p s m)
  else if (s.ae.rng - (encodeWidth p s m).setWidth 9).toNat < 256 then encodeMpsShift s.ae (encodeWidth p s m)
  else { s.ae with rng := s.ae.rng - (encodeWidth p s m).setWidth 9 }

/-- The model after a context bin. -/
def binModel (p : Config.Params) (s : State) (m : Fin 15) (b : Bool) : Model :=
  if b != (modelAt s m).mps then lpsNext p (modelAt s m) else mpsNext p (modelAt s m)

/-- The state after a flush of the registers `e`. -/
def flushed (s : State) (e : Encoder) : State := { withBytes s (flushBytes e) with ae := flushRegs e }

theorem flush_none (h : 12 ≤ debtOf e) : flushBytes e = [] ∧ flushRegs e = e := by
  have : ¬debtOf e < Config.flushT := by unfold Config.flushT; omega
  exact ⟨if_neg this, if_neg this⟩

theorem flushed_pm (s : State) (e : Encoder) : (flushed s e).pm = s.pm := by
  simp only [flushed]
  rw [withBytes_rest]

theorem aeFlush_regs (e : Encoder) (hc : s.bw.cnt = 0) (hp : p.streamBytes ≤ 2 ^ 32 - 1)
    (room : s.bw.ptr.toNat + e.run.toNat ≤ p.streamBytes) :
    aeFlush p { s with ae := e } = .ok () (flushed s e) := by
  have := aeFlush_run (p := p) (s := { s with ae := e }) hc hp room
  rw [withBytes_setAe] at this
  exact this

/-- The width read in a session meets rule R126. -/
theorem encodeWidth_bounds (hp : p.Ok) (hi : EncoderInv s.ae) (m : Fin 15) :
    2 ≤ (encodeWidth p s m).toNat ∧ (encodeWidth p s m).toNat + 128 ≤ s.ae.rng.toNat :=
  ⟨hp.width_ge _ _, hp.width_room _ _ hi.rng_ge hi.rng_le⟩

theorem binRegs_run (p : Config.Params) (s : State) (m : Fin 15) (b : Bool) : (binRegs p s m b).run = s.ae.run := by
  unfold binRegs
  split <;> [skip; split] <;> rfl

/-- `AE_BIT` at a byte boundary with room: every register it leaves (rule R143). -/
theorem encodeBit_run (m : Fin 15) (b : Bool) (hp : p.Ok) (hi : EncoderInv s.ae) (hc : s.bw.cnt = 0)
    (room : s.bw.ptr.toNat + s.ae.run.toNat ≤ p.streamBytes) :
    encodeBit p m b s = .ok () (withModel (flushed s (binRegs p s m b)) m (binModel p s m b)) := by
  have hw := encodeWidth_bounds hp hi m
  have upd : ∀ (e : Encoder) (f : Model → Model),
      (modify fun u => withModel u m (f (modelAt u m)) : Cmd Unit) (flushed s e) =
        .ok () (withModel (flushed s e) m (f (modelAt s m))) := by
    intro e f
    simp only [cmd_modify, modelAt, flushed_pm]
  unfold encodeBit binModel binRegs
  simp only
  by_cases hb : (b != (modelAt s m).mps) = true
  · rw [if_pos hb, if_pos hb, if_pos hb,
      cmd_bind_of_ok (aeFlush_regs (encodeLps s.ae (encodeWidth p s m)) hc hp.stream_le room)]
    exact upd _ _
  · rw [if_neg hb, if_neg hb, if_neg hb]
    by_cases h256 : (s.ae.rng - (encodeWidth p s m).setWidth 9).toNat < 256
    · rw [if_pos h256, if_pos h256,
        cmd_bind_of_ok (aeFlush_regs (encodeMpsShift s.ae (encodeWidth p s m)) hc hp.stream_le room)]
      exact upd _ _
    · rw [if_neg h256, if_neg h256]
      have hd : 12 ≤ debtOf { s.ae with rng := s.ae.rng - (encodeWidth p s m).setWidth 9 } := hi.debt_ge
      rw [flushed, (flush_none hd).1, (flush_none hd).2, withBytes]
      rfl

/-- `AE_BYP` at a byte boundary with room: every register it leaves (rule R145). -/
theorem encodeBypass_run (b : Bool) (hp : p.Ok) (hc : s.bw.cnt = 0)
    (room : s.bw.ptr.toNat + s.ae.run.toNat ≤ p.streamBytes) :
    encodeBypass p b s = .ok () (flushed s (encodeBypassRegs s.ae b)) :=
  aeFlush_regs (encodeBypassRegs s.ae b) hc hp.stream_le room

/-! ## The interval -/

/-- The shift and offset of a context bin (rule R149), from the range, the width and the choice. -/
def binShift (p : Config.Params) (s : State) (m : Fin 15) (b : Bool) : Nat :=
  if b != (modelAt s m).mps then renormShift (encodeWidth p s m)
  else if s.ae.rng.toNat - (encodeWidth p s m).toNat < 256 then 1 else 0

def binOffset (p : Config.Params) (s : State) (m : Fin 15) (b : Bool) : Nat :=
  if b != (modelAt s m).mps then
    (s.ae.rng.toNat - (encodeWidth p s m).toNat) * 2 ^ renormShift (encodeWidth p s m)
  else 0

def binRange (p : Config.Params) (s : State) (m : Fin 15) (b : Bool) : Nat :=
  if b != (modelAt s m).mps then (encodeWidth p s m).toNat
  else s.ae.rng.toNat - (encodeWidth p s m).toNat

theorem binRegs_narrowed (m : Fin 15) (b : Bool) (hp : p.Ok) (hi : EncoderInv s.ae) :
    Narrowed s.ae (binRegs p s m b) (binShift p s m b) (binOffset p s m b) ∧
      (binRegs p s m b).rng.toNat = binRange p s m b * 2 ^ binShift p s m b := by
  obtain ⟨h2, hw⟩ := encodeWidth_bounds hp hi m
  unfold binRegs binShift binOffset binRange
  by_cases hb : (b != (modelAt s m).mps) = true
  · simp only [if_pos hb]
    exact encodeLps_narrowed hi h2 hw
  · simp only [if_neg hb]
    have hs := rng_sub (r := s.ae.rng) (w := encodeWidth p s m) (by omega)
    by_cases h256 : s.ae.rng.toNat - (encodeWidth p s m).toNat < 256
    · rw [if_pos (by rw [hs]; exact h256)]
      simp only [if_pos h256]
      have := encodeMpsShift_narrowed hi hw h256
      exact ⟨this.1, by rw [this.2]; omega⟩
    · rw [if_neg (by rw [hs]; exact h256)]
      simp only [if_neg h256]
      have := encodeMps_narrowed hi hw (by omega)
      exact ⟨this.1, by rw [this.2]; omega⟩

/-- A session's registers narrowed and flushed are a session's again, the code value in the part taken. -/
theorem session_flushed {start L n off : Nat} {r : Encoder} (h : Session start s) (hL : codeValue start s = some L)
    (hn : Narrowed s.ae r n off) (hp : p.Ok) (room : encoderRoom p s 1) :
    Session start (flushed s r) ∧ codeValue start (flushed s r) = some (L * 2 ^ n + off) ∧
      (flushed s r).ae.rng = r.rng ∧
      (flushed s r).bw.ptr.toNat + (flushed s r).ae.run.toNat ≤ s.bw.ptr.toNat + s.ae.run.toNat + 1 ∧
      s.bw.ptr.toNat ≤ (flushed s r).bw.ptr.toNat ∧
      (∀ a, a < s.bw.ptr.toNat ∨ (flushed s r).bw.ptr.toNat ≤ a →
        cellsRead (flushed s r).stream a = cellsRead s.stream a) := by
  have hsb := hp.stream_le
  unfold encoderRoom at room
  have hrun : r.run = s.ae.run := hn.run
  obtain ⟨inv, hrng⟩ := flush_inv (hn.unflushed h.inv)
  obtain ⟨first, hval⟩ := flush_value (hn.unflushed h.inv)
    (by rw [hrun, hn.buf]; exact h.first) (by rw [hrun]; omega)
  have hlen : (flushBytes r).length ≤ s.ae.run.toNat := by rw [← hrun]; exact flushBytes_length_le r
  have hptr := withBytes_ptr (s := s) (flushBytes r) (by omega)
  have hle := flush_run_le r
  rw [hrun] at hle
  have hout : ∀ a, a < s.bw.ptr.toNat ∨ s.bw.ptr.toNat + (flushBytes r).length ≤ a →
      cellsRead (flushed s r).stream a = cellsRead s.stream a := fun a ha =>
    withBytes_outside (s := s) (flushBytes r) (by omega) ha
  refine ⟨⟨?_, ?_, ?_, inv, first⟩, ?_, hrng, ?_, ?_, ?_⟩
  · rw [flushed, withBytes_rest]
    exact h.quiet
  · exact withBytes_cnt _ h.aligned
  · change start ≤ (withBytes s (flushBytes r)).bw.ptr.toNat
    rw [hptr]
    have := h.start_le
    omega
  · unfold codeValue at hL ⊢
    obtain ⟨bs, hbs, hL'⟩ := Option.map_eq_some_iff.1 hL
    have hstart := h.start_le
    have hread : cellsReadRange (flushed s r).stream start ((flushed s r).bw.ptr.toNat - start) =
        some (bs ++ flushBytes r) := by
      change cellsReadRange (flushed s r).stream start ((withBytes s (flushBytes r)).bw.ptr.toNat - start) = _
      rw [hptr, show s.bw.ptr.toNat + (flushBytes r).length - start =
        (s.bw.ptr.toNat - start) + (flushBytes r).length by omega, cellsReadRange_append]
      rw [cellsReadRange_congr (m := s.stream) (fun a h1 h2 => hout a (by omega)), hbs,
        show start + (s.bw.ptr.toNat - start) = s.bw.ptr.toNat by omega]
      have := withBytes_read (s := s) (flushBytes r) (by omega)
      change cellsReadRange (withBytes s (flushBytes r)).stream _ _ = _ at this
      rw [Option.bind_some]
      rw [show (flushed s r).stream = (withBytes s (flushBytes r)).stream from rfl, this]
      rfl
    rw [hread]
    simp only [Option.map_some, Option.some.injEq]
    rw [List.append_assoc, beValue_append]
    rw [show (flushed s r).ae = flushRegs r from rfl, hval]
    rw [← hL', beValue_append, hn.acc h.inv, hn.low]
    rw [show heldBytes r = heldBytes s.ae by unfold heldBytes; rw [hrun, hn.buf]]
    rw [← Nat.add_assoc, pow_add]
    ring
  · change (withBytes s (flushBytes r)).bw.ptr.toNat + (flushRegs r).run.toNat ≤ _
    rw [hptr]
    omega
  · change _ ≤ (withBytes s (flushBytes r)).bw.ptr.toNat
    rw [hptr]
    omega
  · intro a ha
    change _ ∨ (withBytes s (flushBytes r)).bw.ptr.toNat ≤ a at ha
    rw [hptr] at ha
    exact hout a ha

end Sys2Proof.Machine
end

