-- ==== Sys2Proof/Laws/Invariants.lean ====
section
/-! SUPPORT. The machine's invariant through every successful command: the writer's and reader's counts, the encoder of an
open encode session (rule R21) and the decoder of an open decode session (rule R23). -/

namespace Sys2Proof.Machine

open Sys2Proof Sys2Proof.Safety

variable {p : Config.Params} {s t u : State} {d : Decoder}

/-! ## The writer and the reader -/

theorem putBit_cnt (b : Bool) : KeepsOk (fun s t => s.bw.cnt.toNat ≤ 7 → t.bw.cnt.toNat ≤ 7) (putBit p b) := by
  intro s a t e hc
  unfold putBit at e
  simp only at e
  split at e
  · split at e
    · cases e
    · cases e
      exact Nat.zero_le 7
  · rename_i h
    cases e
    have : (s.bw.cnt + 1).toNat = s.bw.cnt.toNat + 1 := by bv_omega
    have : s.bw.cnt.toNat ≠ 7 := fun h7 => h (BitVec.eq_of_toNat_eq (by simp; omega))
    simp only [*]
    omega

/-- The writer's count stays within a byte. -/
def WriterKept (s t : State) : Prop := s.bw.cnt.toNat ≤ 7 → t.bw.cnt.toNat ≤ 7

theorem writerKept_chains : Chains WriterKept := ⟨fun _ h => h, fun _ _ _ h k => k ∘ h⟩

theorem command_writer (p : Config.Params) (i : Instr) : KeepsOk WriterKept (commandOf p i).2 :=
  commandOf_of_leaves (leaves_of_put
    (closed_keepsOk writerKept_chains fun s t h hc => by
      have hw : t.bw = s.bw := h.parts .writer (by decide)
      rw [hw]
      exact hc)
    putBit_cnt) i

theorem fetchByte_ok {a : Unit} (e : fetchByte p s = .ok a t) : t.br.cnt = 8 := by
  unfold fetchByte at e
  split at e
  · cases e
  · split at e
    · cases e
      rfl
    · cases e

theorem getBit_cnt : KeepsOk (fun s t => s.br.cnt.toNat ≤ 8 → t.br.cnt.toNat ≤ 8) (getBit p) := by
  have take : ∀ (s : State) (b : Bool) (t : State), takeBit s = .ok b t → s.br.cnt ≠ 0 → s.br.cnt.toNat ≤ 8 →
      t.br.cnt.toNat ≤ 8 := by
    intro s b t e h0 h8
    cases e
    have h1 : s.br.cnt.toNat ≠ 0 := fun h => h0 (BitVec.eq_of_toNat_eq h)
    have : (s.br.cnt - 1).toNat = s.br.cnt.toNat - 1 := by bv_omega
    simp only [this]
    omega
  intro s a t e hc
  by_cases h : s.br.cnt = 0
  · rw [getBit_of_empty h] at e
    obtain ⟨_, u, e1, e2⟩ := cmd_bind_ok_iff.1 e
    have h8 := fetchByte_ok e1
    exact take u a t e2 (by rw [h8]; decide) (by rw [h8]; decide)
  · rw [getBit_of_cnt h] at e
    exact take s a t e h hc

/-- The reader's count stays within a byte. -/
def ReaderKept (s t : State) : Prop := s.br.cnt.toNat ≤ 8 → t.br.cnt.toNat ≤ 8

theorem readerKept_chains : Chains ReaderKept := ⟨fun _ h => h, fun _ _ _ h k => k ∘ h⟩

theorem command_reader (p : Config.Params) (i : Instr) : KeepsOk ReaderKept (commandOf p i).2 :=
  commandOf_of_leaves (leaves_of_get
    (closed_keepsOk readerKept_chains fun s t h hc => by
      have hr : t.br = s.br := h.parts .reader (by decide)
      rw [hr]
      exact hc)
    getBit_cnt
    (keepsOk_modify fun s _ => Nat.zero_le 8)) i

/-! ## The encoder -/

theorem putByte_ae {b : Byte} {a : Unit} (e : putByte p b s = .ok a t) : t.ae = s.ae ∧ t.status = s.status ∧ t.pm = s.pm := by
  have h := (putByte_frame p b).ok s a t e
  refine ⟨h.parts .encoder (by decide), ?_, h.parts .models (by decide)⟩
  have h1 : t.status.encOpen = s.status.encOpen := h.parts .encOpen (by decide)
  have h2 : t.status.decOpen = s.status.decOpen := h.parts .decOpen (by decide)
  have h3 := h.fault
  have h4 := h.code
  cases hs : s.status
  cases ht : t.status
  rw [hs, ht] at h1 h2 h3 h4
  simp only at h1 h2 h3 h4
  subst h1 h2 h3 h4
  rfl

theorem drainRun_ae {fill : Byte} {k : Nat} {a : Unit} (e : drainRun p fill k s = .ok a t) :
    t.ae = { s.ae with run := s.ae.run - BitVec.ofNat 32 k } := by
  induction k generalizing s with
  | zero =>
    cases e
    simp
  | succ k ih =>
    rw [drainRun] at e
    obtain ⟨_, u, e1, e2⟩ := cmd_bind_ok_iff.1 e
    obtain ⟨_, w, e3, e4⟩ := cmd_bind_ok_iff.1 e2
    cases e3
    rw [ih e4]
    simp only [(putByte_ae e1).1]
    rw [show (k + 1) = 1 + k by omega, BitVec.ofNat_add, ← BitVec.sub_sub]
    rfl

theorem run_drained (run : Word) (h : run.toNat ≠ 0) : run - BitVec.ofNat 32 (drainTurns run) = 1 := by
  apply BitVec.eq_of_toNat_eq
  have := run.isLt
  rw [drainTurns, BitVec.toNat_sub, BitVec.toNat_ofNat]
  simp
  omega

theorem placeLead_ae {lead : Nat} {a : Unit} (e : placeLead p lead s = .ok a t) : t.ae = placed s.ae lead := by
  unfold placeLead at e
  unfold placed
  split at e
  · rename_i h
    cases e
    rw [if_pos h]
  · rename_i h
    rw [if_neg h]
    split at e
    · rename_i hr
      obtain ⟨_, u, e1, e2⟩ := cmd_bind_ok_iff.1 e
      obtain ⟨_, w, e3, e4⟩ := cmd_bind_ok_iff.1 e2
      cases e3
      rw [drainRun_ae e4]
      simp only [(putByte_ae e1).1]
      rw [run_drained _ (by omega)]
    · cases e
      rfl

/-- Whatever the writer, a flush that succeeds leaves the same registers. -/
theorem aeFlush_ae {a : Unit} (e : aeFlush p s = .ok a t) : t.ae = flushRegs s.ae := by
  unfold aeFlush at e
  unfold flushRegs
  split at e
  · rename_i h
    rw [if_pos h]
    exact placeLead_ae e
  · rename_i h
    rw [if_neg h]
    cases e
    rfl

/-- The encoder of an open session keeps its invariant. -/
def EncoderKept (s t : State) : Prop :=
  (s.status.encOpen = true → EncoderInv s.ae) → t.status.encOpen = true → EncoderInv t.ae

theorem encoderKept_chains : Chains EncoderKept := ⟨fun _ h => h, fun _ _ _ h k => k ∘ h⟩

theorem encoderKept_of_same (he : t.ae = s.ae) (ho : t.status.encOpen = s.status.encOpen) : EncoderKept s t := by
  intro h hq
  rw [he]
  exact h (by rw [← ho]; exact hq)

theorem encodeBit_kept (hp : p.Ok) (m : Fin 15) (b : Bool) : KeepsOk EncoderKept (encodeBit p m b) := by
  intro s a t e h hq
  have hfr := (encodeBit_frame p m b).ok s a t e
  have hopen : t.status.encOpen = s.status.encOpen := hfr.parts .encOpen (by decide)
  have hi := h (by rw [← hopen]; exact hq)
  have hw := encodeWidth_bounds hp hi m
  have fin : ∀ (r : Encoder) (n off : Nat) (f : Cmd Unit), Narrowed s.ae r n off →
      (∀ u a' t', f u = .ok a' t' → t'.ae = u.ae) →
      (do aeFlush p; f : Cmd Unit) { s with ae := r } = .ok a t → EncoderInv t.ae := by
    intro r n off f hn hf e
    obtain ⟨_, u, e1, e2⟩ := cmd_bind_ok_iff.1 e
    rw [hf _ _ _ e2, aeFlush_ae e1]
    exact (flush_inv (hn.unflushed hi)).1
  have hmps : ∀ u a' t', updateMps p m u = .ok a' t' → t'.ae = u.ae := by rintro u a' t' h; cases h; rfl
  have hlps : ∀ u a' t', updateLps p m u = .ok a' t' → t'.ae = u.ae := by rintro u a' t' h; cases h; rfl
  have hs := rng_sub (r := s.ae.rng) (w := encodeWidth p s m) (by omega)
  unfold encodeBit at e
  simp only at e
  split at e
  · exact fin _ _ _ _ (encodeLps_narrowed hi hw.1 hw.2).1 hlps e
  · split at e
    · rename_i h256
      exact fin _ _ _ _ (encodeMpsShift_narrowed hi hw.2 (by rw [← hs]; exact h256)).1 hmps e
    · rename_i h256
      rw [hs] at h256
      have hn := (encodeMps_narrowed hi hw.2 (by omega)).1
      rw [hmps _ _ _ e]
      have hf := hn.unflushed hi
      exact ⟨hf.rng_ge, hf.rng_le, hi.debt_ge, hi.debt_le, hf.low_room, hf.carry_free⟩

theorem encodeBypass_kept (b : Bool) : KeepsOk EncoderKept (encodeBypass p b) := by
  intro s a t e h hq
  have hfr := (encodeBypass_frame p b).ok s a t e
  have hopen : t.status.encOpen = s.status.encOpen := hfr.parts .encOpen (by decide)
  have hi := h (by rw [← hopen]; exact hq)
  rw [aeFlush_ae e]
  exact (flush_inv ((encodeBypass_narrowed b hi).1.unflushed hi)).1

/-- The encoder's registers at the start of a session (rules R140, R21). -/
theorem start_inv (low : Word) (h : low = 0) : EncoderInv ⟨low, Config.rangeInit, 0xFF, 0, Config.debtInit⟩ := by
  subst h
  exact ⟨by decide, by decide, by decide, by decide, by decide, fun _ => by decide⟩

theorem aeStart_kept : KeepsOk EncoderKept (aeStart p) := by
  intro s a t e _ _
  obtain ⟨_, u, _, e2⟩ := cmd_bind_ok_iff.1 e
  cases e2
  exact start_inv 0 rfl

theorem aeTerm_kept : KeepsOk EncoderKept (aeTerm p) := by
  intro s a t e _ hq
  obtain ⟨_, u1, _, e⟩ := cmd_bind_ok_iff.1 e
  obtain ⟨_, u2, _, e⟩ := cmd_bind_ok_iff.1 e
  obtain ⟨_, u3, _, e⟩ := cmd_bind_ok_iff.1 e
  obtain ⟨_, u4, _, e⟩ := cmd_bind_ok_iff.1 e
  obtain ⟨_, u5, _, e⟩ := cmd_bind_ok_iff.1 e
  cases e
  cases hq

theorem command_encoder (hp : p.Ok) (i : Instr) : KeepsOk EncoderKept (commandOf p i).2 := by
  have blind : ∀ {ps : List Part}, Part.encoder ∉ ps → Part.encOpen ∉ ps → ∀ s t, OnlyChanges ps s t → EncoderKept s t :=
    fun h1 h2 s t h => encoderKept_of_same (h.parts .encoder h1) (h.parts .encOpen h2)
  have of_frame : ∀ {α : Type} {c : Cmd α} {ps : List Part}, Keeps (OnlyChanges ps) c → Part.encoder ∉ ps →
      Part.encOpen ∉ ps → KeepsOk EncoderKept c := fun h h1 h2 s a t e => blind h1 h2 s t (h.ok s a t e)
  exact commandOf_of_leaves
    { closed := closed_keepsOk encoderKept_chains (blind (by decide) (by decide))
      put := fun b => of_frame (putBit_frame p b) (by decide) (by decide)
      align := of_frame (putAlign_frame p) (by decide) (by decide)
      enc := encodeBit_kept hp
      byp := encodeBypass_kept
      start := aeStart_kept
      term := aeTerm_kept
      get := of_frame (getBit_frame p) (by decide) (by decide)
      getAlign := of_frame getAlign_frame (by decide) (by decide)
      dec := fun m => of_frame (decodeBit_frame p m) (by decide) (by decide)
      dby := of_frame (decodeBypass_frame p) (by decide) (by decide)
      dstart := of_frame (adStart_frame p) (by decide) (by decide)
      dterm := of_frame adTerm_frame (by decide) (by decide) } i

/-! ## The decoder -/

theorem collectBits_lt {f : Cmd Bool} {n k : Nat} {acc v : Word} (hk : n + k ≤ 32) (hacc : acc.toNat < 2 ^ k)
    (e : collectBits f n acc s = .ok v t) : v.toNat < 2 ^ (n + k) := by
  induction n generalizing acc s k with
  | zero =>
    cases e
    rwa [Nat.zero_add]
  | succ n ih =>
    rw [collectBits] at e
    obtain ⟨b, u, _, e2⟩ := cmd_bind_ok_iff.1 e
    have := ih (k := k + 1) (by omega) ?_ e2
    · rwa [show n + 1 + k = n + (k + 1) by omega]
    · have hs := shift_ofNat acc.toNat b
      rw [BitVec.ofNat_toNat, BitVec.setWidth_eq] at hs
      rw [hs, BitVec.toNat_ofNat, pow_succ]
      refine (Nat.mod_le _ _).trans_lt ?_
      cases b <;> simp only [bitNat] <;> simp <;> omega

/-- A pull that succeeds leaves the registers of `pulled` for some byte. -/
theorem pullNonneg_ok {a : Unit} (e : pullNonneg p { s with ad := d } = .ok a t) :
    ∃ v, v < 2 ^ 8 ∧ t.ad = (pulled s d v).ad := by
  unfold pullNonneg at e
  unfold pulled
  split at e
  · rename_i h
    obtain ⟨v, u, e1, e2⟩ := cmd_bind_ok_iff.1 e
    cases e2
    refine ⟨v.toNat, collectBits_lt (k := 0) (by omega) (by decide) e1, ?_⟩
    have had : u.ad = d := ((getBits_frame p 8).ok _ _ _ e1).parts .decoder (by decide)
    have h : 0 ≤ d.need.toInt := h
    rw [if_pos h]
    simp only [had]
    rw [BitVec.ofNat_toNat, BitVec.setWidth_eq]
  · rename_i h
    cases e
    have h : ¬0 ≤ d.need.toInt := h
    exact ⟨0, by decide, by rw [if_neg h]⟩

theorem pullAtZero_ok {a : Unit} (h0 : d.need.toInt ≤ 0) (e : pullAtZero p { s with ad := d } = .ok a t) :
    ∃ v, v < 2 ^ 8 ∧ t.ad = (pulled s d v).ad := by
  unfold pullAtZero at e
  split at e
  · rename_i h
    have h : d.need = 0 := h
    obtain ⟨v, u, e1, e2⟩ := cmd_bind_ok_iff.1 e
    cases e2
    refine ⟨v.toNat, collectBits_lt (k := 0) (by omega) (by decide) e1, ?_⟩
    have had : u.ad = { d with need := Config.needInit } :=
      ((getBits_frame p 8).ok _ _ _ e1).parts .decoder (by decide)
    rw [pulled_of_zero h]
    simp only [had]
    rw [BitVec.ofNat_toNat, BitVec.setWidth_eq]
  · rename_i h
    have h : ¬d.need = 0 := h
    cases e
    refine ⟨0, by decide, ?_⟩
    rw [pulled, if_neg (fun hge => h (BitVec.eq_of_toInt_eq (by simp; omega)))]

theorem pullBypass_ok {a : Unit} (h0 : d.need.toInt ≤ 0) (e : pullBypass p { s with ad := d } = .ok a t) :
    ∃ v, v < 2 ^ 8 ∧ t.ad = (pulled s d v).ad := by
  unfold pullBypass at e
  split at e
  · rename_i h
    have h : 0 ≤ d.need.toInt := h
    have hz : d.need = 0 := BitVec.eq_of_toInt_eq (by simp; omega)
    obtain ⟨v, u, e1, e2⟩ := cmd_bind_ok_iff.1 e
    cases e2
    refine ⟨v.toNat, collectBits_lt (k := 0) (by omega) (by decide) e1, ?_⟩
    have had : u.ad = { d with need := Config.needInit } :=
      ((getBits_frame p 8).ok _ _ _ e1).parts .decoder (by decide)
    rw [pulled_of_zero hz]
    simp only [had]
    rw [BitVec.ofNat_toNat, BitVec.setWidth_eq]
  · rename_i h
    have h : ¬0 ≤ d.need.toInt := h
    cases e
    exact ⟨0, by decide, by rw [pulled, if_neg h]⟩

/-- The numbers of a pull keep the decoder's invariant, and keep the code word in the interval. -/
theorem renormed_kept {base n rng v : Nat} (h : Renormed s t base n rng v) (hi : DecoderInv s.ad) (hn : n ≤ 8)
    (hr1 : 256 ≤ rng) (hr2 : rng ≤ 510) (hz : base % 2 ^ unknownBits s.ad = 0) :
    DecoderInv t.ad ∧ ∀ part, base < part * 128 → v < 2 ^ 8 → t.ad.pat.toNat < part * 2 ^ n * 128 := by
  have h1 := hi.need_ge
  have h2 := hi.need_le
  have hrng := h.rng
  have hpat := h.pat
  have hneed := h.need
  have hu : (unknownBits s.ad : Int) = s.ad.need.toInt + 8 := by unfold unknownBits; omega
  generalize unknownBits s.ad = u at *
  have hu7 : u ≤ 7 := by omega
  obtain ⟨q, rfl⟩ : ∃ q, base = 2 ^ u * q := ⟨_, by rw [Nat.mul_comm]; exact (Nat.div_mul_cancel (Nat.dvd_of_mod_eq_zero hz)).symm⟩
  have hinside : ∀ part, 2 ^ u * q < part * 128 → (2 ^ u * q + 2 ^ u) * 2 ^ n ≤ part * 2 ^ n * 128 := by
    intro part hlt
    have h128 : 128 = 2 ^ u * 2 ^ (7 - u) := by
      rw [← pow_add, show u + (7 - u) = 7 by omega]
      rfl
    have hq : q < part * 2 ^ (7 - u) := by
      rw [h128, Nat.mul_comm part, Nat.mul_assoc] at hlt
      have := Nat.lt_of_mul_lt_mul_left hlt
      rwa [Nat.mul_comm] at this
    rw [show 2 ^ u * q + 2 ^ u = 2 ^ u * (q + 1) by ring, show part * 2 ^ n * 128 = part * 128 * 2 ^ n by ring]
    refine Nat.mul_le_mul_right _ ?_
    rw [h128, show part * (2 ^ u * 2 ^ (7 - u)) = 2 ^ u * (part * 2 ^ (7 - u)) by ring]
    exact Nat.mul_le_mul_left _ hq
  by_cases hge : 0 ≤ s.ad.need.toInt + n
  · rw [if_pos hge] at hpat hneed
    generalize hk : (s.ad.need.toInt + n).toNat = k at *
    have hkn : u + n = k + 8 := by omega
    have hk32 : k + 8 ≤ 15 := by omega
    refine ⟨⟨by omega, by omega, by omega, by omega, ?_⟩, ?_⟩
    · have : unknownBits t.ad = k := by unfold unknownBits; omega
      rw [this, hpat, Nat.mod_mod_of_dvd _ (Nat.pow_dvd_pow 2 (by omega : k ≤ 32))]
      rw [show 2 ^ u * q * 2 ^ n + v * 2 ^ k = (2 ^ 8 * q + v) * 2 ^ k by
        rw [show 2 ^ u * q * 2 ^ n = 2 ^ (u + n) * q by rw [pow_add]; ring, hkn, pow_add]; ring]
      exact Nat.mul_mod_left _ _
    · intro part hlt hv
      have h3 := hinside part hlt
      rw [hpat]
      refine (Nat.mod_le _ _).trans_lt (Nat.lt_of_lt_of_le ?_ h3)
      rw [Nat.add_mul, ← pow_add, hkn, pow_add]
      have : v * 2 ^ k < 2 ^ 8 * 2 ^ k := Nat.mul_lt_mul_of_pos_right hv (by positivity)
      rw [Nat.mul_comm (2 ^ k)]
      omega
  · rw [if_neg hge] at hpat hneed
    rw [Nat.add_zero] at hpat
    refine ⟨⟨by omega, by omega, by omega, by omega, ?_⟩, ?_⟩
    · have : unknownBits t.ad = u + n := by unfold unknownBits; omega
      rw [this, hpat, Nat.mod_mod_of_dvd _ (Nat.pow_dvd_pow 2 (by omega : u + n ≤ 32))]
      rw [show 2 ^ u * q * 2 ^ n = q * 2 ^ (u + n) by rw [pow_add]; ring]
      exact Nat.mul_mod_left _ _
    · intro part hlt hv
      have h3 := hinside part hlt
      rw [hpat]
      refine (Nat.mod_le _ _).trans_lt (Nat.lt_of_lt_of_le ?_ h3)
      rw [Nat.add_mul]
      have : 0 < 2 ^ u * 2 ^ n := by positivity
      omega

theorem adBase_low (hp : p.Ok) (hi : DecoderInv s.ad) (m : Fin 15) : adBase p s m % 2 ^ unknownBits s.ad = 0 := by
  have hz := hi.low_zero
  have h1 := hi.need_ge
  have h2 := hi.need_le
  have hu7 : unknownBits s.ad ≤ 7 := by unfold unknownBits; omega
  unfold adBase
  split
  · refine (Nat.dvd_iff_mod_eq_zero ..).1 (Nat.dvd_sub (Nat.dvd_of_mod_eq_zero hz) ?_)
    exact Dvd.dvd.mul_left (show 2 ^ unknownBits s.ad ∣ 2 ^ 7 from Nat.pow_dvd_pow 2 hu7) _
  · exact hz

theorem adPart_bounds (hp : p.Ok) (hi : DecoderInv s.ad) (m : Fin 15) :
    256 ≤ adPart p s m * 2 ^ adShift p s m ∧ adPart p s m * 2 ^ adShift p s m ≤ 510 := by
  obtain ⟨hw2, hw⟩ := decodeWidth_bounds hp hi m
  have hle := hi.rng_le
  unfold adPart adShift
  split
  · exact (renorm_bounds _ hw2).2
  · split <;> omega

/-- A context bin that succeeds keeps the decoder's invariant, and keeps the code word in the interval (rule R176). -/
theorem decodeBit_inv (hp : p.Ok) {m : Fin 15} {b : Bool} (e : decodeBit p m s = .ok b t) (hi : DecoderInv s.ad) :
    DecoderInv t.ad ∧ (PatternInside s.ad → PatternInside t.ad) := by
  obtain ⟨hneed, hpat, hrng⟩ := adRegs_numbers m hp hi
  obtain ⟨hb1, hb2⟩ := adPart_bounds hp hi m
  obtain ⟨hw2, hw⟩ := decodeWidth_bounds hp hi m
  have hs := rng_sub (r := s.ad.rng) (w := decodeWidth p s m) (by omega)
  have hn1 := hi.need_ge
  have hn2 := hi.need_le
  have hn7 := adShift_le hp hi m
  have key : (∃ v, v < 2 ^ 8 ∧ t.ad = (pulled s (adRegs p s m) v).ad) → DecoderInv t.ad ∧
      (PatternInside s.ad → PatternInside t.ad) := by
    rintro ⟨v, hv, had⟩
    have hren := pulled_renormed (s := s) (d := adRegs p s m) (v := v) hneed (by omega) hpat
    rw [hrng] at hren
    have hk := renormed_kept hren hi (by omega) hb1 hb2 (adBase_low hp hi m)
    refine ⟨by rw [had]; exact hk.1, fun hin => ?_⟩
    unfold PatternInside
    rw [had, hren.rng]
    refine hk.2 _ ?_ hv
    unfold PatternInside at hin
    unfold adBase adPart
    by_cases hl : adLps p s m = true
    · rw [if_pos hl, if_pos hl]
      unfold adLps at hl
      simp only [decide_eq_true_eq] at hl
      omega
    · rw [if_neg hl, if_neg hl]
      unfold adLps at hl
      simpa using hl
  apply key
  have upd : ∀ (f : Cmd Bool) (u : State), (∀ u b' t', f u = .ok b' t' → t'.ad = u.ad) → f u = .ok b t → t.ad = u.ad :=
    fun f u h e => h _ _ _ e
  have hmps : ∀ x u b' t', (do updateMps p m; pure x : Cmd Bool) u = .ok b' t' → t'.ad = u.ad := by
    rintro x u b' t' h; cases h; rfl
  have hlps : ∀ x u b' t', (do updateLps p m; pure x : Cmd Bool) u = .ok b' t' → t'.ad = u.ad := by
    rintro x u b' t' h; cases h; rfl
  unfold decodeBit at e
  simp only [scaledRange_toNat, hs] at e
  unfold adRegs
  unfold adShift at hneed hn7
  by_cases hl : adLps p s m = true
  · have hge := hl
    unfold adLps at hge
    simp only [decide_eq_true_eq] at hge
    rw [if_neg (by omega)] at e
    obtain ⟨_, u, e1, e2⟩ := cmd_bind_ok_iff.1 e
    obtain ⟨v, hv, h⟩ := pullNonneg_ok e1
    simp only [if_pos hl]
    exact ⟨v, hv, (hlps _ _ _ _ e2).trans h⟩
  · have hlt := hl
    unfold adLps at hlt
    simp only [decide_eq_true_eq, not_le] at hlt
    rw [if_pos hlt] at e
    simp only [if_neg hl]
    by_cases h256 : s.ad.rng.toNat - (decodeWidth p s m).toNat < 256
    · rw [if_pos h256] at e
      obtain ⟨_, u, e1, e2⟩ := cmd_bind_ok_iff.1 e
      have h0 : (decodeMpsShift s.ad (s.ad.rng - (decodeWidth p s m).setWidth 9)).need.toInt ≤ 0 := by
        have := need_add (d := s.ad.need) (n := 1) (by omega) hn1 hn2
        change (s.ad.need + BitVec.ofNat 8 1).toInt ≤ 0
        omega
      obtain ⟨v, hv, h⟩ := pullAtZero_ok h0 e1
      rw [if_pos h256]
      exact ⟨v, hv, (hmps _ _ _ _ e2).trans h⟩
    · rw [if_neg h256] at e
      rw [if_neg h256]
      refine ⟨0, by decide, ?_⟩
      rw [hmps _ _ _ _ e, pulled, if_neg (by simp only; omega)]

/-- A bypass bin that succeeds keeps the decoder's invariant and the code word in the interval (rules R172, R176). -/
theorem decodeBypass_inv {b : Bool} (e : decodeBypass p s = .ok b t) (hi : DecoderInv s.ad) :
    DecoderInv t.ad ∧ (PatternInside s.ad → PatternInside t.ad) := by
  have hn1 := hi.need_ge
  have hn2 := hi.need_le
  have hneed : (s.ad.need + 1 : BitVec 8).toInt = s.ad.need.toInt + 1 := need_add (n := 1) (by omega) hn1 hn2
  unfold decodeBypass at e
  rw [cmd_bind_of_ok (cmd_modify _ _)] at e
  obtain ⟨_, u, e1, e2⟩ := cmd_bind_ok_iff.1 e
  obtain ⟨v, hv, had⟩ := pullBypass_ok (by simp only [hneed]; omega) e1
  have hren := pulled_renormed (s := s) (d := { s.ad with pat := s.ad.pat <<< 1, need := s.ad.need + 1 }) (v := v)
    (base := s.ad.pat.toNat) (n := 1) hneed (by simp only [hneed]; omega)
    (by simp only; rw [BitVec.toNat_shiftLeft, Nat.shiftLeft_eq])
  obtain ⟨hinv, hlt⟩ := renormed_kept hren hi (by omega) hi.rng_ge hi.rng_le hi.low_zero
  have hrng := hren.rng
  rw [← had] at hinv hlt hrng
  simp only at hrng
  unfold compareBypass at e2
  split at e2
  · rename_i hge
    rw [scaledRange_toNat] at hge
    cases e2
    have hsub : (u.ad.pat - scaledRange u.ad.rng).toNat = u.ad.pat.toNat - u.ad.rng.toNat * 128 := by
      rw [BitVec.toNat_sub_of_le (by rw [BitVec.le_def, scaledRange_toNat]; exact hge), scaledRange_toNat]
    refine ⟨⟨hinv.rng_ge, hinv.rng_le, hinv.need_ge, hinv.need_le, ?_⟩, fun hin => ?_⟩
    · have h1 := hinv.need_ge
      have h2 := hinv.need_le
      have hu7 : unknownBits u.ad ≤ 7 := by unfold unknownBits; omega
      change (u.ad.pat - scaledRange u.ad.rng).toNat % 2 ^ unknownBits u.ad = 0
      rw [hsub]
      refine (Nat.dvd_iff_mod_eq_zero ..).1 (Nat.dvd_sub (Nat.dvd_of_mod_eq_zero hinv.low_zero) ?_)
      exact Dvd.dvd.mul_left (show 2 ^ unknownBits u.ad ∣ 2 ^ 7 from Nat.pow_dvd_pow 2 hu7) _
    · have h3 := hlt _ hin hv
      change (u.ad.pat - scaledRange u.ad.rng).toNat < u.ad.rng.toNat * 128
      rw [hsub]
      omega
  · rename_i hge
    rw [scaledRange_toNat] at hge
    cases e2
    exact ⟨hinv, fun _ => by unfold PatternInside; omega⟩

/-- The decoder of an open session keeps its invariant. -/
def DecoderKept (s t : State) : Prop :=
  (s.status.decOpen = true → DecoderInv s.ad) → t.status.decOpen = true → DecoderInv t.ad

theorem decoderKept_chains : Chains DecoderKept := ⟨fun _ h => h, fun _ _ _ h k => k ∘ h⟩

theorem decoderKept_of_same (he : t.ad = s.ad) (ho : t.status.decOpen = s.status.decOpen) : DecoderKept s t := by
  intro h hq
  rw [he]
  exact h (by rw [← ho]; exact hq)

/-- The decoder's registers at the start of a session (rules R170, R23). -/
theorem startDec_inv (pat : Word) : DecoderInv ⟨pat, Config.rangeInit, Config.needInit⟩ where
  rng_ge := show 256 ≤ Config.rangeInit.toNat by decide
  rng_le := show Config.rangeInit.toNat ≤ 510 by decide
  need_ge := show -8 ≤ Config.needInit.toInt by decide
  need_le := show Config.needInit.toInt ≤ -1 by decide
  low_zero := by
    have : (Config.needInit.toInt + 8).toNat = 0 := by decide
    unfold unknownBits
    simp only [this, Nat.pow_zero, Nat.mod_one]

theorem adStart_kept : KeepsOk DecoderKept (adStart p) := by
  intro s a t e _ _
  obtain ⟨_, u, _, e⟩ := cmd_bind_ok_iff.1 e
  obtain ⟨pat, w, _, e⟩ := cmd_bind_ok_iff.1 e
  cases e
  exact startDec_inv pat

theorem adTerm_kept : KeepsOk DecoderKept adTerm := by
  intro s a t e _ hq
  unfold adTerm at e
  simp only at e
  split at e
  · cases e
    cases hq
  · cases e

theorem command_decoder (hp : p.Ok) (i : Instr) : KeepsOk DecoderKept (commandOf p i).2 := by
  have blind : ∀ {ps : List Part}, Part.decoder ∉ ps → Part.decOpen ∉ ps → ∀ s t, OnlyChanges ps s t → DecoderKept s t :=
    fun h1 h2 s t h => decoderKept_of_same (h.parts .decoder h1) (h.parts .decOpen h2)
  have of_frame : ∀ {α : Type} {c : Cmd α} {ps : List Part}, Keeps (OnlyChanges ps) c → Part.decoder ∉ ps →
      Part.decOpen ∉ ps → KeepsOk DecoderKept c := fun h h1 h2 s a t e => blind h1 h2 s t (h.ok s a t e)
  refine commandOf_of_leaves
    { closed := closed_keepsOk decoderKept_chains (blind (by decide) (by decide))
      put := fun b => of_frame (putBit_frame p b) (by decide) (by decide)
      align := of_frame (putAlign_frame p) (by decide) (by decide)
      enc := fun m b => of_frame (encodeBit_frame p m b) (by decide) (by decide)
      byp := fun b => of_frame (encodeBypass_frame p b) (by decide) (by decide)
      start := of_frame (aeStart_frame p) (by decide) (by decide)
      term := of_frame (aeTerm_frame p) (by decide) (by decide)
      get := of_frame (getBit_frame p) (by decide) (by decide)
      getAlign := of_frame getAlign_frame (by decide) (by decide)
      dec := fun m s b t e h hq => ?_
      dby := fun s b t e h hq => ?_
      dstart := adStart_kept
      dterm := adTerm_kept } i
  · have ho : t.status.decOpen = s.status.decOpen := ((decodeBit_frame p m).ok s b t e).parts .decOpen (by decide)
    exact (decodeBit_inv hp e (h (by rw [← ho]; exact hq))).1
  · have ho : t.status.decOpen = s.status.decOpen := ((decodeBypass_frame p).ok s b t e).parts .decOpen (by decide)
    exact (decodeBypass_inv e (h (by rw [← ho]; exact hq))).1

end Sys2Proof.Machine
end

