-- ==== Sys2Proof/Laws/Scan.lean ====
section
/-! SUPPORT. The scan orders are permutations of the raster indices (rules R255 to R257). -/

namespace Sys2Proof.Machine

open Sys2Proof

/-- A position lies on a diagonal of an `n` by `n` array exactly when its coordinates say so. -/
theorem mem_diagonal {n d r c : Nat} (hn : 1 ≤ n) : (r, c) ∈ diagonal n d ↔ r < n ∧ c < n ∧ r + c = d := by
  simp only [diagonal, List.mem_filter, List.mem_map, List.mem_reverse, List.mem_range, Prod.mk.injEq,
    decide_eq_true_eq]
  constructor
  · rintro ⟨⟨x, hx, rfl, rfl⟩, hc⟩
    omega
  · rintro ⟨h1, h2, rfl⟩
    exact ⟨⟨r, by omega, rfl, by omega⟩, h2⟩

theorem diagonal_nodup (n d : Nat) : (diagonal n d).Nodup := by
  apply List.Nodup.filter
  apply List.Nodup.map
  · intro a b h
    exact (Prod.mk.inj h).1
  · exact List.nodup_reverse.2 List.nodup_range

theorem mem_diagScan {n r c : Nat} (hn : 1 ≤ n) : (r, c) ∈ diagScan n ↔ r < n ∧ c < n := by
  simp only [diagScan, List.mem_flatMap, List.mem_range, mem_diagonal hn]
  constructor
  · rintro ⟨d, _, h1, h2, _⟩; exact ⟨h1, h2⟩
  · rintro ⟨h1, h2⟩; exact ⟨r + c, by omega, h1, h2, rfl⟩

theorem diagScan_nodup {n : Nat} (hn : 1 ≤ n) : (diagScan n).Nodup := by
  unfold diagScan
  rw [List.nodup_flatMap]
  refine ⟨fun d _ => diagonal_nodup n d, ?_⟩
  refine List.Pairwise.imp (R := fun a b => a ≠ b) ?_ List.nodup_range
  intro a b hab x hx hy
  obtain ⟨r, c⟩ := x
  have := (mem_diagonal hn).1 hx
  have := (mem_diagonal hn).1 hy
  omega

/-- The raster indices of a list of distinct positions of the array, when it has them all, are all the indices. -/
theorem positions_perm {n : Nat} {ps : List (Nat × Nat)} (hd : ps.Nodup) (hm : ∀ r c, (r, c) ∈ ps ↔ r < n ∧ c < n) :
    (ps.map fun p => p.1 * n + p.2).Perm (List.range (n * n)) := by
  rw [List.perm_ext_iff_of_nodup _ List.nodup_range]
  · intro i
    simp only [List.mem_map, List.mem_range]
    constructor
    · rintro ⟨⟨r, c⟩, h, rfl⟩
      obtain ⟨h1, h2⟩ := (hm r c).1 h
      calc r * n + c < r * n + n := by omega
        _ = (r + 1) * n := by ring
        _ ≤ n * n := Nat.mul_le_mul_right n h1
    · intro hi
      have hn : 0 < n := Nat.pos_of_ne_zero (by rintro rfl; simp at hi)
      exact ⟨(i / n, i % n), (hm _ _).2 ⟨Nat.div_lt_of_lt_mul hi, Nat.mod_lt i hn⟩, Nat.div_add_mod' i n⟩
  · refine List.Nodup.map_on ?_ hd
    rintro ⟨r, c⟩ h ⟨r', c'⟩ h' e
    obtain ⟨_, h2⟩ := (hm r c).1 h
    obtain ⟨_, h4⟩ := (hm r' c').1 h'
    simp only at e
    have hn : 0 < n := by omega
    have e1 : (r * n + c) / n = (r' * n + c') / n := by rw [e]
    have e2 : (r * n + c) % n = (r' * n + c') % n := by rw [e]
    rw [Nat.mul_add_mod_of_lt h2, Nat.mul_add_mod_of_lt h4] at e2
    rw [Nat.mul_comm r, Nat.mul_comm r', Nat.mul_add_div hn, Nat.mul_add_div hn, Nat.div_eq_of_lt h2,
      Nat.div_eq_of_lt h4] at e1
    simp only [Prod.mk.injEq]
    omega

/-- Every scan order is a permutation of the raster indices (rule R257: "Each is a permutation"). -/
theorem scanSource_perm (pm : PredMode) {n : Nat} (hn : 1 ≤ n) :
    (scanSource pm n).Perm (List.range (n * n)) := by
  have hdiag := positions_perm (diagScan_nodup hn) fun r c => mem_diagScan hn
  cases pm with
  | dc => exact hdiag
  | planar => exact hdiag
  | vertical => exact List.Perm.refl _
  | horizontal =>
    have : scanSource .horizontal n =
        ((List.range (n * n)).map fun i => (i % n, i / n)).map fun p => p.1 * n + p.2 := by
      simp [scanSource, grid, Function.comp_def]
    rw [this]
    apply positions_perm
    · refine List.Nodup.map_on ?_ List.nodup_range
      intro a _ b _ e
      simp only [Prod.mk.injEq] at e
      rw [← Nat.div_add_mod a n, ← Nat.div_add_mod b n, e.1, e.2]
    · intro r c
      simp only [List.mem_map, List.mem_range, Prod.mk.injEq]
      constructor
      · rintro ⟨i, hi, rfl, rfl⟩
        exact ⟨Nat.mod_lt i hn, Nat.div_lt_of_lt_mul hi⟩
      · rintro ⟨h1, h2⟩
        refine ⟨c * n + r, ?_, Nat.mul_add_mod_of_lt h1, ?_⟩
        · calc c * n + r < c * n + n := by omega
            _ = (c + 1) * n := by ring
            _ ≤ n * n := Nat.mul_le_mul_right n h2
        · rw [Nat.mul_comm c, Nat.mul_add_div hn, Nat.div_eq_of_lt h1, Nat.add_zero]

theorem scanSource_length (pm : PredMode) {n : Nat} (hn : 1 ≤ n) : (scanSource pm n).length = n * n := by
  rw [(scanSource_perm pm hn).length_eq, List.length_range]

theorem scanSource_nodup (pm : PredMode) {n : Nat} (hn : 1 ≤ n) : (scanSource pm n).Nodup :=
  (scanSource_perm pm hn).nodup_iff.2 List.nodup_range

theorem mem_scanSource (pm : PredMode) {n i : Nat} (hn : 1 ≤ n) : i ∈ scanSource pm n ↔ i < n * n := by
  rw [(scanSource_perm pm hn).mem_iff, List.mem_range]

@[simp] theorem scanForward_length (pm : PredMode) {n : Nat} (hn : 1 ≤ n) (qs : List Word) :
    (scanForward pm n qs).length = n * n := by simp [scanForward, scanSource_length pm hn]

@[simp] theorem scanInverse_length (pm : PredMode) (n : Nat) (xs : List Word) :
    (scanInverse pm n xs).length = n * n := by simp [scanInverse]

/-- `SCANI` after `SCANF` on lists. -/
theorem scanInverse_scanForward (pm : PredMode) {n : Nat} (hn : 1 ≤ n) {qs : List Word} (h : qs.length = n * n) :
    scanInverse pm n (scanForward pm n qs) = qs := by
  apply List.ext_getElem
  · rw [scanInverse_length, h]
  · intro j h1 h2
    have hj : j ∈ scanSource pm n := (mem_scanSource pm hn).2 (by omega)
    have hlt := List.idxOf_lt_length_of_mem hj
    simp only [scanInverse, List.getElem_map, List.getElem_range, scanForward, List.getD_eq_getElem?_getD]
    rw [List.getElem?_map, List.getElem?_eq_getElem hlt, List.getElem_idxOf hlt]
    simp [h2]

/-- `SCANF` after `SCANI` on lists. -/
theorem scanForward_scanInverse (pm : PredMode) {n : Nat} (hn : 1 ≤ n) {xs : List Word} (h : xs.length = n * n) :
    scanForward pm n (scanInverse pm n xs) = xs := by
  apply List.ext_getElem
  · rw [scanForward_length pm hn, h]
  · intro i h1 h2
    have hi : i < (scanSource pm n).length := by rw [scanSource_length pm hn]; omega
    have hs : (scanSource pm n)[i] < n * n := (mem_scanSource pm hn).1 (List.getElem_mem hi)
    simp only [scanForward, List.getElem_map, scanInverse, List.getD_eq_getElem?_getD]
    rw [List.getElem?_map, List.getElem?_range hs]
    simp only [Option.map_some, Option.getD_some]
    rw [(scanSource_nodup pm hn).idxOf_getElem i hi]
    simp [h2]

end Sys2Proof.Machine
end

