-- ==== Sys2Proof/Laws/Specs.lean ====
section
/-! SUPPORT. One specification per shared operation: what it answers, and, read backwards, all it can have done. -/

namespace Sys2Proof.Machine

open Sys2Proof Sys2Proof.Safety

variable {s t : State}

/-! ## Checks -/

theorem checkCount_of_le {n : BitVec 8} (h : n.toNat ≤ 32) : checkCount n s = .ok () s := by
  have : n.toNat ≤ Config.regW := h
  simp [checkCount, this]

theorem checkCount_ok {n : BitVec 8} (h : checkCount n s = .ok () t) : n.toNat ≤ 32 ∧ s = t := by
  unfold checkCount at h
  split at h
  · rename_i hn
    simp only [cmd_pure, EStateM.Result.ok.injEq, true_and] at h
    exact ⟨hn, h⟩
  · simp at h

theorem cfgN_of_ok {h : PartSize} (hb : blockSizeOk s.cfg.bs.toNat = true) :
    cfgN h s = .ok (partSize s.cfg.bs.toNat h) s := by simp [cfgN, hb]

theorem cfgN_of_bad {h : PartSize} (hb : blockSizeOk s.cfg.bs.toNat = false) :
    cfgN h s = .error (.fault .configError) s := by simp [cfgN, hb]

theorem cfgN_ok {h : PartSize} {n : Nat} (e : cfgN h s = .ok n t) :
    blockSizeOk s.cfg.bs.toNat = true ∧ n = partSize s.cfg.bs.toNat h ∧ s = t := by
  unfold cfgN at e
  split at e
  · rename_i hb
    simp only [EStateM.Result.ok.injEq] at e
    exact ⟨hb, e.1.symm, e.2⟩
  · simp at e

/-- Rule R313: a partition size is between 1 and `NMAX`. -/
theorem partSize_bounds {bs : Nat} (hb : blockSizeOk bs = true) (h : PartSize) :
    1 ≤ partSize bs h ∧ partSize bs h ≤ 64 := by
  simp only [blockSizeOk, Config.nmax, Bool.and_eq_true, decide_eq_true_eq] at hb
  obtain ⟨⟨h1, h2⟩, _⟩ := hb
  have h2 := of_decide_eq_true h2
  cases h <;> simp only [partSize] <;> omega

theorem partSize_sq_le {bs : Nat} (hb : blockSizeOk bs = true) (h : PartSize) :
    partSize bs h * partSize bs h ≤ 4096 := by
  have := (partSize_bounds hb h).2
  exact le_trans (Nat.mul_le_mul this this) (by decide)

theorem checkQp_of_le (h : s.cfg.qp.toNat ≤ 31) : checkQp s = .ok () s := by
  have : ¬ Config.qpMax < s.cfg.qp.toNat := by simpa [Config.qpMax] using h
  simp [checkQp, this]

theorem checkQp_of_gt (h : 31 < s.cfg.qp.toNat) : checkQp s = .error (.fault .configError) s := by
  have : Config.qpMax < s.cfg.qp.toNat := h
  simp [checkQp, this]

theorem checkQp_ok (e : checkQp s = .ok () t) : s.cfg.qp.toNat ≤ 31 ∧ s = t := by
  unfold checkQp at e
  split at e
  · simp at e
  · rename_i h
    simp only [EStateM.Result.ok.injEq, true_and] at e
    exact ⟨by simpa [Config.qpMax] using h, e⟩

theorem checkEgValue_of_ne (h : s.arg ≠ 0xFFFFFFFF) : checkEgValue s = .ok () s := if_neg h

theorem checkEgValue_of_eq (h : s.arg = 0xFFFFFFFF) : checkEgValue s = .error (.fault .operandRange) s := if_pos h

/-! ## Buffer reads -/

theorem readBytes_of_some {b : BufName} {get : State → Cells Byte} {n : Nat} {xs : List Byte}
    (h : cellsReadRange (get s) 0 n = some xs) : readBytes b get n s = .ok xs s := by simp [readBytes, h]

theorem readBytes_of_none {b : BufName} {get : State → Cells Byte} {n : Nat}
    (h : cellsReadRange (get s) 0 n = none) : readBytes b get n s = .error (.refuse (.unwrittenBuffer b)) s := by
  simp [readBytes, h]

theorem readBytes_ok {b : BufName} {get : State → Cells Byte} {n : Nat} {xs : List Byte}
    (e : readBytes b get n s = .ok xs t) : cellsReadRange (get s) 0 n = some xs ∧ s = t := by
  unfold readBytes at e
  split at e
  · rename_i h; simp only [EStateM.Result.ok.injEq] at e; exact ⟨e.1 ▸ h, e.2⟩
  · simp at e

theorem readWords_of_some {b : BufName} {get : State → Cells Word} {n : Nat} {xs : List Word}
    (h : cellsReadRange (get s) 0 n = some xs) : readWords b get n s = .ok xs s := by simp [readWords, h]

theorem readWords_of_none {b : BufName} {get : State → Cells Word} {n : Nat}
    (h : cellsReadRange (get s) 0 n = none) : readWords b get n s = .error (.refuse (.unwrittenBuffer b)) s := by
  simp [readWords, h]

theorem readWords_ok {b : BufName} {get : State → Cells Word} {n : Nat} {xs : List Word}
    (e : readWords b get n s = .ok xs t) : cellsReadRange (get s) 0 n = some xs ∧ s = t := by
  unfold readWords at e
  split at e
  · rename_i h; simp only [EStateM.Result.ok.injEq] at e; exact ⟨e.1 ▸ h, e.2⟩
  · simp at e

theorem readReals_of_eq {b : BufName} {get : State → Option RealBuf} {n : Nat} {xs : List Config.RealVal}
    (h : get s = some ⟨n, xs⟩) : readReals b get n s = .ok xs s := by simp [readReals, h]

theorem readReals_ok {b : BufName} {get : State → Option RealBuf} {n : Nat} {xs : List Config.RealVal}
    (e : readReals b get n s = .ok xs t) : get s = some ⟨n, xs⟩ ∧ s = t := by
  unfold readReals at e
  split at e
  · rename_i r h
    split at e
    · rename_i hn
      simp only [EStateM.Result.ok.injEq] at e
      refine ⟨?_, e.2⟩
      rw [h, ← hn, ← e.1]
    · simp at e
  · simp at e

@[simp] theorem grid_length {α : Type} (n : Nat) (f : Nat → Nat → α) : (grid n f).length = n * n := by simp [grid]

theorem grid_getElem {α : Type} (n : Nat) (f : Nat → Nat → α) (i : Nat) (h : i < (grid n f).length) :
    (grid n f)[i] = f (i / n) (i % n) := by simp [grid]

/-! ## The data path, read backwards: all a completed command can have done -/

theorem pred_ok {pm : PredMode} {h : PartSize} (e : pred pm h s = .ok () t) :
    ∃ n vs, n = partSize s.cfg.bs.toNat h ∧ n ≤ 64 ∧ vs.length = n * n ∧
      t = { s with predb := cellsFill s.predb vs } := by
  obtain ⟨n, s1, e1, e⟩ := cmd_bind_ok_iff.1 e
  obtain ⟨hb, hn, rfl⟩ := cfgN_ok e1
  obtain ⟨x, s2, e2, e⟩ := cmd_bind_ok_iff.1 e
  simp only [cmd_get, EStateM.Result.ok.injEq] at e2
  obtain ⟨rfl, rfl⟩ := e2
  obtain ⟨l1, s3, e3, e⟩ := cmd_bind_ok_iff.1 e
  obtain ⟨l2, s4, e4, e⟩ := cmd_bind_ok_iff.1 e
  have h3 := border_same e3
  have h4 := border_same e4
  subst h3
  subst h4
  simp only [cmd_modify, EStateM.Result.ok.injEq, true_and] at e
  exact ⟨n, _, hn, hn ▸ (partSize_bounds hb h).2, grid_length _ _, e.symm⟩
where
  border_same {a : Bool} {b : BufName} {get : State → Cells Byte} {n : Nat} {s t : State} {xs : List Nat}
      (e : border a b get n s = .ok xs t) : s = t := by
    unfold border at e
    split at e
    · obtain ⟨ys, s1, e1, e⟩ := cmd_bind_ok_iff.1 e
      obtain ⟨_, rfl⟩ := readBytes_ok e1
      simp only [cmd_pure, EStateM.Result.ok.injEq] at e
      exact e.2
    · simp only [cmd_pure, EStateM.Result.ok.injEq] at e
      exact e.2

theorem resid_ok {h : PartSize} (e : resid h s = .ok () t) :
    ∃ n os ps, n = partSize s.cfg.bs.toNat h ∧ n ≤ 64 ∧ cellsReadRange s.orig 0 (n * n) = some os ∧
      cellsReadRange s.predb 0 (n * n) = some ps ∧
      t = { s with resd := cellsFill s.resd (List.zipWith residual os ps) } := by
  obtain ⟨n, s1, e1, e⟩ := cmd_bind_ok_iff.1 e
  obtain ⟨hb, hn, rfl⟩ := cfgN_ok e1
  obtain ⟨os, s2, e2, e⟩ := cmd_bind_ok_iff.1 e
  obtain ⟨h2, rfl⟩ := readBytes_ok e2
  obtain ⟨ps, s3, e3, e⟩ := cmd_bind_ok_iff.1 e
  obtain ⟨h3, rfl⟩ := readBytes_ok e3
  simp only [cmd_modify, EStateM.Result.ok.injEq, true_and] at e
  exact ⟨n, os, ps, hn, hn ▸ (partSize_bounds hb h).2, h2, h3, e.symm⟩

theorem txf_ok {p : Config.Params} {pm : PredMode} {h : PartSize} (e : txf p pm h s = .ok () t) :
    ∃ n f, n ≤ 64 ∧ t = { s with coef := some ⟨n, grid n f⟩ } := by
  obtain ⟨n, s1, e1, e⟩ := cmd_bind_ok_iff.1 e
  obtain ⟨hb, hn, rfl⟩ := cfgN_ok e1
  obtain ⟨xs, s2, e2, e⟩ := cmd_bind_ok_iff.1 e
  obtain ⟨h2, rfl⟩ := readWords_ok e2
  simp only [cmd_modify, EStateM.Result.ok.injEq, true_and] at e
  exact ⟨n, _, hn ▸ (partSize_bounds hb h).2, e.symm⟩

theorem txi_ok {p : Config.Params} {pm : PredMode} {h : PartSize} (e : txi p pm h s = .ok () t) :
    ∃ n f, n ≤ 64 ∧ t = { s with rres := some ⟨n, grid n f⟩ } := by
  obtain ⟨n, s1, e1, e⟩ := cmd_bind_ok_iff.1 e
  obtain ⟨hb, hn, rfl⟩ := cfgN_ok e1
  obtain ⟨xs, s2, e2, e⟩ := cmd_bind_ok_iff.1 e
  obtain ⟨h2, rfl⟩ := readReals_ok e2
  simp only [cmd_modify, EStateM.Result.ok.injEq, true_and] at e
  exact ⟨n, _, hn ▸ (partSize_bounds hb h).2, e.symm⟩

theorem quant_ok {p : Config.Params} {h : PartSize} (e : quant p h s = .ok () t) :
    ∃ n ys, n = partSize s.cfg.bs.toNat h ∧ n ≤ 64 ∧ s.coef = some ⟨n, ys⟩ ∧
      t = { s with
        qidx := cellsFill s.qidx
          ((ys.map fun y => p.num.quant y (p.num.step s.cfg.qp.toNat)).map (BitVec.ofInt 32)) } := by
  obtain ⟨n, s1, e1, e⟩ := cmd_bind_ok_iff.1 e
  obtain ⟨hb, hn, rfl⟩ := cfgN_ok e1
  obtain ⟨_, s2, e2, e⟩ := cmd_bind_ok_iff.1 e
  obtain ⟨_, rfl⟩ := checkQp_ok e2
  obtain ⟨ys, s3, e3, e⟩ := cmd_bind_ok_iff.1 e
  obtain ⟨h3, rfl⟩ := readReals_ok e3
  obtain ⟨x, s4, e4, e⟩ := cmd_bind_ok_iff.1 e
  simp only [cmd_get, EStateM.Result.ok.injEq] at e4
  obtain ⟨rfl, rfl⟩ := e4
  refine ⟨n, ys, hn, hn ▸ (partSize_bounds hb h).2, h3, ?_⟩
  split at e
  · simp at e
  · simp only [cmd_modify, EStateM.Result.ok.injEq, true_and] at e
    exact e.symm

theorem deq_ok {p : Config.Params} {h : PartSize} (e : deq p h s = .ok () t) :
    ∃ n qs f, n ≤ 64 ∧ cellsReadRange s.qidx 0 (n * n) = some qs ∧
      t = { s with dcoef := some ⟨n, qs.map f⟩ } := by
  obtain ⟨n, s1, e1, e⟩ := cmd_bind_ok_iff.1 e
  obtain ⟨hb, hn, rfl⟩ := cfgN_ok e1
  obtain ⟨_, s2, e2, e⟩ := cmd_bind_ok_iff.1 e
  obtain ⟨_, rfl⟩ := checkQp_ok e2
  obtain ⟨qs, s3, e3, e⟩ := cmd_bind_ok_iff.1 e
  obtain ⟨h3, rfl⟩ := readWords_ok e3
  simp only [cmd_modify, EStateM.Result.ok.injEq, true_and] at e
  exact ⟨n, qs, _, hn ▸ (partSize_bounds hb h).2, h3, e.symm⟩

theorem recon_ok {p : Config.Params} {h : PartSize} (e : recon p h s = .ok () t) :
    ∃ n ps xs f, n ≤ 64 ∧ cellsReadRange s.predb 0 (n * n) = some ps ∧ s.rres = some ⟨n, xs⟩ ∧
      t = { s with recb := cellsFill s.recb (List.zipWith f ps xs) } := by
  obtain ⟨n, s1, e1, e⟩ := cmd_bind_ok_iff.1 e
  obtain ⟨hb, hn, rfl⟩ := cfgN_ok e1
  obtain ⟨ps, s2, e2, e⟩ := cmd_bind_ok_iff.1 e
  obtain ⟨h2, rfl⟩ := readBytes_ok e2
  obtain ⟨xs, s3, e3, e⟩ := cmd_bind_ok_iff.1 e
  obtain ⟨h3, rfl⟩ := readReals_ok e3
  simp only [cmd_modify, EStateM.Result.ok.injEq, true_and] at e
  exact ⟨n, ps, xs, _, hn ▸ (partSize_bounds hb h).2, h2, h3, e.symm⟩

end Sys2Proof.Machine
end

