-- ==== Sys2Proof/Laws/Memory.lean ====
section
/-! SUPPORT. Memory: what each command does to STREAM (rules R51, R324), and that every command, fault and host action
keeps the canonical form and the capacities. -/

namespace Sys2Proof.Machine

open Sys2Proof Sys2Proof.Safety

/-! ## STREAM advances, and only the bytes passed over change -/

/-- `BW_PTR` has not moved back, and only the bytes from the old to the new `BW_PTR` may have changed. -/
structure StreamKept (s t : State) : Prop where
  ptr_le : s.bw.ptr.toNat ≤ t.bw.ptr.toNat
  same : ∀ a, a < s.bw.ptr.toNat ∨ t.bw.ptr.toNat ≤ a → cellsRead t.stream a = cellsRead s.stream a

theorem streamKept_chains : Chains StreamKept where
  refl _ := ⟨le_refl _, fun _ _ => rfl⟩
  trans s t u h1 h2 := ⟨le_trans h1.ptr_le h2.ptr_le, fun a ha => by
    have := h1.ptr_le
    have := h2.ptr_le
    rw [h2.same a (by omega), h1.same a (by omega)]⟩

theorem streamKept_of_frame (s t : State) (h : OnlyChanges notWriter s t) : StreamKept s t := by
  have h1 : t.bw = s.bw := h.parts .writer (by decide)
  have h2 : t.stream = s.stream := h.parts .stream (by decide)
  exact ⟨by rw [h1], fun a _ => by rw [h2]⟩

theorem putBit_streamKept {p : Config.Params} (hp : p.streamBytes ≤ 2 ^ 32 - 1) (b : Bool) :
    Keeps StreamKept (putBit p b) := by
  intro s
  simp only [putBit]
  split
  · split
    · exact ⟨le_refl _, fun _ _ => rfl⟩
    · rename_i h
      have hptr : (s.bw.ptr + 1).toNat = s.bw.ptr.toNat + 1 := by
        rw [BitVec.toNat_add, show (1 : Word).toNat = 1 from rfl]
        omega
      refine ⟨?_, fun a ha => ?_⟩
      · simp only [endState]; omega
      · simp only [endState, hptr] at ha ⊢
        exact cellsRead_write_other _ _ (by omega)
  · exact ⟨le_refl _, fun _ _ => rfl⟩

theorem commandOf_streamKept {p : Config.Params} (hp : p.streamBytes ≤ 2 ^ 32 - 1) (i : Instr) :
    Keeps StreamKept (commandOf p i).2 :=
  commandOf_of_leaves (leaves_of_put (closed_keeps streamKept_chains streamKept_of_frame)
    (putBit_streamKept hp)) i

/-! ## STREAM in canonical form and in bounds -/

/-- The two facts about STREAM that `put_bit` keeps. -/
def StreamGood (p : Config.Params) (s t : State) : Prop :=
  CellsWf s.stream ∧ Below p.streamBytes s.stream → CellsWf t.stream ∧ Below p.streamBytes t.stream

theorem putBit_streamGood (p : Config.Params) (b : Bool) : Keeps (StreamGood p) (putBit p b) := by
  intro s hs
  simp only [putBit]
  split
  · split
    · exact hs
    · rename_i h
      exact ⟨cellsWrite_wf hs.1 _ _, below_write hs.2 (by omega) _⟩
  · exact hs

theorem commandOf_streamGood (p : Config.Params) (i : Instr) : Keeps (StreamGood p) (commandOf p i).2 := by
  refine commandOf_of_leaves (leaves_of_put (closed_keeps (R := StreamGood p) ⟨fun _ h => h, fun _ _ _ h1 h2 h => h2 (h1 h)⟩
    ?_) (putBit_streamGood p)) i
  intro s t h
  have h2 : t.stream = s.stream := h.parts .stream (by decide)
  unfold StreamGood
  rw [h2]
  exact id

/-! ## The partition buffers -/

/-- Canonical form and capacity of everything but STREAM. -/
structure BuffersGood (s : State) : Prop where
  top : CellsWf s.top ∧ Below Config.nmax s.top
  left : CellsWf s.left ∧ Below Config.nmax s.left
  orig : CellsWf s.orig ∧ Below (Config.nmax * Config.nmax) s.orig
  predb : CellsWf s.predb ∧ Below (Config.nmax * Config.nmax) s.predb
  resd : CellsWf s.resd ∧ Below (Config.nmax * Config.nmax) s.resd
  qidx : CellsWf s.qidx ∧ Below (Config.nmax * Config.nmax) s.qidx
  scan : CellsWf s.scan ∧ Below (Config.nmax * Config.nmax) s.scan
  recb : CellsWf s.recb ∧ Below (Config.nmax * Config.nmax) s.recb
  coef : RealFits s.coef
  dcoef : RealFits s.dcoef
  rres : RealFits s.rres

theorem memory_good_iff (s : State) :
    Memory.wf s ∧ MemoryFits s ↔
      (CellsWf s.stream ∧ Below Config.params.streamBytes s.stream) ∧ BuffersGood s := by
  constructor
  · rintro ⟨⟨h1, h2, h3, h4, h5, h6, h7, h8, h9⟩, f⟩
    exact ⟨⟨h1, f.stream⟩, ⟨h2, f.top⟩, ⟨h3, f.left⟩, ⟨h4, f.orig⟩, ⟨h5, f.predb⟩, ⟨h6, f.resd⟩, ⟨h7, f.qidx⟩,
      ⟨h8, f.scan⟩, ⟨h9, f.recb⟩, f.coef, f.dcoef, f.rres⟩
  · rintro ⟨h, b⟩
    exact ⟨⟨h.1, b.top.1, b.left.1, b.orig.1, b.predb.1, b.resd.1, b.qidx.1, b.scan.1, b.recb.1⟩,
      ⟨h.2, b.top.2, b.left.2, b.orig.2, b.predb.2, b.resd.2, b.qidx.2, b.scan.2, b.recb.2, b.coef, b.dcoef, b.rres⟩⟩

/-- Code that changes no buffer keeps them good. -/
theorem buffersGood_of_frame {ps : List Part} {s t : State} (h : OnlyChanges ps s t)
    (hp : ∀ q ∈ [Part.top, .left, .orig, .predb, .resd, .qidx, .scan, .recb, .coef, .dcoef, .rres], q ∉ ps)
    (hs : BuffersGood s) : BuffersGood t := by
  have e1 : t.top = s.top := h.parts .top (hp _ (by decide))
  have e2 : t.left = s.left := h.parts .left (hp _ (by decide))
  have e3 : t.orig = s.orig := h.parts .orig (hp _ (by decide))
  have e4 : t.predb = s.predb := h.parts .predb (hp _ (by decide))
  have e5 : t.resd = s.resd := h.parts .resd (hp _ (by decide))
  have e6 : t.qidx = s.qidx := h.parts .qidx (hp _ (by decide))
  have e7 : t.scan = s.scan := h.parts .scan (hp _ (by decide))
  have e8 : t.recb = s.recb := h.parts .recb (hp _ (by decide))
  have e9 : t.coef = s.coef := h.parts .coef (hp _ (by decide))
  have e10 : t.dcoef = s.dcoef := h.parts .dcoef (hp _ (by decide))
  have e11 : t.rres = s.rres := h.parts .rres (hp _ (by decide))
  exact ⟨e1 ▸ hs.top, e2 ▸ hs.left, e3 ▸ hs.orig, e4 ▸ hs.predb, e5 ▸ hs.resd, e6 ▸ hs.qidx, e7 ▸ hs.scan,
    e8 ▸ hs.recb, e9 ▸ hs.coef, e10 ▸ hs.dcoef, e11 ▸ hs.rres⟩

theorem fill_good {α : Type} {m : Cells α} (h : CellsWf m ∧ Below (Config.nmax * Config.nmax) m) {vs : List α} {n : Nat}
    (hn : n ≤ 64) (hv : vs.length ≤ n * n) :
    CellsWf (cellsFill m vs) ∧ Below (Config.nmax * Config.nmax) (cellsFill m vs) := by
  refine ⟨cellsFill_wf h.1 vs, below_fill h.2 (le_trans hv ?_)⟩
  exact Nat.mul_le_mul hn hn

theorem realFits_grid {n : Nat} (hn : n ≤ 64) (f : Nat → Nat → Config.RealVal) : RealFits (some ⟨n, grid n f⟩) := by
  rintro r h
  cases h
  exact ⟨hn, grid_length n f⟩

/-! ## Commands that stop before they write -/

/-- Code that leaves the state as it is. -/
def Still {α : Type} (c : Cmd α) : Prop := ∀ s, endState (c s) = s

/-- Code that has changed nothing when it stops. -/
def StopsStill {α : Type} (c : Cmd α) : Prop := ∀ s e t, c s = .error e t → t = s

theorem stopsStill_bind {α β : Type} {c : Cmd α} {f : α → Cmd β} (hc : Still c) (hf : ∀ a, StopsStill (f a)) :
    StopsStill (c >>= f) := by
  intro s e t h
  rcases cmd_bind_error_iff.1 h with h | ⟨a, u, h1, h2⟩
  · have := hc s; rw [h] at this; exact this
  · have := hc s
    rw [h1] at this
    have hu : u = s := this
    subst hu
    exact hf a u e t h2

theorem stopsStill_modify (f : State → State) : StopsStill (modify f : Cmd Unit) := fun _ _ _ h => by simp at h

theorem stopsStill_of_still {α : Type} {c : Cmd α} (hc : Still c) : StopsStill c := fun s e t h => by
  have := hc s; rw [h] at this; exact this

theorem stopsStill_ite {α : Type} {P : Prop} [Decidable P] {c d : Cmd α} (hc : StopsStill c) (hd : StopsStill d) :
    StopsStill (if P then c else d) := by split <;> assumption

theorem still_bind {α β : Type} {c : Cmd α} {f : α → Cmd β} (hc : Still c) (hf : ∀ a, Still (f a)) :
    Still (c >>= f) := by
  intro s
  rw [cmd_bind]
  have h1 := hc s
  cases h : c s with
  | ok a t => rw [h] at h1; have h1 : t = s := h1; subst h1; exact hf a t
  | error e t => rw [h] at h1; exact h1

theorem still_pure {α : Type} (a : α) : Still (pure a : Cmd α) := fun _ => rfl
theorem still_get : Still (get : Cmd State) := fun _ => rfl
theorem still_raise {α : Type} (k : FaultKind) : Still (raise k : Cmd α) := fun _ => rfl

theorem still_cfgN (h : PartSize) : Still (cfgN h) := fun s => by unfold cfgN; split <;> rfl
theorem still_checkQp : Still checkQp := fun s => by unfold checkQp; split <;> rfl
theorem still_readBytes (b : BufName) (g : State → Cells Byte) (n : Nat) : Still (readBytes b g n) := fun s => by
  unfold readBytes; split <;> rfl
theorem still_readWords (b : BufName) (g : State → Cells Word) (n : Nat) : Still (readWords b g n) := fun s => by
  unfold readWords; split <;> rfl
theorem still_readReals (b : BufName) (g : State → Option RealBuf) (n : Nat) : Still (readReals b g n) := fun s => by
  unfold readReals; split
  · split <;> rfl
  · rfl

theorem still_border (a : Bool) (b : BufName) (g : State → Cells Byte) (n : Nat) : Still (border a b g n) := by
  unfold border
  split
  · exact still_bind (still_readBytes _ _ _) fun _ => still_pure _
  · exact still_pure _

theorem pred_stops (pm : PredMode) (h : PartSize) : StopsStill (pred pm h) :=
  stopsStill_bind (still_cfgN h) fun _ => stopsStill_bind still_get fun _ =>
    stopsStill_bind (still_border _ _ _ _) fun _ => stopsStill_bind (still_border _ _ _ _) fun _ =>
      stopsStill_modify _

theorem resid_stops (h : PartSize) : StopsStill (resid h) :=
  stopsStill_bind (still_cfgN h) fun _ => stopsStill_bind (still_readBytes _ _ _) fun _ =>
    stopsStill_bind (still_readBytes _ _ _) fun _ => stopsStill_modify _

theorem txf_stops (p : Config.Params) (pm : PredMode) (h : PartSize) : StopsStill (txf p pm h) :=
  stopsStill_bind (still_cfgN h) fun _ => stopsStill_bind (still_readWords _ _ _) fun _ => stopsStill_modify _

theorem txi_stops (p : Config.Params) (pm : PredMode) (h : PartSize) : StopsStill (txi p pm h) :=
  stopsStill_bind (still_cfgN h) fun _ => stopsStill_bind (still_readReals _ _ _) fun _ => stopsStill_modify _

theorem quant_stops (p : Config.Params) (h : PartSize) : StopsStill (quant p h) :=
  stopsStill_bind (still_cfgN h) fun _ => stopsStill_bind still_checkQp fun _ =>
    stopsStill_bind (still_readReals _ _ _) fun _ => stopsStill_bind still_get fun _ =>
      stopsStill_ite (stopsStill_of_still (still_raise _)) (stopsStill_modify _)

theorem deq_stops (p : Config.Params) (h : PartSize) : StopsStill (deq p h) :=
  stopsStill_bind (still_cfgN h) fun _ => stopsStill_bind still_checkQp fun _ =>
    stopsStill_bind (still_readWords _ _ _) fun _ => stopsStill_modify _

theorem recon_stops (p : Config.Params) (h : PartSize) : StopsStill (recon p h) :=
  stopsStill_bind (still_cfgN h) fun _ => stopsStill_bind (still_readBytes _ _ _) fun _ =>
    stopsStill_bind (still_readReals _ _ _) fun _ => stopsStill_modify _

theorem scanf_stops (pm : PredMode) (h : PartSize) : StopsStill (scanf pm h) :=
  stopsStill_bind (still_cfgN h) fun _ => stopsStill_bind (still_readWords _ _ _) fun _ => stopsStill_modify _

theorem scani_stops (pm : PredMode) (h : PartSize) : StopsStill (scani pm h) :=
  stopsStill_bind (still_cfgN h) fun _ => stopsStill_bind (still_readWords _ _ _) fun _ => stopsStill_modify _

/-- A command that writes one buffer and stops still keeps the buffers good when its done end does. -/
theorem keeps_good_of {c : Cmd Unit} (hs : StopsStill c)
    (hd : ∀ s t, c s = .ok () t → BuffersGood s → BuffersGood t) :
    Keeps (fun s t => BuffersGood s → BuffersGood t) c := by
  intro s hg
  cases h : c s with
  | ok a t => exact hd s t h hg
  | error e t => rw [hs s e t h]; exact hg

theorem buffersGood_chains : Chains fun s t => BuffersGood s → BuffersGood t where
  refl _ h := h
  trans _ _ _ h1 h2 h := h2 (h1 h)

theorem keeps_good_of_frame {α : Type} {ps : List Part} {c : Cmd α} (h : Keeps (OnlyChanges ps) c)
    (hp : ∀ q ∈ [Part.top, .left, .orig, .predb, .resd, .qidx, .scan, .recb, .coef, .dcoef, .rres], q ∉ ps) :
    Keeps (fun s t => BuffersGood s → BuffersGood t) c := fun s => buffersGood_of_frame (h s) hp

/-! ## Every command keeps the buffers good -/

theorem zipWith_le {α β γ : Type} (f : α → β → γ) (xs : List α) (ys : List β) {k : Nat} (h : xs.length ≤ k) :
    (List.zipWith f xs ys).length ≤ k := by simp only [List.length_zipWith]; omega

theorem scanf_ok {s t : State} {pm : PredMode} {h : PartSize} (e : scanf pm h s = .ok () t) :
    ∃ n qs, n = partSize s.cfg.bs.toNat h ∧ 1 ≤ n ∧ n ≤ 64 ∧ cellsReadRange s.qidx 0 (n * n) = some qs ∧
      t = { s with scan := cellsFill s.scan (scanForward pm n qs) } := by
  obtain ⟨n, s1, e1, e⟩ := cmd_bind_ok_iff.1 e
  obtain ⟨hb, hn, rfl⟩ := cfgN_ok e1
  obtain ⟨qs, s2, e2, e⟩ := cmd_bind_ok_iff.1 e
  obtain ⟨h2, rfl⟩ := readWords_ok e2
  simp only [cmd_modify, EStateM.Result.ok.injEq, true_and] at e
  have := partSize_bounds hb h
  exact ⟨n, qs, hn, hn ▸ this.1, hn ▸ this.2, h2, e.symm⟩

theorem scani_ok {s t : State} {pm : PredMode} {h : PartSize} (e : scani pm h s = .ok () t) :
    ∃ n xs, n = partSize s.cfg.bs.toNat h ∧ 1 ≤ n ∧ n ≤ 64 ∧ cellsReadRange s.scan 0 (n * n) = some xs ∧
      t = { s with qidx := cellsFill s.qidx (scanInverse pm n xs) } := by
  obtain ⟨n, s1, e1, e⟩ := cmd_bind_ok_iff.1 e
  obtain ⟨hb, hn, rfl⟩ := cfgN_ok e1
  obtain ⟨qs, s2, e2, e⟩ := cmd_bind_ok_iff.1 e
  obtain ⟨h2, rfl⟩ := readWords_ok e2
  simp only [cmd_modify, EStateM.Result.ok.injEq, true_and] at e
  have := partSize_bounds hb h
  exact ⟨n, qs, hn, hn ▸ this.1, hn ▸ this.2, h2, e.symm⟩

/-- `BuffersGood` as a relation. -/
abbrev GoodKept (s t : State) : Prop := BuffersGood s → BuffersGood t

theorem setScan_good {i : Nat} (hi : i < 4096) (v : Word) : Keeps GoodKept (setScan i v) := fun _ h =>
  ⟨h.top, h.left, h.orig, h.predb, h.resd, h.qidx,
    ⟨cellsWrite_wf h.scan.1 _ _, below_write h.scan.2 hi _⟩, h.recb, h.coef, h.dcoef, h.rres⟩

theorem decodeCoefficients_good (p : Config.Params) (n last : Nat) :
    ∀ k, k ≤ 4096 → Keeps GoodKept (decodeCoefficients p n last k)
  | 0, _ => keeps_pure buffersGood_chains ()
  | k + 1, hk => by
    have dec := fun m => keeps_good_of_frame (decodeBit_frame p m) (by decide)
    refine keeps_bind buffersGood_chains ?_ fun _ => decodeCoefficients_good p n last k (by omega)
    refine keeps_bind buffersGood_chains (keeps_good_of_frame (switchContext_frame n k) (by decide)) fun _ => ?_
    refine keeps_bind buffersGood_chains (keeps_good_of_frame (decodeSig_frame p n last k) (by decide)) fun _ => ?_
    refine keeps_when buffersGood_chains _ ?_
    refine keeps_bind buffersGood_chains (keeps_good_of_frame (decodeMagnitude_frame p _) (by decide)) fun _ => ?_
    refine keeps_bind buffersGood_chains (keeps_good_of_frame (decodeBypass_frame p) (by decide)) fun _ => ?_
    exact setScan_good (by omega) _

theorem decCoef_good (p : Config.Params) (h : PartSize) : Keeps GoodKept (decCoef p h) := by
  intro s hs
  unfold decCoef
  rw [cmd_bind]
  cases hb : blockSizeOk s.cfg.bs.toNat with
  | false => rw [cfgN_of_bad hb]; exact hs
  | true =>
    rw [cfgN_of_ok hb]
    have hn := partSize_sq_le hb h
    have hn' := (partSize_bounds hb h).2
    generalize partSize s.cfg.bs.toNat h = n at hn hn'
    refine keeps_bind buffersGood_chains (R := GoodKept) ?_ (fun _ => ?_) s hs
    · intro u hu
      exact ⟨hu.top, hu.left, hu.orig, hu.predb, hu.resd, hu.qidx,
        fill_good hu.scan (n := n) hn' (by simp), hu.recb, hu.coef, hu.dcoef, hu.rres⟩
    · refine keeps_bind buffersGood_chains (keeps_good_of_frame (decodeBit_frame p _) (by decide)) fun cbf => ?_
      refine keeps_ite ?_ (keeps_good_of_frame (setRes_frame _) (by decide))
      refine keeps_bind buffersGood_chains (keeps_good_of_frame (decodeEg_frame p _) (by decide)) fun last => ?_
      split
      · exact keeps_raise buffersGood_chains _
      · exact keeps_bind buffersGood_chains (decodeCoefficients_good p n last _ (by omega)) fun _ =>
          keeps_good_of_frame (setRes_frame _) (by decide)

theorem commandOf_good (p : Config.Params) (i : Instr) : Keeps GoodKept (commandOf p i).2 := by
  have frame := commandOf_frame p i
  cases i with
  | pred pm h =>
    refine keeps_good_of (pred_stops pm h) fun s t e g => ?_
    obtain ⟨n, vs, _, hn, hv, rfl⟩ := pred_ok e
    exact ⟨g.top, g.left, g.orig, fill_good g.predb hn hv.le, g.resd, g.qidx, g.scan, g.recb, g.coef, g.dcoef, g.rres⟩
  | resid h =>
    refine keeps_good_of (resid_stops h) fun s t e g => ?_
    obtain ⟨n, os, ps, _, hn, h1, h2, rfl⟩ := resid_ok e
    exact ⟨g.top, g.left, g.orig, g.predb, fill_good g.resd hn (zipWith_le _ _ _ (cellsReadRange_length h1).le), g.qidx,
      g.scan, g.recb, g.coef, g.dcoef, g.rres⟩
  | txf pm h =>
    refine keeps_good_of (txf_stops p pm h) fun s t e g => ?_
    obtain ⟨n, f, hn, rfl⟩ := txf_ok e
    exact ⟨g.top, g.left, g.orig, g.predb, g.resd, g.qidx, g.scan, g.recb, realFits_grid hn f, g.dcoef, g.rres⟩
  | quant h =>
    refine keeps_good_of (quant_stops p h) fun s t e g => ?_
    obtain ⟨n, ys, _, hn, hc, rfl⟩ := quant_ok e
    have hl := (g.coef _ hc).2
    exact ⟨g.top, g.left, g.orig, g.predb, g.resd, fill_good g.qidx hn (by simp only [List.length_map]; exact hl.le),
      g.scan, g.recb, g.coef, g.dcoef, g.rres⟩
  | scanf pm h =>
    refine keeps_good_of (scanf_stops pm h) fun s t e g => ?_
    obtain ⟨n, qs, _, h1, hn, _, rfl⟩ := scanf_ok e
    exact ⟨g.top, g.left, g.orig, g.predb, g.resd, g.qidx, fill_good g.scan hn (scanForward_length pm h1 qs).le, g.recb,
      g.coef, g.dcoef, g.rres⟩
  | scani pm h =>
    refine keeps_good_of (scani_stops pm h) fun s t e g => ?_
    obtain ⟨n, xs, _, h1, hn, _, rfl⟩ := scani_ok e
    exact ⟨g.top, g.left, g.orig, g.predb, g.resd, fill_good g.qidx hn (scanInverse_length pm n xs).le, g.scan, g.recb,
      g.coef, g.dcoef, g.rres⟩
  | deq h =>
    refine keeps_good_of (deq_stops p h) fun s t e g => ?_
    obtain ⟨n, qs, f, hn, h1, rfl⟩ := deq_ok e
    refine ⟨g.top, g.left, g.orig, g.predb, g.resd, g.qidx, g.scan, g.recb, g.coef, ?_, g.rres⟩
    rintro r h
    cases h
    exact ⟨hn, by simp only [List.length_map]; exact cellsReadRange_length h1⟩
  | txi pm h =>
    refine keeps_good_of (txi_stops p pm h) fun s t e g => ?_
    obtain ⟨n, f, hn, rfl⟩ := txi_ok e
    exact ⟨g.top, g.left, g.orig, g.predb, g.resd, g.qidx, g.scan, g.recb, g.coef, g.dcoef, realFits_grid hn f⟩
  | recon h =>
    refine keeps_good_of (recon_stops p h) fun s t e g => ?_
    obtain ⟨n, ps, xs, f, hn, h1, _, rfl⟩ := recon_ok e
    exact ⟨g.top, g.left, g.orig, g.predb, g.resd, g.qidx, g.scan,
      fill_good g.recb hn (zipWith_le _ _ _ (cellsReadRange_length h1).le), g.coef, g.dcoef, g.rres⟩
  | decCoef h => exact decCoef_good p h
  | _ => exact keeps_good_of_frame frame (by simp [writesOf])

/-! ## Faults keep it all -/

theorem loseReals_fits (s : State) (b : BufName) {m : Option RealBuf} (h : RealFits m) :
    RealFits (loseReals s b m) := by
  rintro r hr
  simp only [loseReals, Option.map_eq_some_iff] at hr
  obtain ⟨x, hx, rfl⟩ := hr
  have := h x hx
  exact ⟨this.1, by simp [this.2]⟩

theorem loseBuffer_good (s : State) (b : BufName) (h : BuffersGood s) : BuffersGood (loseBuffer s b) := by
  have lose : ∀ {α : Type} {n : Nat} {m : Cells α} (f : Nat → α), CellsWf m ∧ Below n m →
      CellsWf (cellsLose m 0 f) ∧ Below n (cellsLose m 0 f) :=
    fun f hm => ⟨cellsLose_wf hm.1 _ f, below_lose hm.2 _ f⟩
  cases b
  · exact { h with top := by simp only [loseBuffer, loseBytes, loseWords]; exact lose _ h.top }
  · exact { h with left := by simp only [loseBuffer, loseBytes, loseWords]; exact lose _ h.left }
  · exact { h with orig := by simp only [loseBuffer, loseBytes, loseWords]; exact lose _ h.orig }
  · exact { h with predb := by simp only [loseBuffer, loseBytes, loseWords]; exact lose _ h.predb }
  · exact { h with resd := by simp only [loseBuffer, loseBytes, loseWords]; exact lose _ h.resd }
  · exact { h with qidx := by simp only [loseBuffer, loseBytes, loseWords]; exact lose _ h.qidx }
  · exact { h with scan := by simp only [loseBuffer, loseBytes, loseWords]; exact lose _ h.scan }
  · exact { h with recb := by simp only [loseBuffer, loseBytes, loseWords]; exact lose _ h.recb }
  · exact { h with coef := loseReals_fits _ _ h.coef }
  · exact { h with dcoef := loseReals_fits _ _ h.dcoef }
  · exact { h with rres := loseReals_fits _ _ h.rres }

theorem loseBuffers_good (w : List BufName) (s : State) (h : BuffersGood s) :
    BuffersGood (w.foldl loseBuffer s) := by
  induction w generalizing s with
  | nil => exact h
  | cons b rest ih => exact ih _ (loseBuffer_good s b h)

theorem takeFault_memory (k : FaultKind) (w : List BufName) {start s : State}
    (h0 : Memory.wf start ∧ MemoryFits start) (h : Memory.wf s ∧ MemoryFits s) :
    Memory.wf (takeFault k w start s) ∧ MemoryFits (takeFault k w start s) := by
  rw [memory_good_iff] at h h0 ⊢
  by_cases hk : k = .illegalCommand
  · subst hk
    exact ⟨h0.1, { h0.2 with }⟩
  · rw [takeFault_stream hk]
    refine ⟨⟨cellsLose_wf h.1.1 _ _, below_lose h.1.2 _ _⟩, ?_⟩
    rw [takeFault_of_ne hk]
    have h1 : BuffersGood (loseStream (loseRegisters s) start.bw.ptr.toNat) := { h.2 with }
    exact { loseBuffers_good w _ h1 with }

/-- Every command keeps memory in canonical form and in bounds, whether it completes or takes a fault. -/
theorem exec_memory {i : Instr} {s t : State} (e : exec i s = .next t) (h : Memory.wf s ∧ MemoryFits s) :
    Memory.wf t ∧ MemoryFits t := by
  by_cases hi : i = .sreset
  · subst hi
    rw [exec_sreset] at e
    cases e
    rw [memory_good_iff] at h ⊢
    exact ⟨h.1, { h.2 with }⟩
  · have run : ∀ u, endState ((commandOf Config.params i).2 s) = u → Memory.wf u ∧ MemoryFits u := by
      rintro u rfl
      have hs := (memory_good_iff s).1 h
      exact (memory_good_iff _).2 ⟨commandOf_streamGood Config.params i s hs.1, commandOf_good Config.params i s hs.2⟩
    cases hf : s.status.fault with
    | true =>
      rw [exec_eq_runCommand hi, runCommand_of_fault hf] at e
      cases e
      exact h
    | false =>
      rcases exec_next e hi hf with ec | ⟨k, u, ec, rfl⟩
      · exact run t (by rw [ec]; rfl)
      · exact takeFault_memory k _ h (run u (by rw [ec]; rfl))

/-! ## Host writes -/

theorem write_good {α : Type} {n : Nat} {m : Cells α} (h : CellsWf m ∧ Below n m) {i : Nat} (hi : i < n) (v : α) :
    CellsWf (cellsWrite m i v) ∧ Below n (cellsWrite m i v) := ⟨cellsWrite_wf h.1 _ _, below_write h.2 hi _⟩

/-- What the window says of the places it locates. -/
def InWindow : HostReg → Prop
  | .topAt i | .leftAt i => i < Config.nmax
  | .origAt i | .predbAt i | .resdAt i | .qidxAt i | .scanAt i | .recbAt i => i < Config.nmax * Config.nmax
  | _ => True

theorem locateLow_inWindow (off : Nat) : InWindow (locateLow off) := by
  unfold locateLow
  split <;> trivial

theorem inWindow_ite {c : Prop} [Decidable c] {x y : HostReg} (hx : c → InWindow x) (hy : ¬c → InWindow y) :
    InWindow (if c then x else y) := by
  by_cases h : c
  · rw [if_pos h]; exact hx h
  · rw [if_neg h]; exact hy h

theorem locate_inWindow {off : Nat} (h : off < windowBytes) : InWindow (locate off) := by
  have h : off < 0x28000 := h
  unfold locate
  refine inWindow_ite (fun _ => locateLow_inWindow off) fun _ => ?_
  by_cases hp : off < 0x100 + 4 * 15
  · rw [dif_pos hp]; trivial
  rw [dif_neg hp]
  refine inWindow_ite (fun _ => trivial) fun _ => ?_
  refine inWindow_ite (fun _ => show _ < 64 by have : Config.nmax = 64 := rfl; omega) fun _ => ?_
  refine inWindow_ite (fun _ => trivial) fun _ => ?_
  refine inWindow_ite (fun _ => show _ < 64 by have : Config.nmax = 64 := rfl; omega) fun _ => ?_
  refine inWindow_ite (fun _ => trivial) fun _ => ?_
  refine inWindow_ite (fun _ => show _ < 4096 by omega) fun _ => ?_
  refine inWindow_ite (fun _ => show _ < 4096 by omega) fun _ => ?_
  refine inWindow_ite (fun _ => show _ < 4096 by omega) fun _ => ?_
  refine inWindow_ite (fun _ => show _ < 4096 by omega) fun _ => ?_
  refine inWindow_ite (fun _ => show _ < 4096 by omega) fun _ => ?_
  exact show _ < 4096 by omega

theorem writeReg_memory {s : State} {v : Word} {r : HostReg} (hr : InWindow r) (h : Memory.wf s ∧ MemoryFits s) :
    Memory.wf (writeReg Config.params s v r) ∧ MemoryFits (writeReg Config.params s v r) := by
  rw [memory_good_iff] at h ⊢
  cases r with
  | smData =>
    simp only [writeReg]
    split
    · rename_i hlt
      exact ⟨write_good h.1 hlt _, { h.2 with }⟩
    · exact h
  | topAt i => exact ⟨h.1, { h.2 with top := write_good h.2.top hr _ }⟩
  | leftAt i => exact ⟨h.1, { h.2 with left := write_good h.2.left hr _ }⟩
  | origAt i => exact ⟨h.1, { h.2 with orig := write_good h.2.orig hr _ }⟩
  | predbAt i => exact ⟨h.1, { h.2 with predb := write_good h.2.predb hr _ }⟩
  | resdAt i => exact ⟨h.1, { h.2 with resd := write_good h.2.resd hr _ }⟩
  | qidxAt i => exact ⟨h.1, { h.2 with qidx := write_good h.2.qidx hr _ }⟩
  | scanAt i => exact ⟨h.1, { h.2 with scan := write_good h.2.scan hr _ }⟩
  | recbAt i => exact ⟨h.1, { h.2 with recb := write_good h.2.recb hr _ }⟩
  | _ => exact ⟨h.1, { h.2 with }⟩

end Sys2Proof.Machine
end

