-- ==== Sys2Proof/Laws/PerInstr.lean ====
section
/-! SUPPORT. Each command's word lies in its own row of the opcode table (rule R87): its fixed bits are the row's. -/

namespace Sys2Proof.Laws.RowMatch

open Sys2Proof

/-- The mask and match of a command's row in the opcode table. -/
def row : Instr → Word × Word
  | .nop => (0xFFFFFFFF, 0x00000000)
  | .sreset => (0xFFFFFFFF, 0x01000000)
  | .ctxinit => (0xFFFFFFFF, 0x02000000)
  | .bwBit _ => (0xFFFFFFFE, 0x10000000)
  | .bwBits _ => (0xFFFF00FF, 0x11000000)
  | .bwAlign => (0xFFFFFFFF, 0x12000000)
  | .brBit => (0xFFFFFFFF, 0x14000000)
  | .brBits _ => (0xFFFF00FF, 0x15000000)
  | .brAlign => (0xFFFFFFFF, 0x16000000)
  | .pmMps _ => (0xFF00FFFF, 0x20000000)
  | .pmLps _ => (0xFF00FFFF, 0x21000000)
  | .pmEst _ _ => (0xFF00FFFE, 0x22000000)
  | .aeStart => (0xFFFFFFFF, 0x30000000)
  | .aeBit _ _ => (0xFF00FFFE, 0x31000000)
  | .aeBits _ _ => (0xFF0000FF, 0x32000000)
  | .aeByp _ => (0xFFFFFFFE, 0x33000000)
  | .aeByps _ => (0xFFFF00FF, 0x34000000)
  | .aeTerm => (0xFFFFFFFF, 0x35000000)
  | .aeEg _ => (0xFF00FFFF, 0x36000000)
  | .aeEgest _ => (0xFF00FFFF, 0x37000000)
  | .adStart => (0xFFFFFFFF, 0x40000000)
  | .adBit _ => (0xFF00FFFF, 0x41000000)
  | .adByp => (0xFFFFFFFF, 0x43000000)
  | .adByps _ => (0xFFFF00FF, 0x44000000)
  | .adTerm => (0xFFFFFFFF, 0x45000000)
  | .adEg _ => (0xFF00FFFF, 0x46000000)
  | .ctxSw _ => (0xFFFFFFFB, 0x50000000)
  | .pred _ _ => (0xFFFFFFCB, 0x60000000)
  | .resid _ => (0xFFFFFFFB, 0x61000000)
  | .txf _ _ => (0xFFFFFFCB, 0x62000000)
  | .quant _ => (0xFFFFFFFB, 0x63000000)
  | .scanf _ _ => (0xFFFFFFCB, 0x64000000)
  | .scani _ _ => (0xFFFFFFCB, 0x65000000)
  | .deq _ => (0xFFFFFFFB, 0x66000000)
  | .txi _ _ => (0xFFFFFFCB, 0x67000000)
  | .recon _ => (0xFFFFFFFB, 0x68000000)
  | .dist _ => (0xFFFFFFFB, 0x69000000)
  | .hdrWr => (0xFFFFFFFF, 0x70000000)
  | .hdrRd => (0xFFFFFFFF, 0x71000000)
  | .encPart _ => (0xFFFFFFFE, 0x72000000)
  | .decPart => (0xFFFFFFFF, 0x73000000)
  | .encPmode _ => (0xFFFFFFCF, 0x74000000)
  | .decPmode => (0xFFFFFFFF, 0x75000000)
  | .encCoef _ => (0xFFFFFFFB, 0x76000000)
  | .decCoef _ => (0xFFFFFFFB, 0x77000000)

/-- The command's word has its row's fixed bits. -/
def Statement (i : Instr) : Prop := encode i &&& (row i).1 = (row i).2

/-- Masking a packed word masks its fields. -/
theorem pack_and (a b c d a' b' c' d' : BitVec 8) :
    packFields a b c d &&& packFields a' b' c' d' = packFields (a &&& a') (b &&& b') (c &&& c') (d &&& d') := by
  simp only [packFields]
  apply BitVec.eq_of_getLsbD_eq
  intro i hi
  simp only [BitVec.getLsbD_and, BitVec.getLsbD_append]
  split <;> [skip; split] <;> [skip; skip; split] <;> rfl

/-- A packed word under a mask, field by field. -/
theorem masked {op m n f a b c d x y z u : BitVec 8} {k w : Word} (hk : packFields a b c d = k)
    (hw : packFields x y z u = w) (h1 : op &&& a = x) (h2 : m &&& b = y) (h3 : n &&& c = z) (h4 : f &&& d = u) :
    packFields op m n f &&& k = w := by
  rw [← hk, ← hw, pack_and, h1, h2, h3, h4]

theorem nop : Statement (.nop) := by unfold Statement; decide
theorem sreset : Statement (.sreset) := by unfold Statement; decide
theorem ctxinit : Statement (.ctxinit) := by unfold Statement; decide
theorem bwBit (b : Bool) : Statement (.bwBit b) := by
  cases b <;> unfold Statement <;> decide
theorem bwBits (n : BitVec 8) : Statement (.bwBits n) :=
  masked (a := 0xFF) (b := 0xFF) (c := 0x00) (d := 0xFF) (x := 0x11) (y := 0x00) (z := 0x00) (u := 0x00)
    rfl rfl (by decide) (by decide) BitVec.and_zero (by decide)
theorem bwAlign : Statement (.bwAlign) := by unfold Statement; decide
theorem brBit : Statement (.brBit) := by unfold Statement; decide
theorem brBits (n : BitVec 8) : Statement (.brBits n) :=
  masked (a := 0xFF) (b := 0xFF) (c := 0x00) (d := 0xFF) (x := 0x15) (y := 0x00) (z := 0x00) (u := 0x00)
    rfl rfl (by decide) (by decide) BitVec.and_zero (by decide)
theorem brAlign : Statement (.brAlign) := by unfold Statement; decide
theorem pmMps (m : Selector) : Statement (.pmMps m) :=
  masked (a := 0xFF) (b := 0x00) (c := 0xFF) (d := 0xFF) (x := 0x20) (y := 0x00) (z := 0x00) (u := 0x00)
    rfl rfl (by decide) BitVec.and_zero (by decide) (by decide)
theorem pmLps (m : Selector) : Statement (.pmLps m) :=
  masked (a := 0xFF) (b := 0x00) (c := 0xFF) (d := 0xFF) (x := 0x21) (y := 0x00) (z := 0x00) (u := 0x00)
    rfl rfl (by decide) BitVec.and_zero (by decide) (by decide)
theorem pmEst (m : Selector) (b : Bool) : Statement (.pmEst m b) :=
  masked (a := 0xFF) (b := 0x00) (c := 0xFF) (d := 0xFE) (x := 0x22) (y := 0x00) (z := 0x00) (u := 0x00)
    rfl rfl (by decide) BitVec.and_zero (by decide) (by cases b <;> decide)
theorem aeStart : Statement (.aeStart) := by unfold Statement; decide
theorem aeBit (m : Selector) (b : Bool) : Statement (.aeBit m b) :=
  masked (a := 0xFF) (b := 0x00) (c := 0xFF) (d := 0xFE) (x := 0x31) (y := 0x00) (z := 0x00) (u := 0x00)
    rfl rfl (by decide) BitVec.and_zero (by decide) (by cases b <;> decide)
theorem aeBits (m : Selector) (n : BitVec 8) : Statement (.aeBits m n) :=
  masked (a := 0xFF) (b := 0x00) (c := 0x00) (d := 0xFF) (x := 0x32) (y := 0x00) (z := 0x00) (u := 0x00)
    rfl rfl (by decide) BitVec.and_zero BitVec.and_zero (by decide)
theorem aeByp (b : Bool) : Statement (.aeByp b) := by
  cases b <;> unfold Statement <;> decide
theorem aeByps (n : BitVec 8) : Statement (.aeByps n) :=
  masked (a := 0xFF) (b := 0xFF) (c := 0x00) (d := 0xFF) (x := 0x34) (y := 0x00) (z := 0x00) (u := 0x00)
    rfl rfl (by decide) (by decide) BitVec.and_zero (by decide)
theorem aeTerm : Statement (.aeTerm) := by unfold Statement; decide
theorem aeEg (m : Selector) : Statement (.aeEg m) :=
  masked (a := 0xFF) (b := 0x00) (c := 0xFF) (d := 0xFF) (x := 0x36) (y := 0x00) (z := 0x00) (u := 0x00)
    rfl rfl (by decide) BitVec.and_zero (by decide) (by decide)
theorem aeEgest (m : Selector) : Statement (.aeEgest m) :=
  masked (a := 0xFF) (b := 0x00) (c := 0xFF) (d := 0xFF) (x := 0x37) (y := 0x00) (z := 0x00) (u := 0x00)
    rfl rfl (by decide) BitVec.and_zero (by decide) (by decide)
theorem adStart : Statement (.adStart) := by unfold Statement; decide
theorem adBit (m : Selector) : Statement (.adBit m) :=
  masked (a := 0xFF) (b := 0x00) (c := 0xFF) (d := 0xFF) (x := 0x41) (y := 0x00) (z := 0x00) (u := 0x00)
    rfl rfl (by decide) BitVec.and_zero (by decide) (by decide)
theorem adByp : Statement (.adByp) := by unfold Statement; decide
theorem adByps (n : BitVec 8) : Statement (.adByps n) :=
  masked (a := 0xFF) (b := 0xFF) (c := 0x00) (d := 0xFF) (x := 0x44) (y := 0x00) (z := 0x00) (u := 0x00)
    rfl rfl (by decide) (by decide) BitVec.and_zero (by decide)
theorem adTerm : Statement (.adTerm) := by unfold Statement; decide
theorem adEg (m : Selector) : Statement (.adEg m) :=
  masked (a := 0xFF) (b := 0x00) (c := 0xFF) (d := 0xFF) (x := 0x46) (y := 0x00) (z := 0x00) (u := 0x00)
    rfl rfl (by decide) BitVec.and_zero (by decide) (by decide)
theorem ctxSw (h : PartSize) : Statement (.ctxSw h) := by
  cases h <;> unfold Statement <;> decide
theorem pred (pm : PredMode) (h : PartSize) : Statement (.pred pm h) := by
  cases pm <;> cases h <;> unfold Statement <;> decide
theorem resid (h : PartSize) : Statement (.resid h) := by
  cases h <;> unfold Statement <;> decide
theorem txf (pm : PredMode) (h : PartSize) : Statement (.txf pm h) := by
  cases pm <;> cases h <;> unfold Statement <;> decide
theorem quant (h : PartSize) : Statement (.quant h) := by
  cases h <;> unfold Statement <;> decide
theorem scanf (pm : PredMode) (h : PartSize) : Statement (.scanf pm h) := by
  cases pm <;> cases h <;> unfold Statement <;> decide
theorem scani (pm : PredMode) (h : PartSize) : Statement (.scani pm h) := by
  cases pm <;> cases h <;> unfold Statement <;> decide
theorem deq (h : PartSize) : Statement (.deq h) := by
  cases h <;> unfold Statement <;> decide
theorem txi (pm : PredMode) (h : PartSize) : Statement (.txi pm h) := by
  cases pm <;> cases h <;> unfold Statement <;> decide
theorem recon (h : PartSize) : Statement (.recon h) := by
  cases h <;> unfold Statement <;> decide
theorem dist (h : PartSize) : Statement (.dist h) := by
  cases h <;> unfold Statement <;> decide
theorem hdrWr : Statement (.hdrWr) := by unfold Statement; decide
theorem hdrRd : Statement (.hdrRd) := by unfold Statement; decide
theorem encPart (b : Bool) : Statement (.encPart b) := by
  cases b <;> unfold Statement <;> decide
theorem decPart : Statement (.decPart) := by unfold Statement; decide
theorem encPmode (pm : PredMode) : Statement (.encPmode pm) := by
  cases pm <;> unfold Statement <;> decide
theorem decPmode : Statement (.decPmode) := by unfold Statement; decide
theorem encCoef (h : PartSize) : Statement (.encCoef h) := by
  cases h <;> unfold Statement <;> decide
theorem decCoef (h : PartSize) : Statement (.decCoef h) := by
  cases h <;> unfold Statement <;> decide

end Sys2Proof.Laws.RowMatch
end

