-- ==== Sys2Proof/Laws/Termination.lean ====
section
/-! SUPPORT. The bits of a session as one number, and the code word that `AE_TERM` completes (rules R147, R148). -/

namespace Sys2Proof.Machine

open Sys2Proof Sys2Proof.Safety

variable {p : Config.Params} {s t u : State} {e : Encoder}

/-- All the bits written from byte `start` on, as one number, the first bit most significant. -/
def bitValue (start : Nat) (s : State) : Option Nat :=
  (cellsReadRange s.stream start (s.bw.ptr.toNat - start)).map fun bs =>
    beValue bs * 2 ^ s.bw.cnt.toNat + s.bw.acc.toNat % 2 ^ s.bw.cnt.toNat

/-- Bits appended to the output: their number `n` and their value `x`. -/
structure Appended (start : Nat) (s : State) (n x : Nat) (t : State) : Prop where
  pos : outPos t = outPos s + n
  cnt : t.bw.cnt.toNat ≤ 7
  start_le : start ≤ t.bw.ptr.toNat
  value : ∀ v, bitValue start s = some v → bitValue start t = some (v * 2 ^ n + x)
  below : ∀ a, a < s.bw.ptr.toNat ∨ t.bw.ptr.toNat ≤ a → cellsRead t.stream a = cellsRead s.stream a
  rest : t = { s with stream := t.stream, bw := t.bw }

theorem Appended.trans {start n x m y : Nat} (h : Appended start s n x t) (k : Appended start t m y u)
    (hc : s.bw.cnt.toNat ≤ 7) : Appended start s (n + m) (x * 2 ^ m + y) u where
  pos := by rw [k.pos, h.pos, Nat.add_assoc]
  cnt := k.cnt
  start_le := k.start_le
  value v hv := by
    rw [k.value _ (h.value v hv), pow_add]
    congr 1
    ring
  below a ha := by
    have h1 := h.pos
    have h2 := k.pos
    have h3 := h.cnt
    have h4 := k.cnt
    simp only [outPos] at h1 h2
    rw [k.below a (by omega), h.below a (by omega)]
  rest := by rw [k.rest, h.rest]

theorem shiftIn_toNat (acc : Byte) (b : Bool) : (shiftIn acc b).toNat = (2 * acc.toNat + bitNat b) % 256 := by
  revert acc b
  decide +kernel

theorem putBit_appended (start : Nat) (b : Bool) (hs : start ≤ s.bw.ptr.toNat) (hc : s.bw.cnt.toNat ≤ 7)
    (hp : p.streamBytes ≤ 2 ^ 32 - 1) (room : writerRoom p s 1) :
    ∃ t, putBit p b s = .ok () t ∧ Appended start s 1 (bitNat b) t := by
  obtain ⟨t, e, h⟩ := putBit_written (p := p) b hc hp room
  refine ⟨t, e, by simpa using h.pos, h.cnt, hs.trans (h.ptr_le hc), ?_, h.outside, h.rest⟩
  have hb : bitNat b < 2 := by cases b <;> simp [bitNat]
  simp only [writerRoom] at room
  intro v hv
  unfold bitValue at hv ⊢
  obtain ⟨bs, hbs, rfl⟩ := Option.map_eq_some_iff.1 hv
  by_cases h7 : s.bw.cnt.toNat = 7
  · have hptr : (s.bw.ptr + 1).toNat = s.bw.ptr.toNat + 1 := by bv_omega
    rw [putBit_byte b h7 (by omega)] at e
    cases e
    simp only [hptr]
    rw [show s.bw.ptr.toNat + 1 - start = (s.bw.ptr.toNat - start) + 1 by omega, cellsReadRange_append]
    rw [cellsReadRange_congr (m := s.stream) (fun a h1 h2 => cellsRead_write_other _ _ (by omega)), hbs,
      show start + (s.bw.ptr.toNat - start) = s.bw.ptr.toNat by omega]
    simp only [cellsReadRange, cellsRead_write_same, Option.bind_some, Option.map_some, Option.some.injEq]
    rw [beValue_append, beFold_cons, h7, shiftIn_toNat]
    simp only [beFold, List.foldl_nil]
    rw [show (0 : BitVec 4).toNat = 0 from rfl, show (0 : Byte).toNat = 0 from rfl]
    omega
  · have hcnt : (s.bw.cnt + 1).toNat = s.bw.cnt.toNat + 1 := by bv_omega
    rw [putBit_short b (by omega)] at e
    cases e
    simp only [hcnt, hbs, Option.map_some, Option.some.injEq]
    rw [shiftIn_toNat]
    have hdvd : 2 ^ (s.bw.cnt.toNat + 1) ∣ 256 := by
      rw [show 256 = 2 ^ 8 from rfl]
      exact Nat.pow_dvd_pow 2 (by omega)
    rw [Nat.mod_mod_of_dvd _ hdvd, pow_succ, Nat.mul_comm (2 ^ s.bw.cnt.toNat) 2]
    have : (2 * s.bw.acc.toNat + bitNat b) % (2 * 2 ^ s.bw.cnt.toNat) =
        2 * (s.bw.acc.toNat % 2 ^ s.bw.cnt.toNat) + bitNat b := by
      rw [Nat.mod_mul, show (2 * s.bw.acc.toNat + bitNat b) % 2 = bitNat b by omega,
        show (2 * s.bw.acc.toNat + bitNat b) / 2 = s.bw.acc.toNat by omega]
      omega
    rw [this]
    ring

theorem Appended.room {start n x k : Nat} (h : Appended start s n x t) (room : writerRoom p s (n + k)) :
    writerRoom p t k := by
  have h1 := h.pos
  have h2 := h.cnt
  simp only [outPos, writerRoom] at *
  omega

theorem putBits_appended (start : Nat) (v : Word) (n : Nat) (hs : start ≤ s.bw.ptr.toNat) (hc : s.bw.cnt.toNat ≤ 7)
    (hp : p.streamBytes ≤ 2 ^ 32 - 1) (room : writerRoom p s n) :
    ∃ t, putBits p v n s = .ok () t ∧ Appended start s n (v.toNat % 2 ^ n) t := by
  induction n generalizing s with
  | zero =>
    refine ⟨s, rfl, rfl, hc, hs, fun w hw => ?_, fun _ _ => rfl, rfl⟩
    rw [hw, Nat.pow_zero, Nat.mod_one, Nat.mul_one, Nat.add_zero]
  | succ n ih =>
    obtain ⟨t, e, h⟩ := putBit_appended (p := p) start (v.getLsbD n) hs hc hp (writerRoom_mono (by omega) room)
    obtain ⟨u, f, k⟩ := ih h.start_le h.cnt (h.room (by rwa [Nat.add_comm]))
    refine ⟨u, by rw [putBits, forBits, cmd_bind_of_ok e]; exact f, ?_⟩
    have := h.trans k hc
    rw [Nat.add_comm 1 n] at this
    rw [show v.toNat % 2 ^ (n + 1) = bitNat (v.getLsbD n) * 2 ^ n + v.toNat % 2 ^ n from ?_]
    · exact this
    · rw [Nat.pow_succ, Nat.mod_mul, Nat.add_comm, Nat.mul_comm]
      congr 1
      rw [BitVec.getLsbD, Nat.testBit_eq_decide_div_mod_eq]
      rcases Nat.mod_two_eq_zero_or_one (v.toNat / 2 ^ n) with h | h <;> simp [h, bitNat]

/-- `put_align()` appends zeros up to the byte boundary. -/
theorem putAlign_appended (start : Nat) (hs : start ≤ s.bw.ptr.toNat) (hc : s.bw.cnt.toNat ≤ 7)
    (hp : p.streamBytes ≤ 2 ^ 32 - 1) (room : writerRoom p s ((8 - s.bw.cnt.toNat) % 8)) :
    ∃ t, putAlign p s = .ok () t ∧ Appended start s ((8 - s.bw.cnt.toNat) % 8) 0 t ∧ t.bw.cnt = 0 := by
  have loop : ∀ (k : Nat) (s : State), start ≤ s.bw.ptr.toNat → s.bw.cnt.toNat ≤ 7 → s.bw.cnt.toNat + k ≥ 8 →
      writerRoom p s ((8 - s.bw.cnt.toNat) % 8) →
      ∃ t, alignLoop p k s = .ok () t ∧ Appended start s ((8 - s.bw.cnt.toNat) % 8) 0 t ∧ t.bw.cnt = 0 := by
    intro k
    induction k with
    | zero => intro s _ _ _ _; omega
    | succ k ih =>
      intro s hs hc hk room
      by_cases h0 : s.bw.cnt = 0
      · refine ⟨s, if_pos h0, ?_, h0⟩
        rw [h0]
        refine ⟨rfl, hc, hs, fun w hw => ?_, fun _ _ => rfl, rfl⟩
        rw [hw]
        simp
      · have hne : s.bw.cnt.toNat ≠ 0 := fun h => h0 (BitVec.eq_of_toNat_eq h)
        obtain ⟨t, e, h⟩ := putBit_appended (p := p) start false hs hc hp (writerRoom_mono (by omega) room)
        have hpos := h.pos
        have hcnt := h.cnt
        simp only [outPos] at hpos
        by_cases h7 : s.bw.cnt.toNat = 7
        · have ht0 : t.bw.cnt = 0 := BitVec.eq_of_toNat_eq (by simp; omega)
          refine ⟨t, ?_, ?_, ht0⟩
          · refine (if_neg h0).trans ((cmd_bind_of_ok e).trans ?_)
            cases k with
            | zero => rfl
            | succ k => exact if_pos ht0
          · rw [h7]
            exact h
        · have ht : t.bw.cnt.toNat = s.bw.cnt.toNat + 1 := by omega
          obtain ⟨u, f, g, hu⟩ := ih t h.start_le h.cnt (by omega) (h.room (by
            rw [ht, show 1 + (8 - (s.bw.cnt.toNat + 1)) % 8 = (8 - s.bw.cnt.toNat) % 8 by omega]
            exact room))
          refine ⟨u, (if_neg h0).trans ((cmd_bind_of_ok e).trans f), ?_, hu⟩
          have := h.trans g hc
          rw [ht] at this
          rw [show (8 - s.bw.cnt.toNat) % 8 = 1 + (8 - (s.bw.cnt.toNat + 1)) % 8 by omega]
          simpa [bitNat] using this
  exact loop 16 s hs hc (by omega) room

/-! ## Termination -/

/-- The held bytes with the carry added, as `ae_finish` writes them (rule R148). -/
theorem finishHeld_run (hi : EncoderInv s.ae) (first : s.ae.run.toNat = 0 → s.ae.buf = 0xFF) (hc : s.bw.cnt = 0)
    (hp : p.streamBytes ≤ 2 ^ 32 - 1) (room : s.bw.ptr.toNat + s.ae.run.toNat ≤ p.streamBytes) :
    ∃ fb r, finishHeld p s = .ok () { withBytes s fb with ae := r } ∧ fb.length = s.ae.run.toNat ∧
      r.debt = s.ae.debt ∧ r.low.toNat = s.ae.low.toNat % 2 ^ (9 + accOf s.ae) ∧
      ∀ v, beFold v fb * 2 ^ (9 + accOf s.ae) + r.low.toNat =
        beFold v (heldBytes s.ae) * 2 ^ (9 + accOf s.ae) + s.ae.low.toNat := by
  have hge := hi.debt_ge
  have hle := hi.debt_le
  have hroom := hi.low_room
  have hacc : (32 - debtOf s.ae).toNat = 9 + accOf s.ae := by unfold accOf; omega
  have hacc11 : accOf s.ae ≤ 11 := by unfold accOf; omega
  have hP : 0 < 2 ^ (9 + accOf s.ae) := by positivity
  have hP20 : 2 ^ (9 + accOf s.ae) ≤ 2 ^ 20 := Nat.pow_le_pow_right (by omega) (by omega)
  rw [show 10 + accOf s.ae = 9 + accOf s.ae + 1 by omega, pow_succ] at hroom
  have hcarry : carryOf s.ae = s.ae.low.toNat / 2 ^ (9 + accOf s.ae) := by rw [carryOf, hacc]
  have hrg := hi.rng_ge
  have hdm := Nat.div_add_mod s.ae.low.toNat (2 ^ (9 + accOf s.ae))
  have hml := Nat.mod_lt s.ae.low.toNat hP
  unfold finishHeld
  by_cases h : carryOf s.ae = 0
  · rw [if_neg (by simpa using h)]
    rw [hcarry] at h
    have hlow : s.ae.low.toNat % 2 ^ (9 + accOf s.ae) = s.ae.low.toNat := by
      rw [h] at hdm
      omega
    by_cases h0 : s.ae.run.toNat = 0
    · refine ⟨[], s.ae, ?_, by simp [h0], rfl, hlow.symm, fun v => by rw [heldBytes_zero h0]⟩
      rw [show decide (0 < s.ae.run.toNat) = false by simp [h0], show drainTurns s.ae.run = 0 by simp [drainTurns, h0]]
      rfl
    · have h1 : (s.bw.ptr + 1).toNat = s.bw.ptr.toNat + 1 := by bv_omega
      refine ⟨s.ae.buf :: List.replicate (drainTurns s.ae.run) 0xFF,
        { s.ae with run := s.ae.run - BitVec.ofNat 32 (drainTurns s.ae.run) }, ?_, ?_, rfl, hlow.symm, fun v => ?_⟩
      · rw [show decide (0 < s.ae.run.toNat) = true by simp; omega]
        refine (cmd_bind_of_ok (putByte_aligned s.ae.buf hc (by omega))).trans ?_
        exact drainRun_run (s := withByte s s.ae.buf) 0xFF _ rfl hp (by simp only [withByte, h1, drainTurns]; omega)
      · simp [drainTurns]
        omega
      · rw [heldBytes_pos h0]
        rfl
  · rw [if_pos h]
    have h1c : carryOf s.ae = 1 := by
      have : carryOf s.ae < 2 := by
        rw [hcarry, Nat.div_lt_iff_lt_mul hP]
        omega
      omega
    rw [hcarry] at h1c
    have hbuf : s.ae.buf ≠ 0xFF := by
      intro hb
      have := hi.carry_free hb
      rw [h1c] at hdm
      omega
    have hrun : s.ae.run.toNat ≠ 0 := fun h0 => hbuf (first h0)
    have h1 : (s.bw.ptr + 1).toNat = s.bw.ptr.toNat + 1 := by bv_omega
    have hb : s.ae.buf.toNat ≠ 255 := fun hb => hbuf (BitVec.eq_of_toNat_eq hb)
    have hb' := s.ae.buf.isLt
    have hb1 : (s.ae.buf + 1).toNat = s.ae.buf.toNat + 1 := by
      rw [BitVec.toNat_add]
      simp
      omega
    have hsub : (s.ae.low - BitVec.ofNat 32 (2 ^ (32 - debtOf s.ae).toNat)).toNat =
        s.ae.low.toNat % 2 ^ (9 + accOf s.ae) := by
      rw [hacc]
      rw [h1c] at hdm
      have := s.ae.low.isLt
      rw [BitVec.toNat_sub, BitVec.toNat_ofNat]
      omega
    refine ⟨(s.ae.buf + 1) :: List.replicate (drainTurns s.ae.run) 0x00,
      { s.ae with
        run := s.ae.run - BitVec.ofNat 32 (drainTurns s.ae.run)
        low := s.ae.low - BitVec.ofNat 32 (2 ^ (32 - debtOf s.ae).toNat) }, ?_, ?_, rfl, hsub, fun v => ?_⟩
    · refine (cmd_bind_of_ok (putByte_aligned (s.ae.buf + 1) hc (by omega))).trans ?_
      refine (cmd_bind_of_ok (drainRun_run (s := withByte s (s.ae.buf + 1)) 0x00 _ rfl hp
        (by simp only [withByte, h1, drainTurns]; omega))).trans ?_
      rfl
    · simp [drainTurns]
      omega
    · simp only [hsub]
      rw [heldBytes_pos hrun, beFold_cons, beFold_cons, hb1]
      have h2 := beFold_ones (256 * v + s.ae.buf.toNat) (s.ae.run.toNat - 1)
      have h3 := beFold_zeros (256 * v + (s.ae.buf.toNat + 1)) (s.ae.run.toNat - 1)
      rw [show (BitVec.ofNat 8 0x100 : Byte) = 0x00 from rfl] at h3
      rw [show drainTurns s.ae.run = s.ae.run.toNat - 1 from rfl, h3, ← Nat.add_assoc, ← h2, Nat.add_mul]
      rw [h1c] at hdm
      omega

/-- The terminating part: the top 2 of the interval (rule R147). -/
theorem terminateRegs_narrowed (hi : EncoderInv e) :
    Narrowed e (terminateRegs e) 7 ((e.rng.toNat - 2) * 2 ^ 7) ∧ (terminateRegs e).rng = 256 := by
  have hge := hi.rng_ge
  have hs : (e.rng - 2).toNat = e.rng.toNat - 2 := by
    have := hi.rng_le
    bv_omega
  have hfit := encoder_fits hi (n := 7) (by omega)
  have hr : (terminateRegs e).rng = 256 := rfl
  refine ⟨⟨by omega, ?_, ?_, ?_, by rw [hr]; decide, by rw [hr]; decide, rfl, rfl⟩, hr⟩
  · simp only [terminateRegs]
    rw [low_shift _ (by rw [hs]; omega), hs, Nat.add_mul]
  · simp only [terminateRegs, debtOf]
    exact debt_sub (n := 7) (by omega) hi.debt_ge
  · rw [hr, show (256 : BitVec 9).toNat = 256 from rfl]
    omega

/-- A flush only moves bytes: what is written, held and pending stays the same number of bits. -/
theorem flush_count (h : Unflushed e) (hrun : e.run.toNat + 1 < 2 ^ 32) :
    8 * ((flushBytes e).length + (flushRegs e).run.toNat) + accOf (flushRegs e) = 8 * e.run.toNat + accOf e := by
  obtain ⟨hd, hd128⟩ := debt_toNat (e := e) (by have := h.debt_ge; omega)
  have hge := h.debt_ge
  unfold flushBytes flushRegs
  by_cases hf : debtOf e < Config.flushT
  · have hf' : debtOf e < 12 := hf
    rw [if_pos hf, if_pos hf, emitted_length]
    have hdebt : debtOf (placed (dropLead e) (leadOf e)) = debtOf e + 8 := by
      have h1 : (placed (dropLead e) (leadOf e)).debt = e.debt + 8 := by
        unfold placed
        split <;> rfl
      rw [debtOf, h1]
      have h2 : (e.debt + 8).toNat = e.debt.toNat + 8 := by
        rw [BitVec.toNat_add]
        simp
        omega
      rw [BitVec.toInt_eq_toNat_of_lt (by omega), h2]
      omega
    have hrun' : (dropLead e).run = e.run := rfl
    have hr : (if leadOf e = 0xFF then 0 else (dropLead e).run.toNat) + (placed (dropLead e) (leadOf e)).run.toNat =
        e.run.toNat + 1 := by
      unfold placed
      by_cases hl : leadOf e = 0xFF
      · rw [if_pos hl, if_pos hl]
        simp only [hrun']
        bv_omega
      · rw [if_neg hl, if_neg hl, hrun']
        rfl
    rw [hr]
    unfold accOf
    rw [hdebt]
    omega
  · rw [if_neg hf, if_neg hf]
    simp

/-- `AE_TERM` in a session with room for its bytes: the session is closed, the writer is byte-aligned, and the bytes from
the session's start on are the code word: the top odd number of the interval, padded with zeros (rules R147, R148). -/
theorem aeTerm_run {start L : Nat} (h : Session start s) (hL : codeValue start s = some L) (hp : p.Ok)
    (room : s.bw.ptr.toNat + s.ae.run.toNat + (accOf s.ae + 16) / 8 ≤ p.streamBytes) :
    ∃ t, aeTerm p s = .ok () t ∧ t.bw.cnt = 0 ∧
      t.bw.ptr.toNat = s.bw.ptr.toNat + s.ae.run.toNat + (accOf s.ae + 16) / 8 ∧
      t.status = { s.status with encOpen := false } ∧
      bitValue start t = some (((L + s.ae.rng.toNat - 2) / 2 * 2 + 1) *
        2 ^ (8 * ((accOf s.ae + 16) / 8) - (accOf s.ae + 9))) ∧
      (∀ a, a < s.bw.ptr.toNat ∨ t.bw.ptr.toNat ≤ a → cellsRead t.stream a = cellsRead s.stream a) ∧
      t = { s with stream := t.stream, bw := t.bw, ae := t.ae, status := t.status } := by
  have hsb := hp.stream_le
  obtain ⟨hn, _⟩ := terminateRegs_narrowed h.inv
  obtain ⟨h1, hL1, hrng1, _, hle1, hout1⟩ := session_flushed h hL hn hp (by unfold encoderRoom; omega)
  have hacc := hn.acc h.inv
  have hrun : (terminateRegs s.ae).run = s.ae.run := rfl
  have hcount := flush_count (hn.unflushed h.inv) (by rw [hrun]; omega)
  have hlen : (flushBytes (terminateRegs s.ae)).length ≤ s.ae.run.toNat := flushBytes_length_le (terminateRegs s.ae)
  have hptr1 : (flushed s (terminateRegs s.ae)).bw.ptr.toNat = s.bw.ptr.toNat + (flushBytes (terminateRegs s.ae)).length :=
    withBytes_ptr (s := s) _ (by omega)
  have hflush := aeFlush_regs (p := p) (s := s) (terminateRegs s.ae) h.aligned hsb (by rw [hrun]; omega)
  rw [hrun, hacc] at hcount
  rw [show flushRegs (terminateRegs s.ae) = (flushed s (terminateRegs s.ae)).ae from rfl] at hcount
  have hrest1 : flushed s (terminateRegs s.ae) =
      { s with
        stream := (flushed s (terminateRegs s.ae)).stream, bw := (flushed s (terminateRegs s.ae)).bw,
        ae := (flushed s (terminateRegs s.ae)).ae } := by
    unfold flushed
    rw [withBytes_rest]
  generalize flushed s (terminateRegs s.ae) = t1 at *
  have hd1 := h1.inv.debt_ge
  have hd2 := h1.inv.debt_le
  obtain ⟨fb, r, hfin, hfl, hrd, hrl, hval⟩ := finishHeld_run h1.inv h1.first h1.aligned hsb (by omega)
  have hptr2 := withBytes_ptr (s := t1) fb (by omega)
  have hacc24 : (24 - debtOf r).toNat = 1 + accOf t1.ae := by
    rw [debtOf, hrd]
    unfold accOf debtOf at *
    omega
  have hb2 : bitValue start { withBytes t1 fb with ae := r } =
      (cellsReadRange t1.stream start (t1.bw.ptr.toNat - start)).map fun bs => beFold (beValue bs) fb := by
    unfold bitValue
    have hc2 := withBytes_cnt (s := t1) fb h1.aligned
    have hs1 := h1.start_le
    simp only [hc2, hptr2]
    rw [show t1.bw.ptr.toNat + fb.length - start = (t1.bw.ptr.toNat - start) + fb.length by omega, cellsReadRange_append,
      cellsReadRange_congr (m := t1.stream)
        (fun a ha hb => withBytes_outside (s := t1) fb (by omega) (by omega)),
      show start + (t1.bw.ptr.toNat - start) = t1.bw.ptr.toNat by omega, withBytes_read (s := t1) fb (by omega)]
    cases cellsReadRange t1.stream start (t1.bw.ptr.toNat - start) with
    | none => rfl
    | some bs => simp [beValue_append, Nat.mod_one]
  obtain ⟨bs, hbs, hL1'⟩ := Option.map_eq_some_iff.1 hL1
  rw [hbs] at hb2
  generalize hu2 : ({ withBytes t1 fb with ae := r } : State) = u2 at *
  have hu2c : u2.bw.cnt = 0 := by rw [← hu2]; exact withBytes_cnt (s := t1) fb h1.aligned
  have hu2p : u2.bw.ptr.toNat = t1.bw.ptr.toNat + fb.length := by rw [← hu2]; exact hptr2
  have hu2r : u2.ae = r := by rw [← hu2]
  have hs1 := h1.start_le
  have hu20 : u2.bw.cnt.toNat = 0 := by rw [hu2c]; rfl
  obtain ⟨u3, e3, a3⟩ := putBits_appended (p := p) (s := u2) start (r.low >>> 8) (1 + accOf t1.ae) (by omega)
    (by omega) hsb (by unfold writerRoom; omega)
  have p3 := a3.pos
  have c3 := a3.cnt
  obtain ⟨u4, e4, a4⟩ := putBit_appended (p := p) start true a3.start_le a3.cnt hsb
    (by simp only [outPos] at p3; unfold writerRoom; omega)
  have p4 := a4.pos
  have c4 := a4.cnt
  obtain ⟨u5, e5, a5, c5⟩ := putAlign_appended (p := p) start a4.start_le a4.cnt hsb
    (by simp only [outPos] at p3 p4; unfold writerRoom; omega)
  have p5 := a5.pos
  have all := (a3.trans a4 (by omega)).trans a5 (by rw [hu20]; omega)
  simp only [outPos] at p3 p4 p5
  have hc50 : u5.bw.cnt.toNat = 0 := by rw [c5]; rfl
  have hend : u5.bw.ptr.toNat = s.bw.ptr.toNat + s.ae.run.toNat + (accOf s.ae + 16) / 8 := by omega
  have hrest5 : u5 = { s with stream := u5.stream, bw := u5.bw, ae := u5.ae } := by
    have h2 : u2 = { t1 with stream := u2.stream, bw := u2.bw, ae := r } := by
      rw [← hu2, withBytes_rest]
    rw [all.rest, h2, hrest1]
  refine ⟨{ u5 with status := { u5.status with encOpen := false } }, ?_, c5, hend, ?_, ?_, ?_, ?_⟩
  · unfold aeTerm
    rw [cmd_bind_of_ok (cmd_modify _ _), cmd_bind_of_ok hflush]
    unfold aeFinish
    have hf2 : (do finishHeld p; let s ← get; putBits p (s.ae.low >>> 8) (24 - debtOf s.ae).toNat : Cmd Unit) t1 =
        .ok () u3 := by
      rw [cmd_bind_of_ok hfin, cmd_bind_of_ok (cmd_get _), hu2r, hacc24]
      exact e3
    rw [cmd_bind_of_ok hf2, cmd_bind_of_ok e4, cmd_bind_of_ok e5]
    rfl
  · rw [hrest5]
  · change bitValue start u5 = _
    rw [all.value _ hb2]
    congr 1
    simp only
    generalize hH : beFold (beValue bs) fb = H at *
    have hv := hval (beValue bs)
    rw [hH] at hv
    rw [beValue_append] at hL1'
    rw [hL1'] at hv
    have hlow : (r.low >>> 8 : Word).toNat % 2 ^ (1 + accOf t1.ae) = r.low.toNat / 256 := by
      rw [BitVec.toNat_ushiftRight, Nat.shiftRight_eq_div_pow]
      apply Nat.mod_eq_of_lt
      rw [Nat.div_lt_iff_lt_mul (by positivity), ← pow_add, hrl, show 1 + accOf t1.ae + 8 = 9 + accOf t1.ae by omega]
      exact Nat.mod_lt _ (by positivity)
    have hpow : 2 ^ (9 + accOf t1.ae) = 2 ^ (1 + accOf t1.ae) * 256 := by
      rw [show 9 + accOf t1.ae = 1 + accOf t1.ae + 8 by omega, pow_add]
      rfl
    have hword : H * 2 ^ (1 + accOf t1.ae) + r.low.toNat / 256 = (L + s.ae.rng.toNat - 2) / 2 := by
      have hr2 := h.inv.rng_ge
      rw [hpow, ← Nat.mul_assoc] at hv
      generalize H * 2 ^ (1 + accOf t1.ae) = G at *
      omega
    rw [hlow, ← hword]
    rw [show 8 * ((accOf s.ae + 16) / 8) - (accOf s.ae + 9) = (8 - u4.bw.cnt.toNat) % 8 by omega]
    rw [pow_add, pow_add, show bitNat true = 1 from rfl]
    ring
  · intro a ha
    change cellsRead u5.stream a = _
    rw [all.below a (by simp only at ha; omega), ← hout1 a (by simp only at ha; omega), ← hu2]
    exact withBytes_outside (s := t1) fb (by omega) (by simp only at ha; omega)
  · rw [hrest5]

end Sys2Proof.Machine
end

