-- ==== Sys2Proof/Tests/Slice0.lean ====
section
/-! SUPPORT. Tests. Expected values are the spec's own examples, or worked out by hand from the rule a test names; and for
each statement with hypotheses a state that meets them. -/

namespace Sys2Proof.Tests

set_option Elab.async false

open Sys2Proof Sys2Proof.Machine Sys2Proof.Safety

/-! ## WellFormed: each counted command refuses 33 and takes 32 (rule R88) -/

theorem test_wf_refuses_count_33 :
    [Instr.bwBits 33, .brBits 33, .aeBits .asig 33, .aeByps 33, .adByps 33].all (fun i => !i.wf) = true := by decide

theorem test_wf_takes_count_32 :
    [Instr.bwBits 32, .brBits 32, .aeBits (.model 14) 32, .aeByps 32, .adByps 0, .nop].all Instr.wf = true := by decide

/-! ## Decode: words written from the opcode map and the formats (rules R81 to R87) -/

/-- The decoder's answer on a list of words. -/
def decodes (ws : List Word) : List (Option Instr) := ws.map fun w => (decode w).toOption

theorem test_decode_system :
    decodes [0x00000000, 0x01000000, 0x02000000] = [some .nop, some .sreset, some .ctxinit] := by decide

theorem test_decode_bitio :
    decodes [0x10000001, 0x11002000, 0x12000000, 0x14000000, 0x15000700, 0x16000000] =
      [some (.bwBit true), some (.bwBits 32), some .bwAlign, some .brBit, some (.brBits 7), some .brAlign] := by decide

theorem test_decode_models :
    decodes [0x200E0000, 0x21110000, 0x22050001] =
      [some (.pmMps (.model 14)), some (.pmLps .agt1), some (.pmEst (.model 5) true)] := by decide

theorem test_decode_encoder :
    decodes [0x30000000, 0x31000001, 0x32070500, 0x33000000, 0x34002000, 0x35000000, 0x36120000, 0x37010000] =
      [some .aeStart, some (.aeBit (.model 0) true), some (.aeBits (.model 7) 5), some (.aeByp false),
       some (.aeByps 32), some .aeTerm, some (.aeEg .alvl), some (.aeEgest (.model 1))] := by decide

theorem test_decode_decoder :
    decodes [0x40000000, 0x41100000, 0x43000000, 0x44000C00, 0x45000000, 0x46010000] =
      [some .adStart, some (.adBit .asig), some .adByp, some (.adByps 12), some .adTerm, some (.adEg (.model 1))] := by
  decide

theorem test_decode_block :
    decodes [0x50000004, 0x60000034, 0x61000000, 0x62000010, 0x63000004, 0x64000020, 0x65000030, 0x66000000, 0x67000014,
        0x68000004, 0x69000000] =
      [some (.ctxSw .half), some (.pred .planar .half), some (.resid .full), some (.txf .vertical .full),
       some (.quant .half), some (.scanf .horizontal .full), some (.scani .planar .full), some (.deq .full),
       some (.txi .vertical .half), some (.recon .half), some (.dist .full)] := by decide

theorem test_decode_syntax :
    decodes [0x70000000, 0x71000000, 0x72000001, 0x73000000, 0x74000020, 0x75000000, 0x76000004, 0x77000000] =
      [some .hdrWr, some .hdrRd, some (.encPart true), some .decPart, some (.encPmode .horizontal), some .decPmode,
       some (.encCoef .half), some (.decCoef .full)] := by decide

/-- Rule R88: an unknown opcode, a must-be-zero field, a selector without a model, a count of 33. -/
theorem test_decode_refuses :
    decodes [0x03000000, 0x42000000, 0x78000000, 0x00000001, 0x10000002, 0x60000008, 0x74000004, 0x200F0000, 0x31130000,
        0x11002100, 0x11010100] = List.replicate 11 none := by decide

/-! ## Single commands on the reference tables (file 41), from the spec's examples -/

/-- The reference tables, unit costs, the least lawful numerics, and a STREAM of 16 bytes. -/
def ref : Config.Params := Config.refParams 16 (default : Config.Num).guarded

/-- The state a command leaves, if it answers one. -/
def after (c : Cmd Unit) (s : State) : Option State :=
  match runCommand [] c s with
  | .next t => some t
  | _ => none

/-- STREAM holding these bytes from address 0. -/
def streamOf (bs : List Nat) : List Host.Cell := bs.zipIdx.map fun x => (x.2, BitVec.ofNat 8 x.1)

/-- A buffer holding these values from index 0. -/
def cellsOf {n : Nat} (vs : List Int) : Cells (BitVec n) := vs.zipIdx.map fun x => (x.2, BitVec.ofInt n x.1)

/-- A reader at byte 0 of these bytes. -/
def reading (bs : List Nat) : State :=
  { State.reset with stream := streamOf bs, br := ⟨0, 0, 0, BitVec.ofNat 32 bs.length⟩ }

/-- A decode session that has read two bytes. -/
def decoding (pat : Nat) (bs : List Nat) : State :=
  { State.reset with
    stream := streamOf bs, br := ⟨0, 0, 2, BitVec.ofNat 32 bs.length⟩, ad := ⟨BitVec.ofNat 32 pat, 510, 0xF8⟩ }

/-- A machine working on blocks of size `bs`. -/
def sized (bs : Nat) : State := { State.reset with cfg := ⟨0, 0, BitVec.ofNat 16 bs, 0, false, false⟩ }

/-- Rule R102: the eighth bit of 1,0,1,0,0,1,0,1 writes 0xA5. -/
theorem test_bwBit_eighth :
    (after (bwBit ref true) { State.reset with bw := ⟨0x52, 7, 0⟩ }).map (fun t => (t.stream, t.bw)) =
      some (streamOf [0xA5], ⟨0, 0, 1⟩) := by decide +kernel

/-- Rule R103: `ARG = 0x0010`, 16 bits. -/
theorem test_bwBits_bytes :
    (after (bwBits ref 16) { State.reset with arg := 0x0010 }).map (fun t => (t.stream, t.bw)) =
      some (streamOf [0x00, 0x10], ⟨0, 0, 2⟩) := by decide +kernel

/-- Rule R104: 0b101 pads to 0xA0. -/
theorem test_bwAlign_pads :
    (after (bwAlign ref) { State.reset with bw := ⟨5, 3, 0⟩ }).map (fun t => (t.stream, t.bw)) =
      some (streamOf [0xA0], ⟨0, 0, 1⟩) := by decide +kernel

/-- Rule R105: the first bit of 0xA5; the byte is fetched. -/
theorem test_brBit_first :
    (after (brBit ref) (reading [0xA5])).map (fun t => (t.res, t.br)) = some (1, ⟨0xA5, 7, 1, 1⟩) := by decide +kernel

/-- Rule R106: 00 10 is 16. -/
theorem test_brBits_value :
    (after (brBits ref 16) (reading [0x00, 0x10])).map (fun t => (t.res, t.br.ptr, t.br.cnt)) = some (16, 2, 0) := by
  decide +kernel

/-- Rule R123: the saturated state stays. -/
theorem test_pmMps_saturates :
    (after (pmMps ref (.model 0)) { State.reset with pm := State.reset.pm.set 0 ⟨62, false⟩ }).map (fun t => t.pm[0]) =
      some ⟨62, false⟩ := by decide +kernel

/-- Rule R124: (1, 0) goes to (0, 1), with `LPS_FLIP = after`. -/
theorem test_pmLps_flips :
    (after (pmLps ref (.model 0)) { State.reset with pm := State.reset.pm.set 0 ⟨1, false⟩ }).map (fun t => t.pm[0]) =
      some ⟨0, true⟩ := by decide +kernel

/-- Rule R124: (62, 1) goes to (38, 1). -/
theorem test_pmLps_high :
    (after (pmLps ref .asig) { State.reset with pm := State.reset.pm.set 6 ⟨62, true⟩ }).map (fun t => t.pm[6]) =
      some ⟨38, true⟩ := by decide +kernel

/-- Rule R196: with unit costs 7 costs 2k + 1 = 7. -/
theorem test_aeEgest_unit :
    (after (aeEgest ref (.model 0)) { State.reset with arg := 7 }).map (fun t => t.res) = some 7 := by decide +kernel

/-- Rule R143's first bin: an MPS without a shift. -/
theorem test_aeBit_mps :
    (after (aeBit ref (.model 0) false) State.reset).map (fun t => (t.ae, t.pm[0])) =
      some (⟨0, 270, 0xFF, 0, 23⟩, ⟨1, false⟩) := by decide +kernel

/-- Rule R143's second bin: an LPS. -/
theorem test_aeBit_lps :
    (after (aeBit ref (.model 0) true)
        { State.reset with ae := ⟨0, 270, 0xFF, 0, 23⟩, pm := State.reset.pm.set 0 ⟨1, false⟩ }).map
        (fun t => (t.ae, t.pm[0])) =
      some (⟨284, 256, 0xFF, 0, 22⟩, ⟨0, true⟩) := by decide +kernel

/-- Rule R144: the two bins at once. -/
theorem test_aeBits_two :
    (after (aeBits ref (.model 0) 2) { State.reset with arg := 1 }).map (fun t => (t.ae, t.pm[0])) =
      some (⟨284, 256, 0xFF, 0, 22⟩, ⟨0, true⟩) := by decide +kernel

/-- Rule R146: 0b101 after the start leaves `AE_LOW` 2550 and `AE_DEBT` 20. -/
theorem test_aeByps_low :
    (after (aeByps ref 3) { State.reset with arg := 5 }).map (fun t => t.ae) = some ⟨2550, 510, 0xFF, 0, 20⟩ := by decide +kernel

/-- Rule R147: the empty session is FE 80. -/
theorem test_aeTerm_empty :
    (after (aeTerm ref) { State.reset with status := ⟨false, 0, true, false⟩ }).map
        (fun t => (t.stream, t.bw, t.status.encOpen)) =
      some (streamOf [0xFE, 0x80], ⟨0, 0, 2⟩, false) := by decide +kernel

/-- Rule R191: 7 takes model 1 from (0, 0) to (2, 0). -/
theorem test_aeEg_model :
    (after (aeEg ref (.model 1)) { State.reset with arg := 7 }).map (fun t => t.pm[1]) = some ⟨2, false⟩ := by decide +kernel

/-- Rule R170's example. -/
theorem test_adStart :
    (after (adStart ref) (reading [0x76, 0xF8])).map (fun t => (t.ad, t.br.ptr, t.status.decOpen)) =
      some (⟨30456, 510, 0xF8⟩, 2, true) := by decide +kernel

/-- Rule R171's first bin: an MPS. -/
theorem test_adBit_mps :
    (after (adBit ref (.model 0)) (decoding 30456 [0x76, 0xF8])).map (fun t => (t.res, t.ad, t.pm[0])) =
      some (0, ⟨30456, 270, 0xF8⟩, ⟨1, false⟩) := by decide +kernel

/-- Rule R171's second bin: an LPS. -/
theorem test_adBit_lps :
    (after (adBit ref (.model 0))
        { State.reset with ad := ⟨30456, 270, 0xF8⟩, pm := State.reset.pm.set 0 ⟨1, false⟩ }).map
        (fun t => (t.res, t.ad, t.pm[0])) =
      some (1, ⟨24560, 256, 0xF9⟩, ⟨0, true⟩) := by decide +kernel

/-- Rule R172's example. -/
theorem test_adByp :
    (after (adByp ref) { State.reset with ad := ⟨24560, 256, 0xF9⟩ }).map (fun t => (t.res, t.ad)) =
      some (1, ⟨16352, 256, 0xFA⟩) := by decide +kernel

/-- Rule R173's example. -/
theorem test_adByps :
    (after (adByps ref 3) { State.reset with ad := ⟨24560, 256, 0xF9⟩ }).map (fun t => (t.res, t.ad)) =
      some (5, ⟨32640, 256, 0xFC⟩) := by decide +kernel

/-- Rule R174: right after the start, FE 00 passes and FD FF does not. -/
theorem test_adTerm_pass :
    (after adTerm (decoding 0xFE00 [])).map (fun t => t.status.fault) = some false := by decide +kernel
theorem test_adTerm_fails :
    (after adTerm (decoding 0xFDFF [])).map (fun t => t.status) = some ⟨true, 2, false, false⟩ := by decide +kernel

/-- Rule R192's example. -/
theorem test_adEg :
    (after (adEg ref (.model 1)) (decoding 0x198B [0x19, 0x8B])).map (fun t => (t.res, t.pm[1])) =
      some (7, ⟨2, false⟩) := by decide +kernel

/-- Rule R200's examples: `DIAG_8[27] = 6`, `DIAG_8[28] = 7`. -/
theorem test_ctxSw_buckets :
    [27, 28].map (fun i => (after (ctxSw .full) { sized 8 with arg := BitVec.ofNat 32 i }).map fun t => t.bucket) =
      [some 1, some 2] := by decide +kernel

/-- Rule R200: index 16 of a 4 by 4 partition. -/
theorem test_ctxSw_range :
    (after (ctxSw .half) { sized 8 with arg := 16 }).map (fun t => t.status) = some ⟨true, 6, false, false⟩ := by decide +kernel

/-- Rule R236: a DC tie goes to the even value; the mean 2.75 goes to 3. -/
theorem test_pred_dc :
    [[3, 4], [3, 5]].map (fun l => (after (pred .dc .full)
        { sized 2 with
          cfg := ⟨0, 0, 2, 0, true, true⟩, top := cellsOf [1, 2], left := cellsOf l }).map fun t => t.predb) =
      [some (cellsOf [2, 2, 2, 2]), some (cellsOf [3, 3, 3, 3])] := by decide +kernel

/-- Rule R236: planar with the top border only, N = 4; the borders of rule R235's example. -/
theorem test_pred_planar :
    (after (pred .planar .full)
        { sized 4 with cfg := ⟨0, 0, 4, 0, true, false⟩, top := cellsOf [10, 20, 30, 40] }).map
        (fun t => t.predb.take 4) = some (cellsOf [72, 65, 58, 51]) := by decide +kernel

/-- Rule R250's example. -/
theorem test_resid :
    (after (resid .full)
        { sized 2 with orig := cellsOf [10, 20, 30, 40], predb := cellsOf [128, 128, 128, 128] }).map
        (fun t => t.resd) = some (cellsOf [-118, -108, -98, -88]) := by decide +kernel

/-- A rational element. -/
def num (c : Rat) : Config.RealVal := .ofRat c

/-- Numerics that answer 1 when they are given the DST-VII on the vertical and the DCT-II on the horizontal axis. -/
def axes : Config.Num where
  txf a b _ _ _ _ := if a = .dst7 ∧ b = .dct2 then num 1 else num 0
  txi a b _ _ _ _ := if a = .dst7 ∧ b = .dct2 then num 1 else num 0
  step _ := num 0
  quant _ _ := 0
  deq _ _ := num 0
  round _ := 0

/-- Rule R212: which axis gets which transform, in the four modes. -/
theorem test_transform_axes :
    [PredMode.dc, .vertical, .horizontal, .planar].map (fun pm =>
        (after (txf { ref with num := axes } pm .half) { sized 2 with resd := cellsOf [5] }).map fun t => t.coef) =
      [some (some ⟨1, [num 0]⟩), some (some ⟨1, [num 1]⟩), some (some ⟨1, [num 0]⟩), some (some ⟨1, [num 0]⟩)] := by
  decide +kernel

/-- Rule R271's example on the machine's own parameters, command by command; DEQ at quality 12 multiplies by 8. -/
theorem test_example_txf :
    (after (txf Config.params .dc .full) { sized 2 with resd := cellsOf [-118, -108, -98, -88] }).map (fun t => t.coef) =
      some (some ⟨2, [num (-206), num (-10), num (-20), num 0]⟩) := by decide +kernel

theorem test_example_quant :
    (after (quant Config.params .full)
        { sized 2 with
          cfg := ⟨0, 0, 2, 12, false, false⟩,
          coef := some ⟨2, [num (-206), num (-10), num (-20), num 0]⟩ }).map (fun t => t.qidx) =
      some (cellsOf [-26, -1, -2, 0]) := by decide +kernel

theorem test_example_deq :
    (after (deq Config.params .full)
        { sized 2 with cfg := ⟨0, 0, 2, 12, false, false⟩, qidx := cellsOf [-26, -1, -2, 0] }).map (fun t => t.dcoef) =
      some (some ⟨2, [num (-208), num (-8), num (-16), num 0]⟩) := by decide +kernel

theorem test_example_txi :
    (after (txi Config.params .dc .full)
        { sized 2 with dcoef := some ⟨2, [num (-208), num (-8), num (-16), num 0]⟩ }).map (fun t => t.rres) =
      some (some ⟨2, [num (-116), num (-108), num (-100), num (-92)]⟩) := by decide +kernel

theorem test_example_recon :
    (after (recon Config.params .full)
        { sized 2 with
          predb := cellsOf [128, 128, 128, 128],
          rres := some ⟨2, [num (-116), num (-108), num (-100), num (-92)]⟩ }).map (fun t => t.recb) =
      some (cellsOf [12, 20, 28, 36]) := by decide +kernel

/-- Rule R252's examples: at quality 0, 12, 4 and 31. -/
theorem test_quantize :
    [0.59, 0.6, -0.61, 1.6, -1.59].map (fun y => quantize (num y) (stepOf 0)) = [0, 1, -1, 2, -1] ∧
    [4.7, 4.8, 12.7, 12.8, -100, -206].map (fun y => quantize (num y) (stepOf 12)) = [0, 1, 1, 2, -12, -26] ∧
    [255, -5, 1.19, 1.2].map (fun y => quantize (num y) (stepOf 4)) = [127, -2, 0, 1] ∧
    [129.1, 129.2].map (fun y => quantize (num y) (stepOf 31)) = [0, 1] := by decide +kernel

/-- Rule R252: an index of 2^31 is refused. -/
theorem test_quant_range :
    (after (quant Config.params .half) { sized 2 with coef := some ⟨1, [num (2 ^ 31)]⟩ }).map (fun t => t.status.code) =
      some 6 := by decide +kernel

/-- Rule R253: at quality 1 the index -2 gives -2 * 2^(1/4). -/
theorem test_deq_quarter :
    (after (deq Config.params .half) { sized 2 with cfg := ⟨0, 0, 2, 1, false, false⟩, qidx := cellsOf [-2] }).map
        (fun t => t.dcoef) = some (some ⟨1, [⟨-2, 1, []⟩]⟩) := by decide +kernel

/-- Rule R5's examples and rule R254's: ties go to the even integer. -/
theorem test_round :
    [0.5, 1.5, 2.5, -0.5, -1.5, 10.2, -7.5].map (fun x => roundHalfEven (num x)) = [0, 2, 2, 0, -2, 10, -8] := by
  decide +kernel

/-- Rule R254's corner cases: `PREDB` 100, 100, 250, 3 and `RRES` 0.5, 1.5, 10.2, -7.5. -/
theorem test_recon_clips :
    (after (recon Config.params .full)
        { sized 2 with
          predb := cellsOf [100, 100, 250, 3], rres := some ⟨2, [num 0.5, num 1.5, num 10.2, num (-7.5)]⟩ }).map
        (fun t => t.recb) = some (cellsOf [100, 102, 255, 0]) := by decide +kernel

/-- Rule R256's example, N = 3. -/
theorem test_scanf :
    [PredMode.planar, .horizontal, .vertical].map (fun pm =>
        (after (scanf pm .half) { sized 6 with qidx := cellsOf [1, 2, 3, 4, 5, 6, 7, 8, 9] }).map fun t => t.scan) =
      [some (cellsOf [1, 4, 2, 7, 5, 3, 8, 6, 9]), some (cellsOf [1, 4, 7, 2, 5, 8, 3, 6, 9]),
       some (cellsOf [1, 2, 3, 4, 5, 6, 7, 8, 9])] := by decide +kernel

/-- Rule R257's example. -/
theorem test_scani :
    (after (scani .dc .full) { sized 2 with scan := cellsOf [-26, -2, -1, 0] }).map (fun t => t.qidx) =
      some (cellsOf [-26, -1, -2, 0]) := by decide +kernel

/-- Rule R270's example. -/
theorem test_dist :
    (after (dist .full) { sized 2 with orig := cellsOf [10, 20, 30, 40], recb := cellsOf [12, 20, 28, 36] }).map
        (fun t => t.res) = some 24 := by decide +kernel

/-- Rule R281's example. -/
theorem test_hdrWr :
    (after (hdrWr ref) { State.reset with cfg := ⟨16, 16, 16, 12, false, false⟩ }).map (fun t => (t.stream, t.bw.ptr)) =
      some (streamOf [0x00, 0x10, 0x00, 0x10, 0x00, 0x10, 0x0C], 7) := by decide +kernel

/-- Rule R282 on those bytes. -/
theorem test_hdrRd :
    (after (hdrRd ref) (reading [0x00, 0x10, 0x00, 0x10, 0x00, 0x10, 0x0C])).map (fun t => t.cfg) =
      some ⟨16, 16, 16, 12, false, false⟩ := by decide +kernel

/-- Rule R282: quality 32 is refused. -/
theorem test_hdrRd_quality :
    (after (hdrRd ref) (reading [0, 1, 0, 1, 0, 2, 32])).map (fun t => t.status.code) = some 5 := by decide +kernel

/-- Rule R286: the bins of Horizontal, by the models they move: two MPS and one LPS of state 0. -/
theorem test_encPmode :
    (after (encPmode ref .horizontal) State.reset).map (fun t => [t.pm[3], t.pm[4], t.pm[5]]) =
      some [⟨1, false⟩, ⟨1, false⟩, ⟨0, true⟩] := by decide +kernel

/-- Rule R288: three MPS zeros are Vertical. -/
theorem test_decPmode :
    (after (decPmode ref) (decoding 0 [0, 0])).map (fun t => t.res) = some 1 := by decide +kernel

/-- Rule R293: the first bin of 36 F0 is the partition bit 0. -/
theorem test_decPart :
    (after (decPart ref) (decoding 0x36F0 [0x36, 0xF0])).map (fun t => (t.res, t.pm[2])) = some (0, ⟨1, false⟩) := by
  decide +kernel

/-- Rule R290's example: the models the bins leave. -/
theorem test_encCoef_models :
    (after (encCoef ref .full) { sized 2 with scan := cellsOf [-26, -2, -1, 0] }).map
        (fun t => (t.res, [t.pm[0], t.pm[1], t.pm[6], t.pm[9], t.pm[12]])) =
      some (1, [⟨0, true⟩, ⟨0, true⟩, ⟨1, true⟩, ⟨1, true⟩, ⟨2, false⟩]) := by decide +kernel

/-- Rule R291's example: BB 53 54 8E. -/
theorem test_decCoef :
    (after (decCoef ref .full) { decoding 0xBB53 [0xBB, 0x53, 0x54, 0x8E] with cfg := (sized 2).cfg }).map
        (fun t => (t.res, t.scan)) = some (1, cellsOf [-26, -2, -1, 0]) := by decide +kernel

/-- Rules R100, R324: the fault of a write beyond STREAM. -/
theorem test_fault_overflow :
    (after (bwBit ref true) { State.reset with bw := ⟨0, 7, 16⟩ }).map (fun t => t.status) =
      some ⟨true, 4, false, false⟩ := by decide +kernel

/-! ## Witnesses: for each statement with hypotheses, a state and operands that meet them -/

theorem room_one : 1 ≤ Config.params.streamBytes := Config.params_ok.stream_pos
theorem room_max : Config.params.streamBytes ≤ 2 ^ 32 - 1 := Config.params_ok.stream_le

/-- The reference tables with exact numerics and a STREAM of 16 bytes: an instance that meets rule R126. -/
noncomputable def exact : Config.Params := Config.refParams 16 Config.exactNum
theorem exact_ok : exact.Ok := Config.refParams_ok (by decide) (by decide) Config.exactNum_ok

theorem witness_DecodeEncode : (Instr.aeBits .alvl 32).wf = true := rfl

theorem witness_EncodeDecode : decode 0x32122000 = .ok (.aeBits .alvl 32) := by rfl

/-- A state whose host is about to do these actions. -/
def withHost (s : State) (l : List HostAction) : State := { s with pending := l }

/-- A state with a fault pending. -/
def faulted : State := { State.reset with status := ⟨true, 2, true, false⟩ }

theorem witness_IllegalWords :
    Quiet State.reset ∧ (withHost State.reset [.write 0 0x11002100]).pending = .write 0 0x11002100 :: [] ∧
      ¬LegalWord 0x11002100 := by
  refine ⟨rfl, rfl, ?_⟩
  unfold LegalWord
  decide

theorem witness_StepRunsCommand :
    ((withHost State.reset [.write 0 0x02000000]).pending = .write 0 0x02000000 :: [] ∧
      decode 0x02000000 = .ok .ctxinit ∧ Quiet State.reset) ∧
    ((withHost faulted [.write 0 0x01000000]).pending = .write 0 0x01000000 :: [] ∧
      decode 0x01000000 = .ok .sreset ∧ ¬Quiet faulted) ∧
    decodeTableWord 32 0x02000000 = some .ctxinit := ⟨⟨rfl, rfl, rfl⟩, ⟨rfl, rfl, by decide⟩, rfl⟩

theorem witness_FaultedIgnores :
    faulted.status.fault = true ∧ (0x27FFC : Nat) % 4 = 0 ∧ 0x27FFC < 0x28000 ∧
      (withHost faulted [.write 0 0x01000001]).pending = .write 0 0x01000001 :: [] ∧
      (withHost faulted [.read 0x27FFC]).pending = .read 0x27FFC :: [] ∧ (0x27FFC : Nat) ≠ 0x0C :=
  ⟨rfl, rfl, by decide, rfl, rfl, by decide⟩

/-- One element in every kind of readable memory, at the end of its window where it has one. -/
def readable : State :=
  { State.reset with stream := [(0, 0xA5)], left := [(63, 7)], recb := [(4095, 9)], scan := [(4095, 0x80000000)] }

theorem witness_HostReads :
    (withHost faulted [.read 0x0C]).pending = .read 0x0C :: [] ∧
      Quiet State.reset ∧ (withHost State.reset [.read 0x60]).pending = .read 0x60 :: [] ∧
      State.reset.ae.debt.signExtend 32 = 23 ∧
      (withHost State.reset [.read 0x138]).pending = .read (0x100 + 4 * (14 : Fin 15).val) :: [] ∧
      (withHost State.reset [.read 0x20]).pending = .read 0x20 :: [] ∧
      (Quiet readable ∧ (withHost readable [.read 0x84]).pending = .read 0x84 :: [] ∧
        readable.smAddr.toNat < Config.params.streamBytes ∧
        cellsRead readable.stream readable.smAddr.toNat = some 0xA5 ∧
        Config.params.streamBytes ≤ ({ readable with smAddr := 0xFFFFFFFF } : State).smAddr.toNat) ∧
      cellsRead readable.left 63 = some 7 ∧ (withHost readable [.read 0x14FC]).pending = .read (0x1400 + 4 * 63) :: [] ∧
      cellsRead readable.recb 4095 = some 9 ∧
      (withHost readable [.read 0x27FFC]).pending = .read (0x24000 + 4 * 4095) :: [] ∧
      cellsRead readable.scan 4095 = some 0x80000000 ∧
      (withHost readable [.read 0x23FFC]).pending = .read (0x20000 + 4 * 4095) :: [] := by
  have := room_one
  have := room_max
  refine ⟨rfl, rfl, rfl, rfl, rfl, rfl, ⟨rfl, rfl, ?_, rfl, ?_⟩, rfl, rfl, rfl, rfl, rfl, rfl⟩
  · rw [show readable.smAddr.toNat = 0 from rfl]; omega
  · rw [show ({ readable with smAddr := 0xFFFFFFFF } : State).smAddr.toNat = 2 ^ 32 - 1 from rfl]; omega

/-- An address beyond every STREAM. -/
def beyond : State := { State.reset with smAddr := 0xFFFFFFFF }

theorem witness_HostWriteRead :
    Quiet State.reset ∧ writableBits 0x27FFC = some 0xFF ∧ writableBits 0x04 = some 0xFFFFFFFF ∧
      (withHost State.reset [.write 0x84 7, .read 0x84]).pending = .write 0x84 7 :: .read 0x84 :: [] ∧
      State.reset.smAddr.toNat < Config.params.streamBytes ∧ Config.params.streamBytes ≤ beyond.smAddr.toNat := by
  have := room_one
  have := room_max
  exact ⟨rfl, by decide, by decide, rfl, by rw [show State.reset.smAddr.toNat = 0 from rfl]; omega,
    by rw [show beyond.smAddr.toNat = 2 ^ 32 - 1 from rfl]; omega⟩

theorem witness_HostWriteFrame :
    Quiet State.reset ∧ (0x27FFC : Nat) % 4 = 0 ∧ (0x27FFC : Nat) < 0x28000 ∧ writableBits 0x08 = none ∧
      writableBits 0x28 = none ∧
      0x28 ∉ [0x08, 0x0C, 0x24, 0x34, 0x38, 0x48, 0x4C, 0x50, 0x54, 0x58, 0x5C, 0x60, 0x70, 0x74, 0x78] := by decide

theorem witness_ResetInput : (withHost faulted [.reset]).pending = .reset :: [] := rfl

theorem witness_Sreset :
    faulted.status.fault = true ∧ (withHost faulted [.write 0 0]).pending = .write 0 0 :: [] ∧
      (withHost faulted [.write 0 0x01000000]).pending = .write 0 0x01000000 :: [] := ⟨rfl, rfl, rfl⟩

theorem witness_NopCtxinit : Quiet State.reset := rfl

/-- A writer at the end of the address space with seven bits taken. -/
def atEnd : State := { State.reset with bw := ⟨0, 7, 0xFFFFFFFF⟩ }

theorem witness_BwBits :
    Quiet State.reset ∧ State.reset.bw.cnt.toNat ≤ 7 ∧ (8 : BitVec 8).toNat ≤ 32 ∧
      writerRoom Config.params State.reset 0 ∧ writerRoom Config.params State.reset 8 ∧
      Quiet atEnd ∧ atEnd.bw.cnt.toNat ≤ 7 ∧ ¬writerRoom Config.params atEnd 1 := by
  have := room_one
  have := room_max
  refine ⟨rfl, by decide, by decide, by simp [writerRoom, State.reset], ?_, rfl, by decide, ?_⟩
  · simp only [writerRoom, State.reset]
    simp
    omega
  · simp only [writerRoom, atEnd]
    simp
    omega

theorem witness_BwAlign :
    State.reset.bw.cnt = 0 ∧ Quiet { State.reset with bw := ⟨5, 3, 0⟩ } ∧
      (0 : Word).toNat < Config.params.streamBytes ∧ atEnd.bw.cnt ≠ 0 ∧
      Config.params.streamBytes ≤ atEnd.bw.ptr.toNat := by
  have := room_one
  have := room_max
  exact ⟨rfl, rfl, by simp; omega, by decide, by rw [show atEnd.bw.ptr.toNat = 2 ^ 32 - 1 from rfl]; omega⟩

/-- One byte of STREAM that the reader may take. -/
def oneByte : State := { State.reset with stream := [(0, 0xA5)], br := ⟨0, 0, 0, 1⟩ }

theorem peek_oneByte : peek Config.params oneByte 8 = some 0xA5 := by
  have h : ∀ j, j < 8 → inBit Config.params oneByte j = some ((0xA5 : Byte).getLsbD (7 - j)) := by
    intro j hj
    have h1 := room_one
    have h0 : j / 8 = 0 := by omega
    have hc : oneByte.br.cnt.toNat = 0 := rfl
    have hp : oneByte.br.ptr.toNat = 0 := rfl
    have hs : oneByte.br.stop.toNat = 1 := rfl
    unfold inBit
    rw [hc, hp, hs, if_neg (by omega)]
    simp only [Nat.sub_zero, h0]
    rw [if_pos (by omega), Nat.mod_eq_of_lt hj]
    rfl
  simp only [peek, h 0 (by decide), h 1 (by decide), h 2 (by decide), h 3 (by decide), h 4 (by decide), h 5 (by decide),
    h 6 (by decide), h 7 (by decide)]
  rfl

/-- Nothing to read: the reader after reset is at its end. -/
theorem ended_reset (n : Nat) (h : 0 < n) : Ended Config.params State.reset n :=
  ⟨0, h, Nat.le_refl 0, rfl, rfl, Or.inl (Nat.le_refl 0)⟩

theorem witness_BrBits :
    Quiet oneByte ∧ oneByte.br.cnt.toNat ≤ 8 ∧ peek Config.params oneByte 0 = some 0 ∧
      peek Config.params oneByte 8 = some 0xA5 ∧ Quiet State.reset ∧ State.reset.br.cnt.toNat ≤ 8 ∧
      Ended Config.params State.reset 32 :=
  ⟨rfl, by decide, rfl, peek_oneByte, rfl, by decide, ended_reset 32 (by decide)⟩

theorem witness_BrAlign : Quiet oneByte := rfl

theorem witness_WriteThenRead :
    Quiet State.reset ∧ State.reset.bw.cnt = 0 ∧ (1 : BitVec 8).toNat ≤ 32 ∧
      writerRoom Config.params State.reset ((1 : BitVec 8).toNat + 7) := by
  have := room_one
  refine ⟨rfl, rfl, by decide, ?_⟩
  simp only [writerRoom, State.reset]
  simp
  omega

theorem witness_PmUpdates : Quiet State.reset := rfl

theorem witness_Estimates :
    Quiet State.reset ∧ State.reset.arg ≠ 0xFFFFFFFF ∧
      Quiet { State.reset with arg := 0xFFFFFFFF } := by decide

theorem witness_ActiveAliases : aliasOf 2 .asig = some 8 ∧ aliasOf 0 .agt1 = some 9 ∧ aliasOf 1 .alvl = some 13 := by
  decide

/-- The state after reset is that of an encode session that has begun (rule R333). -/
theorem reset_session : Session 0 State.reset :=
  ⟨rfl, rfl, Nat.zero_le _, start_inv 0 rfl, fun _ => rfl⟩

theorem reset_code : codeValue 0 State.reset = some 0 := by decide

theorem reset_room : encoderRoom Config.params State.reset 1 := by
  have := room_one
  simp only [encoderRoom, State.reset]
  simp
  omega

/-- `BW_ALIGN` at the end of the address space has no byte to complete. -/
theorem raises_atEnd : Raises .bwAlign atEnd 4 := by
  have h := room_max
  have f : putBit Config.params false atEnd =
      .error (.fault .outOverflow) { atEnd with bw := { atEnd.bw with acc := shiftIn atEnd.bw.acc false, cnt := 8 } } := by
    unfold putBit
    simp only [if_pos (show atEnd.bw.cnt + 1 = 8 from rfl)]
    exact if_pos (by rw [show atEnd.bw.ptr.toNat = 2 ^ 32 - 1 from rfl]; omega)
  have e := cmd_bind_of_error (f := fun _ => alignLoop Config.params 15) f
  change putAlign Config.params atEnd = _ at e
  refine ⟨_, ?_, by rw [takeFault_status]; rfl, fun a ha => takeFault_stream_below .outOverflow [] atEnd
    { atEnd with bw := { atEnd.bw with acc := shiftIn atEnd.bw.acc false, cnt := 8 } } (fun _ _ => rfl) ha⟩
  show runCommand [] (putAlign Config.params) atEnd = _
  unfold runCommand
  rw [e]
  rfl

theorem witness_AeStart :
    Quiet State.reset ∧ State.reset.bw.cnt = 0 ∧ exec .bwAlign State.reset = .next State.reset ∧
      Quiet atEnd ∧ atEnd.bw.cnt.toNat ≤ 7 ∧ Raises .bwAlign atEnd 4 :=
  ⟨rfl, rfl, rfl, rfl, by decide, raises_atEnd⟩

theorem witness_AeBit :
    Session 0 State.reset ∧ codeValue 0 State.reset = some 0 ∧ encoderRoom Config.params State.reset 1 :=
  ⟨reset_session, reset_code, reset_room⟩

theorem witness_AeByp :
    Session 0 State.reset ∧ codeValue 0 State.reset = some 0 ∧ encoderRoom Config.params State.reset 1 :=
  ⟨reset_session, reset_code, reset_room⟩

theorem witness_AeBits :
    Session 0 State.reset ∧ codeValue 0 State.reset = some 0 ∧ (1 : BitVec 8).toNat ≤ 32 ∧
      encoderRoom Config.params State.reset (1 : BitVec 8).toNat :=
  ⟨reset_session, reset_code, by decide, reset_room⟩

theorem witness_AeEg :
    Session 0 State.reset ∧ codeValue 0 State.reset = some 0 ∧ State.reset.arg ≠ 0xFFFFFFFF ∧
      encoderRoom Config.params State.reset (2 * Nat.log2 (State.reset.arg.toNat + 1) + 1) ∧
      Session 0 { State.reset with arg := 0xFFFFFFFF } ∧
      codeValue 0 { State.reset with arg := 0xFFFFFFFF } = some 0 :=
  ⟨reset_session, reset_code, by decide, reset_room,
    ⟨rfl, rfl, Nat.zero_le _, start_inv 0 rfl, fun _ => rfl⟩, by decide⟩

theorem witness_AeTerm :
    exact.Ok ∧ Session 0 State.reset ∧ codeValue 0 State.reset = some 0 ∧
      (sessionBits State.reset + 16) / 8 ≤ exact.streamBytes :=
  ⟨exact_ok, reset_session, reset_code, by decide⟩

/-- A decode session's start on these bytes. -/
theorem witness_AdStart :
    exact.Ok ∧ Quiet (reading [0x76, 0xF8]) ∧
      peek exact { reading [0x76, 0xF8] with br := { (reading [0x76, 0xF8]).br with cnt := 0 } } 16 = some 0x76F8 ∧
      Quiet (reading [0x76]) ∧
      Ended exact { reading [0x76] with br := { (reading [0x76]).br with cnt := 0 } } 16 :=
  ⟨exact_ok, rfl, rfl, rfl, 8, by decide, by decide, by decide, rfl, Or.inl (by decide)⟩


/-- The pattern is zero and the next `k` bins of one shift each pull no byte. -/
structure Zeros (k : Nat) (s : State) : Prop where
  inv : DecoderInv s.ad
  cnt : s.br.cnt.toNat ≤ 8
  pat : s.ad.pat = 0
  need : s.ad.need.toInt + k ≤ -1

/-- The value a decoder at pattern zero answers: the MPS, or bypass 0. -/
def zeroAnswers (s : State) : Bin → Bool
  | .ctx m b => (modelAt s m).mps == b
  | .byp b => b == false

theorem Zeros.ctx {k : Nat} {s : State} (h : Zeros (k + 1) s) (m : Fin 15) :
    ∃ u, decodeBit Config.params m s = .ok (modelAt s m).mps u ∧ Zeros k u ∧
      ∀ j, (modelAt u j).mps = (modelAt s j).mps := by
  have hp := Config.params_ok
  have hn := h.need
  obtain ⟨hw2, hw⟩ := decodeWidth_bounds hp h.inv m
  have hl : adLps Config.params s m = false := by
    unfold adLps
    rw [h.pat]
    simp
    omega
  have hs : adShift Config.params s m ≤ 1 := by
    unfold adShift
    rw [hl]
    simp only [Bool.false_eq_true, if_false]
    split <;> omega
  obtain ⟨e, ren⟩ := decodeBit_run (v := 0) m hp h.inv h.cnt (fun _ => by omega)
  have hinv := (decodeBit_inv hp e h.inv).1
  rw [hl] at e
  have hnone : ¬ 0 ≤ s.ad.need.toInt + (adShift Config.params s m : Int) := by omega
  have hpat := ren.pat
  have hneed := ren.need
  have hrd := ren.reader
  rw [if_neg hnone] at hneed hrd hpat
  have hb : adBase Config.params s m = 0 := by
    unfold adBase
    rw [hl, h.pat]
    rfl
  refine ⟨_, by simpa using e, ⟨by simpa [hl] using hinv, ?_, ?_, ?_⟩, fun j => ?_⟩
  · exact (congrArg (fun r => r.cnt.toNat) hrd).trans_le h.cnt
  · apply BitVec.eq_of_toNat_eq
    exact hpat.trans (by rw [hb]; simp)
  · exact (congrArg (· + (k : Int)) hneed).trans_le (by omega)
  · have hpm : (pulled s (adRegs Config.params s m) 0).pm = s.pm := by rw [pulled_rest]
    show (((pulled s (adRegs Config.params s m) 0).pm.set m.val (mpsNext Config.params (modelAt s m)))[j.val]).mps = _
    rw [hpm, Vector.getElem_set]
    split
    · rename_i hj
      rw [Fin.ext hj]
      rfl
    · rfl

theorem Zeros.byp {k : Nat} {s : State} (h : Zeros (k + 1) s) :
    ∃ u, decodeBypass Config.params s = .ok false u ∧ Zeros k u ∧ u.pm = s.pm := by
  have hn := h.need
  obtain ⟨d, ren, e⟩ := decodeBypass_run (v := 0) Config.params_ok h.inv h.cnt (fun _ => by omega)
  have hnone : ¬ 0 ≤ s.ad.need.toInt + ((1 : Nat) : Int) := by omega
  have hpat := ren.pat
  have hneed := ren.need
  have hrd := ren.reader
  rw [if_neg hnone] at hneed hrd hpat
  have hp0 : (pulled s d 0).ad.pat.toNat = 0 := hpat.trans (by rw [h.pat]; rfl)
  have e' : decodeBypass Config.params s = .ok false (pulled s d 0) := by
    rw [e]
    unfold compareBypass
    rw [if_neg]
    rw [hp0, scaledRange_toNat, ren.rng]
    have := h.inv.rng_ge
    omega
  refine ⟨_, e', ⟨(decodeBypass_inv e' h.inv).1, ?_, BitVec.eq_of_toNat_eq hp0, ?_⟩, by rw [pulled_rest]⟩
  · exact (congrArg (fun r => r.cnt.toNat) hrd).trans_le h.cnt
  · rw [hneed]; omega

/-- A decoder at pattern zero answers up to seven bins, each the model's MPS or bypass 0. -/
theorem Zeros.decodes {s : State} (xs : List Bin) (h : Zeros xs.length s) (hx : ∀ x ∈ xs, zeroAnswers s x = true) :
    ∃ t, DecodesTo Config.params xs s t := by
  induction xs generalizing s with
  | nil => exact ⟨s, rfl⟩
  | cons x xs ih =>
    cases x with
    | ctx m b =>
      obtain ⟨u, e, hu, hm⟩ := h.ctx m
      obtain ⟨t, d⟩ := ih hu fun y hy => by
        have := hx y (List.mem_cons_of_mem _ hy)
        cases y with
        | ctx j c => exact (congrArg (· == c) (hm j)).trans this
        | byp c => exact this
      have hb : (modelAt s m).mps = b := eq_of_beq (hx (.ctx m b) List.mem_cons_self)
      exact ⟨t, u, hb ▸ e, d⟩
    | byp b =>
      obtain ⟨u, e, hu, hm⟩ := h.byp
      obtain ⟨t, d⟩ := ih hu fun y hy => by
        have := hx y (List.mem_cons_of_mem _ hy)
        cases y with
        | ctx j c =>
          simp only [zeroAnswers, modelAt, hm]
          exact this
        | byp c => exact this
      have hb : b = false := eq_of_beq (hx (.byp b) List.mem_cons_self)
      exact ⟨t, u, hb ▸ e, d⟩

/-- A decoder at pattern zero, with these models. -/
def zeroState (pm : Vector Model 15) : State := { State.reset with pm := pm, br := ⟨0, 0, 2, 2⟩ }

theorem zeroState_zeros (pm : Vector Model 15) (k : Nat) (h : k ≤ 7) : Zeros k (zeroState pm) :=
  ⟨startDec_inv 0, by rw [show (zeroState pm).br.cnt.toNat = 0 from rfl]; omega, rfl, by
    rw [show (zeroState pm).ad.need.toInt = -8 from rfl]; omega⟩

/-- All models at state 0 with this MPS. -/
def allMps (b : Bool) : Vector Model 15 := Vector.replicate 15 ⟨0, b⟩

/-- A decoder one bit short of a byte, its pattern in the LPS part of every width. -/
def pulling (s : State) : State := { s with ad := ⟨509 * 128, 510, 0xFF⟩ }

theorem pulling_inv (s : State) : DecoderInv (pulling s).ad := by
  show DecoderInv ⟨509 * 128, 510, 0xFF⟩
  exact ⟨by decide, by decide, by decide, by decide, by decide⟩

theorem pulling_ended : Ended Config.params (pulling State.reset) 8 :=
  ⟨0, by decide, Nat.le_refl 0, rfl, rfl, Or.inl (Nat.le_refl 0)⟩

theorem witness_AdBit :
    (Quiet (pulling oneByte) ∧ DecoderInv (pulling oneByte).ad ∧ (pulling oneByte).br.cnt.toNat ≤ 8 ∧
      peek Config.params (pulling oneByte) 8 = some 0xA5) ∧
    (Quiet (pulling State.reset) ∧ DecoderInv (pulling State.reset).ad ∧ (pulling State.reset).br.cnt.toNat ≤ 8 ∧
      Ended Config.params (pulling State.reset) 8) ∧
    ∀ s sel,
      let w := (Config.params.lpsWidth (pulling s).pm[(resolve sel (pulling s)).val].state
        ((pulling s).ad.rng.extractLsb' 6 2)).toNat
      ((pulling s).ad.rng.toNat - w) * 128 ≤ (pulling s).ad.pat.toNat ∧
        0 ≤ (pulling s).ad.need.toInt + ((8 - Nat.log2 w : Nat) : Int) := by
  refine ⟨⟨rfl, pulling_inv _, by decide, peek_oneByte⟩, ⟨rfl, pulling_inv _, by decide, pulling_ended⟩, ?_⟩
  intro s sel w
  have h2 : 2 ≤ w := Config.params_ok.width_ge _ _
  have h8 : w < 2 ^ 8 := BitVec.isLt _
  have hl : Nat.log2 w < 8 := (Nat.log2_lt (by omega)).2 h8
  refine ⟨?_, ?_⟩
  · rw [show (pulling s).ad.rng.toNat = 510 from rfl, show (pulling s).ad.pat.toNat = 509 * 128 from rfl]
    omega
  · rw [show (pulling s).ad.need.toInt = -1 from rfl]
    omega

theorem witness_AdByp :
    (Quiet (zeroState (allMps true)) ∧ DecoderInv (zeroState (allMps true)).ad ∧
      (zeroState (allMps true)).br.cnt.toNat ≤ 8 ∧ (zeroState (allMps true)).ad.need.toInt ≠ -1) ∧
    (Quiet (pulling oneByte) ∧ DecoderInv (pulling oneByte).ad ∧ (pulling oneByte).br.cnt.toNat ≤ 8 ∧
      (pulling oneByte).ad.need.toInt = -1 ∧ peek Config.params (pulling oneByte) 8 = some 0xA5) ∧
    (Quiet (pulling State.reset) ∧ DecoderInv (pulling State.reset).ad ∧ (pulling State.reset).br.cnt.toNat ≤ 8 ∧
      (pulling State.reset).ad.need.toInt = -1 ∧ Ended Config.params (pulling State.reset) 8) :=
  ⟨⟨rfl, (zeroState_zeros _ 0 (by decide)).inv, by decide, by decide⟩,
    ⟨rfl, pulling_inv _, by decide, by decide, peek_oneByte⟩,
    ⟨rfl, pulling_inv _, by decide, by decide, pulling_ended⟩⟩

theorem witness_AdByps :
    (∃ t, DecodesTo Config.params (bypBins 0 (7 : BitVec 8).toNat) (zeroState (allMps false)) t) ∧
    (Quiet (zeroState (allMps false)) ∧ DecoderInv (zeroState (allMps false)).ad ∧
      (zeroState (allMps false)).br.cnt.toNat ≤ 8 ∧
      (peek Config.params (zeroState (allMps false)) (8 * ((0 + (7 : BitVec 8).toNat) / 8))).isSome = true) ∧
    (peek Config.params (pulling oneByte) (8 * ((7 + (1 : BitVec 8).toNat) / 8))).isSome = true :=
  ⟨(zeroState_zeros _ 7 (by decide)).decodes (bypBins 0 7) (by decide),
    ⟨rfl, (zeroState_zeros _ 0 (by decide)).inv, by decide, rfl⟩, by
      rw [show 8 * ((7 + (1 : BitVec 8).toNat) / 8) = 8 from rfl]
      exact Option.isSome_iff_exists.2 ⟨_, peek_oneByte⟩⟩

theorem witness_AdTerm :
    Quiet (decoding 0xFE00 []) ∧ 2 ≤ (decoding 0xFE00 []).ad.rng.toNat ∧
      ((decoding 0xFE00 []).ad.rng.toNat - 2) * 128 ≤ (decoding 0xFE00 []).ad.pat.toNat ∧
      (decoding 0xFDFF []).ad.pat.toNat < ((decoding 0xFDFF []).ad.rng.toNat - 2) * 128 := by decide

theorem witness_PatternBound :
    Quiet (zeroState (allMps false)) ∧ DecoderInv (zeroState (allMps false)).ad ∧
      PatternInside (zeroState (allMps false)).ad ∧ Instr.brAlign ≠ .adStart ∧ Instr.brAlign ≠ .adTerm ∧
      ∃ t, exec .brAlign (zeroState (allMps false)) = .next t ∧ Quiet t :=
  ⟨rfl, (zeroState_zeros _ 0 (by decide)).inv, by unfold PatternInside; decide, by decide, by decide, _, rfl, rfl⟩

/-- The state a decoder ends in when it answers these bins. -/
def asked (p : Config.Params) : List Bin → State → Option State
  | [], s => some s
  | .ctx m b :: xs, s =>
    match decodeBit p m s with
    | .ok c u => if c = b then asked p xs u else none
    | _ => none
  | .byp b :: xs, s =>
    match decodeBypass p s with
    | .ok c u => if c = b then asked p xs u else none
    | _ => none

theorem asked_decodes (p : Config.Params) (xs : List Bin) (s : State) (h : (asked p xs s).isSome = true) :
    ∃ t, DecodesTo p xs s t := by
  induction xs generalizing s with
  | nil => exact ⟨s, rfl⟩
  | cons x xs ih =>
    cases x <;>
    · simp only [asked] at h
      split at h
      · rename_i c u e
        split at h
        · rename_i hc
          obtain ⟨t, d⟩ := ih u h
          exact ⟨t, u, hc ▸ e, d⟩
        · cases h
      · cases h

/-- The reference tables with exact numerics and a STREAM of 64 bytes. -/
noncomputable def exact64 : Config.Params := Config.refParams 64 Config.exactNum
theorem exact64_ok : exact64.Ok := Config.refParams_ok (by decide) (by decide) Config.exactNum_ok

theorem witness_AdEg :
    (Quiet (zeroState (allMps true)) ∧
      ∃ t, DecodesTo Config.params (egBins (resolve (.model 1) (zeroState (allMps true))) 0) (zeroState (allMps true)) t) ∧
    (∃ t, DecodesTo ref (List.replicate 32 (.ctx (resolve .asig (decoding 0 (List.replicate 16 0))) false))
      (decoding 0 (List.replicate 16 0)) t) ∧
    (exact64.Ok ∧ DecoderInv (decoding 0 (List.replicate 64 0)).ad ∧
      (decoding 0 (List.replicate 64 0)).br.cnt.toNat ≤ 8 ∧
      (peek exact64 { decoding 0 (List.replicate 64 0) with br := ⟨0, 0, 0, 64⟩ } 504).isSome = true) ∧
    (DecoderInv (pulling oneByte).ad ∧ (peek Config.params (pulling oneByte) 8).isSome = true ∧
      decide (((pulling oneByte).ad.rng.toNat - (Config.params.lpsWidth (pulling oneByte).pm[0].state
        ((pulling oneByte).ad.rng.extractLsb' 6 2)).toNat) * 128 ≤ (pulling oneByte).ad.pat.toNat) =
          !(pulling oneByte).pm[0].mps) :=
  ⟨⟨rfl, (zeroState_zeros _ 1 (by decide)).decodes [.ctx 1 true] (by simp [zeroAnswers]; rfl)⟩,
    asked_decodes _ _ _ (by decide +kernel),
    ⟨exact64_ok, startDec_inv 0, by decide, by decide +kernel⟩,
    ⟨pulling_inv _, Option.isSome_iff_exists.2 ⟨_, peek_oneByte⟩,
      decide_eq_true (witness_AdBit.2.2 oneByte (.model 0)).1⟩⟩

/-- A partition of one element: block size 2, halved. -/
def small : State := sized 2

theorem small_legal : LegalSize small := by unfold LegalSize; decide

theorem witness_CtxSw :
    Quiet small ∧ LegalSize small ∧ (diagScan (sizeOf small .full))[0]? = some (0, 0) ∧
      (diagScan (sizeOf small .full))[3]? = some (1, 1) ∧ 3 < sizeOf small .full * sizeOf small .full ∧
      sizeOf small .full * sizeOf small .full ≤ ({ small with arg := 4 } : State).arg.toNat :=
  ⟨rfl, small_legal, by decide, by decide, by decide, by decide⟩

theorem witness_DiagonalScan : 1 ≤ 1 := Nat.le_refl 1

theorem witness_ConfigErrors :
    Quiet (sized 0) ∧ ¬LegalSize (sized 0) ∧ ¬LegalSize (sized 66) ∧ ¬LegalSize (sized 3) ∧
      31 < ({ small with cfg := ⟨0, 0, 2, 32, false, false⟩ } : State).cfg.qp.toNat := by
  unfold LegalSize
  decide

/-- Both borders given, and neither. -/
def bordered : State :=
  { small with cfg := ⟨0, 0, 2, 0, true, true⟩, top := cellsOf [10, 20], left := cellsOf [30, 40] }

theorem witness_Pred :
    (Quiet bordered ∧ LegalSize bordered ∧ TopIs bordered (sizeOf bordered .full) (fun j => 10 * j + 10) ∧
      LeftIs bordered (sizeOf bordered .full) (fun j => 10 * j + 30)) ∧
    Quiet small ∧ LegalSize small ∧ TopIs small (sizeOf small .half) (fun _ => 128) ∧
      LeftIs small (sizeOf small .half) (fun _ => 128) := by
  unfold LegalSize TopIs LeftIs
  decide

/-- The small partition's buffers, one element each. -/
def filled : State :=
  { small with
    orig := cellsOf [255], predb := cellsOf [0], resd := cellsOf [-255], qidx := cellsOf [2 ^ 31 - 1], scan := cellsOf [0],
    recb := cellsOf [7], coef := some ⟨1, [num (2 ^ 31 - 1)]⟩, dcoef := some ⟨1, [num 24]⟩,
    rres := some ⟨1, [num (-3)]⟩ }

theorem filled_legal : LegalSize filled := by unfold LegalSize; decide

theorem witness_Resid :
    Quiet filled ∧ LegalSize filled ∧
      (∀ i, i < sizeOf filled .half * sizeOf filled .half →
        cellsRead filled.orig i = some 255 ∧ cellsRead filled.predb i = some 0) ∧
      ¬LegalSize (sized 0) := ⟨rfl, filled_legal, by decide, by unfold LegalSize; decide⟩

theorem witness_Transforms :
    Quiet filled ∧ LegalSize filled ∧
      cellsReadRange filled.resd 0 (sizeOf filled .half * sizeOf filled .half) = some [-255] ∧
      (∀ x ∈ [(-255 : Word)], x.toInt.natAbs ≤ 255) ∧
      filled.dcoef = some ⟨sizeOf filled .half, [num 24]⟩ ∧ sizeOf filled .half = 1 ∧
      (∀ y ∈ [num 24], y.quarters = 0 ∧ y.rest = []) ∧ Config.params.Ok ∧ exact.Ok ∧ exact.num = Config.exactNum :=
  ⟨rfl, filled_legal, by decide, fun x hx => by rw [List.mem_singleton.1 hx]; simp,
    rfl, by decide, by decide, Config.params_ok, exact_ok, rfl⟩

/-- An index one too large in absolute value. -/
def tooLarge : State := { filled with coef := some ⟨1, [num (-2 ^ 31)]⟩ }

theorem witness_Quant :
    (Quiet filled ∧ LegalSize filled ∧ filled.cfg.qp.toNat ≤ 31 ∧
      filled.coef = some ⟨sizeOf filled .half, [num (2 ^ 31 - 1)]⟩ ∧
      (Config.params.num.quant (num (2 ^ 31 - 1)) (Config.params.num.step filled.cfg.qp.toNat)).natAbs ≤ 2 ^ 31 - 1) ∧
    (Quiet tooLarge ∧ LegalSize tooLarge ∧ tooLarge.cfg.qp.toNat ≤ 31 ∧
      tooLarge.coef = some ⟨sizeOf tooLarge .half, [num (-2 ^ 31)]⟩ ∧
      2 ^ 31 - 1 < (Config.params.num.quant (num (-2 ^ 31)) (Config.params.num.step tooLarge.cfg.qp.toNat)).natAbs) ∧
    (Config.params.Ok ∧ exact.Ok ∧ exact.num = Config.exactNum ∧
      ∀ i, i < sizeOf filled .half * sizeOf filled .half →
        (cellsRead filled.orig i).isSome = true ∧ (cellsRead filled.predb i).isSome = true) :=
  ⟨⟨rfl, filled_legal, by decide, by rfl, by decide +kernel⟩,
    ⟨rfl, filled_legal, by decide, by rfl, by decide +kernel⟩, Config.params_ok, exact_ok, rfl, by decide⟩

theorem witness_DeqRecon :
    Quiet filled ∧ LegalSize filled ∧ filled.cfg.qp.toNat ≤ 31 ∧
      (∀ i, i < sizeOf filled .half * sizeOf filled .half →
        cellsRead filled.qidx i = some 0x7FFFFFFF ∧ cellsRead filled.predb i = some 0) ∧
      filled.rres = some ⟨sizeOf filled .half, [num (-3)]⟩ := ⟨rfl, filled_legal, by decide, by decide, rfl⟩

theorem witness_Scanf :
    Quiet filled ∧ LegalSize filled ∧
      (∀ i, i < sizeOf filled .half * sizeOf filled .half → cellsRead filled.qidx i = some 0x7FFFFFFF) ∧
      Quiet (sized 0) ∧ ¬LegalSize (sized 0) := ⟨rfl, filled_legal, by decide, rfl, by unfold LegalSize; decide⟩

theorem witness_Scani :
    Quiet filled ∧ LegalSize filled ∧
      (∀ i, i < sizeOf filled .half * sizeOf filled .half → cellsRead filled.scan i = some 0) ∧
      (cellsReadRange filled.qidx 0 (sizeOf filled .half * sizeOf filled .half)).isSome = true ∧
      Quiet (sized 0) ∧ ¬LegalSize (sized 0) := ⟨rfl, filled_legal, by decide, by decide, rfl, by unfold LegalSize; decide⟩

theorem witness_Dist :
    Quiet filled ∧ LegalSize filled ∧
      (∀ i, i < sizeOf filled .half * sizeOf filled .half →
        cellsRead filled.orig i = some 255 ∧ cellsRead filled.recb i = some 7) ∧
      Quiet (sized 0) ∧ ¬LegalSize (sized 0) := ⟨rfl, filled_legal, by decide, rfl, by unfold LegalSize; decide⟩

theorem witness_ZeroBlock :
    Quiet filled ∧ LegalSize filled ∧ filled.cfg.qp.toNat ≤ 31 ∧
      ∀ i, i < sizeOf filled .half * sizeOf filled .half →
        cellsRead filled.scan i = some 0 ∧ (cellsRead filled.predb i).isSome = true :=
  ⟨rfl, filled_legal, by decide, by decide⟩

theorem witness_HdrWr :
    exact.Ok ∧ Quiet State.reset ∧ State.reset.bw.cnt.toNat ≤ 7 ∧ writerRoom exact State.reset 56 ∧
      Quiet atEnd ∧ atEnd.bw.cnt.toNat ≤ 7 ∧ ¬writerRoom exact atEnd 56 :=
  ⟨exact_ok, rfl, by decide, show (0 + 56) / 8 ≤ 16 - 0 by decide, rfl, by decide, by
      unfold writerRoom
      rw [show atEnd.bw.ptr.toNat = 2 ^ 32 - 1 from rfl, show exact.streamBytes = 16 from rfl,
        show atEnd.bw.cnt.toNat = 7 from rfl]
      omega⟩

theorem witness_HdrRd :
    (exact.Ok ∧ Quiet (reading [0, 1, 0, 1, 0, 2, 12]) ∧ (reading [0, 1, 0, 1, 0, 2, 12]).br.cnt.toNat ≤ 8 ∧
      peek exact (reading [0, 1, 0, 1, 0, 2, 31]) 56 = some (1 * 2 ^ 40 + 1 * 2 ^ 24 + 2 * 2 ^ 8 + 31) ∧
      peek exact (reading [0, 1, 0, 1, 0, 2, 32]) 56 = some (1 * 2 ^ 40 + 1 * 2 ^ 24 + 2 * 2 ^ 8 + 32)) ∧
    Ended exact (reading [0, 1, 0, 1, 0, 2]) 56 :=
  ⟨⟨exact_ok, rfl, by decide, by decide +kernel, by decide +kernel⟩, 48, by decide, by decide, by decide,
    by decide +kernel, Or.inl (by decide)⟩

theorem witness_PartBit :
    (Session 0 State.reset ∧ codeValue 0 State.reset = some 0 ∧ encoderRoom Config.params State.reset 1) ∧
    (∀ b, Quiet (zeroState (allMps b)) ∧ ∃ t, DecodesTo Config.params [.ctx 2 b] (zeroState (allMps b)) t) ∧
    (Quiet (pulling oneByte) ∧ DecoderInv (pulling oneByte).ad ∧ (pulling oneByte).br.cnt.toNat ≤ 8 ∧
      (peek Config.params (pulling oneByte) 8).isSome = true) :=
  ⟨⟨reset_session, reset_code, reset_room⟩, fun b =>
    ⟨rfl, (zeroState_zeros _ 1 (by decide)).decodes [.ctx 2 b] (by cases b <;> decide)⟩,
    ⟨rfl, pulling_inv _, by decide, Option.isSome_iff_exists.2 ⟨_, peek_oneByte⟩⟩⟩

theorem witness_EncPmode :
    exact.Ok ∧ Session 0 State.reset ∧ codeValue 0 State.reset = some 0 ∧ encoderRoom exact State.reset 3 :=
  ⟨exact_ok, reset_session, reset_code, show 0 + 0 + 3 ≤ 16 by decide⟩

/-- The models whose MPS are the bins of a mode. -/
def modeModels : PredMode → Vector Model 15
  | .planar => allMps true
  | .dc => (allMps true).set 3 ⟨0, false⟩
  | .horizontal => (allMps false).set 5 ⟨0, true⟩
  | .vertical => allMps false

theorem witness_DecPmode :
    (∀ pm, Quiet (zeroState (modeModels pm)) ∧
      ∃ t, DecodesTo Config.params (pmodeBins pm) (zeroState (modeModels pm)) t) ∧
    exact.Ok ∧ DecoderInv (reading [0, 0, 0]).ad ∧ (reading [0, 0, 0]).br.cnt.toNat ≤ 8 ∧
      (peek exact (reading [0, 0, 0]) 24).isSome = true :=
  ⟨fun pm => ⟨rfl, (zeroState_zeros _ _ (by cases pm <;> decide)).decodes (pmodeBins pm) (by cases pm <;> decide)⟩,
    exact_ok, startDec_inv 0, by decide, by decide +kernel⟩

theorem filled_session : Session 0 filled := ⟨rfl, rfl, Nat.zero_le _, start_inv 0 rfl, fun _ => rfl⟩

theorem witness_EncCoefZero :
    (Quiet filled ∧ LegalSize filled ∧
      cellsReadRange filled.scan 0 (sizeOf filled .half * sizeOf filled .half) = some [0] ∧ Session 0 filled ∧
      codeValue 0 filled = some 0 ∧ encoderRoom Config.params filled 1) ∧
    cellsReadRange ({ filled with scan := [(0, 0x80000000)] } : State).scan 0
      (sizeOf filled .half * sizeOf filled .half) = some [0x80000000] :=
  ⟨⟨rfl, filled_legal, by decide, filled_session, by decide, reset_room⟩, by decide⟩

theorem witness_EncCoef :
    exact.Ok ∧ LegalSize { filled with scan := [(0, 0x80000001)] } ∧
      cellsReadRange ({ filled with scan := [(0, 0x80000001)] } : State).scan 0
        (sizeOf filled .half * sizeOf filled .half) = some [0x80000001] ∧
      (0x80000000 : Word) ∉ [(0x80000001 : Word)] ∧ IsLast [0x80000001] 0 ∧
      Session 0 { filled with scan := [(0, 1)] } ∧ codeValue 0 { filled with scan := [(0, 1)] } = some 0 ∧
      IsLast [1] 0 ∧ encoderRoom exact { filled with scan := [(0, 1)] } (blockBins 1 0 [1]).length :=
  ⟨exact_ok, filled_legal, by decide, by decide, ⟨by decide, by decide, fun i hi => by
      rw [List.getD_eq_default]; exact hi⟩, ⟨rfl, rfl, Nat.zero_le _, start_inv 0 rfl, fun _ => rfl⟩, by decide,
    ⟨by decide, by decide, fun i hi => by rw [List.getD_eq_default]; exact hi⟩,
    show 0 + 0 + (blockBins 1 0 [1]).length ≤ 16 by decide⟩

/-- The small partition in a decode session at pattern zero. -/
def smallDecoding (pm : Vector Model 15) : State := { zeroState pm with cfg := small.cfg }

theorem smallDecoding_zeros (pm : Vector Model 15) (k : Nat) (h : k ≤ 7) : Zeros k (smallDecoding pm) :=
  let z := zeroState_zeros pm k h
  ⟨z.inv, z.cnt, z.pat, z.need⟩

/-- Bins of a bad block that the reference decoder answers. -/
theorem asked_bad (s : State) (k : Nat) {bins : List Bin} (hb : BadBins 1 bins)
    (h : (bins.length == k && (asked ref bins s).isSome) = true) :
    ∃ bins t, BadBins 1 bins ∧ bins.length = k ∧ DecodesTo ref bins s t := by
  rw [Bool.and_eq_true, beq_iff_eq] at h
  obtain ⟨t, d⟩ := asked_decodes ref bins s h.2
  exact ⟨bins, t, hb, h.1, d⟩

theorem witness_DecCoef :
    (∃ t, DecodesTo Config.params [.ctx 0 false] (smallDecoding (allMps false)) t) ∧
    (LegalSize { pulling oneByte with cfg := small.cfg, pm := allMps true } ∧ DecoderInv (pulling oneByte).ad ∧
      (peek Config.params (pulling oneByte) 8).isSome = true ∧
      decide (((pulling oneByte).ad.rng.toNat - (Config.params.lpsWidth (allMps true)[0].state
        ((pulling oneByte).ad.rng.extractLsb' 6 2)).toNat) * 128 ≤ (pulling oneByte).ad.pat.toNat) =
          (allMps true)[0].mps) ∧
    ((∃ t, DecodesTo Config.params (blockBins 1 0 [1]) (smallDecoding ((allMps true).set 9 ⟨0, false⟩)) t) ∧
      [(1 : Word)].length = 1 * 1 ∧ (0x80000000 : Word) ∉ [(1 : Word)]) ∧
    (∃ t, DecodesTo ref (.ctx 0 true :: egBins 1 1) { decoding (172 * 256) [0, 0, 0, 0] with cfg := small.cfg } t) ∧
    (∃ bins t, BadBins 1 bins ∧ bins.length = 33 ∧ DecodesTo ref bins
      { decoding 0 (List.replicate 16 0) with cfg := small.cfg, pm := (allMps false).set 0 ⟨0, true⟩ } t) ∧
    (∃ bins t, BadBins 1 bins ∧ bins.length = 35 ∧ DecodesTo ref bins
      { decoding 0 (List.replicate 16 0) with cfg := small.cfg, pm := (allMps true).set 12 ⟨0, false⟩ } t) ∧
    (∃ bins t, BadBins 1 bins ∧ bins.length = 64 ∧ DecodesTo ref bins
      { decoding 0x1700 [23, 0, 78, 127, 255, 255, 255, 224] with cfg := small.cfg, pm := allMps true } t) ∧
    (∀ pm, Quiet (smallDecoding pm) ∧ LegalSize (smallDecoding pm) ∧ sizeOf (smallDecoding pm) .half = 1) :=
  ⟨(smallDecoding_zeros _ 1 (by decide)).decodes [.ctx 0 false] (by decide),
    ⟨small_legal, pulling_inv _, Option.isSome_iff_exists.2 ⟨_, peek_oneByte⟩,
      decide_eq_true (witness_AdBit.2.2 { oneByte with pm := allMps true } (.model 0)).1⟩,
    ⟨(smallDecoding_zeros _ _ (by decide)).decodes (blockBins 1 0 [1]) (by decide), rfl, by decide⟩,
    asked_decodes _ _ _ (by decide +kernel),
    asked_bad _ _ .lastPrefix (by decide +kernel),
    asked_bad _ _ (.levelPrefix 0 0 [] (by decide) (by decide) (by decide) nofun) (by decide +kernel),
    asked_bad _ _ (.levelRange 0 0 (2 ^ 31 - 2) [] (by decide) (by decide) (by decide) nofun (by decide) (by decide))
      (by decide +kernel),
    fun pm => ⟨rfl, small_legal, show sizeOf small .half = 1 by decide⟩⟩

theorem witness_FaultEntry :
    Quiet State.reset ∧ ∃ t, exec .brBit State.reset = .next t ∧ ¬Quiet t :=
  ⟨rfl, _, rfl, takeFault_not_quiet .endOfStream [] _ _⟩

theorem witness_FaultsPerCommand :
    Instr.brBit.wf = true ∧ Quiet State.reset ∧ ∃ t, exec .brBit State.reset = .next t ∧ ¬Quiet t :=
  ⟨rfl, rfl, _, rfl, takeFault_not_quiet .endOfStream [] _ _⟩

theorem filled_fits : MemoryFits filled := by
  have one {α : Type} (v : α) (n : Nat) : Below (n + 1) [(0, v)] := by simp [Below]
  refine ⟨nofun, nofun, nofun, one _ _, one _ _, one _ _, one _ _, one _ _, one _ _, ?_, ?_, ?_⟩ <;>
    (intro r h; cases h; exact ⟨by decide, rfl⟩)

/-- A command that fills a buffer, within the buffers' sizes. -/
theorem witness_Frame : Quiet filled ∧ MemoryFits filled ∧ ∃ t, exec (.resid .half) filled = .next t ∧ Quiet t :=
  ⟨rfl, filled_fits, _, rfl, rfl⟩

/-- A host about to start a decode-free run: `CTXINIT`. -/
def starting : State := withHost State.reset [.write 0 0x02000000]

theorem witness_MemoryStep :
    Memory.wf starting ∧ MemoryFits starting ∧ ∃ t, step starting = .next t :=
  ⟨by decide, ⟨nofun, nofun, nofun, nofun, nofun, nofun, nofun, nofun, nofun, nofun, nofun, nofun⟩, _, rfl⟩

theorem witness_MachineStep :
    MachineInv { starting with status := ⟨false, 0, true, true⟩ } ∧
      ∃ t, step { starting with status := ⟨false, 0, true, true⟩ } = .next t :=
  ⟨⟨fun _ => Nat.zero_le _, fun _ => Nat.zero_le _, fun _ _ => start_inv 0 rfl, fun _ _ => startDec_inv 0⟩, _, rfl⟩

/-- Whether a command ends without a fault or a refusal. -/
def completes (c : Cmd Unit) (s : State) : Bool :=
  match c s with
  | .ok _ _ => true
  | .error _ _ => false

theorem completes_ok {c : Cmd Unit} {s : State} (h : completes c s = true) : ∃ t, c s = .ok () t := by
  unfold completes at h
  split at h
  · exact ⟨_, by assumption⟩
  · cases h

/-- A session of context-coded and bypass bins on the reference tables. -/
theorem witness_RoundTrip :
    exact.Ok ∧ Quiet State.reset ∧ State.reset.bw.cnt.toNat ≤ 7 ∧
      [Bin.ctx 0 false, .byp true, .ctx 0 true].length ≤ 2 ^ 32 - 2 ∧
      ∃ s0 s1 s2, aeStart exact State.reset = .ok () s0 ∧
        encodeBins exact [.ctx 0 false, .byp true, .ctx 0 true] s0 = .ok () s1 ∧ aeTerm exact s1 = .ok () s2 := by
  obtain ⟨s2, e⟩ := completes_ok (c := do
    aeStart exact
    encodeBins exact [.ctx 0 false, .byp true, .ctx 0 true]
    aeTerm exact) (s := State.reset) (by decide +kernel)
  obtain ⟨_, s0, e0, e⟩ := cmd_bind_ok_iff.1 e
  obtain ⟨_, s1, e1, e2⟩ := cmd_bind_ok_iff.1 e
  exact ⟨exact_ok, rfl, by decide, by decide, s0, s1, s2, e0, e1, e2⟩

/-! ## The host's way in (rules R10, R60; log 21) -/

theorem test_decodeTableWord :
    [decodeTableWord 32 0x31000001, decodeTableWord 32 0x31130000] = [some (.aeBit (.model 0) true), none] := by decide

theorem test_withFetchWord :
    (match step (({ State.reset with bucket := 2 } : State).withFetchWord 32 0x02000000) with
      | .next t => some (t.cmd, t.bucket, t.pending)
      | _ => none) = some (0x02000000, 0, []) := by decide +kernel

end Sys2Proof.Tests
end

section
/-! The bit writer's and the bit reader's alignment commands (rules R104, R107), on two general rules: what a command
other than `SRESET` answers once its pseudocode is known to be done, or to stop with a fault. -/

namespace Sys2Proof.Proofs

open Sys2Proof Sys2Proof.Machine Sys2Proof.Safety

variable {i : Instr} {s t : State}

/-! ## From a command's pseudocode to its outcome -/

/-- A command whose pseudocode is done answers the state the pseudocode ends in. -/
theorem exec_of_ok (hi : i ≠ .sreset) (hq : Quiet s) (e : (commandOf Config.params i).2 s = .ok () t) :
    exec i s = .next t :=
  (exec_eq_runCommand hi s).trans (runCommand_of_ok hq e)

/-- A command whose pseudocode stops with a fault raises it: a command writes no STREAM byte below its starting
`BW_PTR`, and taking the fault keeps those bytes (rule R324). -/
theorem raises_of_error {k : FaultKind} (hi : i ≠ .sreset) (hq : Quiet s)
    (e : (commandOf Config.params i).2 s = .error (.fault k) t) : Raises i s (faultCode k) := by
  have kept : StreamKept s t := (commandOf_streamKept Config.params_ok.stream_le i).of_error_eq e
  refine ⟨_, (exec_eq_runCommand hi s).trans (runCommand_of_raise hq e), ?_, fun a ha => ?_⟩
  · rw [takeFault_status, statusRaised_quiet hq]
  · exact takeFault_stream_below k _ s t (fun a ha => kept.same a (.inl ha)) ha

/-! ## One byte written at the writer's place -/

/-- Writing a byte changes STREAM and the writer only. -/
theorem withByte_eq (s : State) (b : Byte) :
    withByte s b = { s with stream := (withByte s b).stream, bw := ⟨0, 0, s.bw.ptr + 1⟩ } := rfl

theorem cellsRead_withByte_same (s : State) (b : Byte) :
    cellsRead (withByte s b).stream s.bw.ptr.toNat = some b :=
  cellsRead_write_same _ _ _

theorem cellsRead_withByte_other (s : State) (b : Byte) {a : Nat} (h : a ≠ s.bw.ptr.toNat) :
    cellsRead (withByte s b).stream a = cellsRead s.stream a :=
  cellsRead_write_other _ _ h

/-! ## `BW_ALIGN` -/

namespace BitIO

theorem exec_bwAlign_aligned (hq : Quiet s) (hc : s.bw.cnt = 0) : exec .bwAlign s = .next s :=
  exec_of_ok nofun hq (putAlign_aligned hc)

theorem exec_bwAlign_unaligned (hq : Quiet s) (h7 : s.bw.cnt.toNat ≤ 7) (hc : s.bw.cnt ≠ 0)
    (room : s.bw.ptr.toNat < Config.params.streamBytes) :
    exec .bwAlign s = .next (withByte s (s.bw.acc <<< (8 - s.bw.cnt.toNat))) :=
  exec_of_ok nofun hq (putAlign_run hc h7 room)

theorem raises_bwAlign_full (hq : Quiet s) (h7 : s.bw.cnt.toNat ≤ 7) (hc : s.bw.cnt ≠ 0)
    (full : Config.params.streamBytes ≤ s.bw.ptr.toNat) : Raises .bwAlign s (faultCode .outOverflow) := by
  obtain ⟨t, e⟩ := putAlign_full hc h7 full
  exact raises_of_error nofun hq e

/-- Settles O14, by the three ways `put_align` can go: on a byte boundary, with room for the byte, without. -/
theorem bwAlign : Obligations.BwAlign := by
  refine ⟨rfl, fun s hq h7 => ⟨exec_bwAlign_aligned hq, fun hc room => ?_, raises_bwAlign_full hq h7⟩⟩
  exact ⟨_, exec_bwAlign_unaligned hq h7 hc room, withByte_eq _ _, cellsRead_withByte_same _ _,
    fun _ => cellsRead_withByte_other _ _⟩

/-! ## `BR_ALIGN` -/

/-- `get_align()` sets `BR_CNT` to 0 in every state, without fetching. -/
theorem getAlign_run (s : State) : getAlign s = .ok () { s with br := { s.br with cnt := 0 } } :=
  cmd_modify _ s

/-- Settles O16: the pseudocode of `BR_ALIGN` is `get_align()`, which is always done. -/
theorem brAlign : Obligations.BrAlign :=
  ⟨rfl, fun s hq => exec_of_ok nofun hq (getAlign_run s)⟩

end BitIO

end Sys2Proof.Proofs
end

section
/-! The decoder's termination check (rule R174): what the pseudocode of `AD_TERM` answers on either side of its
comparison, stated on the registers' values. -/

namespace Sys2Proof.Proofs.ArithDecoder

open Sys2Proof Sys2Proof.Machine Sys2Proof.Safety

variable {s : State}

/-- The bound the pattern is compared with, where the 9-bit subtraction does not wrap. -/
theorem scaledRange_sub_two {rng : BitVec 9} (h2 : 2 ≤ rng.toNat) :
    (scaledRange (rng - 2)).toNat = (rng.toNat - 2) * 128 := by
  have hle : (2 : BitVec 9) ≤ rng := h2
  rw [scaledRange_toNat, BitVec.toNat_sub_of_le hle]
  rfl

/-- The pattern lies in the terminating sub-interval: the check passes. -/
theorem adTerm_pass (h2 : 2 ≤ s.ad.rng.toNat) (inside : (s.ad.rng.toNat - 2) * 128 ≤ s.ad.pat.toNat) :
    Machine.adTerm s = .ok ()
      { s with ad := { s.ad with rng := s.ad.rng - 2 }, status := { s.status with decOpen := false } } :=
  if_pos ((scaledRange_sub_two h2).trans_le inside)

/-- The pattern lies below the terminating sub-interval: the check fails, with the range already reduced. -/
theorem adTerm_fail (h2 : 2 ≤ s.ad.rng.toNat) (below : s.ad.pat.toNat < (s.ad.rng.toNat - 2) * 128) :
    Machine.adTerm s = .error (.fault .streamCorrupt) { s with ad := { s.ad with rng := s.ad.rng - 2 } } :=
  if_neg (Nat.not_le.2 (below.trans_eq (scaledRange_sub_two h2).symm))

/-- Settles O31, by the two outcomes of the termination check: one completes the command, the other raises its fault. -/
theorem adTerm : Obligations.AdTerm :=
  ⟨rfl, fun _ hq h2 => ⟨fun inside => exec_of_ok nofun hq (adTerm_pass h2 inside),
    fun below => raises_of_error (k := .streamCorrupt) nofun hq (adTerm_fail h2 below)⟩⟩

end Sys2Proof.Proofs.ArithDecoder
end

section
/-! The intra predictor (rules R230 to R235): what `PRED` reads as its borders, that every predicted sample is a byte, and
the state the command answers. -/

namespace Sys2Proof.Proofs.Predictor

open Sys2Proof Sys2Proof.Machine Sys2Proof.Safety

/-! ## The partition size (rule R313) -/

theorem blockSizeOk_of_legalSize {s : State} (hs : LegalSize s) : blockSizeOk s.cfg.bs.toNat = true := by
  obtain ⟨two_le, le_64, even⟩ := hs
  have le_nmax : s.cfg.bs.toNat ≤ Config.nmax := le_64
  simp [blockSizeOk, two_le, le_nmax, even]

theorem sizeOf_eq_partSize (s : State) (h : PartSize) : sizeOf s h = partSize s.cfg.bs.toNat h := by
  cases h <;> rfl

theorem sizeOf_pos {s : State} (hs : LegalSize s) (h : PartSize) : 0 < sizeOf s h :=
  sizeOf_eq_partSize s h ▸ (partSize_bounds (blockSizeOk_of_legalSize hs) h).1

/-- With a legal size, `cfg_n(h)` answers the partition size. -/
theorem cfgN_of_legalSize {s : State} (hs : LegalSize s) (h : PartSize) : cfgN h s = .ok (sizeOf s h) s := by
  rw [cfgN_of_ok (blockSizeOk_of_legalSize hs), sizeOf_eq_partSize]

/-! ## Writing a partition in raster order (rule R57) -/

theorem cellsRead_fill_grid {α : Type} (m : Cells α) (f : Nat → Nat → α) {n r c : Nat} (hr : r < n) (hc : c < n) :
    cellsRead (cellsFill m (grid n f)) (r * n + c) = some (f r c) := by
  have inside : r * n + c < (grid n f).length := by
    rw [grid_length]
    calc r * n + c < r * n + n := Nat.add_lt_add_left hc _
      _ = (r + 1) * n := (Nat.succ_mul r n).symm
      _ ≤ n * n := Nat.mul_le_mul_right n hr
  have row : (r * n + c) / n = r := by
    rw [Nat.mul_comm, Nat.mul_add_div (Nat.zero_lt_of_lt hc), Nat.div_eq_of_lt hc, Nat.add_zero]
  have col : (r * n + c) % n = c := Nat.mul_add_mod_of_lt hc
  rw [cellsRead_fill_of_lt _ _ inside, grid_getElem, row, col]

theorem sameFrom_fill_grid {α : Type} (m : Cells α) (n : Nat) (f : Nat → Nat → α) :
    SameFrom (n * n) m (cellsFill m (grid n f)) :=
  fun _ ha => cellsRead_fill_of_ge _ _ ((grid_length n f).trans_le ha)

/-! ## Effective borders (rule R230) -/

/-- The first `n` samples of a border, as the predictors take them. -/
def samples (n : Nat) (F : Nat → Nat) : List Nat := (List.range n).map F

theorem getD_samples {n j : Nat} (F : Nat → Nat) (hj : j < n) : (samples n F).getD j 0 = F j := by
  simp [samples, List.getD, hj]

/-- `F` is the effective border over the host's samples `m`: what `TopIs` says of `TOP` and `LeftIs` of `LEFT`. -/
def IsBorder (available : Bool) (m : Cells Byte) (n : Nat) (F : Nat → Nat) : Prop :=
  ∀ j, j < n → if available then (cellsRead m j).map BitVec.toNat = some (F j) else F j = 128

theorem topIs_iff {s : State} {n : Nat} {T : Nat → Nat} : TopIs s n T ↔ IsBorder s.cfg.availTop s.top n T := Iff.rfl

theorem leftIs_iff {s : State} {n : Nat} {L : Nat → Nat} : LeftIs s n L ↔ IsBorder s.cfg.availLeft s.left n L := Iff.rfl

section border

variable {available : Bool} {m : Cells Byte} {n : Nat} {F : Nat → Nat}

theorem IsBorder.written (hF : IsBorder true m n F) {j : Nat} (hj : j < n) :
    ∃ b : Byte, cellsRead m j = some b ∧ b.toNat = F j :=
  Option.map_eq_some_iff.1 (hF j hj)

theorem IsBorder.default (hF : IsBorder false m n F) {j : Nat} (hj : j < n) : F j = Config.borderDefault :=
  hF j hj

/-- A sample of an effective border is a byte's value. -/
theorem IsBorder.le (hF : IsBorder available m n F) {j : Nat} (hj : j < n) : F j ≤ 255 := by
  cases available with
  | false => rw [hF.default hj]; decide
  | true =>
    obtain ⟨b, -, hb⟩ := hF.written hj
    exact hb ▸ Nat.le_of_lt_succ b.isLt

theorem IsBorder.sum_le (hF : IsBorder available m n F) : (samples n F).sum ≤ 255 * n := by
  have bound : ∀ x ∈ samples n F, x ≤ 255 := by
    intro x hx
    obtain ⟨j, hj, rfl⟩ := List.mem_map.1 hx
    exact hF.le (List.mem_range.1 hj)
  simpa [samples, Nat.mul_comm] using List.sum_le_card_nsmul _ 255 bound

/-- Reading a border answers its effective samples and leaves the state. -/
theorem border_run {get : State → Cells Byte} {s : State} (name : BufName) (hF : IsBorder available (get s) n F) :
    border available name get n s = .ok (samples n F) s := by
  cases available with
  | false =>
    have defaults : samples n F = List.replicate n Config.borderDefault := by
      refine List.eq_replicate_iff.2 ⟨by simp [samples], fun x hx => ?_⟩
      obtain ⟨j, hj, rfl⟩ := List.mem_map.1 hx
      exact hF.default (List.mem_range.1 hj)
    exact congrArg (EStateM.Result.ok · s) defaults.symm
  | true =>
    have read : cellsReadRange (get s) 0 n = some ((samples n F).map (BitVec.ofNat 8)) := by
      refine (cellsReadRange_eq_some _ _ _ _).2 ⟨by simp [samples], fun j hj => ?_⟩
      obtain ⟨b, hb, hv⟩ := hF.written hj
      simp [samples, hb, hj, ← hv]
    have values : ((samples n F).map (BitVec.ofNat 8)).map BitVec.toNat = samples n F := by
      simp only [samples, List.map_map]
      refine List.map_congr_left fun j hj => ?_
      exact Nat.mod_eq_of_lt (Nat.lt_succ_of_le (hF.le (List.mem_range.1 hj)))
    exact (cmd_bind_of_ok (readBytes_of_some read)).trans (congrArg (EStateM.Result.ok · s) values)

end border

/-! ## The rounded mean (rules R5, R231) -/

/-- A remainder of at most half the divisor rounds down, a tie only to an even quotient. -/
theorem rounded_down {b q r : Nat} (hb : 0 < b) (half : 2 * r ≤ b) (tie : 2 * r = b → q % 2 = 0) :
    Rounded (b * q + r) b q := by
  have upper : (2 * q + 1) * b = 2 * (b * q) + b := by ring
  have lower : 2 * q * b = 2 * (b * q) := by ring
  unfold Rounded
  rw [upper, lower]
  omega

/-- A remainder of at least half the divisor rounds up, a tie only from an odd quotient. -/
theorem rounded_up {b q r : Nat} (hr : r < b) (half : b ≤ 2 * r) (tie : 2 * r = b → (q + 1) % 2 = 0) :
    Rounded (b * q + r) b (q + 1) := by
  have upper : (2 * (q + 1) + 1) * b = 2 * (b * q) + 3 * b := by ring
  have lower : 2 * (q + 1) * b = 2 * (b * q) + 2 * b := by ring
  unfold Rounded
  rw [upper, lower]
  omega

/-- `roundDiv` rounds to nearest, ties to even. -/
theorem roundDiv_rounded {b : Nat} (a : Nat) (hb : 0 < b) : Rounded a b (roundDiv a b) := by
  have hr : a % b < b := Nat.mod_lt a hb
  rw [roundDiv]
  conv => arg 1; rw [← Nat.div_add_mod a b]
  split_ifs with below above even
  · exact rounded_down hb below.le fun tie => absurd tie below.ne
  · exact rounded_up hr above.le fun tie => absurd tie above.ne'
  · exact rounded_down hb (by omega) fun _ => even
  · exact rounded_up hr (by omega) fun _ => by omega

/-- A quotient of at most `k` rounds to at most `k`. -/
theorem rounded_le {a b q k : Nat} (h : Rounded a b q) (hb : 0 < b) (ha : a ≤ k * b) : q ≤ k := by
  obtain ⟨-, above, -⟩ := h
  have twice : 2 * q * b ≤ (2 * k + 1) * b :=
    calc 2 * q * b ≤ 2 * a + b := above
      _ ≤ 2 * (k * b) + b := by omega
      _ = (2 * k + 1) * b := by ring
  have := Nat.le_of_mul_le_mul_right twice hb
  omega

/-- Rule R231: the DC value is the rounded mean of the samples of the available borders, and 128 without one. -/
theorem dcValue_cases {n : Nat} (hn : 0 < n) (availTop availLeft : Bool) (t l : List Nat) :
    let v := dcValue n availTop availLeft t l
    (availTop = true → availLeft = true → Rounded (t.sum + l.sum) (2 * n) v) ∧
    (availTop = true → availLeft = false → Rounded t.sum n v) ∧
    (availTop = false → availLeft = true → Rounded l.sum n v) ∧
    (availTop = false → availLeft = false → v = 128) := by
  refine ⟨?_, ?_, ?_, ?_⟩ <;> rintro rfl rfl
  · exact roundDiv_rounded _ (Nat.mul_pos two_pos hn)
  · exact roundDiv_rounded _ hn
  · exact roundDiv_rounded _ hn
  · rfl

theorem dcValue_le {n : Nat} (hn : 0 < n) {availTop availLeft : Bool} {t l : List Nat} (ht : t.sum ≤ 255 * n)
    (hl : l.sum ≤ 255 * n) : dcValue n availTop availLeft t l ≤ 255 := by
  obtain ⟨both, top, left, none⟩ := dcValue_cases hn availTop availLeft t l
  cases availTop <;> cases availLeft
  · exact (none rfl rfl).trans_le (by decide)
  · exact rounded_le (left rfl rfl) hn hl
  · exact rounded_le (top rfl rfl) hn ht
  · exact rounded_le (both rfl rfl) (Nat.mul_pos two_pos hn) (by omega)

/-! ## The planar sample (rule R234) -/

theorem planarValue_samples {n r c : Nat} (T L : Nat → Nat) (hr : r < n) (hc : c < n) :
    planarValue n (samples n T) (samples n L) r c =
      ((n - 1 - c) * L r + (c + 1) * T (n - 1) + (n - 1 - r) * T c + (r + 1) * L (n - 1)) / (2 * n) := by
  have last : n - 1 < n := by omega
  simp only [planarValue, getD_samples, hr, hc, last, Config.planarRnd, Nat.add_zero]

/-- The planar weights of a sample add up to `2 n`, so their mean is a byte's value. -/
theorem planar_mean_le {n r c a b d e : Nat} (hr : r < n) (hc : c < n) (ha : a ≤ 255) (hb : b ≤ 255) (hd : d ≤ 255)
    (he : e ≤ 255) :
    ((n - 1 - c) * a + (c + 1) * b + (n - 1 - r) * d + (r + 1) * e) / (2 * n) ≤ 255 := by
  refine Nat.div_le_of_le_mul ?_
  calc (n - 1 - c) * a + (c + 1) * b + (n - 1 - r) * d + (r + 1) * e
      ≤ (n - 1 - c) * 255 + (c + 1) * 255 + (n - 1 - r) * 255 + (r + 1) * 255 := by gcongr
    _ = 2 * n * 255 := by omega

/-! ## `PRED` -/

/-- Every predicted sample is a byte's value, so that storing it loses nothing. -/
theorem predValue_le {n r c : Nat} {availTop availLeft : Bool} {top left : Cells Byte} {T L : Nat → Nat}
    (hT : IsBorder availTop top n T) (hL : IsBorder availLeft left n L) (pm : PredMode) (hr : r < n) (hc : c < n) :
    predValue pm n availTop availLeft (samples n T) (samples n L) r c ≤ 255 := by
  have last : n - 1 < n := by omega
  cases pm with
  | dc => exact dcValue_le (Nat.zero_lt_of_lt hr) hT.sum_le hL.sum_le
  | vertical => exact (getD_samples T hc).trans_le (hT.le hc)
  | horizontal => exact (getD_samples L hr).trans_le (hL.le hr)
  | planar =>
    exact (planarValue_samples T L hr hc).trans_le (planar_mean_le hr hc (hL.le hr) (hT.le last) (hT.le hc) (hL.le last))

/-- The predicted sample of `PRED pm, h` in state `s`, from the effective borders `T` and `L`. -/
def sampleOf (s : State) (pm : PredMode) (h : PartSize) (T L : Nat → Nat) : Nat → Nat → Nat :=
  predValue pm (sizeOf s h) s.cfg.availTop s.cfg.availLeft (samples (sizeOf s h) T) (samples (sizeOf s h) L)

/-- `PRED` writes the predicted samples to `PREDB` in raster order. -/
theorem exec_pred {s : State} {h : PartSize} {T L : Nat → Nat} (pm : PredMode) (hq : Quiet s) (hs : LegalSize s)
    (hT : TopIs s (sizeOf s h) T) (hL : LeftIs s (sizeOf s h) L) :
    exec (.pred pm h) s = .next
      { s with
        predb := cellsFill s.predb (grid (sizeOf s h) fun r c => BitVec.ofNat 8 (sampleOf s pm h T L r c)) } := by
  refine exec_of_ok nofun hq ?_
  calc pred pm h s
      = _ := cmd_bind_of_ok (cfgN_of_legalSize hs h)
    _ = _ := cmd_bind_of_ok (cmd_get s)
    _ = _ := cmd_bind_of_ok (border_run .top (topIs_iff.1 hT))
    _ = _ := cmd_bind_of_ok (border_run .left (leftIs_iff.1 hL))

/-- Settles O37: `PRED` writes `sampleOf` over the partition, and the samples are the rule's formula in each mode. -/
theorem pred : Obligations.Pred := by
  intro s pm h T L hq hs hT hL
  refine ⟨_, sampleOf s pm h T L, exec_pred pm hq hs hT hL, rfl, sameFrom_fill_grid _ _ _, fun r c hr hc =>
    ⟨cellsRead_fill_grid _ _ hr hc, predValue_le (topIs_iff.1 hT) (leftIs_iff.1 hL) pm hr hc⟩, ?_⟩
  cases pm with
  | dc => exact ⟨_, fun _ _ => rfl, dcValue_cases (sizeOf_pos hs h) _ _ _ _⟩
  | vertical => exact fun r c _ hc => getD_samples T hc
  | horizontal => exact fun r c hr _ => getD_samples L hr
  | planar => exact fun r c hr hc => planarValue_samples T L hr hc

end Sys2Proof.Proofs.Predictor
end

section
/-! SUPPORT. The order of the diagonal scan (rule R255): along one anti-diagonal, and from one to the next; with it what
the scan visits and how often. -/

namespace Sys2Proof.Proofs.Scan

open Sys2Proof Sys2Proof.Machine

/-- Rule R255: an anti-diagonal goes from its bottom-left end to its top-right end. -/
theorem diagonal_rows_decrease (n d : Nat) : (diagonal n d).Pairwise fun x y => y.1 < x.1 :=
  have rows : ((List.range (min d (n - 1) + 1)).reverse).Pairwise fun r r' => r' < r :=
    List.pairwise_reverse.2 List.pairwise_lt_range
  (List.pairwise_map.2 rows).filter _

/-- Rule R255's order, two positions compared by the anti-diagonals they come from. -/
theorem diagScan_ordered {n : Nat} (hn : 1 ≤ n) :
    (diagScan n).Pairwise fun x y => x.1 + x.2 < y.1 + y.2 ∨ x.1 + x.2 = y.1 + y.2 ∧ y.1 < x.1 := by
  have on_diagonal : ∀ {d : Nat} {x : Nat × Nat}, x ∈ diagonal n d → x.1 + x.2 = d := fun h =>
    ((mem_diagonal hn).1 h).2.2
  refine List.pairwise_flatMap.2 ⟨fun d _ => ?inside, List.pairwise_lt_range.imp fun hd x hx y hy => ?between⟩
  case inside =>
    exact (diagonal_rows_decrease n d).imp_of_mem fun hx hy row =>
      .inr ⟨(on_diagonal hx).trans (on_diagonal hy).symm, row⟩
  case between =>
    left
    rwa [on_diagonal hx, on_diagonal hy]

/-- The scan lists distinct positions and has them all, so it has as many as the square. -/
theorem diagScan_length {n : Nat} (hn : 1 ≤ n) : (diagScan n).length = n * n := by
  simpa using (positions_perm (diagScan_nodup hn) fun _ _ => mem_diagScan hn).length_eq

/-- Settles O35: the scan has the square's positions, `n * n` of them, in the order of `diagScan_ordered`. -/
theorem diagonalScan : Obligations.DiagonalScan := fun _ hn =>
  ⟨diagScan_length hn, fun _ _ => mem_diagScan hn, diagScan_ordered hn⟩

end Sys2Proof.Proofs.Scan
end

section
/-! The system commands `NOP` and `CTXINIT` (rules R310, R312): what each answers, a fault pending or not. -/

namespace Sys2Proof.Proofs.System

open Sys2Proof Sys2Proof.Machine Sys2Proof.Safety

variable {s : State}

/-- While a fault is pending, a command other than `SRESET` changes nothing. -/
theorem exec_of_fault {i : Instr} (hi : i ≠ .sreset) (hf : s.status.fault = true) : exec i s = .next s :=
  (exec_eq_runCommand hi s).trans (runCommand_of_fault hf)

/-- `NOP` has the same answer whether it is ignored for a pending fault or carried out. -/
theorem exec_nop (s : State) : exec .nop s = .next s := by
  cases hf : s.status.fault with
  | true => exact exec_of_fault nofun hf
  | false => exact exec_of_ok nofun hf (cmd_pure () s)

theorem exec_ctxinit (hq : Quiet s) :
    exec .ctxinit s = .next { s with pm := Vector.replicate 15 Model.init, bucket := 0 } :=
  exec_of_ok nofun hq (cmd_modify _ s)

/-- Settles O12: the two fixed words decode by computation, and `Model.init` is the model at 0. -/
theorem nopCtxinit : Obligations.NopCtxinit :=
  ⟨rfl, rfl, fun s => ⟨exec_nop s, exec_ctxinit⟩⟩

end Sys2Proof.Proofs.System
end

section
/-! Command words (rules R80 to R88): a word and its four fields, what each format accepts, and with it the decoder and the
encoder as inverses of each other and the opcode table as the domain of the decoder. -/

namespace Sys2Proof.Proofs.Words

open Sys2Proof Sys2Proof.Machine Sys2Proof.Safety

/-! ## A word and its fields (rule R80) -/

section fields

variable (op m n f : BitVec 8)

@[simp] theorem fieldOp_packFields : fieldOp (packFields op m n f) = op := by
  apply BitVec.eq_of_getLsbD_eq
  intro i hi
  have h1 : ¬24 + i < 8 := by omega
  have h2 : ¬24 + i - 8 < 8 := by omega
  have h3 : ¬24 + i - 8 - 8 < 8 := by omega
  have h4 : 24 + i - 8 - 8 - 8 = i := by omega
  simp only [fieldOp, packFields, BitVec.getLsbD_extractLsb', BitVec.getLsbD_append, hi, h1, h2, h3, h4]
  rfl

@[simp] theorem fieldM_packFields : fieldM (packFields op m n f) = m := by
  apply BitVec.eq_of_getLsbD_eq
  intro i hi
  have h1 : ¬16 + i < 8 := by omega
  have h2 : ¬16 + i - 8 < 8 := by omega
  have h3 : 16 + i - 8 - 8 = i := by omega
  simp only [fieldM, packFields, BitVec.getLsbD_extractLsb', BitVec.getLsbD_append, hi, h1, h2, h3]
  rfl

@[simp] theorem fieldN_packFields : fieldN (packFields op m n f) = n := by
  apply BitVec.eq_of_getLsbD_eq
  intro i hi
  have h1 : ¬8 + i < 8 := by omega
  have h2 : 8 + i - 8 = i := by omega
  simp only [fieldN, packFields, BitVec.getLsbD_extractLsb', BitVec.getLsbD_append, hi, h1, h2]
  rfl

@[simp] theorem fieldF_packFields : fieldF (packFields op m n f) = f := by
  apply BitVec.eq_of_getLsbD_eq
  intro i hi
  simp only [fieldF, packFields, BitVec.getLsbD_extractLsb', BitVec.getLsbD_append, hi, Nat.zero_add]
  rfl

end fields

/-- A word is its four fields. -/
theorem packFields_fields (w : Word) : packFields (fieldOp w) (fieldM w) (fieldN w) (fieldF w) = w := by
  apply BitVec.eq_of_getLsbD_eq
  intro i hi
  simp only [packFields, fieldOp, fieldM, fieldN, fieldF, BitVec.getLsbD_append, BitVec.getLsbD_extractLsb']
  split_ifs with h1 h2 h3
  · simp [h1]
  · rw [decide_eq_true h2, Bool.true_and, Nat.add_sub_cancel' (by omega)]
  · rw [decide_eq_true h3, Bool.true_and]
    congr 1
    omega
  · rw [decide_eq_true (by omega : i - 8 - 8 - 8 < 8), Bool.true_and]
    congr 1
    omega

theorem packFields_inj {op m n f op' m' n' f' : BitVec 8} (h : packFields op m n f = packFields op' m' n' f') :
    op = op' ∧ m = m' ∧ n = n' ∧ f = f' :=
  ⟨by simpa using congrArg fieldOp h, by simpa using congrArg fieldM h, by simpa using congrArg fieldN h,
    by simpa using congrArg fieldF h⟩

theorem decode_packFields (op m n f : BitVec 8) : decode (packFields op m n f) = decodeFields op m n f := by
  simp [decode]

/-! ## Operand fields (rules R80, R85) -/

@[simp] theorem decodeSelector_encodeSelector (sel : Selector) : decodeSelector (encodeSelector sel) = some sel := by
  revert sel
  rintro (m | _ | _ | _)
  · revert m
    decide
  all_goals rfl

theorem decodeSelector_eq_some {m : BitVec 8} {sel : Selector} (h : decodeSelector m = some sel) :
    encodeSelector sel = m := by
  unfold decodeSelector at h
  split_ifs at h with h0 h1 h2 h3
  · cases h
    exact BitVec.eq_of_toNat_eq (by simp [encodeSelector])
  all_goals cases h; simp [encodeSelector, *]

/-- The selector values of rule R85. -/
theorem decodeSelector_isSome_iff (m : BitVec 8) :
    (decodeSelector m).isSome = true ↔ m.toNat ≤ 0x0E ∨ 0x10 ≤ m.toNat ∧ m.toNat ≤ 0x12 := by
  revert m
  decide +kernel

@[simp] theorem encodeB_flagB (f : BitVec 8) (h : f &&& 0xFE = 0) : encodeB (flagB f) = f := by
  revert f
  decide +kernel

@[simp] theorem encodeH_flagH (f : BitVec 8) (h : f &&& 0xFB = 0) : encodeH (flagH f) = f := by
  revert f
  decide +kernel

@[simp] theorem encodePm_flagPm (f : BitVec 8) (h : f &&& 0xCF = 0) : encodePm (flagPm f) = f := by
  revert f
  decide +kernel

@[simp] theorem encodePmH_flags (f : BitVec 8) (h : f &&& 0xCB = 0) : encodePm (flagPm f) ||| encodeH (flagH f) = f := by
  revert f
  decide +kernel

/-! ## Formats on encoded operands (rules R81 to R84) -/

@[simp] theorem formatS_encode (i : Instr) : formatS 0#8 0#8 0#8 i = .ok i := rfl

@[simp] theorem formatM_encode (sel : Selector) (g : Selector → Instr) :
    formatM (encodeSelector sel) 0#8 0#8 g = .ok (g sel) := by simp [formatM]

@[simp] theorem formatB_encode (b : Bool) (g : Bool → Instr) : formatB 0#8 0#8 (encodeB b) g = .ok (g b) := by
  cases b <;> rfl

@[simp] theorem formatBM_encode (sel : Selector) (b : Bool) (g : Selector → Bool → Instr) :
    formatBM (encodeSelector sel) 0#8 (encodeB b) g = .ok (g sel b) := by
  cases b <;> simp [formatBM, encodeB, flagB]

@[simp] theorem formatC_encode {n : BitVec 8} (hn : countOk n = true) (g : BitVec 8 → Instr) :
    formatC 0#8 n 0#8 g = .ok (g n) := by simp [formatC, hn]

@[simp] theorem formatCM_encode (sel : Selector) {n : BitVec 8} (hn : countOk n = true)
    (g : Selector → BitVec 8 → Instr) : formatCM (encodeSelector sel) n 0#8 g = .ok (g sel n) := by
  simp [formatCM, hn]

@[simp] theorem formatD_encode (h : PartSize) (g : PartSize → Instr) : formatD 0#8 0#8 (encodeH h) g = .ok (g h) := by
  cases h <;> rfl

@[simp] theorem formatDP_encode (pm : PredMode) (h : PartSize) (g : PredMode → PartSize → Instr) :
    formatDP 0#8 0#8 (encodePm pm ||| encodeH h) g = .ok (g pm h) := by
  cases pm <;> cases h <;> rfl

@[simp] theorem formatP_encode (pm : PredMode) (g : PredMode → Instr) : formatP 0#8 0#8 (encodePm pm) g = .ok (g pm) := by
  cases pm <;> rfl

/-- Settles O1: an encoded word is its opcode and its encoded operands, and each format gives its operands back. -/
theorem decodeEncode : Obligations.DecodeEncode := by
  intro i hi
  cases i <;> rw [encode, decode_packFields] <;> simp_all [decodeFields, Instr.wf]

/-! ## Formats read backwards -/

/-- Every command that the answer `r` can hold is well formed, and its word has the fields `op`, `m`, `n`, `f`. -/
structure Sound (op m n f : BitVec 8) (r : Except DecodeError Instr) : Prop where
  wf : ∀ {j}, r = .ok j → j.wf = true
  word : ∀ {j}, r = .ok j → encode j = packFields op m n f

section sound

variable {op m n f : BitVec 8}

theorem sound_error (e : DecodeError) : Sound op m n f (.error e) := ⟨nofun, nofun⟩

theorem sound_ok {i : Instr} (hw : i.wf = true) (he : encode i = packFields op m n f) : Sound op m n f (.ok i) :=
  ⟨fun h => Except.ok.inj h ▸ hw, fun h => Except.ok.inj h ▸ he⟩

theorem formatS_sound {i : Instr} (hw : i.wf = true) (he : encode i = packFields op 0 0 0) :
    Sound op m n f (formatS m n f i) := by
  unfold formatS
  split_ifs with h
  · obtain ⟨rfl, rfl, rfl⟩ := h
    exact sound_ok hw he
  · exact sound_error _

theorem formatM_sound {g : Selector → Instr} (hw : ∀ sel, (g sel).wf = true)
    (he : ∀ sel, encode (g sel) = packFields op (encodeSelector sel) 0 0) : Sound op m n f (formatM m n f g) := by
  unfold formatM
  split_ifs with h
  · obtain ⟨rfl, rfl⟩ := h
    split
    next sel hs => exact sound_ok (hw sel) (decodeSelector_eq_some hs ▸ he sel)
    next => exact sound_error _
  · exact sound_error _

theorem formatB_sound {g : Bool → Instr} (hw : ∀ b, (g b).wf = true)
    (he : ∀ b, encode (g b) = packFields op 0 0 (encodeB b)) : Sound op m n f (formatB m n f g) := by
  unfold formatB
  split_ifs with h
  · obtain ⟨rfl, rfl, hf⟩ := h
    exact sound_ok (hw _) (by rw [he, encodeB_flagB f hf])
  · exact sound_error _

theorem formatBM_sound {g : Selector → Bool → Instr} (hw : ∀ sel b, (g sel b).wf = true)
    (he : ∀ sel b, encode (g sel b) = packFields op (encodeSelector sel) 0 (encodeB b)) :
    Sound op m n f (formatBM m n f g) := by
  unfold formatBM
  split_ifs with h
  · obtain ⟨rfl, hf⟩ := h
    split
    next sel hs => exact sound_ok (hw sel _) (by rw [he, encodeB_flagB f hf, decodeSelector_eq_some hs])
    next => exact sound_error _
  · exact sound_error _

theorem formatC_sound {g : BitVec 8 → Instr} (hw : ∀ n, (g n).wf = countOk n)
    (he : ∀ n, encode (g n) = packFields op 0 n 0) : Sound op m n f (formatC m n f g) := by
  unfold formatC
  split_ifs with h hn
  · obtain ⟨rfl, rfl⟩ := h
    exact sound_ok ((hw n).trans hn) (he n)
  · exact sound_error _
  · exact sound_error _

theorem formatCM_sound {g : Selector → BitVec 8 → Instr} (hw : ∀ sel n, (g sel n).wf = countOk n)
    (he : ∀ sel n, encode (g sel n) = packFields op (encodeSelector sel) n 0) :
    Sound op m n f (formatCM m n f g) := by
  unfold formatCM
  split_ifs with h hn
  · subst h
    split
    next sel hs => exact sound_ok ((hw sel n).trans hn) (decodeSelector_eq_some hs ▸ he sel n)
    next => exact sound_error _
  · split <;> exact sound_error _
  · exact sound_error _

theorem formatD_sound {g : PartSize → Instr} (hw : ∀ h, (g h).wf = true)
    (he : ∀ h, encode (g h) = packFields op 0 0 (encodeH h)) : Sound op m n f (formatD m n f g) := by
  unfold formatD
  split_ifs with h
  · obtain ⟨rfl, rfl, hf⟩ := h
    exact sound_ok (hw _) (by rw [he, encodeH_flagH f hf])
  · exact sound_error _

theorem formatDP_sound {g : PredMode → PartSize → Instr} (hw : ∀ pm h, (g pm h).wf = true)
    (he : ∀ pm h, encode (g pm h) = packFields op 0 0 (encodePm pm ||| encodeH h)) :
    Sound op m n f (formatDP m n f g) := by
  unfold formatDP
  split_ifs with h
  · obtain ⟨rfl, rfl, hf⟩ := h
    exact sound_ok (hw _ _) (by rw [he, encodePmH_flags f hf])
  · exact sound_error _

theorem formatP_sound {g : PredMode → Instr} (hw : ∀ pm, (g pm).wf = true)
    (he : ∀ pm, encode (g pm) = packFields op 0 0 (encodePm pm)) : Sound op m n f (formatP m n f g) := by
  unfold formatP
  split_ifs with h
  · obtain ⟨rfl, rfl, hf⟩ := h
    exact sound_ok (hw _) (by rw [he, encodePm_flagPm f hf])
  · exact sound_error _

/-- The opcode map row by row: what a row's format accepts is the row's command, whose opcode is the row's. -/
theorem decodeFields_sound (op m n f : BitVec 8) : Sound op m n f (decodeFields op m n f) := by
  have hop : op = BitVec.ofNat 8 op.toNat := by simp
  unfold decodeFields
  split
  case h_46 => exact sound_error _
  all_goals
    rename_i h
    rw [h] at hop
    subst hop
  case h_1 | h_2 | h_3 | h_6 | h_7 | h_9 | h_13 | h_18 | h_21 | h_23 | h_25 | h_38 | h_39 | h_41 | h_43 =>
    exact formatS_sound rfl rfl
  case h_4 | h_16 | h_40 =>
    exact formatB_sound (fun _ => rfl) fun _ => rfl
  case h_5 | h_8 | h_17 | h_24 =>
    exact formatC_sound (fun _ => rfl) fun _ => rfl
  case h_10 | h_11 | h_19 | h_20 | h_22 | h_26 =>
    exact formatM_sound (fun _ => rfl) fun _ => rfl
  case h_12 | h_14 =>
    exact formatBM_sound (fun _ _ => rfl) fun _ _ => rfl
  case h_15 =>
    exact formatCM_sound (fun _ _ => rfl) fun _ _ => rfl
  case h_27 | h_29 | h_31 | h_34 | h_36 | h_37 | h_44 | h_45 =>
    exact formatD_sound (fun _ => rfl) fun _ => rfl
  case h_28 | h_30 | h_32 | h_33 | h_35 =>
    exact formatDP_sound (fun _ _ => rfl) fun _ _ => rfl
  case h_42 =>
    exact formatP_sound (fun _ => rfl) fun _ => rfl

end sound

/-- Settles O2: the word's fields are those of the command that the opcode map answers. -/
theorem encodeDecode : Obligations.EncodeDecode := by
  intro w i h
  have sound := decodeFields_sound (fieldOp w) (fieldM w) (fieldN w) (fieldF w)
  exact ⟨sound.wf h, (sound.word h).trans (packFields_fields w)⟩

/-! ## The opcode table (rule R87) -/

/-- The selector of a command that has one. -/
def selectorOf : Instr → Option Selector
  | .pmMps m | .pmLps m | .pmEst m _ | .aeBit m _ | .aeBits m _ | .aeEg m | .aeEgest m | .adBit m | .adEg m => some m
  | _ => none

/-- The count of a command that has one. -/
def countOf : Instr → Option (BitVec 8)
  | .bwBits n | .brBits n | .aeBits _ n | .aeByps n | .adByps n => some n
  | _ => none

theorem fieldM_encode {i : Instr} {sel : Selector} (h : selectorOf i = some sel) :
    fieldM (encode i) = encodeSelector sel := by
  cases i <;> simp only [selectorOf, reduceCtorEq, Option.some.injEq] at h <;> subst h <;> simp [encode]

theorem fieldN_encode {i : Instr} {n : BitVec 8} (h : countOf i = some n) : fieldN (encode i) = n := by
  cases i <;> simp only [countOf, reduceCtorEq, Option.some.injEq] at h <;> subst h <;> simp [encode]

theorem countOk_of_wf {i : Instr} {n : BitVec 8} (hw : i.wf = true) (h : countOf i = some n) : n.toNat ≤ 32 := by
  cases i <;> simp only [countOf, reduceCtorEq, Option.some.injEq] at h <;> subst h <;>
    simpa [Instr.wf, countOk] using hw

/-- A command's row of the opcode table. -/
def tableRow (i : Instr) : Row :=
  ⟨(Laws.RowMatch.row i).1, (Laws.RowMatch.row i).2, (selectorOf i).isSome, (countOf i).isSome⟩

theorem tableRow_mem (i : Instr) : tableRow i ∈ rows := by
  cases i <;> exact List.mem_of_elem_eq_true rfl

open Laws.RowMatch in
/-- Every command's word has its row's fixed bits. -/
theorem encode_and_mask : ∀ i : Instr, encode i &&& (row i).1 = (row i).2
  | .nop => nop | .sreset => sreset | .ctxinit => ctxinit | .bwBit b => bwBit b | .bwBits n => bwBits n
  | .bwAlign => bwAlign | .brBit => brBit | .brBits n => brBits n | .brAlign => brAlign | .pmMps m => pmMps m
  | .pmLps m => pmLps m | .pmEst m b => pmEst m b | .aeStart => aeStart | .aeBit m b => aeBit m b
  | .aeBits m n => aeBits m n | .aeByp b => aeByp b | .aeByps n => aeByps n | .aeTerm => aeTerm | .aeEg m => aeEg m
  | .aeEgest m => aeEgest m | .adStart => adStart | .adBit m => adBit m | .adByp => adByp | .adByps n => adByps n
  | .adTerm => adTerm | .adEg m => adEg m | .ctxSw h => ctxSw h | .pred pm h => pred pm h | .resid h => resid h
  | .txf pm h => txf pm h | .quant h => quant h | .scanf pm h => scanf pm h | .scani pm h => scani pm h | .deq h => deq h
  | .txi pm h => txi pm h | .recon h => recon h | .dist h => dist h | .hdrWr => hdrWr | .hdrRd => hdrRd
  | .encPart b => encPart b | .decPart => decPart | .encPmode pm => encPmode pm | .decPmode => decPmode
  | .encCoef h => encCoef h | .decCoef h => decCoef h

theorem legalWord_encode {i : Instr} (hw : i.wf = true) : LegalWord (encode i) := by
  refine ⟨tableRow i, tableRow_mem i, encode_and_mask i, fun hM => ?_, fun hN => ?_⟩
  · obtain ⟨sel, hs⟩ := Option.isSome_iff_exists.1 hM
    rw [fieldM_encode hs]
    exact (decodeSelector_isSome_iff _).1 (by simp)
  · obtain ⟨n, hn⟩ := Option.isSome_iff_exists.1 hN
    rw [fieldN_encode hn]
    exact countOk_of_wf hw hn

/-- A word under a mask that takes in the whole opcode, field by field. -/
theorem fields_of_masked {w : Word} {a b c op : BitVec 8} {mask bits : Word} (hk : packFields 0xFF a b c = mask)
    (hb : packFields op 0 0 0 = bits) (h : w &&& mask = bits) :
    fieldOp w = op ∧ fieldM w &&& a = 0 ∧ fieldN w &&& b = 0 ∧ fieldF w &&& c = 0 := by
  rw [← packFields_fields w, ← hk, ← hb, Laws.RowMatch.pack_and] at h
  have whole : ∀ x : BitVec 8, x &&& 0xFF = x := fun x => BitVec.and_allOnes
  simpa only [whole] using packFields_inj h

section accepts

variable {m n f : BitVec 8}

theorem formatS_accepts (i : Instr) (hm : m = 0) (hn : n = 0) (hf : f = 0) : ∃ j, formatS m n f i = .ok j :=
  ⟨i, if_pos ⟨hm, hn, hf⟩⟩

theorem formatM_accepts (g : Selector → Instr) (hs : (decodeSelector m).isSome = true) (hn : n = 0) (hf : f = 0) :
    ∃ j, formatM m n f g = .ok j := by
  obtain ⟨sel, hs⟩ := Option.isSome_iff_exists.1 hs
  exact ⟨g sel, by simp [formatM, hs, hn, hf]⟩

theorem formatB_accepts (g : Bool → Instr) (hm : m = 0) (hn : n = 0) (hf : f &&& 0xFE = 0) :
    ∃ j, formatB m n f g = .ok j := ⟨_, if_pos ⟨hm, hn, hf⟩⟩

theorem formatBM_accepts (g : Selector → Bool → Instr) (hs : (decodeSelector m).isSome = true) (hn : n = 0)
    (hf : f &&& 0xFE = 0) : ∃ j, formatBM m n f g = .ok j := by
  obtain ⟨sel, hs⟩ := Option.isSome_iff_exists.1 hs
  exact ⟨g sel (flagB f), by rw [formatBM, if_pos ⟨hn, hf⟩, hs]⟩

theorem formatC_accepts (g : BitVec 8 → Instr) (hm : m = 0) (hn : n.toNat ≤ 32) (hf : f = 0) :
    ∃ j, formatC m n f g = .ok j := ⟨g n, by simp [formatC, countOk, hm, hn, hf]⟩

theorem formatCM_accepts (g : Selector → BitVec 8 → Instr) (hs : (decodeSelector m).isSome = true) (hn : n.toNat ≤ 32)
    (hf : f = 0) : ∃ j, formatCM m n f g = .ok j := by
  obtain ⟨sel, hs⟩ := Option.isSome_iff_exists.1 hs
  exact ⟨g sel n, by simp [formatCM, countOk, hs, hn, hf]⟩

theorem formatD_accepts (g : PartSize → Instr) (hm : m = 0) (hn : n = 0) (hf : f &&& 0xFB = 0) :
    ∃ j, formatD m n f g = .ok j := ⟨_, if_pos ⟨hm, hn, hf⟩⟩

theorem formatDP_accepts (g : PredMode → PartSize → Instr) (hm : m = 0) (hn : n = 0) (hf : f &&& 0xCB = 0) :
    ∃ j, formatDP m n f g = .ok j := ⟨_, if_pos ⟨hm, hn, hf⟩⟩

theorem formatP_accepts (g : PredMode → Instr) (hm : m = 0) (hn : n = 0) (hf : f &&& 0xCF = 0) :
    ∃ j, formatP m n f g = .ok j := ⟨_, if_pos ⟨hm, hn, hf⟩⟩

end accepts

/-- The row `r` decodes every word that it makes legal. -/
def Decodes (r : Row) : Prop :=
  ∀ w : Word, w &&& r.mask = r.bits →
    (r.usesM = true → (fieldM w).toNat ≤ 0x0E ∨ 0x10 ≤ (fieldM w).toNat ∧ (fieldM w).toNat ≤ 0x12) →
    (r.usesN = true → (fieldN w).toNat ≤ 32) → ∃ i, decode w = .ok i

/-- The rows of one mask decode their words when the opcode map sends each of their opcodes to the format `fmt` with some
command, and the format accepts the fields that the mask leaves open. -/
theorem decodes_rowsOf {γ : Type} {a b c : BitVec 8} {mask : Word} {usesM usesN : Bool} {ops : List Nat}
    (fmt : γ → BitVec 8 → BitVec 8 → BitVec 8 → Except DecodeError Instr) (hk : packFields 0xFF a b c = mask)
    (hops : ∀ op ∈ ops, packFields (BitVec.ofNat 8 op) 0 0 0 = BitVec.ofNat 32 (op * 2 ^ 24) ∧
      ∃ g, ∀ m n f, decodeFields (BitVec.ofNat 8 op) m n f = fmt g m n f)
    (accepts : ∀ g m n f, m &&& a = 0 → n &&& b = 0 → f &&& c = 0 →
      (usesM = true → (decodeSelector m).isSome = true) → (usesN = true → n.toNat ≤ 32) → ∃ i, fmt g m n f = .ok i) :
    ∀ r ∈ rowsOf mask usesM usesN ops, Decodes r := by
  intro r hr
  obtain ⟨op, hop, rfl⟩ := List.mem_map.1 hr
  obtain ⟨hb, g, hg⟩ := hops op hop
  intro w hw hM hN
  obtain ⟨ho, hm, hn, hf⟩ := fields_of_masked hk hb hw
  rw [decode, ho, hg]
  exact accepts g _ _ _ hm hn hf (fun u => (decodeSelector_isSome_iff _).2 (hM u)) hN

theorem and_whole {x : BitVec 8} (h : x &&& 0xFF = 0) : x = 0 := by
  rwa [show x &&& 0xFF = x from BitVec.and_allOnes] at h

theorem decodes_formatS : ∀ r ∈ rowsOf 0xFFFFFFFF false false
    [0x00, 0x01, 0x02, 0x12, 0x14, 0x16, 0x30, 0x35, 0x40, 0x43, 0x45, 0x70, 0x71, 0x73, 0x75], Decodes r := by
  refine decodes_rowsOf (a := 0xFF) (b := 0xFF) (c := 0xFF) (fun g m n f => formatS m n f g) rfl (fun op hop => ?_)
    fun g _ _ _ hm hn hf _ _ => formatS_accepts g (and_whole hm) (and_whole hn) (and_whole hf)
  fin_cases hop <;> exact ⟨rfl, _, fun _ _ _ => rfl⟩

theorem decodes_formatM : ∀ r ∈ rowsOf 0xFF00FFFF true false
    [0x20, 0x21, 0x36, 0x37, 0x41, 0x46], Decodes r := by
  refine decodes_rowsOf (a := 0x00) (b := 0xFF) (c := 0xFF) (fun g m n f => formatM m n f g) rfl (fun op hop => ?_)
    fun g _ _ _ _ hn hf hM _ => formatM_accepts g (hM rfl) (and_whole hn) (and_whole hf)
  fin_cases hop <;> exact ⟨rfl, _, fun _ _ _ => rfl⟩

theorem decodes_formatBM : ∀ r ∈ rowsOf 0xFF00FFFE true false
    [0x22, 0x31], Decodes r := by
  refine decodes_rowsOf (a := 0x00) (b := 0xFF) (c := 0xFE) (fun g m n f => formatBM m n f g) rfl (fun op hop => ?_)
    fun g _ _ _ _ hn hf hM _ => formatBM_accepts g (hM rfl) (and_whole hn) hf
  fin_cases hop <;> exact ⟨rfl, _, fun _ _ _ => rfl⟩

theorem decodes_formatB : ∀ r ∈ rowsOf 0xFFFFFFFE false false
    [0x10, 0x33, 0x72], Decodes r := by
  refine decodes_rowsOf (a := 0xFF) (b := 0xFF) (c := 0xFE) (fun g m n f => formatB m n f g) rfl (fun op hop => ?_)
    fun g _ _ _ hm hn hf _ _ => formatB_accepts g (and_whole hm) (and_whole hn) hf
  fin_cases hop <;> exact ⟨rfl, _, fun _ _ _ => rfl⟩

theorem decodes_formatCM : ∀ r ∈ rowsOf 0xFF0000FF true true
    [0x32], Decodes r := by
  refine decodes_rowsOf (a := 0x00) (b := 0x00) (c := 0xFF) (fun g m n f => formatCM m n f g) rfl (fun op hop => ?_)
    fun g _ _ _ _ _ hf hM hN => formatCM_accepts g (hM rfl) (hN rfl) (and_whole hf)
  fin_cases hop <;> exact ⟨rfl, _, fun _ _ _ => rfl⟩

theorem decodes_formatC : ∀ r ∈ rowsOf 0xFFFF00FF false true
    [0x11, 0x15, 0x34, 0x44], Decodes r := by
  refine decodes_rowsOf (a := 0xFF) (b := 0x00) (c := 0xFF) (fun g m n f => formatC m n f g) rfl (fun op hop => ?_)
    fun g _ _ _ hm _ hf _ hN => formatC_accepts g (and_whole hm) (hN rfl) (and_whole hf)
  fin_cases hop <;> exact ⟨rfl, _, fun _ _ _ => rfl⟩

theorem decodes_formatDP : ∀ r ∈ rowsOf 0xFFFFFFCB false false
    [0x60, 0x62, 0x64, 0x65, 0x67], Decodes r := by
  refine decodes_rowsOf (a := 0xFF) (b := 0xFF) (c := 0xCB) (fun g m n f => formatDP m n f g) rfl (fun op hop => ?_)
    fun g _ _ _ hm hn hf _ _ => formatDP_accepts g (and_whole hm) (and_whole hn) hf
  fin_cases hop <;> exact ⟨rfl, _, fun _ _ _ => rfl⟩

theorem decodes_formatD : ∀ r ∈ rowsOf 0xFFFFFFFB false false
    [0x50, 0x61, 0x63, 0x66, 0x68, 0x69, 0x76, 0x77], Decodes r := by
  refine decodes_rowsOf (a := 0xFF) (b := 0xFF) (c := 0xFB) (fun g m n f => formatD m n f g) rfl (fun op hop => ?_)
    fun g _ _ _ hm hn hf _ _ => formatD_accepts g (and_whole hm) (and_whole hn) hf
  fin_cases hop <;> exact ⟨rfl, _, fun _ _ _ => rfl⟩

theorem decodes_formatP : ∀ r ∈ rowsOf 0xFFFFFFCF false false
    [0x74], Decodes r := by
  refine decodes_rowsOf (a := 0xFF) (b := 0xFF) (c := 0xCF) (fun g m n f => formatP m n f g) rfl (fun op hop => ?_)
    fun g _ _ _ hm hn hf _ _ => formatP_accepts g (and_whole hm) (and_whole hn) hf
  fin_cases hop <;> exact ⟨rfl, _, fun _ _ _ => rfl⟩

/-- Every row of the opcode table decodes its words. -/
theorem decodes_of_mem_rows : ∀ r ∈ rows, Decodes r := by
  simp only [rows, List.forall_mem_append]
  exact ⟨⟨⟨⟨⟨⟨⟨⟨decodes_formatS, decodes_formatM⟩, decodes_formatBM⟩, decodes_formatB⟩, decodes_formatCM⟩,
    decodes_formatC⟩, decodes_formatDP⟩, decodes_formatD⟩, decodes_formatP⟩

theorem decodes_iff_legalWord (w : Word) : (∃ i, decode w = .ok i) ↔ LegalWord w := by
  constructor
  · rintro ⟨i, h⟩
    obtain ⟨hw, rfl⟩ := encodeDecode w i h
    exact legalWord_encode hw
  · rintro ⟨r, hr, hw, hM, hN⟩
    exact decodes_of_mem_rows r hr w hw hM hN

/-! ## Writing `CMD` (rules R12, R88, R323) -/

/-- The host's next action is a write of `CMD`: the step issues the word. -/
theorem step_write_cmd {s : State} {w : Word} {rest : List HostAction} (h : s.pending = .write 0 w :: rest) :
    step s = issueCommand w { s with pending := rest } := by
  simp only [step, nextAction, h]
  rfl

theorem issueCommand_ok {s : State} {w : Word} {i : Instr} (h : decode w = .ok i) (hs : Quiet s ∨ w = sresetWord) :
    issueCommand w s = exec i { s with cmd := w } := by
  have accepted : ¬(s.status.fault && w != sresetWord) = true := by
    rcases hs with hq | rfl
    · simp [hq]
    · simp
  rw [issueCommand, if_neg accepted, h]

theorem issueCommand_error {s : State} {w : Word} {e : DecodeError} (h : decode w = .error e) (hq : Quiet s) :
    issueCommand w s = .next { s with cmd := w, status := { s.status with fault := true, code := 3 } } := by
  rw [issueCommand, if_neg (by simp [hq]), h]
  simp only [takeFault_illegal, statusRaised_quiet (st := s.status) hq]
  rfl

theorem issueCommand_ignored {s : State} {w : Word} (hf : s.status.fault = true) (hw : w ≠ sresetWord) :
    issueCommand w s = .next s := by
  rw [issueCommand, if_pos (by simp [hf, hw])]

/-- Settles O3: the table's rows decode their words, every command's word is in a row, and the fault of any other word
touches `STATUS` alone. -/
theorem illegalWords : Obligations.IllegalWords := by
  refine ⟨decodes_iff_legalWord, fun s w rest hq hp illegal => ⟨w, ?_⟩⟩
  rw [step_write_cmd hp]
  cases h : decode w with
  | ok i => exact absurd ((decodes_iff_legalWord w).1 ⟨i, h⟩) illegal
  | error e => exact issueCommand_error h hq

/-- Settles O4: the decoder computes each of the ten words. -/
theorem decodeWords : Obligations.DecodeWords := ⟨rfl, rfl, rfl, rfl, rfl, rfl, rfl, rfl, rfl, rfl⟩

/-- Settles O5: a write at the front of `pending` is issued, and an accepted word that decodes is executed. -/
theorem stepRunsCommand : Obligations.StepRunsCommand := by
  refine ⟨fun s w i rest hp h hs => (step_write_cmd hp).trans (issueCommand_ok h hs), fun s nbits w i h hq => ?_⟩
  have hd : decode (tableWord nbits w) = .ok i := by
    unfold decodeTableWord at h
    cases hd : decode (tableWord nbits w) with
    | ok j => rw [hd] at h; exact congrArg _ (Option.some.inj h)
    | error e => rw [hd] at h; cases h
  exact (step_write_cmd (s := placeCommand (tableWord nbits w) s) rfl).trans (issueCommand_ok hd (.inl hq))

end Sys2Proof.Proofs.Words
end

section
/-! The host register window (rules R13 to R28, R55, R58): where each place lies, what a write keeps and leaves, what the
host reads; and what the host can do while a fault is pending and with the resets (rules R311, R324, R350). -/

namespace Sys2Proof.Proofs.Window

open Sys2Proof Sys2Proof.Machine Sys2Proof.Safety Sys2Proof.Proofs.Words

variable {s : State} {rest : List HostAction} {off : Nat} {v : Word}

/-! ## The places of the window (rule R55) -/

/-- The byte offset of a place; any value for `unlisted`, which has many. -/
def offsetOf : HostReg → Nat
  | .cmd => 0x00 | .arg => 0x04 | .res => 0x08 | .status => 0x0C
  | .cfgH => 0x10 | .cfgW => 0x14 | .cfgBs => 0x18 | .cfgQp => 0x1C | .predAvail => 0x20 | .bucket => 0x24
  | .bwPtr => 0x30 | .bwAcc => 0x34 | .bwCnt => 0x38
  | .brPtr => 0x40 | .brEnd => 0x44 | .brBuf => 0x48 | .brCnt => 0x4C
  | .aeLow => 0x50 | .aeRng => 0x54 | .aeBuf => 0x58 | .aeRun => 0x5C | .aeDebt => 0x60
  | .adPat => 0x70 | .adRng => 0x74 | .adNeed => 0x78
  | .smAddr => 0x80 | .smData => 0x84
  | .pm m => 0x100 + 4 * m.val
  | .topAt i => 0x1000 + 4 * i | .leftAt i => 0x1400 + 4 * i
  | .origAt i => 0x10000 + 4 * i | .predbAt i => 0x14000 + 4 * i | .resdAt i => 0x18000 + 4 * i
  | .qidxAt i => 0x1C000 + 4 * i | .scanAt i => 0x20000 + 4 * i | .recbAt i => 0x24000 + 4 * i
  | .unlisted => 0

/-- The bits a host write keeps at a readable and writable place. -/
def keptBits : HostReg → Option Word
  | .arg | .bwPtr | .brPtr | .brEnd | .smAddr | .resdAt _ | .qidxAt _ | .scanAt _ => some 0xFFFFFFFF
  | .cfgH | .cfgW | .cfgBs => some 0x0000FFFF
  | .cfgQp | .topAt _ | .leftAt _ | .origAt _ | .predbAt _ | .recbAt _ => some 0x000000FF
  | .predAvail => some 0x00000003
  | .pm _ => some 0x0000007F
  | .cmd | .res | .status | .bucket | .bwAcc | .bwCnt | .brBuf | .brCnt | .aeLow | .aeRng | .aeBuf | .aeRun | .aeDebt
  | .adPat | .adRng | .adNeed | .smData | .unlisted => none

/-- Which window an offset lies in, and the place there. -/
inductive Lies (off : Nat) : HostReg → Prop
  | low : off < 0x100 → Lies off (locateLow off)
  | pm (h : off < 0x13C) : 0x100 ≤ off → Lies off (.pm ⟨(off - 0x100) / 4, by omega⟩)
  | gap : 0x13C ≤ off ∧ off < 0x1000 ∨ 0x1100 ≤ off ∧ off < 0x1400 ∨ 0x1500 ≤ off ∧ off < 0x10000 → Lies off .unlisted
  | top : 0x1000 ≤ off → off < 0x1100 → Lies off (.topAt ((off - 0x1000) / 4))
  | left : 0x1400 ≤ off → off < 0x1500 → Lies off (.leftAt ((off - 0x1400) / 4))
  | orig : 0x10000 ≤ off → off < 0x14000 → Lies off (.origAt ((off - 0x10000) / 4))
  | predb : 0x14000 ≤ off → off < 0x18000 → Lies off (.predbAt ((off - 0x14000) / 4))
  | resd : 0x18000 ≤ off → off < 0x1C000 → Lies off (.resdAt ((off - 0x18000) / 4))
  | qidx : 0x1C000 ≤ off → off < 0x20000 → Lies off (.qidxAt ((off - 0x1C000) / 4))
  | scan : 0x20000 ≤ off → off < 0x24000 → Lies off (.scanAt ((off - 0x20000) / 4))
  | recb : 0x24000 ≤ off → Lies off (.recbAt ((off - 0x24000) / 4))

theorem lies_ite {off : Nat} {c : Prop} [Decidable c] {x y : HostReg} (hx : c → Lies off x) (hy : ¬c → Lies off y) :
    Lies off (if c then x else y) := by
  by_cases h : c
  · rw [if_pos h]; exact hx h
  · rw [if_neg h]; exact hy h

theorem locate_lies (off : Nat) : Lies off (locate off) := by
  have nmax : Config.nmax = 64 := rfl
  unfold locate
  rw [nmax]
  refine lies_ite .low fun h1 => ?_
  by_cases h2 : off < 0x100 + 4 * 15
  · rw [dif_pos h2]
    exact .pm h2 (by omega)
  rw [dif_neg h2]
  refine lies_ite (fun h3 => .gap (by omega)) fun h3 => ?_
  refine lies_ite (fun h4 => .top (by omega) h4) fun h4 => ?_
  refine lies_ite (fun h5 => .gap (by omega)) fun h5 => ?_
  refine lies_ite (fun h6 => .left (by omega) h6) fun h6 => ?_
  refine lies_ite (fun h7 => .gap (by omega)) fun h7 => ?_
  refine lies_ite (fun h8 => .orig (by omega) h8) fun h8 => ?_
  refine lies_ite (fun h9 => .predb (by omega) h9) fun h9 => ?_
  refine lies_ite (fun h10 => .resd (by omega) h10) fun h10 => ?_
  refine lies_ite (fun h11 => .qidx (by omega) h11) fun h11 => ?_
  exact lies_ite (fun h12 => .scan (by omega) h12) fun h12 => .recb (by omega)

theorem offsetOf_locateLow : ∀ off < 0x100, off % 4 = 0 → locateLow off ≠ .unlisted → offsetOf (locateLow off) = off := by
  decide +kernel

theorem writableBits_low : ∀ off < 0x100, off % 4 = 0 → writableBits off = keptBits (locateLow off) := by
  decide +kernel

/-- A listed place lies at the offset that leads to it. -/
theorem offsetOf_locate (h4 : off % 4 = 0) (hl : locate off ≠ .unlisted) : offsetOf (locate off) = off := by
  have lies := locate_lies off
  revert lies hl
  generalize locate off = r
  intro hl lies
  cases lies with
  | low h => exact offsetOf_locateLow off h h4 hl
  | gap => exact absurd rfl hl
  | _ => simp only [offsetOf]; omega

theorem locate_of_offsetOf {r : HostReg} (h4 : off % 4 = 0) (hr : r ≠ .unlisted) (h : locate off = r) :
    off = offsetOf r := h ▸ (offsetOf_locate h4 (h ▸ hr)).symm

theorem locate_eq_cmd_iff (h4 : off % 4 = 0) : locate off = .cmd ↔ off = 0 :=
  ⟨locate_of_offsetOf h4 nofun, fun h => h ▸ rfl⟩

theorem locate_eq_status_iff (h4 : off % 4 = 0) : locate off = .status ↔ off = 0x0C :=
  ⟨locate_of_offsetOf h4 nofun, fun h => h ▸ rfl⟩

theorem locate_eq_smAddr_iff (h4 : off % 4 = 0) : locate off = .smAddr ↔ off = 0x80 :=
  ⟨locate_of_offsetOf h4 nofun, fun h => h ▸ rfl⟩

theorem locate_eq_smData_iff (h4 : off % 4 = 0) : locate off = .smData ↔ off = 0x84 :=
  ⟨locate_of_offsetOf h4 nofun, fun h => h ▸ rfl⟩

/-- The statement's table of writable bits is the table of the places. -/
theorem writableBits_eq (h4 : off % 4 = 0) (hw : off < 0x28000) : writableBits off = keptBits (locate off) := by
  have lies := locate_lies off
  revert lies
  generalize locate off = r
  intro lies
  cases lies with
  | low h => exact writableBits_low off h h4
  | pm =>
    rw [writableBits]
    iterate 5 rw [if_neg (by omega)]
    rw [if_pos (by omega)]; rfl
  | top =>
    rw [writableBits]
    iterate 6 rw [if_neg (by omega)]
    rw [if_pos (by omega)]; rfl
  | left =>
    rw [writableBits]
    iterate 6 rw [if_neg (by omega)]
    rw [if_pos (by omega)]; rfl
  | orig =>
    rw [writableBits]
    iterate 7 rw [if_neg (by omega)]
    rw [if_pos (by omega)]; rfl
  | predb =>
    rw [writableBits]
    iterate 7 rw [if_neg (by omega)]
    rw [if_pos (by omega)]; rfl
  | resd =>
    rw [writableBits]
    iterate 8 rw [if_neg (by omega)]
    rw [if_pos (by omega)]; rfl
  | qidx =>
    rw [writableBits]
    iterate 8 rw [if_neg (by omega)]
    rw [if_pos (by omega)]; rfl
  | scan =>
    rw [writableBits]
    iterate 8 rw [if_neg (by omega)]
    rw [if_pos (by omega)]; rfl
  | recb =>
    rw [writableBits]
    iterate 9 rw [if_neg (by omega)]
    rw [if_pos (by omega)]; rfl
  | gap =>
    rw [writableBits]
    iterate 10 rw [if_neg (by omega)]
    rfl

theorem aligned_of_writableBits {mask : Word} (h : writableBits off = some mask) : off % 4 = 0 := by
  by_contra h4
  simp [writableBits, h4] at h

theorem inside_of_writableBits {mask : Word} (h : writableBits off = some mask) : off < 0x28000 := by
  have h4 := aligned_of_writableBits h
  by_contra hw
  rw [writableBits] at h
  iterate 10 rw [if_neg (by omega)] at h
  cases h

theorem offsetOk_of (h4 : off % 4 = 0) (hw : off < 0x28000) : offsetOk off = true := by
  simp [offsetOk, windowBytes, h4, hw]

/-! ## The bits of a place (rules R13, R14, R16) -/

theorem setWidth_byte (v : Word) : byteWord (v.setWidth 8) = v &&& 0xFF := by
  apply BitVec.eq_of_toNat_eq
  have low : v.toNat &&& 255 = v.toNat % 256 := Nat.and_two_pow_sub_one_eq_mod v.toNat 8
  simp only [byteWord, BitVec.toNat_setWidth, BitVec.toNat_and]
  change _ = v.toNat &&& 255
  omega

theorem setWidth_half (v : Word) : (v.setWidth 16).setWidth 32 = v &&& 0xFFFF := by
  apply BitVec.eq_of_toNat_eq
  have low : v.toNat &&& 65535 = v.toNat % 65536 := Nat.and_two_pow_sub_one_eq_mod v.toNat 16
  simp only [BitVec.toNat_setWidth, BitVec.toNat_and]
  change _ = v.toNat &&& 65535
  omega

theorem bitNat_getLsbD {w : Nat} (v : BitVec w) (k : Nat) : bitNat (v.getLsbD k) = v.toNat / 2 ^ k % 2 := by
  rw [BitVec.getLsbD, Nat.testBit_eq_decide_div_mod_eq]
  by_cases h : v.toNat / 2 ^ k % 2 = 1
  · simp [bitNat, h]
  · simp [bitNat, h]
    omega

theorem predAvail_word (v : Word) : BitVec.ofNat 32 (bitNat (v.getLsbD 0) + 2 * bitNat (v.getLsbD 1)) = v &&& 0x3 := by
  apply BitVec.eq_of_toNat_eq
  have low : v.toNat &&& 3 = v.toNat % 4 := Nat.and_two_pow_sub_one_eq_mod v.toNat 2
  simp only [bitNat_getLsbD, BitVec.toNat_ofNat, BitVec.toNat_and]
  change _ = v.toNat &&& 3
  omega

theorem modelWord_modelOfWord (v : Word) : modelWord (modelOfWord v) = v &&& 0x7F := by
  apply BitVec.eq_of_toNat_eq
  have low : v.toNat &&& 127 = v.toNat % 128 := Nat.and_two_pow_sub_one_eq_mod v.toNat 7
  simp only [modelWord, modelOfWord, bitNat_getLsbD, BitVec.toNat_ofNat, BitVec.toNat_and, BitVec.extractLsb'_toNat,
    Nat.shiftRight_eq_div_pow]
  change _ = v.toNat &&& 127
  omega

/-- `STATUS` as a word has its fields in their bits and zeros elsewhere (rule R13). -/
theorem statusWord_bits (st : Status) :
    (statusWord st).getLsbD 0 = st.fault ∧ (statusWord st).extractLsb' 4 4 = st.code ∧
      (statusWord st).getLsbD 8 = st.encOpen ∧ (statusWord st).getLsbD 9 = st.decOpen ∧
      ∀ k, k ∈ [1, 2, 3] ∨ 10 ≤ k → (statusWord st).getLsbD k = false := by
  obtain ⟨f, c, e, d⟩ := st
  have table : ∀ (f : Bool) (c : BitVec 4) (e d : Bool),
      (statusWord ⟨f, c, e, d⟩).getLsbD 0 = f ∧ (statusWord ⟨f, c, e, d⟩).extractLsb' 4 4 = c ∧
        (statusWord ⟨f, c, e, d⟩).getLsbD 8 = e ∧ (statusWord ⟨f, c, e, d⟩).getLsbD 9 = d ∧
        ∀ k < 32, k ∈ [1, 2, 3] ∨ 10 ≤ k → (statusWord ⟨f, c, e, d⟩).getLsbD k = false := by decide +kernel
  obtain ⟨hf, hc, he, hd, zeros⟩ := table f c e d
  refine ⟨hf, hc, he, hd, fun k hk => ?_⟩
  by_cases h32 : k < 32
  · exact zeros k h32 hk
  · exact BitVec.getLsbD_of_ge _ _ (by omega)

/-- A model as a word has its state in bits 6:1, its `mps` in bit 0 and zeros elsewhere (rule R16). -/
theorem modelWord_bits (x : Model) :
    (modelWord x).extractLsb' 1 6 = x.state ∧ (modelWord x).getLsbD 0 = x.mps ∧
      ∀ k, 7 ≤ k → (modelWord x).getLsbD k = false := by
  obtain ⟨st, b⟩ := x
  have table : ∀ (st : BitVec 6) (b : Bool),
      (modelWord ⟨st, b⟩).extractLsb' 1 6 = st ∧ (modelWord ⟨st, b⟩).getLsbD 0 = b ∧
        ∀ k < 32, 7 ≤ k → (modelWord ⟨st, b⟩).getLsbD k = false := by decide +kernel
  obtain ⟨hs, hb, zeros⟩ := table st b
  refine ⟨hs, hb, fun k hk => ?_⟩
  by_cases h32 : k < 32
  · exact zeros k h32 hk
  · exact BitVec.getLsbD_of_ge _ _ (by omega)

/-- `PRED_AVAIL` as a word (rule R14). -/
theorem availWord_bits (t l : Bool) :
    (BitVec.ofNat 32 (bitNat t + 2 * bitNat l)).getLsbD 0 = t ∧ (BitVec.ofNat 32 (bitNat t + 2 * bitNat l)).getLsbD 1 = l ∧
      ∀ k, 2 ≤ k → (BitVec.ofNat 32 (bitNat t + 2 * bitNat l)).getLsbD k = false := by
  have table : ∀ t l : Bool,
      (BitVec.ofNat 32 (bitNat t + 2 * bitNat l)).getLsbD 0 = t ∧
        (BitVec.ofNat 32 (bitNat t + 2 * bitNat l)).getLsbD 1 = l ∧
        ∀ k < 32, 2 ≤ k → (BitVec.ofNat 32 (bitNat t + 2 * bitNat l)).getLsbD k = false := by decide +kernel
  obtain ⟨ht, hl, zeros⟩ := table t l
  refine ⟨ht, hl, fun k hk => ?_⟩
  by_cases h32 : k < 32
  · exact zeros k h32 hk
  · exact BitVec.getLsbD_of_ge _ _ (by omega)

/-! ## Reading after writing, place by place -/

theorem readCell_write_same {α : Type} (widen : α → Word) (r : Refusal) (m : Cells α) (i : Nat) (x : α) :
    readCell widen r (cellsWrite m i x) i = .ok (widen x) := by simp [readCell]

theorem readCell_write_other {α : Type} (widen : α → Word) (r : Refusal) (m : Cells α) {i j : Nat} (x : α) (h : j ≠ i) :
    readCell widen r (cellsWrite m i x) j = readCell widen r m j := by simp [readCell, cellsRead_write_other m x h]

/-- A writable place reads back the bits it keeps. -/
theorem readReg_writeReg_same {p : Config.Params} {r : HostReg} {mask : Word} (h : keptBits r = some mask) :
    readReg p (writeReg p s v r) r = .ok (v &&& mask) := by
  have whole : v &&& 0xFFFFFFFF = v := BitVec.and_allOnes
  cases r <;> simp only [keptBits, reduceCtorEq, Option.some.injEq] at h <;> subst h <;>
    simp only [readReg, writeReg, readCell_write_same, setWidth_byte, setWidth_half, predAvail_word, whole, id_eq,
      modelAt_withModel_same, modelWord_modelOfWord]
  exact congrArg _ (setWidth_byte v)

/-- A write of a place that keeps no bits changes nothing, `SM_DATA` apart. -/
theorem writeReg_of_none (p : Config.Params) {r : HostReg} (h : keptBits r = none) (hd : r ≠ .smData) :
    writeReg p s v r = s := by
  cases r <;> first | rfl | exact absurd rfl hd | cases h

theorem readReg_withModel_other {p : Config.Params} {m : Fin 15} {x : Model} {r : HostReg} (h : r ≠ .pm m) :
    readReg p (withModel s m x) r = readReg p s r := by
  cases r with
  | pm k => simp only [readReg, modelAt_withModel_other s m k x (fun e => h (congrArg _ e))]
  | _ => rfl

/-- A write of one place leaves the reading of every other, but that `SM_ADDR` selects what `SM_DATA` reads. -/
theorem readReg_writeReg_other {p : Config.Params} {r r' : HostReg} (h : r' ≠ r) (hs : ¬(r = .smAddr ∧ r' = .smData)) :
    readReg p (writeReg p s v r) r' = readReg p s r' := by
  cases r with
  | pm m => exact readReg_withModel_other h
  | smData =>
    simp only [writeReg]
    split
    · cases r' <;> first | rfl | exact absurd rfl h
    · rfl
  | topAt i | leftAt i | origAt i | predbAt i | resdAt i | qidxAt i | scanAt i | recbAt i =>
    cases r' <;> first
      | rfl
      | exact readCell_write_other _ _ _ _ fun e => h (congrArg _ e)
  | smAddr => cases r' <;> first | rfl | exact absurd rfl h | exact absurd ⟨rfl, rfl⟩ hs
  | _ => cases r' <;> first | rfl | exact absurd rfl h

theorem writeReg_status (p : Config.Params) (s : State) (v : Word) (r : HostReg) : (writeReg p s v r).status = s.status := by
  cases r <;> first | rfl | (simp only [writeReg]; split <;> rfl)

theorem writeReg_pending (p : Config.Params) (s : State) (v : Word) (r : HostReg) :
    (writeReg p s v r).pending = s.pending := by
  cases r <;> first | rfl | (simp only [writeReg]; split <;> rfl)

/-! ## Host actions (rules R10, R27, R54, R60) -/

theorem step_write (h : s.pending = .write off v :: rest) : step s = hostWrite off v { s with pending := rest } := by
  simp only [step, nextAction, h]
  rfl

theorem step_read (h : s.pending = .read off :: rest) : step s = hostRead off { s with pending := rest } := by
  simp only [step, nextAction, h]
  rfl

theorem step_reset (h : s.pending = .reset :: rest) : step s = .next (resetInput { s with pending := rest }) := by
  simp only [step, nextAction, h]
  rfl

/-- A register write while no fault is pending. -/
theorem hostWrite_quiet (hq : Quiet s) (h4 : off % 4 = 0) (hw : off < 0x28000) (h0 : off ≠ 0) :
    hostWrite off v s = .next (writeReg Config.params s v (locate off)) := by
  have not_cmd : locate off ≠ .cmd := fun h => h0 ((locate_eq_cmd_iff h4).1 h)
  rw [hostWrite, offsetOk_of h4 hw]
  split
  next h => cases h
  next =>
    split
    next h => exact absurd h not_cmd
    next => rw [if_neg (by simp [hq])]

/-- A register write while a fault is pending. -/
theorem hostWrite_fault (hf : s.status.fault = true) (h4 : off % 4 = 0) (hw : off < 0x28000)
    (hv : off = 0 → v ≠ sresetWord) : hostWrite off v s = .next s := by
  rw [hostWrite, offsetOk_of h4 hw]
  split
  next h => cases h
  next =>
    split
    next h => exact issueCommand_ignored hf (hv ((locate_eq_cmd_iff h4).1 h))
    next => rfl

/-- A read of a place that has a value: every place while no fault is pending, and `STATUS` always. -/
theorem hostRead_of_ok (h4 : off % 4 = 0) (hw : off < 0x28000) (hs : Quiet s ∨ off = 0x0C)
    (h : readReg Config.params s (locate off) = .ok v) : hostRead off s = .next { s with hostOut := v } := by
  have plain : ¬(s.status.fault && locate off != .status) = true := by
    rcases hs with hq | h0C
    · simp [hq]
    · simp [(locate_eq_status_iff h4).2 h0C]
  rw [hostRead, offsetOk_of h4 hw, if_neg (by simp), if_neg plain, h]

/-- A read of another place than `STATUS` while a fault is pending. -/
theorem hostRead_fault (hf : s.status.fault = true) (h4 : off % 4 = 0) (hw : off < 0x28000) (h0C : off ≠ 0x0C) :
    hostRead off s = .next { s with hostOut := Config.freeWord s.draws .hostRead, draws := s.draws + 1 } := by
  have lost : (s.status.fault && locate off != .status) = true := by
    have : locate off ≠ .status := fun h => h0C ((locate_eq_status_iff h4).1 h)
    simp [hf, this]
  rw [hostRead, offsetOk_of h4 hw, if_neg (by simp), if_pos lost]

theorem step_read_of_ok (hp : s.pending = .read off :: rest) (h4 : off % 4 = 0) (hw : off < 0x28000)
    (hs : Quiet s ∨ off = 0x0C) (h : readReg Config.params s (locate off) = .ok v) :
    step s = .next { s with pending := rest, hostOut := v } := by
  have same : readReg Config.params { s with pending := rest } (locate off) = readReg Config.params s (locate off) := by
    cases locate off <;> rfl
  exact (step_read hp).trans (hostRead_of_ok (s := { s with pending := rest }) h4 hw hs (same.trans h))

/-! ## The statements about the window -/

/-- Settles O8: the places keep their bits; `SM_DATA` writes the byte at `SM_ADDR` or, beyond STREAM, nothing. -/
theorem hostWriteRead : Obligations.HostWriteRead := by
  intro s off v rest hq hp
  refine ⟨fun mask hm => ?_, fun h84 hlt => ?_, fun h84 hge => ?_⟩
  · have h4 := aligned_of_writableBits hm
    have hw := inside_of_writableBits hm
    have kept : keptBits (locate off) = some mask := (writableBits_eq h4 hw).symm.trans hm
    have h0 : off ≠ 0 := by
      rintro rfl
      cases kept
    let s1 : State := { s with pending := .read off :: rest }
    have written : step s = .next (writeReg Config.params s1 v (locate off)) :=
      (step_write hp).trans (hostWrite_quiet (s := s1) hq h4 hw h0)
    have quiet : Quiet (writeReg Config.params s1 v (locate off)) := (congrArg _ (writeReg_status _ _ _ _)).trans hq
    exact ⟨_, _, written,
      step_read_of_ok (writeReg_pending _ _ _ _) h4 hw (.inl quiet) (readReg_writeReg_same kept), rfl, rfl⟩
  · subst h84
    let s1 : State := { s with pending := .read 0x84 :: rest }
    let t : State := { s1 with stream := cellsWrite s.stream s.smAddr.toNat (v.setWidth 8) }
    have written : step s = .next t :=
      (step_write hp).trans ((hostWrite_quiet (s := s1) hq rfl (by decide) (by decide)).trans
        (congrArg _ (if_pos (show s1.smAddr.toNat < _ from hlt))))
    have read : readReg Config.params t (locate 0x84) = .ok (v &&& 0xFF) := by
      rw [show locate 0x84 = .smData from rfl, readReg, if_pos (show t.smAddr.toNat < _ from hlt)]
      exact (readCell_write_same _ _ _ _ _).trans (congrArg _ (setWidth_byte v))
    exact ⟨t, _, written, step_read_of_ok rfl rfl (by decide) (.inl hq) read, rfl, rfl, cellsRead_write_same _ _ _,
      fun a ha => cellsRead_write_other _ _ ha⟩
  · subst h84
    let s1 : State := { s with pending := .read 0x84 :: rest }
    refine ⟨(step_write hp).trans ((hostWrite_quiet (s := s1) hq rfl (by decide) (by decide)).trans
      (congrArg _ (if_neg (show ¬s1.smAddr.toNat < _ from Nat.not_lt.2 hge)))), ?_⟩
    exact step_read_of_ok (s := s1) rfl rfl (by decide) (.inl hq) (if_neg (Nat.not_lt.2 hge))

/-- The offsets of the places that the host may only read. -/
theorem locate_eq_unlisted (h4 : off % 4 = 0) (hn : keptBits (locate off) = none) (h0 : off ≠ 0) (h84 : off ≠ 0x84)
    (hr : off ∉ [0x08, 0x0C, 0x24, 0x34, 0x38, 0x48, 0x4C, 0x50, 0x54, 0x58, 0x5C, 0x60, 0x70, 0x74, 0x78]) :
    locate off = .unlisted := by
  by_contra hl
  have hoff := offsetOf_locate h4 hl
  revert hoff hn hl
  generalize locate off = r
  intro hn hl hoff
  cases r with
  | unlisted => exact hl rfl
  | cmd | res | status | bucket | bwAcc | bwCnt | brBuf | brCnt | aeLow | aeRng | aeBuf | aeRun | aeDebt | adPat | adRng
  | adNeed | smData =>
    subst hoff
    revert h0 h84 hr
    decide
  | _ => cases hn

/-- Settles O9: places are told apart by their offsets, and a write of one leaves the reading of the others. -/
theorem hostWriteFrame : Obligations.HostWriteFrame := by
  intro s off v hq h4 hw h0
  have written := hostWrite_quiet (v := v) hq h4 hw h0
  rw [writableBits_eq h4 hw, written]
  refine ⟨⟨_, rfl, (congrArg _ (writeReg_status _ _ _ _)).trans hq, fun off' h4' _ hne hsm => ?_⟩, fun h84 hn => ?_,
    fun h84 hn hr => ?_⟩
  · by_cases same : locate off' = locate off
    · have unlisted : locate off = .unlisted := by
        by_contra hl
        exact hne (by rw [← offsetOf_locate h4' (same ▸ hl), same, offsetOf_locate h4 hl])
      rw [same, unlisted]
      rfl
    · refine readReg_writeReg_other same fun ⟨ha, hd⟩ => hsm ?_
      exact ⟨(locate_eq_smAddr_iff h4).1 ha, (locate_eq_smData_iff h4').1 hd⟩
  · exact congrArg _ (writeReg_of_none _ hn fun h => h84 ((locate_eq_smData_iff h4).1 h))
  · exact hostRead_of_ok h4 hw (.inl hq) (by rw [locate_eq_unlisted h4 hn h0 h84 hr]; rfl)

/-- Settles O6: `exec` ignores a command, and the host's accesses are the cases of `hostWrite` and `hostRead` under a
fault. -/
theorem faultedIgnores : Obligations.FaultedIgnores := by
  intro s rest off v hf h4 hw
  exact ⟨fun i hi => System.exec_of_fault hi hf,
    fun hp hv => (step_write hp).trans (hostWrite_fault (s := { s with pending := rest }) hf h4 hw hv),
    fun hp h0C => (step_read hp).trans (hostRead_fault (s := { s with pending := rest }) hf h4 hw h0C)⟩

/-! ## Where the models and the buffers lie -/

theorem locate_model (m : Fin 15) : locate (0x100 + 4 * m.val) = .pm m := by
  revert m
  decide +kernel

/-- Beyond the models the window is a chain of comparisons of the offset. -/
theorem locate_beyond_models (h : 0x13C ≤ off) :
    locate off =
      if off < 0x1000 then .unlisted
      else if off < 0x1000 + 4 * Config.nmax then .topAt ((off - 0x1000) / 4)
      else if off < 0x1400 then .unlisted
      else if off < 0x1400 + 4 * Config.nmax then .leftAt ((off - 0x1400) / 4)
      else if off < 0x10000 then .unlisted
      else if off < 0x14000 then .origAt ((off - 0x10000) / 4)
      else if off < 0x18000 then .predbAt ((off - 0x14000) / 4)
      else if off < 0x1C000 then .resdAt ((off - 0x18000) / 4)
      else if off < 0x20000 then .qidxAt ((off - 0x1C000) / 4)
      else if off < 0x24000 then .scanAt ((off - 0x20000) / 4)
      else .recbAt ((off - 0x24000) / 4) := by
  rw [locate, if_neg (by omega), dif_neg (by omega)]

section buffers

variable {i : Nat}

theorem locate_top (h : i < 64) : locate (0x1000 + 4 * i) = .topAt i := by
  have nmax : Config.nmax = 64 := rfl
  rw [locate_beyond_models (by omega)]
  iterate 1 rw [if_neg (by omega)]
  rw [if_pos (by omega)]
  exact congrArg _ (by omega)

theorem locate_left (h : i < 64) : locate (0x1400 + 4 * i) = .leftAt i := by
  have nmax : Config.nmax = 64 := rfl
  rw [locate_beyond_models (by omega)]
  iterate 3 rw [if_neg (by omega)]
  rw [if_pos (by omega)]
  exact congrArg _ (by omega)

theorem locate_orig (h : i < 4096) : locate (0x10000 + 4 * i) = .origAt i := by
  have nmax : Config.nmax = 64 := rfl
  rw [locate_beyond_models (by omega)]
  iterate 5 rw [if_neg (by omega)]
  rw [if_pos (by omega)]
  exact congrArg _ (by omega)

theorem locate_predb (h : i < 4096) : locate (0x14000 + 4 * i) = .predbAt i := by
  have nmax : Config.nmax = 64 := rfl
  rw [locate_beyond_models (by omega)]
  iterate 6 rw [if_neg (by omega)]
  rw [if_pos (by omega)]
  exact congrArg _ (by omega)

theorem locate_resd (h : i < 4096) : locate (0x18000 + 4 * i) = .resdAt i := by
  have nmax : Config.nmax = 64 := rfl
  rw [locate_beyond_models (by omega)]
  iterate 7 rw [if_neg (by omega)]
  rw [if_pos (by omega)]
  exact congrArg _ (by omega)

theorem locate_qidx (h : i < 4096) : locate (0x1C000 + 4 * i) = .qidxAt i := by
  have nmax : Config.nmax = 64 := rfl
  rw [locate_beyond_models (by omega)]
  iterate 8 rw [if_neg (by omega)]
  rw [if_pos (by omega)]
  exact congrArg _ (by omega)

theorem locate_scan (h : i < 4096) : locate (0x20000 + 4 * i) = .scanAt i := by
  have nmax : Config.nmax = 64 := rfl
  rw [locate_beyond_models (by omega)]
  iterate 9 rw [if_neg (by omega)]
  rw [if_pos (by omega)]
  exact congrArg _ (by omega)

theorem locate_recb (h : i < 4096) : locate (0x24000 + 4 * i) = .recbAt i := by
  have nmax : Config.nmax = 64 := rfl
  rw [locate_beyond_models (by omega)]
  iterate 10 rw [if_neg (by omega)]
  exact congrArg _ (by omega)

end buffers

theorem readCell_of_some {α : Type} (widen : α → Word) (r : Refusal) {m : Cells α} {i : Nat} {x : α}
    (h : cellsRead m i = some x) : readCell widen r m i = .ok (widen x) := by simp [readCell, h]

/-- Settles O7: a read step answers the place's reading, and the words of `STATUS`, a model and `PRED_AVAIL` have their
fields in their bits. -/
theorem hostReads : Obligations.HostReads := by
  refine ⟨fun s rest hp => ?status, fun s rest m hq hp => ?model, fun s rest hq hp => ?avail, fun s rest hq hp => ?data,
    fun s rest i hq => ?buffers, fun s rest off v hq hp hv => ?plain⟩
  case status => exact ⟨_, step_read_of_ok hp rfl (by decide) (.inr rfl) rfl, statusWord_bits _⟩
  case model =>
    refine ⟨_, step_read_of_ok hp (by omega) (by omega) (.inl hq) ?_, modelWord_bits (modelAt s m)⟩
    rw [locate_model, readReg]
  case avail => exact ⟨_, step_read_of_ok hp rfl (by decide) (.inl hq) rfl, availWord_bits _ _⟩
  case data =>
    exact ⟨fun b hlt hb => step_read_of_ok hp rfl (by decide) (.inl hq)
        ((if_pos hlt).trans (readCell_of_some byteWord _ hb)),
      fun hge => step_read_of_ok hp rfl (by decide) (.inl hq) (if_neg (Nat.not_lt.2 hge))⟩
  case buffers =>
    simp only [List.forall_mem_cons, List.not_mem_nil, false_imp_iff, implies_true, and_true]
    refine ⟨⟨?_, ?_, ?_, ?_, ?_⟩, ?_, ?_, ?_⟩ <;> intro x hi hx hp <;>
      refine step_read_of_ok hp (by omega) (by omega) (.inl hq) ?_
    · exact locate_top hi ▸ readCell_of_some byteWord _ hx
    · exact locate_left hi ▸ readCell_of_some byteWord _ hx
    · exact locate_orig hi ▸ readCell_of_some byteWord _ hx
    · exact locate_predb hi ▸ readCell_of_some byteWord _ hx
    · exact locate_recb hi ▸ readCell_of_some byteWord _ hx
    · exact locate_resd hi ▸ readCell_of_some id _ hx
    · exact locate_qidx hi ▸ readCell_of_some id _ hx
    · exact locate_scan hi ▸ readCell_of_some id _ hx
  case plain =>
    have facts : off % 4 = 0 ∧ off < 0x28000 ∧ readReg Config.params s (locate off) = .ok v := by
      simp only [List.mem_cons, Prod.mk.injEq, List.not_mem_nil, or_false] at hv
      rcases hv with h | h | h | h | h | h | h | h | h | h | h | h | h | h | h | h | h | h | h | h | h | h | h | h <;>
        obtain ⟨rfl, rfl⟩ := h <;> exact ⟨rfl, by decide, rfl⟩
    exact step_read_of_ok hp facts.1 facts.2.1 (.inl hq) facts.2.2

/-! ## The resets (rules R311, R350) -/

/-- Settles O10: the reset input replaces every register, and the power-on state is written out. -/
theorem resetInput : Obligations.ResetInput :=
  ⟨fun _ _ hp => ⟨_, step_reset hp⟩, rfl, rfl, rfl, rfl, rfl, rfl, rfl, rfl, rfl, rfl, rfl⟩

/-- Settles O11: `SRESET` asks for no quiet state, and of the words written under a fault only its own is issued. -/
theorem sreset : Obligations.Sreset := by
  refine ⟨rfl, fun s => rfl, fun s rest w hf hp => ⟨fun hw => ?_, fun hw => ?_⟩⟩
  · exact (step_write_cmd hp).trans (issueCommand_ignored (s := { s with pending := rest }) hf hw)
  · subst hw
    exact ⟨_, (step_write_cmd hp).trans
      (issueCommand_ok (s := { s with pending := rest }) (i := .sreset) rfl (.inr rfl)), rfl⟩

end Sys2Proof.Proofs.Window
end

section
/-! The whole machine: all a step can do, and with it the invariants of memory and of the registers (rules R18 to R23, R50 to
R56); what a fault leaves (rule R324) and what a completed command leaves (rule R361). -/

namespace Sys2Proof.Proofs.Whole

open Sys2Proof Sys2Proof.Machine Sys2Proof.Safety Sys2Proof.Proofs.Window

variable {s t : State}

/-! ## All a step can do (rules R10, R60) -/

/-- What one host action makes of a state when it does not stop the machine. -/
inductive Acted (s : State) : State → Prop
  | nothing : Acted s s
  | command (i : Instr) (w : Word) {t : State} : exec i { s with cmd := w } = .next t → Acted s t
  | illegal (w : Word) : Acted s (takeFault .illegalCommand [] { s with cmd := w } { s with cmd := w })
  | write (r : HostReg) (v : Word) : InWindow r → Acted s (writeReg Config.params s v r)
  | read (v : Word) (n : Nat) : Acted s { s with hostOut := v, draws := n }
  | reset : Acted s (resetInput s)

theorem issueCommand_acted {w : Word} (e : issueCommand w s = .next t) : Acted s t := by
  unfold issueCommand at e
  split at e
  · cases e
    exact .nothing
  · split at e
    · exact .command _ w e
    · cases e
      exact .illegal w

theorem hostWrite_acted {off : Nat} {v : Word} (e : hostWrite off v s = .next t) : Acted s t := by
  unfold hostWrite at e
  split at e
  · cases e
  next inside =>
    have inWindow : InWindow (locate off) := by
      have h : offsetOk off = true := by simpa using inside
      simp only [offsetOk, Bool.and_eq_true, decide_eq_true_eq] at h
      exact locate_inWindow h.2
    split at e
    · exact issueCommand_acted e
    · split at e
      · cases e
        exact .nothing
      · cases e
        exact .write _ v inWindow

theorem hostRead_acted {off : Nat} (e : hostRead off s = .next t) : Acted s t := by
  unfold hostRead at e
  split at e
  · cases e
  · split at e
    · cases e
      exact .read _ _
    · split at e
      · cases e
        exact .read _ s.draws
      · cases e

/-- A step takes an action off the list and does it. -/
theorem step_acted (e : step s = .next t) : ∃ rest, Acted { s with pending := rest } t := by
  unfold step nextAction at e
  split at e
  next h =>
    cases e
    exact ⟨s.pending, .nothing⟩
  next a rest h =>
    refine ⟨rest, ?_⟩
    cases a with
    | write off v => exact hostWrite_acted e
    | read off => exact hostRead_acted e
    | reset =>
      cases e
      exact .reset

/-! ## The invariants -/

/-- Settles O57, over all a step can do. -/
theorem memoryStep : Obligations.MemoryStep := by
  intro s t hw hf e
  obtain ⟨rest, acted⟩ := step_acted e
  have h : Memory.wf { s with pending := rest } ∧ MemoryFits { s with pending := rest } := ⟨hw, { hf with }⟩
  have withCmd : ∀ w, Memory.wf { s with pending := rest, cmd := w } ∧ MemoryFits { s with pending := rest, cmd := w } :=
    fun w => ⟨hw, { hf with }⟩
  cases acted with
  | nothing => exact h
  | command i w e => exact exec_memory e (withCmd w)
  | illegal w => exact takeFault_memory _ _ (withCmd w) (withCmd w)
  | write r v inWindow => exact writeReg_memory inWindow h
  | read v n => exact ⟨hw, { hf with }⟩
  | reset => exact ⟨hw, { hf with }⟩

theorem machineInv_of_not_quiet (h : ¬Quiet t) : MachineInv t :=
  ⟨fun q => absurd q h, fun q => absurd q h, fun q => absurd q h, fun q => absurd q h⟩

/-- After a reset the counts are 0 and no session is open. -/
theorem resetRegisters_machineInv (s : State) (w : Word) : MachineInv { resetRegisters s with cmd := w } :=
  ⟨fun _ => Nat.zero_le 7, fun _ => Nat.zero_le 8, fun _ h => (Bool.false_ne_true h).elim,
    fun _ h => (Bool.false_ne_true h).elim⟩

/-- Every command keeps the machine's invariant. -/
theorem exec_machineInv {i : Instr} (e : exec i s = .next t) (h : MachineInv s) : MachineInv t := by
  by_cases hi : i = .sreset
  · subst hi
    rw [exec_sreset] at e
    cases e
    exact resetRegisters_machineInv s s.cmd
  by_cases hq : Quiet s
  · rcases exec_next e hi hq with run | ⟨k, u, -, rfl⟩
    · exact ⟨fun _ => command_writer _ i s () t run (h.writer hq), fun _ => command_reader _ i s () t run (h.reader hq),
        fun _ => command_encoder Config.params_ok i s () t run (h.encoder hq),
        fun _ => command_decoder Config.params_ok i s () t run (h.decoder hq)⟩
    · exact machineInv_of_not_quiet (takeFault_not_quiet _ _ _ _)
  · rw [System.exec_of_fault hi (by simpa using hq)] at e
    cases e
    exact h

/-- A register write reaches no count, no coder and no session bit. -/
theorem writeReg_machineInv (h : MachineInv s) (v : Word) (r : HostReg) : MachineInv (writeReg Config.params s v r) := by
  have coders : (writeReg Config.params s v r).bw.cnt = s.bw.cnt ∧ (writeReg Config.params s v r).br.cnt = s.br.cnt ∧
      (writeReg Config.params s v r).ae = s.ae ∧ (writeReg Config.params s v r).ad = s.ad := by
    cases r <;> first | exact ⟨rfl, rfl, rfl, rfl⟩ | (simp only [writeReg]; split <;> exact ⟨rfl, rfl, rfl, rfl⟩)
  obtain ⟨hbw, hbr, hae, had⟩ := coders
  have hst := writeReg_status Config.params s v r
  constructor
  · rw [Quiet, hst, hbw]; exact h.writer
  · rw [Quiet, hst, hbr]; exact h.reader
  · rw [Quiet, hst, hae]; exact h.encoder
  · rw [Quiet, hst, had]; exact h.decoder

/-- Settles O58, over all a step can do. -/
theorem machineStep : Obligations.MachineStep := by
  intro s t h e
  obtain ⟨rest, acted⟩ := step_acted e
  have hp : MachineInv { s with pending := rest } := { h with }
  cases acted with
  | nothing => exact hp
  | command i w e => exact exec_machineInv e { h with }
  | illegal w => exact machineInv_of_not_quiet (takeFault_not_quiet _ _ _ _)
  | write r v _ => exact writeReg_machineInv hp v r
  | read v n => exact { h with }
  | reset => exact resetRegisters_machineInv _ _

/-- Settles O59: nothing is listed, the counts are 0 and no session is open. -/
theorem invariantsAtReset : Obligations.InvariantsAtReset := by
  have nothing : RealFits none := nofun
  exact ⟨⟨cellsWf_nil, cellsWf_nil, cellsWf_nil, cellsWf_nil, cellsWf_nil, cellsWf_nil, cellsWf_nil, cellsWf_nil,
      cellsWf_nil⟩,
    ⟨below_nil _, below_nil _, below_nil _, below_nil _, below_nil _, below_nil _, below_nil _, below_nil _, below_nil _,
      nothing, nothing, nothing⟩,
    resetRegisters_machineInv State.reset 0⟩

/-! ## Taking a fault (rules R320, R324) -/

/-- A command that ends with a fault pending has taken it from where its pseudocode stopped. -/
theorem exec_faulted {i : Instr} (e : exec i s = .next t) (hq : Quiet s) (ht : ¬Quiet t) :
    ∃ k u, (commandOf Config.params i).2 s = .error (.fault k) u ∧ t = takeFault k (commandOf Config.params i).1 s u := by
  by_cases hi : i = .sreset
  · subst hi
    rw [exec_sreset] at e
    cases e
    exact absurd rfl ht
  rcases exec_next e hi hq with run | stopped
  · have kept := ((commandOf_frame Config.params i).of_ok_eq run).fault
    exact absurd (kept.trans hq) ht
  · exact stopped

/-- A command loses no buffer but those it writes. -/
theorem bufPart_mem_writesOf (p : Config.Params) (i : Instr) : ∀ b ∈ (commandOf p i).1, bufPart b ∈ writesOf i := by
  cases i <;> simp [commandOf, writesOf, bufPart]

theorem loseBuffers_hostOut (w : List BufName) (s : State) : (w.foldl loseBuffer s).hostOut = s.hostOut := by
  induction w generalizing s with
  | nil => rfl
  | cons b rest ih => simp [List.foldl_cons, ih]

theorem takeFault_hostOut {k : FaultKind} (hk : k ≠ .illegalCommand) (w : List BufName) (start s : State) :
    (takeFault k w start s).hostOut = s.hostOut := by
  rw [takeFault_of_ne hk]
  exact loseBuffers_hostOut w _

theorem faultCode_bounds (k : FaultKind) : 1 ≤ (faultCode k).toNat ∧ (faultCode k).toNat ≤ 7 := by
  cases k <;> decide

/-- Settles O54: the pseudocode has kept what it does not write up to its stop, and taking the fault keeps it too. -/
theorem faultEntry : Obligations.FaultEntry := by
  intro i s t hq e ht
  obtain ⟨k, u, stopped, rfl⟩ := exec_faulted e hq ht
  have frame := (commandOf_frame Config.params i).of_error_eq stopped
  have kept := (commandOf_streamKept Config.params_ok.stream_le i).of_error_eq stopped
  have status := (takeFault_status k (commandOf Config.params i).1 s u).trans (statusRaised_quiet hq k)
  have code : (takeFault k (commandOf Config.params i).1 s u).status.code = faultCode k := congrArg Status.code status
  refine ⟨by rw [code, status], by rw [code]; exact (faultCode_bounds k).1, by rw [code]; exact (faultCode_bounds k).2,
    fun a ha => takeFault_stream_below k _ s u (fun a ha => kept.same a (.inl ha)) ha, ?_⟩
  by_cases hk : k = .illegalCommand
  · subst hk
    rw [takeFault_illegal]
    refine ⟨fun q hb _ => ?_, rfl, rfl⟩
    fin_cases hb <;> rfl
  · refine ⟨fun q hb hw => same_trans q (frame.parts q hw) (takeFault_same hk _ s u ?_ ?_ ?_ ?_),
      (takeFault_pending hk _ s u).trans frame.pending, (takeFault_hostOut hk _ s u).trans frame.hostOut⟩
    · fin_cases hb <;> decide
    · rintro b hb' rfl
      exact hw (bufPart_mem_writesOf _ i b hb')
    · rintro rfl
      revert hb
      decide
    · rintro rfl
      revert hb
      decide

/-! ## The decoder's pattern (rule R176) -/

/-- The decoder's invariant and the pattern's bound are kept. -/
def PatternKept (s t : State) : Prop :=
  DecoderInv s.ad ∧ PatternInside s.ad → DecoderInv t.ad ∧ PatternInside t.ad

theorem patternKept_chains : Chains PatternKept := ⟨fun _ h => h, fun _ _ _ h k => k ∘ h⟩

theorem patternKept_of_frame {ps : List Part} (hd : Part.decoder ∉ ps) (h : OnlyChanges ps s t) : PatternKept s t := by
  have same : t.ad = s.ad := h.parts .decoder hd
  rw [PatternKept, same]
  exact id

/-- Every command inside a decode session keeps the pattern's bound. -/
theorem command_pattern {p : Config.Params} (hp : p.Ok) {i : Instr} (h1 : i ≠ .adStart) (h2 : i ≠ .adTerm) :
    KeepsOk PatternKept (commandOf p i).2 := by
  have of_frame : ∀ {α : Type} {c : Cmd α} {ps : List Part}, Keeps (OnlyChanges ps) c → Part.decoder ∉ ps →
      KeepsOk PatternKept c := fun h hd s a t e => patternKept_of_frame hd (h.ok s a t e)
  have leaves : BinLeaves p fun _ c => KeepsOk PatternKept c :=
    { closed := closed_keepsOk patternKept_chains fun _ _ => patternKept_of_frame (by decide)
      put := fun b => of_frame (putBit_frame p b) (by decide)
      align := of_frame (putAlign_frame p) (by decide)
      enc := fun m b => of_frame (encodeBit_frame p m b) (by decide)
      byp := fun b => of_frame (encodeBypass_frame p b) (by decide)
      get := of_frame (getBit_frame p) (by decide)
      getAlign := of_frame getAlign_frame (by decide)
      dec := fun m s b t e h => have inv := decodeBit_inv hp e h.1; ⟨inv.1, inv.2 h.2⟩
      dby := fun s b t e h => have inv := decodeBypass_inv e h.1; ⟨inv.1, inv.2 h.2⟩ }
  by_cases h3 : i = .aeStart
  · subst h3; exact of_frame (aeStart_frame p) (by decide)
  by_cases h4 : i = .aeTerm
  · subst h4; exact of_frame (aeTerm_frame p) (by decide)
  exact commandOf_of_bins leaves h3 h4 h1 h2

/-- Settles O32: a command that completes has run its pseudocode, and `SRESET` leaves the pattern 0. -/
theorem patternBound : Obligations.PatternBound := by
  intro i s t hq hi hin h1 h2 e ht
  by_cases hs : i = .sreset
  · subst hs
    rw [exec_sreset] at e
    cases e
    exact ⟨startDec_inv 0, show (0 : Nat) < Config.rangeInit.toNat * 128 by decide⟩
  · exact command_pattern Config.params_ok h1 h2 s () t (exec_quiet e hs hq ht) ⟨hi, hin⟩

/-! ## What a completed command leaves of the buffers (rule R57) -/

theorem sameFrom_refl {α : Type} (lo : Nat) (m : Cells α) : SameFrom lo m m := fun _ _ => rfl

theorem sameFrom_fill {α : Type} {lo : Nat} (m : Cells α) {vs : List α} (h : vs.length ≤ lo) :
    SameFrom lo m (cellsFill m vs) := fun _ ha => cellsRead_fill_of_ge _ _ (h.trans ha)

/-- The elements of `SCAN` from index `lo` on are kept. -/
def ScanKept (lo : Nat) (s t : State) : Prop := SameFrom lo s.scan t.scan

theorem scanKept_chains (lo : Nat) : Chains (ScanKept lo) :=
  ⟨fun _ _ _ => rfl, fun _ _ _ h k a ha => (k a ha).trans (h a ha)⟩

theorem scanKept_of_frame {lo : Nat} {α : Type} {ps : List Part} {c : Cmd α} (h : Keeps (OnlyChanges ps) c)
    (hs : Part.scan ∉ ps) : Keeps (ScanKept lo) c := fun s => by
  have same : (endState (c s)).scan = s.scan := (h s).parts .scan hs
  rw [ScanKept, same]
  exact sameFrom_refl _ _

theorem decodeCoefficients_scanKept (p : Config.Params) (n last lo : Nat) :
    ∀ k, k ≤ lo → Keeps (ScanKept lo) (decodeCoefficients p n last k)
  | 0, _ => keeps_pure (scanKept_chains lo) ()
  | k + 1, hk => by
    have chains := scanKept_chains lo
    refine keeps_bind chains ?_ fun _ => decodeCoefficients_scanKept p n last lo k (by omega)
    refine keeps_bind chains (scanKept_of_frame (switchContext_frame n k) (by decide)) fun _ => ?_
    refine keeps_bind chains (scanKept_of_frame (decodeSig_frame p n last k) (by decide)) fun _ => keeps_when chains _ ?_
    refine keeps_bind chains (scanKept_of_frame (decodeMagnitude_frame p _) (by decide)) fun _ => ?_
    refine keeps_bind chains (scanKept_of_frame (decodeBypass_frame p) (by decide)) fun _ => ?_
    exact fun s a ha => cellsRead_write_other _ _ (by omega)

/-- `DEC_COEF` writes `SCAN` below `N * N` only. -/
theorem decCoef_scanKept (p : Config.Params) (h : PartSize) (e : decCoef p h s = .ok () t) :
    SameFrom (partSize s.cfg.bs.toNat h * partSize s.cfg.bs.toNat h) s.scan t.scan := by
  obtain ⟨n, s1, e1, e⟩ := cmd_bind_ok_iff.1 e
  obtain ⟨-, rfl, rfl⟩ := cfgN_ok e1
  generalize partSize s.cfg.bs.toNat h = n at e
  have chains := scanKept_chains (n * n)
  refine (keeps_bind chains (R := ScanKept (n * n)) (fun u => ?_) fun _ => ?_).of_ok_eq e
  · exact sameFrom_fill _ (by simp)
  · refine keeps_bind chains (scanKept_of_frame (decodeBit_frame p _) (by decide)) fun cbf =>
      keeps_ite ?_ (scanKept_of_frame (setRes_frame _) (by decide))
    refine keeps_bind chains (scanKept_of_frame (decodeEg_frame p _) (by decide)) fun last => ?_
    split
    · exact keeps_raise chains _
    · exact keeps_bind chains (decodeCoefficients_scanKept p n last _ _ (by omega)) fun _ =>
        scanKept_of_frame (setRes_frame _) (by decide)

/-- `RECON` fills the partition's elements of `RECB`. -/
theorem recon_fills {p : Config.Params} {h : PartSize} (e : recon p h s = .ok () t) :
    ∃ vs : List Byte, vs.length ≤ partSize s.cfg.bs.toNat h * partSize s.cfg.bs.toNat h ∧
      t = { s with recb := cellsFill s.recb vs } := by
  obtain ⟨n, s1, e1, e⟩ := cmd_bind_ok_iff.1 e
  obtain ⟨-, rfl, rfl⟩ := cfgN_ok e1
  obtain ⟨ps, s2, e2, e⟩ := cmd_bind_ok_iff.1 e
  obtain ⟨read, rfl⟩ := readBytes_ok e2
  obtain ⟨xs, s3, e3, e⟩ := cmd_bind_ok_iff.1 e
  obtain ⟨-, rfl⟩ := readReals_ok e3
  simp only [cmd_modify, EStateM.Result.ok.injEq, true_and] at e
  exact ⟨_, zipWith_le _ _ _ (cellsReadRange_length read).le, e.symm⟩

/-- What `Frame` says of the five element buffers. -/
structure ExtentKept (i : Instr) (s t : State) : Prop where
  predb : SameFrom (extentOf i s) s.predb t.predb
  resd : SameFrom (extentOf i s) s.resd t.resd
  qidx : SameFrom (extentOf i s) s.qidx t.qidx
  scan : SameFrom (extentOf i s) s.scan t.scan
  recb : SameFrom (extentOf i s) s.recb t.recb

theorem sizeOf_sq (s : State) (h : PartSize) :
    sizeOf s h * sizeOf s h = partSize s.cfg.bs.toNat h * partSize s.cfg.bs.toNat h := by
  rw [Predictor.sizeOf_eq_partSize]

theorem extentKept_of_frame {i : Instr} (h : OnlyChanges (writesOf i) s t)
    (hw : ∀ q ∈ [Part.predb, .resd, .qidx, .scan, .recb], q ∉ writesOf i) : ExtentKept i s t := by
  have kept : ∀ q ∈ [Part.predb, .resd, .qidx, .scan, .recb], same q s t := fun q hq => h.parts q (hw q hq)
  simp only [List.forall_mem_cons] at kept
  obtain ⟨hp, hr, hi, hs, hb, -⟩ := kept
  have keep : ∀ {α : Type} {m m' : Cells α}, m' = m → SameFrom (extentOf i s) m m' := fun e => e ▸ sameFrom_refl _ _
  exact ⟨keep hp, keep hr, keep hi, keep hs, keep hb⟩

/-- Every command that runs to its end writes the buffers below its own `N * N` only. -/
theorem commandOf_extent {p : Config.Params} {i : Instr} (e : (commandOf p i).2 s = .ok () t) (hm : MemoryFits s) :
    ExtentKept i s t := by
  have frame : OnlyChanges (writesOf i) s t := (commandOf_frame p i).of_ok_eq e
  have rest : ∀ {α : Type} (m : Cells α), SameFrom (extentOf i s) m m := fun m => sameFrom_refl _ m
  cases i with
  | pred pm h =>
    obtain ⟨n, vs, rfl, -, hv, rfl⟩ := pred_ok e
    exact ⟨sameFrom_fill _ (hv.trans (sizeOf_sq s h).symm).le, rest _, rest _, rest _, rest _⟩
  | resid h =>
    obtain ⟨n, os, ps, rfl, -, h1, -, rfl⟩ := resid_ok e
    have short := zipWith_le residual os ps ((cellsReadRange_length h1).trans (sizeOf_sq s h).symm).le
    exact ⟨rest _, sameFrom_fill _ short, rest _, rest _, rest _⟩
  | quant h =>
    obtain ⟨n, ys, rfl, -, hc, rfl⟩ := quant_ok e
    have len : ys.length = sizeOf s h * sizeOf s h := (hm.coef _ hc).2.trans (sizeOf_sq s h).symm
    exact ⟨rest _, rest _, sameFrom_fill _ (by simp only [List.length_map]; exact len.le), rest _, rest _⟩
  | scanf pm h =>
    obtain ⟨n, qs, rfl, h1, -, -, rfl⟩ := scanf_ok e
    exact ⟨rest _, rest _, rest _, sameFrom_fill _ ((scanForward_length pm h1 qs).trans (sizeOf_sq s h).symm).le, rest _⟩
  | scani pm h =>
    obtain ⟨n, xs, rfl, -, -, -, rfl⟩ := scani_ok e
    exact ⟨rest _, rest _, sameFrom_fill _ ((scanInverse_length pm _ xs).trans (sizeOf_sq s h).symm).le, rest _, rest _⟩
  | recon h =>
    obtain ⟨vs, hv, rfl⟩ := recon_fills e
    exact ⟨rest _, rest _, rest _, rest _, sameFrom_fill _ (hv.trans (sizeOf_sq s h).symm.le)⟩
  | decCoef h =>
    have scan : SameFrom (extentOf (.decCoef h) s) s.scan t.scan := by
      rw [show extentOf (.decCoef h) s = _ from sizeOf_sq s h]
      exact decCoef_scanKept p h e
    have keep : ∀ {α : Type} {m m' : Cells α}, m' = m → SameFrom (extentOf (.decCoef h) s) m m' :=
      fun e => e ▸ rest _
    exact ⟨keep (frame.parts .predb (by simp [writesOf])), keep (frame.parts .resd (by simp [writesOf])),
      keep (frame.parts .qidx (by simp [writesOf])), scan, keep (frame.parts .recb (by simp [writesOf]))⟩
  | _ => exact extentKept_of_frame frame (by simp [writesOf])

/-- Settles O56: `SRESET` writes registers only, and any other command that completes has run its pseudocode, whose
frame this is. -/
theorem frame : Obligations.Frame := by
  intro i s t hq hm e ht
  by_cases hi : i = .sreset
  · subst hi
    rw [exec_sreset] at e
    cases e
    refine ⟨fun q hw => ?_, rfl, rfl, rfl, rfl, fun h => absurd rfl h, sameFrom_refl _ _, sameFrom_refl _ _,
      sameFrom_refl _ _, sameFrom_refl _ _, sameFrom_refl _ _⟩
    cases q <;> first | rfl | exact absurd (by decide) hw
  · have run := exec_quiet e hi hq ht
    have frame := (commandOf_frame Config.params i).of_ok_eq run
    have stream := (commandOf_streamKept Config.params_ok.stream_le i).of_ok_eq run
    have extent := commandOf_extent run hm
    exact ⟨frame.parts, frame.cmd, frame.pending, frame.hostOut, frame.draws, fun _ => ⟨frame.code, stream.same⟩,
      extent.predb, extent.resd, extent.qidx, extent.scan, extent.recb⟩

end Sys2Proof.Proofs.Whole
end

section
/-! The faults each command can raise (rules R313, R320, R325, R332): a command's pseudocode raises a fault only where one of
its parts does, and the parts that can are few. -/

namespace Sys2Proof.Proofs.Faults

open Sys2Proof Sys2Proof.Machine Sys2Proof.Safety

variable {p : Config.Params} {s t : State} {α β : Type} {l : FaultKind → Prop}

/-! ## Pseudocode that raises some faults only -/

/-- Every fault that the pseudocode raises is one that `l` admits. -/
def FaultsIn (l : FaultKind → Prop) (c : Cmd α) : Prop := ∀ s k t, c s = .error (.fault k) t → l k

theorem faultsIn_bind {c : Cmd α} {f : α → Cmd β} (hc : FaultsIn l c) (hf : ∀ a, FaultsIn l (f a)) :
    FaultsIn l (c >>= f) := by
  intro s k t e
  rcases cmd_bind_error_iff.1 e with e | ⟨a, u, -, e⟩
  · exact hc s k t e
  · exact hf a u k t e

/-- Pseudocode that never stops. -/
theorem faultsIn_of_ok {c : Cmd α} (h : ∀ s, ∃ a t, c s = .ok a t) : FaultsIn l c := by
  intro s k t e
  obtain ⟨a, u, h⟩ := h s
  rw [h] at e
  cases e

/-- Pseudocode that does in each state what other pseudocode does in another one. -/
theorem faultsIn_dep {g : Cmd α} (h : ∀ s, ∃ (c : Cmd α) (u : State), FaultsIn l c ∧ g s = c u) : FaultsIn l g := by
  intro s k t e
  obtain ⟨c, u, hc, hg⟩ := h s
  exact hc u k t (hg ▸ e)

theorem faultsIn_pure (a : α) : FaultsIn l (pure a : Cmd α) := faultsIn_of_ok fun s => ⟨a, s, rfl⟩

theorem faultsIn_get : FaultsIn l (get : Cmd State) := faultsIn_of_ok fun s => ⟨s, s, rfl⟩

theorem faultsIn_modify (f : State → State) : FaultsIn l (modify f : Cmd Unit) := faultsIn_of_ok fun s => ⟨(), f s, rfl⟩

theorem faultsIn_setRes (v : Word) : FaultsIn l (setRes v) := faultsIn_modify _

theorem faultsIn_raise {k : FaultKind} (hk : l k) : FaultsIn l (raise k : Cmd α) := by
  intro s j t e
  cases e
  exact hk

theorem faultsIn_ite {P : Prop} [Decidable P] {c d : Cmd α} (hc : FaultsIn l c) (hd : FaultsIn l d) :
    FaultsIn l (if P then c else d) := by split <;> assumption

theorem faultsIn_when (b : Bool) {c : Cmd Unit} (hc : FaultsIn l c) : FaultsIn l (whenCmd b c) :=
  faultsIn_ite hc (faultsIn_pure ())

theorem faultsIn_forBits {f : Bool → Cmd Unit} (hf : ∀ b, FaultsIn l (f b)) (v : Word) : ∀ n, FaultsIn l (forBits f v n)
  | 0 => faultsIn_pure ()
  | n + 1 => faultsIn_bind (hf _) fun _ => faultsIn_forBits hf v n

theorem faultsIn_repeatCmd {c : Cmd Unit} (hc : FaultsIn l c) : ∀ n, FaultsIn l (repeatCmd c n)
  | 0 => faultsIn_pure ()
  | n + 1 => faultsIn_bind hc fun _ => faultsIn_repeatCmd hc n

theorem faultsIn_collectBits {f : Cmd Bool} (hf : FaultsIn l f) : ∀ n acc, FaultsIn l (collectBits f n acc)
  | 0, acc => faultsIn_pure acc
  | n + 1, _ => faultsIn_bind hf fun _ => faultsIn_collectBits hf n _

/-! ## Checks and buffer reads -/

theorem faultsIn_checkCount {n : BitVec 8} (hn : n.toNat ≤ 32) : FaultsIn l (checkCount n) :=
  faultsIn_of_ok fun s => ⟨(), s, checkCount_of_le hn⟩

theorem faultsIn_cfgN (hk : l .configError) (h : PartSize) : FaultsIn l (cfgN h) := by
  intro s k t e
  cases hb : blockSizeOk s.cfg.bs.toNat with
  | true => rw [cfgN_of_ok hb] at e; cases e
  | false => rw [cfgN_of_bad hb] at e; cases e; exact hk

theorem faultsIn_checkQp (hk : l .configError) : FaultsIn l checkQp := by
  intro s k t e
  by_cases hq : s.cfg.qp.toNat ≤ 31
  · rw [checkQp_of_le hq] at e; cases e
  · rw [checkQp_of_gt (by omega)] at e; cases e; exact hk

theorem faultsIn_checkEgValue (hk : l .operandRange) : FaultsIn l checkEgValue := by
  intro s k t e
  by_cases ha : s.arg = 0xFFFFFFFF
  · rw [checkEgValue_of_eq ha] at e; cases e; exact hk
  · rw [checkEgValue_of_ne ha] at e; cases e

theorem faultsIn_readBytes (b : BufName) (get : State → Cells Byte) (n : Nat) : FaultsIn l (readBytes b get n) := by
  intro s k t e
  unfold readBytes at e
  split at e <;> cases e

theorem faultsIn_readWords (b : BufName) (get : State → Cells Word) (n : Nat) : FaultsIn l (readWords b get n) := by
  intro s k t e
  unfold readWords at e
  split at e <;> cases e

theorem faultsIn_readReals (b : BufName) (get : State → Option RealBuf) (n : Nat) :
    FaultsIn l (readReals b get n) := by
  intro s k t e
  unfold readReals at e
  repeat' split at e
  all_goals cases e

theorem faultsIn_border (a : Bool) (b : BufName) (get : State → Cells Byte) (n : Nat) :
    FaultsIn l (border a b get n) :=
  faultsIn_ite (faultsIn_bind (faultsIn_readBytes _ _ _) fun _ => faultsIn_pure _) (faultsIn_pure _)

/-! ## The writer and the encoder raise `OutOverflow` -/

section out

variable (hk : l .outOverflow)
include hk

theorem faultsIn_putBit (b : Bool) : FaultsIn l (putBit p b) := by
  intro s k t e
  unfold putBit at e
  generalize (s.bw.acc <<< 1 ||| if b then 1 else 0 : Byte) = acc at e
  simp only at e
  split at e
  · split at e
    · cases e
      exact hk
    · cases e
  · cases e

theorem faultsIn_putBits (v : Word) (n : Nat) : FaultsIn l (putBits p v n) := faultsIn_forBits (faultsIn_putBit hk) v n

theorem faultsIn_alignLoop : ∀ k, FaultsIn l (alignLoop p k)
  | 0 => faultsIn_pure ()
  | k + 1 => by
    refine faultsIn_dep fun s => ?_
    by_cases h : s.bw.cnt = 0
    · exact ⟨pure (), s, faultsIn_pure (), if_pos h⟩
    · exact ⟨_, s, faultsIn_bind (faultsIn_putBit hk false) fun _ => faultsIn_alignLoop k, if_neg h⟩

theorem faultsIn_drainRun (fill : Byte) : ∀ k, FaultsIn l (drainRun p fill k)
  | 0 => faultsIn_pure ()
  | k + 1 => faultsIn_bind (faultsIn_putBits hk _ _) fun _ =>
    faultsIn_bind (faultsIn_modify _) fun _ => faultsIn_drainRun fill k

theorem faultsIn_placeLead (lead : Nat) : FaultsIn l (placeLead p lead) := by
  refine faultsIn_dep fun s => ?_
  unfold placeLead
  split_ifs
  · exact ⟨modify _, s, faultsIn_modify fun s => { s with ae := { s.ae with run := s.ae.run + 1 } }, rfl⟩
  · exact ⟨_, s, faultsIn_bind (faultsIn_putBits hk _ _) fun _ =>
      faultsIn_bind (faultsIn_modify _) fun _ => faultsIn_drainRun hk _ _, rfl⟩
  · exact ⟨modify _, s, faultsIn_modify fun s => { s with ae := { s.ae with run := 1, buf := BitVec.ofNat 8 lead } }, rfl⟩

theorem faultsIn_aeFlush : FaultsIn l (aeFlush p) := by
  refine faultsIn_dep fun s => ?_
  by_cases h : debtOf s.ae < Config.flushT
  · exact ⟨placeLead p (leadOf s.ae), { s with ae := dropLead s.ae }, faultsIn_placeLead hk _, if_pos h⟩
  · exact ⟨pure (), s, faultsIn_pure (), if_neg h⟩

theorem faultsIn_finishHeld : FaultsIn l (finishHeld p) := by
  refine faultsIn_dep fun s => ?_
  unfold finishHeld
  split_ifs
  · exact ⟨_, s, faultsIn_bind (faultsIn_putBits hk _ _) fun _ =>
      faultsIn_bind (faultsIn_drainRun hk _ _) fun _ => faultsIn_modify _, rfl⟩
  · exact ⟨_, s, faultsIn_bind (faultsIn_when _ (faultsIn_putBits hk _ _)) fun _ => faultsIn_drainRun hk _ _, rfl⟩

theorem faultsIn_aeStart : FaultsIn l (aeStart p) :=
  faultsIn_bind (faultsIn_alignLoop hk 16) fun _ => faultsIn_modify _

theorem faultsIn_aeTerm : FaultsIn l (aeTerm p) := by
  refine faultsIn_bind (faultsIn_modify _) fun _ => faultsIn_bind (faultsIn_aeFlush hk) fun _ => ?_
  refine faultsIn_bind (faultsIn_bind (faultsIn_finishHeld hk) fun _ => faultsIn_bind faultsIn_get fun _ =>
    faultsIn_putBits hk _ _) fun _ => ?_
  exact faultsIn_bind (faultsIn_putBit hk true) fun _ => faultsIn_bind (faultsIn_alignLoop hk 16) fun _ => faultsIn_modify _

theorem faultsIn_encodeBit (m : Fin 15) (b : Bool) : FaultsIn l (encodeBit p m b) := by
  refine faultsIn_dep fun s => ?_
  unfold encodeBit
  simp only
  split_ifs
  · exact ⟨_, _, faultsIn_bind (faultsIn_aeFlush hk) fun _ => faultsIn_modify _, rfl⟩
  · exact ⟨_, _, faultsIn_bind (faultsIn_aeFlush hk) fun _ => faultsIn_modify _, rfl⟩
  · exact ⟨updateMps p m, _, faultsIn_modify _, rfl⟩

theorem faultsIn_encodeBypass (b : Bool) : FaultsIn l (encodeBypass p b) :=
  faultsIn_dep fun _ => ⟨_, _, faultsIn_aeFlush hk, rfl⟩

theorem faultsIn_encodeEg (m : Fin 15) (v : Nat) : FaultsIn l (encodeEg p m v) :=
  faultsIn_bind (faultsIn_repeatCmd (faultsIn_encodeBit hk m false) _) fun _ =>
    faultsIn_bind (faultsIn_encodeBit hk m true) fun _ => faultsIn_forBits (faultsIn_encodeBypass hk) _ _

theorem faultsIn_encodeCoefficients (n : Nat) (xs : List Word) (last : Nat) :
    ∀ k, FaultsIn l (encodeCoefficients p n xs last k)
  | 0 => faultsIn_pure ()
  | k + 1 => by
    refine faultsIn_bind ?_ fun _ => faultsIn_encodeCoefficients n xs last k
    refine faultsIn_bind (faultsIn_modify _) fun _ => faultsIn_bind (faultsIn_when _ (faultsIn_encodeBit hk _ _)) fun _ =>
      faultsIn_when _ ?_
    exact faultsIn_bind (faultsIn_encodeBit hk _ _) fun _ =>
      faultsIn_bind (faultsIn_when _ (faultsIn_encodeEg hk _ _)) fun _ => faultsIn_encodeBypass hk _

theorem faultsIn_encPmode (pm : PredMode) : FaultsIn l (encPmode p pm) := by
  have bin := fun m b => faultsIn_encodeBit (p := p) hk m b
  cases pm with
  | planar => exact bin _ _
  | dc => exact faultsIn_bind (bin _ _) fun _ => bin _ _
  | horizontal | vertical => exact faultsIn_bind (bin _ _) fun _ => faultsIn_bind (bin _ _) fun _ => bin _ _

end out

theorem faultsIn_adTerm (hk : l .streamCorrupt) : FaultsIn l adTerm := by
  intro s k t e
  unfold adTerm at e
  simp only at e
  split at e
  · cases e
  · cases e
    exact hk

/-! ## The reader and the decoder raise `EndOfStream` -/

section inp

variable (hk : l .endOfStream)
include hk

theorem faultsIn_getBit : FaultsIn l (getBit p) := by
  have fetch : FaultsIn l (fetchByte p) := by
    intro s k t e
    unfold fetchByte at e
    repeat' split at e
    all_goals cases e
    exact hk
  have take : FaultsIn l takeBit := faultsIn_of_ok fun s => ⟨_, _, rfl⟩
  refine faultsIn_dep fun s => ?_
  by_cases h : s.br.cnt = 0
  · exact ⟨_, s, faultsIn_bind fetch fun _ => take, if_pos h⟩
  · exact ⟨_, s, take, if_neg h⟩

theorem faultsIn_getBits (n : Nat) : FaultsIn l (getBits p n) := faultsIn_collectBits (faultsIn_getBit hk) n 0

theorem faultsIn_pullAtZero : FaultsIn l (pullAtZero p) := by
  refine faultsIn_dep fun s => ?_
  unfold pullAtZero
  split_ifs
  · exact ⟨_, _, faultsIn_bind (faultsIn_getBits hk 8) fun _ => faultsIn_modify _, rfl⟩
  · exact ⟨pure (), s, faultsIn_pure (), rfl⟩

theorem faultsIn_pullNonneg : FaultsIn l (pullNonneg p) := by
  refine faultsIn_dep fun s => ?_
  unfold pullNonneg
  split_ifs
  · exact ⟨_, _, faultsIn_bind (faultsIn_getBits hk 8) fun _ => faultsIn_modify _, rfl⟩
  · exact ⟨pure (), s, faultsIn_pure (), rfl⟩

theorem faultsIn_pullBypass : FaultsIn l (pullBypass p) := by
  refine faultsIn_dep fun s => ?_
  unfold pullBypass
  split_ifs
  · exact ⟨_, _, faultsIn_bind (faultsIn_getBits hk 8) fun _ => faultsIn_modify _, rfl⟩
  · exact ⟨pure (), s, faultsIn_pure (), rfl⟩

theorem faultsIn_decodeBit (m : Fin 15) : FaultsIn l (decodeBit p m) := by
  refine faultsIn_dep fun s => ?_
  unfold decodeBit
  simp only
  split_ifs
  · exact ⟨_, _, faultsIn_bind (faultsIn_pullAtZero hk) fun _ => faultsIn_bind (faultsIn_modify _) fun _ =>
      faultsIn_pure _, rfl⟩
  · exact ⟨_, _, faultsIn_bind (faultsIn_modify _) fun _ => faultsIn_pure _, rfl⟩
  · exact ⟨_, _, faultsIn_bind (faultsIn_pullNonneg hk) fun _ => faultsIn_bind (faultsIn_modify _) fun _ =>
      faultsIn_pure _, rfl⟩

theorem faultsIn_decodeBypass : FaultsIn l (decodeBypass p) := by
  refine faultsIn_bind (faultsIn_modify _) fun _ => faultsIn_bind (faultsIn_pullBypass hk) fun _ => ?_
  refine faultsIn_of_ok fun s => ?_
  unfold compareBypass
  split
  · exact ⟨_, _, rfl⟩
  · exact ⟨_, _, rfl⟩

theorem faultsIn_decPmode : FaultsIn l (decPmode p) :=
  faultsIn_bind (faultsIn_decodeBit hk _) fun _ => faultsIn_ite (faultsIn_setRes _) <|
    faultsIn_bind (faultsIn_decodeBit hk _) fun _ => faultsIn_ite (faultsIn_setRes _) <|
      faultsIn_bind (faultsIn_decodeBit hk _) fun _ => faultsIn_ite (faultsIn_setRes _) (faultsIn_setRes _)

variable (hs : l .syntaxRange)
include hs

theorem faultsIn_decodePrefix (m : Fin 15) : ∀ left, FaultsIn l (decodePrefix p m left)
  | 0 => faultsIn_raise hs
  | left + 1 => faultsIn_bind (faultsIn_decodeBit hk m) fun _ =>
    faultsIn_ite (faultsIn_pure _) (faultsIn_decodePrefix m left)

theorem faultsIn_decodeEg (m : Fin 15) : FaultsIn l (decodeEg p m) :=
  faultsIn_bind (faultsIn_decodePrefix hk hs m 32) fun _ =>
    faultsIn_bind (faultsIn_collectBits (faultsIn_decodeBypass hk) _ _) fun _ => faultsIn_pure _

theorem faultsIn_decodeMagnitude (k : Fin 3) : FaultsIn l (decodeMagnitude p k) :=
  faultsIn_bind (faultsIn_decodeBit hk _) fun _ => faultsIn_ite
    (faultsIn_bind (faultsIn_decodeEg hk hs _) fun _ => faultsIn_ite (faultsIn_raise hs) (faultsIn_pure _))
    (faultsIn_pure _)

theorem faultsIn_decodeCoefficients (n last : Nat) : ∀ k, FaultsIn l (decodeCoefficients p n last k)
  | 0 => faultsIn_pure ()
  | k + 1 => by
    refine faultsIn_bind ?_ fun _ => faultsIn_decodeCoefficients n last k
    refine faultsIn_bind (faultsIn_modify _) fun _ =>
      faultsIn_bind (faultsIn_ite (faultsIn_pure _) (faultsIn_decodeBit hk _)) fun _ => faultsIn_when _ ?_
    exact faultsIn_bind (faultsIn_decodeMagnitude hk hs _) fun _ =>
      faultsIn_bind (faultsIn_decodeBypass hk) fun _ => faultsIn_modify _

end inp

/-! ## Every command -/

/-- A well-formed command raises the faults of its row only. -/
theorem commandOf_faultsIn {i : Instr} (hw : i.wf = true) :
    FaultsIn (fun k => faultCode k ∈ faultsOf i) (commandOf p i).2 := by
  have count : ∀ {l : FaultKind → Prop} {n : BitVec 8}, countOk n = true → FaultsIn l (checkCount n) := fun h =>
    faultsIn_checkCount (by simpa [countOk] using h)
  cases i with
  | nop | sreset => exact faultsIn_pure ()
  | ctxinit => exact faultsIn_modify _
  | bwBit b => exact faultsIn_putBit (.head _) b
  | bwBits n => exact faultsIn_bind (count hw) fun _ => faultsIn_bind faultsIn_get fun _ => faultsIn_putBits (.head _) _ _
  | bwAlign => exact faultsIn_alignLoop (.head _) 16
  | brBit => exact faultsIn_bind (faultsIn_getBit (.head _)) fun _ => faultsIn_setRes _
  | brBits n =>
    exact faultsIn_bind (count hw) fun _ => faultsIn_bind (faultsIn_getBits (.head _) _) fun _ => faultsIn_setRes _
  | brAlign => exact faultsIn_modify _
  | pmMps m | pmLps m => exact faultsIn_bind faultsIn_get fun _ => faultsIn_modify _
  | pmEst m b => exact faultsIn_bind faultsIn_get fun _ => faultsIn_setRes _
  | aeStart => exact faultsIn_aeStart (.head _)
  | aeBit m b => exact faultsIn_bind faultsIn_get fun _ => faultsIn_encodeBit (.head _) _ b
  | aeBits m n =>
    exact faultsIn_bind (count hw) fun _ => faultsIn_bind faultsIn_get fun _ =>
      faultsIn_forBits (faultsIn_encodeBit (.head _) _) _ _
  | aeByp b => exact faultsIn_encodeBypass (.head _) b
  | aeByps n =>
    exact faultsIn_bind (count hw) fun _ => faultsIn_bind faultsIn_get fun _ =>
      faultsIn_forBits (faultsIn_encodeBypass (.head _)) _ _
  | aeTerm => exact faultsIn_aeTerm (.head _)
  | aeEg m =>
    exact faultsIn_bind (faultsIn_checkEgValue (.head _)) fun _ => faultsIn_bind faultsIn_get fun _ =>
      faultsIn_encodeEg (.tail _ (.head _)) _ _
  | aeEgest m =>
    exact faultsIn_bind (faultsIn_checkEgValue (.head _)) fun _ => faultsIn_bind faultsIn_get fun _ => faultsIn_setRes _
  | adStart =>
    exact faultsIn_bind (faultsIn_modify _) fun _ => faultsIn_bind (faultsIn_getBits (.head _) _) fun _ =>
      faultsIn_modify _
  | adBit m =>
    exact faultsIn_bind faultsIn_get fun _ => faultsIn_bind (faultsIn_decodeBit (.head _) _) fun _ => faultsIn_setRes _
  | adByp => exact faultsIn_bind (faultsIn_decodeBypass (.head _)) fun _ => faultsIn_setRes _
  | adByps n =>
    exact faultsIn_bind (count hw) fun _ =>
      faultsIn_bind (faultsIn_collectBits (faultsIn_decodeBypass (.head _)) _ _) fun _ => faultsIn_setRes _
  | adTerm => exact faultsIn_adTerm (.head _)
  | adEg m =>
    exact faultsIn_bind faultsIn_get fun _ =>
      faultsIn_bind (faultsIn_decodeEg (.head _) (.tail _ (.head _)) _) fun _ => faultsIn_setRes _
  | ctxSw h =>
    exact faultsIn_bind (faultsIn_cfgN (.head _) h) fun _ => faultsIn_bind faultsIn_get fun _ =>
      faultsIn_ite (faultsIn_raise (.tail _ (.head _))) (faultsIn_modify _)
  | pred pm h =>
    exact faultsIn_bind (faultsIn_cfgN (.head _) h) fun _ => faultsIn_bind faultsIn_get fun _ =>
      faultsIn_bind (faultsIn_border _ _ _ _) fun _ => faultsIn_bind (faultsIn_border _ _ _ _) fun _ => faultsIn_modify _
  | resid h =>
    exact faultsIn_bind (faultsIn_cfgN (.head _) h) fun _ => faultsIn_bind (faultsIn_readBytes _ _ _) fun _ =>
      faultsIn_bind (faultsIn_readBytes _ _ _) fun _ => faultsIn_modify _
  | txf pm h | scanf pm h | scani pm h =>
    exact faultsIn_bind (faultsIn_cfgN (.head _) h) fun _ => faultsIn_bind (faultsIn_readWords _ _ _) fun _ =>
      faultsIn_modify _
  | txi pm h =>
    exact faultsIn_bind (faultsIn_cfgN (.head _) h) fun _ => faultsIn_bind (faultsIn_readReals _ _ _) fun _ =>
      faultsIn_modify _
  | quant h =>
    exact faultsIn_bind (faultsIn_cfgN (.head _) h) fun _ => faultsIn_bind (faultsIn_checkQp (.head _)) fun _ =>
      faultsIn_bind (faultsIn_readReals _ _ _) fun _ => faultsIn_bind faultsIn_get fun _ =>
        faultsIn_ite (faultsIn_raise (.tail _ (.head _))) (faultsIn_modify _)
  | deq h =>
    exact faultsIn_bind (faultsIn_cfgN (.head _) h) fun _ => faultsIn_bind (faultsIn_checkQp (.head _)) fun _ =>
      faultsIn_bind (faultsIn_readWords _ _ _) fun _ => faultsIn_modify _
  | recon h =>
    exact faultsIn_bind (faultsIn_cfgN (.head _) h) fun _ => faultsIn_bind (faultsIn_readBytes _ _ _) fun _ =>
      faultsIn_bind (faultsIn_readReals _ _ _) fun _ => faultsIn_modify _
  | dist h =>
    exact faultsIn_bind (faultsIn_cfgN (.head _) h) fun _ => faultsIn_bind (faultsIn_readBytes _ _ _) fun _ =>
      faultsIn_bind (faultsIn_readBytes _ _ _) fun _ => faultsIn_setRes _
  | hdrWr =>
    have put := fun v n => faultsIn_putBits (p := p) (l := fun k => faultCode k ∈ faultsOf .hdrWr) (.head _) v n
    exact faultsIn_bind faultsIn_get fun _ => faultsIn_bind (put _ _) fun _ => faultsIn_bind (put _ _) fun _ =>
      faultsIn_bind (put _ _) fun _ => put _ _
  | hdrRd =>
    have bits := fun n => faultsIn_getBits (p := p) (l := fun k => faultCode k ∈ faultsOf .hdrRd) (.head _) n
    exact faultsIn_bind (bits _) fun _ => faultsIn_bind (bits _) fun _ => faultsIn_bind (bits _) fun _ =>
      faultsIn_bind (bits _) fun _ => faultsIn_ite (faultsIn_raise (.tail _ (.head _))) (faultsIn_modify _)
  | encPart b => exact faultsIn_encodeBit (.head _) _ b
  | decPart => exact faultsIn_bind (faultsIn_decodeBit (.head _) _) fun _ => faultsIn_setRes _
  | encPmode pm => exact faultsIn_encPmode (.head _) pm
  | decPmode => exact faultsIn_decPmode (.head _)
  | encCoef h =>
    have out : faultCode .outOverflow ∈ faultsOf (.encCoef h) := .tail _ (.tail _ (.head _))
    refine faultsIn_bind (faultsIn_cfgN (.head _) h) fun _ => faultsIn_bind (faultsIn_readWords _ _ _) fun _ => ?_
    refine faultsIn_ite (faultsIn_raise (.tail _ (.head _))) (faultsIn_ite ?_ ?_)
    · exact faultsIn_bind (faultsIn_encodeBit out _ _) fun _ => faultsIn_setRes _
    · exact faultsIn_bind (faultsIn_encodeBit out _ _) fun _ => faultsIn_bind (faultsIn_encodeEg out _ _) fun _ =>
        faultsIn_bind (faultsIn_encodeCoefficients out _ _ _ _) fun _ => faultsIn_setRes _
  | decCoef h =>
    have inp : faultCode .endOfStream ∈ faultsOf (.decCoef h) := .tail _ (.head _)
    have syn : faultCode .syntaxRange ∈ faultsOf (.decCoef h) := .tail _ (.tail _ (.head _))
    refine faultsIn_bind (faultsIn_cfgN (.head _) h) fun _ => faultsIn_bind (faultsIn_modify _) fun _ =>
      faultsIn_bind (faultsIn_decodeBit inp _) fun _ => faultsIn_ite ?_ (faultsIn_setRes _)
    exact faultsIn_bind (faultsIn_decodeEg inp syn _) fun _ => faultsIn_ite (faultsIn_raise syn)
      (faultsIn_bind (faultsIn_decodeCoefficients inp syn _ _ _) fun _ => faultsIn_setRes _)

/-- Settles O55: a fault pending at the end was raised by the command's pseudocode. -/
theorem faultsPerCommand : Obligations.FaultsPerCommand := by
  intro i s t hw hq e ht
  obtain ⟨k, u, stopped, rfl⟩ := Whole.exec_faulted e hq ht
  have code : (takeFault k (commandOf Config.params i).1 s u).status.code = faultCode k :=
    congrArg Status.code ((takeFault_status _ _ _ _).trans (statusRaised_quiet hq k))
  rw [code]
  exact commandOf_faultsIn hw s k u stopped

/-! ## Illegal configurations (rules R251, R313, R325) -/

/-- A size other than an even one of 2 to 64 is refused. -/
theorem blockSizeOk_of_not_legalSize (h : ¬LegalSize s) : blockSizeOk s.cfg.bs.toNat = false := by
  rw [Bool.eq_false_iff]
  intro ok
  simp only [blockSizeOk, Bool.and_eq_true, decide_eq_true_eq, beq_iff_eq] at ok
  exact h ⟨ok.1.1, ok.1.2, ok.2⟩

/-- Pseudocode that starts with `cfg_n(h)` raises `ConfigError` for an illegal size. -/
theorem cfgN_first_error {h : PartSize} {f : Nat → Cmd Unit} (hl : ¬LegalSize s) :
    (cfgN h >>= f) s = .error (.fault .configError) s :=
  cmd_bind_of_error (cfgN_of_bad (blockSizeOk_of_not_legalSize hl))

theorem raises_of_illegal_size {i : Instr} {h : PartSize} {f : Nat → Cmd Unit} (hq : Quiet s) (hl : ¬LegalSize s)
    (hi : i ≠ .sreset) (hc : (commandOf Config.params i).2 = cfgN h >>= f) : Raises i s 5 :=
  raises_of_error (k := .configError) hi hq (hc ▸ cfgN_first_error hl)

/-- Pseudocode that goes on to check the quality raises `ConfigError` for one above 31. -/
theorem checkQp_second_error {h : PartSize} {f : Nat → Cmd Unit} (hqp : 31 < s.cfg.qp.toNat) :
    (do let n ← cfgN h; checkQp; f n : Cmd Unit) s = .error (.fault .configError) s := by
  cases hb : blockSizeOk s.cfg.bs.toNat with
  | false => exact cmd_bind_of_error (cfgN_of_bad hb)
  | true => exact (cmd_bind_of_ok (cfgN_of_ok hb)).trans (cmd_bind_of_error (checkQp_of_gt hqp))

/-- Settles O36: the partition commands start with `cfg_n(h)`, and `QUANT` and `DEQ` check the quality next. -/
theorem configErrors : Obligations.ConfigErrors := by
  intro s pm h hq
  refine ⟨fun hl i hi => ?_, fun hqp => ⟨?_, ?_⟩⟩
  · fin_cases hi <;> exact raises_of_illegal_size hq hl nofun rfl
  · exact raises_of_error (k := .configError) nofun hq (checkQp_second_error hqp)
  · exact raises_of_error (k := .configError) nofun hq (checkQp_second_error hqp)

end Sys2Proof.Proofs.Faults
end

section
/-! Streams of bits (rules R52, R100, R101): a number as its bits, the writer as one that appends a list of bits, and the
reader as one that looks the next bits up; with them the commands of file 40 and the header of file 48. -/

namespace Sys2Proof.Proofs.Bits

open Sys2Proof Sys2Proof.Machine Sys2Proof.Safety

variable {p : Config.Params} {s t u : State}

/-! ## A number as its bits, the most significant first -/

/-- Bits `n-1 .. 0` of a number. -/
def natBits (v : Nat) : Nat → List Bool
  | 0 => []
  | n + 1 => v.testBit n :: natBits v n

@[simp] theorem natBits_length (v n : Nat) : (natBits v n).length = n := by
  induction n with
  | zero => rfl
  | succ n ih => rw [natBits, List.length_cons, ih]

theorem natBits_getElem (v : Nat) {n j : Nat} (h : j < n) : (natBits v n)[j]? = some (v.testBit (n - 1 - j)) := by
  induction n generalizing j with
  | zero => omega
  | succ n ih =>
    cases j with
    | zero => rfl
    | succ j =>
      rw [natBits, List.getElem?_cons_succ, ih (by omega)]
      congr 2
      omega

theorem bitsOf_eq_natBits (v : Word) (n : Nat) : bitsOf v n = natBits v.toNat n := by
  induction n with
  | zero => rfl
  | succ n ih => rw [bitsOf, ih]; rfl

/-- Two numbers side by side. -/
theorem natBits_append (v x n m : Nat) (hx : x < 2 ^ m) : natBits v n ++ natBits x m = natBits (v * 2 ^ m + x) (n + m) := by
  have low : natBits x m = natBits (v * 2 ^ m + x) m := by
    refine List.ext_getElem? fun j => ?_
    by_cases hj : j < m
    · rw [natBits_getElem _ hj, natBits_getElem _ hj, Nat.mul_comm, Nat.testBit_two_pow_mul_add v hx, if_pos (by omega)]
    · rw [List.getElem?_eq_none (by simpa using hj), List.getElem?_eq_none (by simpa using hj)]
  rw [low]
  induction n with
  | zero => rw [Nat.zero_add]; rfl
  | succ n ih =>
    have top : v.testBit n = (v * 2 ^ m + x).testBit (n + m) := by
      rw [Nat.mul_comm, Nat.testBit_two_pow_mul_add v hx, if_neg (by omega), Nat.add_sub_cancel]
    rw [natBits, List.cons_append, ih, top, Nat.add_right_comm, natBits]

theorem natBits_bitNat (b : Bool) : natBits (bitNat b) 1 = [b] := by cases b <;> rfl

/-! ## The writer appends a list of bits -/

/-- `put_bit` for each bit of a list. -/
def putList (p : Config.Params) : List Bool → Cmd Unit
  | [] => pure ()
  | b :: bs => do putBit p b; putList p bs

theorem putBits_eq_putList (v : Word) (n : Nat) : putBits p v n = putList p (natBits v.toNat n) := by
  induction n with
  | zero => rfl
  | succ n ih => exact congrArg (putBit p _ >>= fun _ => ·) ih

theorem putList_append (as bs : List Bool) : putList p (as ++ bs) = (do putList p as; putList p bs : Cmd Unit) := by
  induction as with
  | nil => rfl
  | cons b as ih => rw [List.cons_append, putList, ih, putList, bind_assoc]

theorem putList_singleton (b : Bool) : putList p [b] = putBit p b := bind_pure (putBit p b)

theorem putList_written (bs : List Bool) (hc : s.bw.cnt.toNat ≤ 7) (hp : p.streamBytes ≤ 2 ^ 32 - 1)
    (room : writerRoom p s bs.length) : ∃ t, putList p bs s = .ok () t ∧ Written s bs t := by
  induction bs generalizing s with
  | nil => exact ⟨s, rfl, Written.refl hc⟩
  | cons b bs ih =>
    obtain ⟨t, e, h⟩ := putBit_written b hc hp (writerRoom_mono (Nat.le_add_left 1 _) room)
    obtain ⟨u, f, k⟩ := ih h.cnt (h.room hc (by simpa [Nat.add_comm] using room))
    exact ⟨u, (cmd_bind_of_ok e).trans f, h.trans k hc⟩

theorem putList_overflow (bs : List Bool) (hc : s.bw.cnt.toNat ≤ 7) (hp : p.streamBytes ≤ 2 ^ 32 - 1)
    (full : ¬writerRoom p s bs.length) : ∃ t, putList p bs s = .error (.fault .outOverflow) t := by
  induction bs generalizing s with
  | nil => exact absurd (by simp only [writerRoom, List.length_nil]; omega) full
  | cons b bs ih =>
    by_cases room : writerRoom p s 1
    · obtain ⟨t, e, h⟩ := putBit_written b hc hp room
      have pos : outPos t = outPos s + 1 := h.pos
      have cnt := h.cnt
      obtain ⟨u, f⟩ := ih cnt (by
        simp only [outPos, writerRoom, List.length_cons] at *
        omega)
      exact ⟨u, (cmd_bind_of_ok e).trans f⟩
    · obtain ⟨t, e⟩ := putBit_full (p := p) (s := s) b (by simp only [writerRoom] at room; omega)
        (by simp only [writerRoom] at room; omega)
      exact ⟨t, cmd_bind_of_error e⟩

/-- What the statements say of a number's bits once they are written. -/
theorem written_bits {v n : Nat} (h : Written s (natBits v n) t) :
    outPos t = outPos s + n ∧ t.bw.cnt.toNat ≤ 7 ∧
      (∀ j, j < n → outBit t (outPos s + j) = some (v.testBit (n - 1 - j))) ∧
      (∀ k, k < outPos s → outBit t k = outBit s k) ∧
      (∀ a, a < s.bw.ptr.toNat ∨ t.bw.ptr.toNat ≤ a → cellsRead t.stream a = cellsRead s.stream a) ∧
      t = { s with stream := t.stream, bw := t.bw } :=
  ⟨by simpa using h.pos, h.cnt, fun j hj => h.new j _ (natBits_getElem v hj), h.old, h.outside, h.rest⟩

/-! ## Outcomes of pseudocode run with any parameters -/

theorem faultsWith_of_kept {w : List BufName} {c : Cmd Unit} {k : FaultKind} (hq : Quiet s)
    (e : c s = .error (.fault k) t) (kept : ∀ a, a < s.bw.ptr.toNat → cellsRead t.stream a = cellsRead s.stream a) :
    FaultsWith (runCommand w c s) s (faultCode k) :=
  ⟨_, runCommand_of_raise hq e, (takeFault_status _ _ _ _).trans (statusRaised_quiet hq k),
    fun _ => takeFault_stream_below k w s t kept⟩

/-- A command's pseudocode that stops with a fault has it recorded. -/
theorem faultsWith_of_error {i : Instr} {k : FaultKind} (hp : p.streamBytes ≤ 2 ^ 32 - 1) (hq : Quiet s)
    (e : (commandOf p i).2 s = .error (.fault k) t) :
    FaultsWith (runCommand (commandOf p i).1 (commandOf p i).2 s) s (faultCode k) :=
  faultsWith_of_kept hq e fun a ha => ((commandOf_streamKept hp i).of_error_eq e).same a (.inl ha)

/-- So it is for the machine's own parameters. -/
theorem raises_of_faultsWith {i : Instr} {code : BitVec 4} (hi : i ≠ .sreset)
    (h : FaultsWith (runCommand (commandOf p i).1 (commandOf p i).2 s) s code) (hp : p = Config.params) :
    Raises i s code := by
  subst hp
  rw [Raises, exec_eq_runCommand hi]
  exact h

theorem exec_of_runCommand {i : Instr} (hi : i ≠ .sreset)
    (h : runCommand (commandOf p i).1 (commandOf p i).2 s = .next t) (hp : p = Config.params) : exec i s = .next t := by
  subst hp
  exact (exec_eq_runCommand hi s).trans h

/-! ## `BW_BIT`, `BW_BITS` and `HDR_WR` -/

/-- Settles O13: both commands append the low `n` bits of a number. -/
theorem bwBits : Obligations.BwBits := by
  intro s i n v hq hc hi
  have hp := Config.params_ok.stream_le
  obtain ⟨hs, run⟩ : i ≠ .sreset ∧ (commandOf Config.params i).2 s = putList Config.params (natBits v n) s := by
    rcases hi with ⟨b, rfl, rfl, rfl⟩ | ⟨c, rfl, rfl, hle, rfl⟩
    · exact ⟨nofun, by rw [natBits_bitNat, putList_singleton]; rfl⟩
    · refine ⟨nofun, ?_⟩
      rw [← putBits_eq_putList]
      exact (cmd_bind_of_ok (checkCount_of_le hle)).trans (cmd_bind_of_ok (cmd_get s))
  constructor
  · intro room
    obtain ⟨t, e, written⟩ := putList_written (natBits v n) hc hp (by rwa [natBits_length])
    exact ⟨t, exec_of_ok hs hq (run.trans e), written_bits written⟩
  · intro full
    obtain ⟨t, e⟩ := putList_overflow (natBits v n) hc hp (by rwa [natBits_length])
    exact raises_of_error hs hq (run.trans e)

/-- The header as one number of 56 bits (rule R280). -/
def headerOf (c : Cfg) : Nat := c.h.toNat * 2 ^ 40 + c.w.toNat * 2 ^ 24 + c.bs.toNat * 2 ^ 8 + c.qp.toNat

theorem headerOf_eq (c : Cfg) :
    headerOf c = c.h.toNat * 2 ^ (16 + (16 + 8)) + (c.w.toNat * 2 ^ (16 + 8) + (c.bs.toNat * 2 ^ 8 + c.qp.toNat)) := by
  rw [headerOf, Nat.add_assoc, Nat.add_assoc]

/-- `HDR_WR` appends the header's bits. -/
theorem hdrWr_run (p : Config.Params) (s : State) : Machine.hdrWr p s = putList p (natBits (headerOf s.cfg) 56) s := by
  have widths : s.cfg.w.toNat < 2 ^ 16 ∧ s.cfg.bs.toNat < 2 ^ 16 ∧ s.cfg.qp.toNat < 2 ^ 8 :=
    ⟨s.cfg.w.isLt, s.cfg.bs.isLt, s.cfg.qp.isLt⟩
  obtain ⟨hw, hb, hq⟩ := widths
  have parts : natBits (headerOf s.cfg) 56 =
      natBits s.cfg.h.toNat 16 ++ (natBits s.cfg.w.toNat 16 ++ (natBits s.cfg.bs.toNat 16 ++ natBits s.cfg.qp.toNat 8)) := by
    rw [natBits_append _ _ _ _ hq, natBits_append _ _ _ _ (by omega), natBits_append _ _ _ _ (by omega), headerOf_eq]
  have word : ∀ {w : Nat} (x : BitVec w), w ≤ 32 → (x.setWidth 32).toNat = x.toNat := fun x hw => by
    rw [BitVec.toNat_setWidth, Nat.mod_eq_of_lt (x.isLt.trans_le (Nat.pow_le_pow_right two_pos hw))]
  rw [parts, putList_append, putList_append, putList_append]
  refine (cmd_bind_of_ok (cmd_get s)).trans ?_
  simp only [putBits_eq_putList, word _ (show (16 : Nat) ≤ 32 by decide), word _ (show (8 : Nat) ≤ 32 by decide)]

/-- Settles O46: 56 bits move the writer on by seven bytes. -/
theorem hdrWr : Obligations.HdrWr := by
  intro p hp s hq hc v
  have run : (commandOf p .hdrWr).2 s = putList p (natBits v 56) s := hdrWr_run p s
  constructor
  · intro room
    obtain ⟨t, e, written⟩ := putList_written (natBits v 56) hc hp.stream_le (by rwa [natBits_length])
    obtain ⟨pos, cnt, new, old, outside, rest⟩ := written_bits written
    have next := runCommand_of_ok (w := []) hq (run.trans e)
    refine ⟨t, next, exec_of_runCommand (i := .hdrWr) nofun next, ?_, ?_, new, old, outside, rest⟩
    · simp only [outPos] at pos
      omega
    · simp only [outPos] at pos
      exact BitVec.eq_of_toNat_eq (by omega)
  · intro full
    obtain ⟨t, e⟩ := putList_overflow (natBits v 56) hc hp.stream_le (by rwa [natBits_length])
    have faults := faultsWith_of_error (i := .hdrWr) hp.stream_le hq (run.trans e)
    exact ⟨faults, raises_of_faultsWith nofun faults⟩

/-! ## The reader looks the next bits up -/

theorem bitNat_le (b : Bool) : bitNat b ≤ 1 := by cases b <;> decide

theorem two_mul_add_testBit (w : Nat) (b : Bool) (k : Nat) :
    (2 * w + bitNat b).testBit k = if k = 0 then b else w.testBit (k - 1) := by
  cases k with
  | zero => cases b <;> simp [bitNat]
  | succ k =>
    have half : (2 * w + bitNat b) / 2 = w := by have := bitNat_le b; omega
    rw [Nat.testBit_succ, half, if_neg (by omega), Nat.add_sub_cancel]

theorem bitNat_testBit_zero (v : Nat) : bitNat (v.testBit 0) = v % 2 := by
  rw [Nat.testBit_zero]
  rcases Nat.mod_two_eq_zero_or_one v with h | h <;> simp [bitNat, h]

/-- The next `n` bits are `v`'s. -/
theorem peek_eq_some_iff {n v : Nat} :
    peek p s n = some v ↔ v < 2 ^ n ∧ ∀ j, j < n → inBit p s j = some (v.testBit (n - 1 - j)) := by
  induction n generalizing v with
  | zero => simp [peek, eq_comm]
  | succ n ih =>
    constructor
    · intro e
      rw [peek] at e
      split at e
      next w b hw hb =>
        cases e
        obtain ⟨lt, bits⟩ := ih.1 hw
        refine ⟨by have := bitNat_le b; rw [Nat.pow_succ]; omega, fun j hj => ?_⟩
        rw [two_mul_add_testBit]
        by_cases hn : j = n
        · rw [if_pos (by omega), hn, hb]
        · rw [if_neg (by omega), bits j (by omega)]
          congr 2
          omega
      next => cases e
    · rintro ⟨lt, bits⟩
      have front : peek p s n = some (v / 2) := by
        refine ih.2 ⟨by rw [Nat.pow_succ] at lt; omega, fun j hj => ?_⟩
        rw [bits j (by omega), ← Nat.testBit_succ]
        congr 2
        omega
      have last := bits n (by omega)
      rw [show n + 1 - 1 - n = 0 by omega] at last
      rw [peek, front, last]
      simp only [bitNat_testBit_zero, Nat.div_add_mod]

theorem peek_isSome_iff {n : Nat} : (peek p s n).isSome = true ↔ ∀ j, j < n → (inBit p s j).isSome = true := by
  induction n with
  | zero => simp [peek]
  | succ n ih =>
    rw [peek]
    constructor
    · intro h j hj
      split at h
      next w b hw hb =>
        by_cases hn : j = n
        · rw [hn, hb]; rfl
        · exact ih.1 (by rw [hw]; rfl) j (by omega)
      next => cases h
    · intro h
      obtain ⟨v, hv⟩ := Option.isSome_iff_exists.1 (ih.2 fun j hj => h j (by omega))
      obtain ⟨b, hb⟩ := Option.isSome_iff_exists.1 (h n (by omega))
      rw [hv, hb]
      rfl

theorem peek_isSome_mono {m n : Nat} (hmn : m ≤ n) (h : (peek p s n).isSome = true) : (peek p s m).isSome = true :=
  peek_isSome_iff.2 fun j hj => peek_isSome_iff.1 h j (by omega)

theorem readerAfter_cnt_le (hc : s.br.cnt.toNat ≤ 8) (n : Nat) : (readerAfter s n).cnt.toNat ≤ 8 := by
  by_cases h : n ≤ s.br.cnt.toNat
  · rw [readerAfter_le h, BitVec.toNat_ofNat]
    omega
  · rw [readerAfter_gt (by omega), BitVec.toNat_ofNat]
    omega

end Sys2Proof.Proofs.Bits
end

section
/-! Reading bits after bits (rules R101, R108): the reader that has read `m` bits sees the rest of them; with it `BR_BIT`,
`BR_BITS`, `HDR_RD`, and the round trip through STREAM. -/

namespace Sys2Proof.Proofs.Reading

open Sys2Proof Sys2Proof.Machine Sys2Proof.Safety Sys2Proof.Proofs.Bits

variable {p : Config.Params} {s t u : State}

/-! ## Where a reader of `m` bits stands -/

/-- The last bit read from STREAM is in a byte of the readable part. -/
theorem last_byte {m : Nat} (h : (peek p s m).isSome = true) (hm : s.br.cnt.toNat < m) :
    s.br.ptr.toNat + (m - s.br.cnt.toNat + 7) / 8 - 1 < s.br.stop.toNat ∧
      s.br.ptr.toNat + (m - s.br.cnt.toNat + 7) / 8 - 1 < p.streamBytes ∧
      ∃ byte, cellsRead s.stream (s.br.ptr.toNat + (m - s.br.cnt.toNat + 7) / 8 - 1) = some byte := by
  obtain ⟨b, hb⟩ := Option.isSome_iff_exists.1 (peek_isSome_iff.1 h (m - 1) (by omega))
  obtain ⟨byte, h1, h2, h3, _⟩ := inBit_stream (by omega) hb
  have at' : s.br.ptr.toNat + (m - 1 - s.br.cnt.toNat) / 8 = s.br.ptr.toNat + (m - s.br.cnt.toNat + 7) / 8 - 1 := by omega
  rw [at'] at h1 h2 h3
  exact ⟨h1, h2, byte, h3⟩

/-- The reader's count and pointer once `m` bits are read. -/
theorem readerAfter_place {m : Nat} (h : (peek p s m).isSome = true)
    (hm : s.br.cnt.toNat < m) :
    (readerAfter s m).cnt.toNat = 8 * ((m - s.br.cnt.toNat + 7) / 8) - (m - s.br.cnt.toNat) ∧
      (readerAfter s m).ptr.toNat = s.br.ptr.toNat + (m - s.br.cnt.toNat + 7) / 8 := by
  have last := (last_byte h hm).1
  have stop := s.br.stop.isLt
  rw [readerAfter_gt hm]
  constructor
  · rw [BitVec.toNat_ofNat]
    omega
  · rw [BitVec.toNat_add, BitVec.toNat_ofNat]
    omega

theorem readerAfter_stop (m : Nat) : (readerAfter s m).stop = s.br.stop := by
  rcases Nat.lt_or_ge s.br.cnt.toNat m with h | h
  · rw [readerAfter_gt h]
  · rw [readerAfter_le h]

/-- The bits that follow the first `m` are the reader's next bits. -/
theorem inBit_afterRead {m j : Nat} (hc : s.br.cnt.toNat ≤ 8) (h : (peek p s m).isSome = true) :
    inBit p (afterRead s m) j = inBit p s (m + j) := by
  rcases Nat.lt_or_ge s.br.cnt.toNat m with hm | hm
  · obtain ⟨hcnt, hptr⟩ := readerAfter_place h hm
    obtain ⟨h1, h2, byte, h3⟩ := last_byte h hm
    have rhs : ¬ m + j < s.br.cnt.toNat := by omega
    rw [inBit, inBit, if_neg rhs]
    simp only [afterRead, readerAfter_stop, hcnt, hptr]
    by_cases hj : j < 8 * ((m - s.br.cnt.toNat + 7) / 8) - (m - s.br.cnt.toNat)
    · have at' : s.br.ptr.toNat + (m + j - s.br.cnt.toNat) / 8 =
          s.br.ptr.toNat + (m - s.br.cnt.toNat + 7) / 8 - 1 := by omega
      rw [if_pos hj, at', if_pos ⟨h1, h2⟩, readerAfter_gt hm, h3]
      simp only [Option.getD_some, Option.map_some, Option.some.injEq]
      congr 1
      omega
    · rw [if_neg hj]
      have place : s.br.ptr.toNat + (m - s.br.cnt.toNat + 7) / 8 +
            (j - (8 * ((m - s.br.cnt.toNat + 7) / 8) - (m - s.br.cnt.toNat))) / 8 =
          s.br.ptr.toNat + (m + j - s.br.cnt.toNat) / 8 := by omega
      have bit : 7 - (j - (8 * ((m - s.br.cnt.toNat + 7) / 8) - (m - s.br.cnt.toNat))) % 8 =
          7 - (m + j - s.br.cnt.toNat) % 8 := by omega
      rw [place, bit]
  · have hcnt : (BitVec.ofNat 4 (s.br.cnt.toNat - m)).toNat = s.br.cnt.toNat - m := by
      rw [BitVec.toNat_ofNat, Nat.mod_eq_of_lt (by omega)]
    rw [inBit, inBit]
    simp only [afterRead, readerAfter_le hm, hcnt]
    by_cases hj : m + j < s.br.cnt.toNat
    · rw [if_pos hj, if_pos (by omega)]
      congr 2
      omega
    · rw [if_neg hj, if_neg (by omega), show j - (s.br.cnt.toNat - m) = m + j - s.br.cnt.toNat by omega]

theorem afterRead_cnt_le (hc : s.br.cnt.toNat ≤ 8) (m : Nat) : (afterRead s m).br.cnt.toNat ≤ 8 := readerAfter_cnt_le hc m

theorem peek_afterRead_isSome {m n : Nat} (hc : s.br.cnt.toNat ≤ 8) (h : (peek p s (m + n)).isSome = true) :
    (peek p (afterRead s m) n).isSome = true :=
  peek_isSome_iff.2 fun j hj => by
    rw [inBit_afterRead hc (peek_isSome_mono (Nat.le_add_right m n) h)]
    exact peek_isSome_iff.1 h _ (by omega)

/-- Reading `m` bits and then `n` is reading `m + n`. -/
theorem afterRead_add {m n : Nat} (hc : s.br.cnt.toNat ≤ 8) (hp : p.streamBytes ≤ 2 ^ 32 - 1)
    (h : (peek p s (m + n)).isSome = true) : afterRead (afterRead s m) n = afterRead s (m + n) := by
  induction n with
  | zero => exact afterRead_zero
  | succ n ih =>
    obtain ⟨b, hb⟩ := Option.isSome_iff_exists.1 (peek_isSome_iff.1 h (m + n) (by omega))
    have near := getBit_afterRead hc hp hb
    have far := getBit_afterRead (afterRead_cnt_le hc m) hp
      ((inBit_afterRead hc (peek_isSome_mono (by omega) h)).trans hb)
    rw [ih (peek_isSome_mono (by omega) h), near] at far
    injection far with _ same
    exact same.symm

/-! ## A run of bits in two fields -/

theorem testBit_front {v w n j : Nat} (hw : w < 2 ^ n) (m : Nat) (hj : j < m) :
    (v * 2 ^ n + w).testBit (m + n - 1 - j) = v.testBit (m - 1 - j) := by
  rw [Nat.mul_comm, Nat.testBit_two_pow_mul_add v hw, if_neg (by omega)]
  congr 1
  omega

theorem testBit_back {v w n k : Nat} (hw : w < 2 ^ n) (hk : k < n) : (v * 2 ^ n + w).testBit k = w.testBit k := by
  rw [Nat.mul_comm, Nat.testBit_two_pow_mul_add v hw, if_pos hk]

/-- The first `m` bits and the `n` bits the reader of them sees next. -/
theorem peek_split {m n v w : Nat} (hc : s.br.cnt.toNat ≤ 8) (hw : w < 2 ^ n)
    (h : peek p s (m + n) = some (v * 2 ^ n + w)) : peek p s m = some v ∧ peek p (afterRead s m) n = some w := by
  obtain ⟨lt, bits⟩ := peek_eq_some_iff.1 h
  have some' : (peek p s m).isSome = true := peek_isSome_mono (Nat.le_add_right m n) (by rw [h]; rfl)
  refine ⟨peek_eq_some_iff.2 ⟨?_, fun j hj => ?_⟩, peek_eq_some_iff.2 ⟨hw, fun j hj => ?_⟩⟩
  · rw [Nat.pow_add] at lt
    exact Nat.lt_of_mul_lt_mul_right (a := 2 ^ n) (by omega)
  · rw [bits j (by omega), testBit_front hw m hj]
  · rw [inBit_afterRead hc some', bits (m + j) (by omega), ← testBit_back hw (show n - 1 - j < n by omega)]
    congr 2
    omega

/-- The data end inside the first `m` bits, or inside the `n` bits the reader of them sees next. -/
theorem ended_split {m n : Nat} (hc : s.br.cnt.toNat ≤ 8) (h : Ended p s (m + n)) :
    Ended p s m ∨ ∃ v, peek p s m = some v ∧ Ended p (afterRead s m) n := by
  obtain ⟨k, hk, hcnt, h8, hv, hend⟩ := h
  by_cases hm : k < m
  · exact .inl ⟨k, hm, hcnt, h8, hv, hend⟩
  · have front := peek_isSome_mono (p := p) (s := s) (m := m) (by omega) hv
    obtain ⟨v, hv'⟩ := Option.isSome_iff_exists.1 front
    obtain ⟨d, rfl⟩ : ∃ d, k = m + d := ⟨k - m, by omega⟩
    have rest := peek_afterRead_isSome hc hv
    refine .inr ⟨v, hv', d, by omega, ?_⟩
    rcases Nat.lt_or_ge s.br.cnt.toNat m with hlt | hge
    · obtain ⟨pcnt, pptr⟩ := readerAfter_place front hlt
      simp only [afterRead, readerAfter_stop, pcnt, pptr] at rest ⊢
      refine ⟨by omega, by omega, rest, ?_⟩
      omega
    · have pcnt : (BitVec.ofNat 4 (s.br.cnt.toNat - m)).toNat = s.br.cnt.toNat - m := by
        rw [BitVec.toNat_ofNat, Nat.mod_eq_of_lt (by omega)]
      simp only [afterRead, readerAfter_le hge, pcnt] at rest ⊢
      refine ⟨by omega, by omega, rest, ?_⟩
      omega

theorem getBits_of_ended {n : Nat} (hc : s.br.cnt.toNat ≤ 8) (hp : p.streamBytes ≤ 2 ^ 32 - 1) (h : Ended p s n) :
    ∃ t, getBits p n s = .error (.fault .endOfStream) t := by
  obtain ⟨k, hk, hcnt, _, hv, hend⟩ := h
  obtain ⟨v, hv⟩ := Option.isSome_iff_exists.1 hv
  exact getBits_ended hc hp hk hv hcnt hend

/-! ## `BR_BIT` and `BR_BITS` -/

theorem getBit_eq_getBits (p : Config.Params) (s : State) :
    (do let b ← getBit p; setRes (bitWord b) : Cmd Unit) s = (do let v ← getBits p 1; setRes v : Cmd Unit) s := by
  have one : getBits p 1 s = (do let b ← getBit p; pure (bitWord b) : Cmd Word) s := by
    show (getBit p >>= fun b => pure ((0 <<< 1) ||| bitWord b) : Cmd Word) s = _
    simp only [cmd_bind]
    cases getBit p s with
    | ok b t => cases b <;> rfl
    | error e t => rfl
  rw [cmd_bind, cmd_bind, one, cmd_bind]
  cases getBit p s <;> rfl

/-- Settles O15: `RES` is the number of the bits read. -/
theorem brBits : Obligations.BrBits := by
  intro s i n hq hc hi
  have hp := Config.params_ok.stream_le
  obtain ⟨hs, run⟩ : i ≠ .sreset ∧
      (commandOf Config.params i).2 s = (do let v ← getBits Config.params n; setRes v : Cmd Unit) s := by
    rcases hi with ⟨rfl, rfl⟩ | ⟨c, rfl, rfl, hle⟩
    · exact ⟨nofun, getBit_eq_getBits Config.params s⟩
    · exact ⟨nofun, cmd_bind_of_ok (checkCount_of_le hle)⟩
  constructor
  · intro v hv
    exact exec_of_ok hs hq (run.trans (cmd_bind_of_ok (getBits_run hc hp hv)))
  · intro ended
    obtain ⟨t, e⟩ := getBits_of_ended hc hp ended
    exact raises_of_error hs hq (run.trans (cmd_bind_of_error e))

/-! ## `HDR_RD` -/

/-- What `HDR_RD` does with its four fields. -/
theorem hdrRd_fields {h w bs qp : Nat} (hc : s.br.cnt.toNat ≤ 8) (hp : p.streamBytes ≤ 2 ^ 32 - 1) (hw : w < 2 ^ 16)
    (hbs : bs < 2 ^ 16) (hqp : qp < 2 ^ 8)
    (e : peek p s 56 = some (h * 2 ^ 40 + w * 2 ^ 24 + bs * 2 ^ 8 + qp)) :
    Machine.hdrRd p s = (if Config.qpMax < qp then raise .configError
      else modify fun s => { s with cfg := { s.cfg with
        h := BitVec.ofNat 16 h, w := BitVec.ofNat 16 w, bs := BitVec.ofNat 16 bs, qp := BitVec.ofNat 8 qp } } : Cmd Unit)
      (afterRead s 56) := by
  have all : (peek p s 56).isSome = true := by rw [e]; rfl
  obtain ⟨e48, e8⟩ := peek_split (m := 48) (n := 8) (v := h * 2 ^ 32 + w * 2 ^ 16 + bs) hc hqp
    (e.trans (congrArg some (by omega)))
  obtain ⟨e32, e16''⟩ := peek_split (m := 32) (n := 16) (v := h * 2 ^ 16 + w) hc hbs (e48.trans (congrArg some (by omega)))
  obtain ⟨e16, e16'⟩ := peek_split (m := 16) (n := 16) hc hw e32
  have run1 := getBits_run hc hp e16
  have run2 := getBits_run (afterRead_cnt_le hc 16) hp e16'
  rw [afterRead_add hc hp (peek_isSome_mono (by omega) all)] at run2
  have run3 := getBits_run (afterRead_cnt_le hc 32) hp e16''
  rw [afterRead_add hc hp (peek_isSome_mono (by omega) all)] at run3
  have run4 := getBits_run (afterRead_cnt_le hc 48) hp e8
  rw [afterRead_add hc hp (peek_isSome_mono (by omega) all)] at run4
  have q : (BitVec.ofNat 32 qp).toNat = qp := by rw [BitVec.toNat_ofNat]; omega
  have cut : ∀ {k : Nat} (x : Nat), k ≤ 32 → (BitVec.ofNat 32 x).setWidth k = BitVec.ofNat k x := fun x hk =>
    BitVec.setWidth_ofNat_of_le hk x
  refine (cmd_bind_of_ok run1).trans ((cmd_bind_of_ok run2).trans ((cmd_bind_of_ok run3).trans
    ((cmd_bind_of_ok run4).trans ?_)))
  simp only [q, cut _ (show 16 ≤ 32 by decide), cut _ (show 8 ≤ 32 by decide)]

/-- Where the data end inside the header, one of the four fields meets the end. -/
theorem hdrRd_ended (hc : s.br.cnt.toNat ≤ 8) (hp : p.streamBytes ≤ 2 ^ 32 - 1) (h : Ended p s 56) :
    ∃ t, Machine.hdrRd p s = .error (.fault .endOfStream) t := by
  rcases ended_split (m := 16) (n := 40) hc h with h1 | ⟨v1, hv1, h1⟩
  · obtain ⟨t, e⟩ := getBits_of_ended hc hp h1
    exact ⟨t, cmd_bind_of_error e⟩
  have run1 := getBits_run hc hp hv1
  have c1 := afterRead_cnt_le hc 16
  generalize afterRead s 16 = s1 at *
  rcases ended_split (m := 16) (n := 24) c1 h1 with h2 | ⟨v2, hv2, h2⟩
  · obtain ⟨t, e⟩ := getBits_of_ended c1 hp h2
    exact ⟨t, (cmd_bind_of_ok run1).trans (cmd_bind_of_error e)⟩
  have run2 := getBits_run c1 hp hv2
  have c2 := afterRead_cnt_le c1 16
  generalize afterRead s1 16 = s2 at *
  rcases ended_split (m := 16) (n := 8) c2 h2 with h3 | ⟨v3, hv3, h3⟩
  · obtain ⟨t, e⟩ := getBits_of_ended c2 hp h3
    exact ⟨t, (cmd_bind_of_ok run1).trans ((cmd_bind_of_ok run2).trans (cmd_bind_of_error e))⟩
  have run3 := getBits_run c2 hp hv3
  obtain ⟨t, e⟩ := getBits_of_ended (afterRead_cnt_le c2 16) hp h3
  exact ⟨t, (cmd_bind_of_ok run1).trans ((cmd_bind_of_ok run2).trans ((cmd_bind_of_ok run3).trans (cmd_bind_of_error e)))⟩

/-- Settles O47: the quality decides once the four fields are read. -/
theorem hdrRd : Obligations.HdrRd := by
  intro p hok s hq hc
  have hp := hok.stream_le
  have faults : ∀ {k : FaultKind} {t : State}, Machine.hdrRd p s = .error (.fault k) t →
      FaultsWith (runCommand [] (Machine.hdrRd p) s) s (faultCode k) ∧ (p = Config.params → Raises .hdrRd s (faultCode k)) :=
    fun e => have f := faultsWith_of_error (i := .hdrRd) hp hq e; ⟨f, raises_of_faultsWith nofun f⟩
  constructor
  · intro h w bs qp _ hw hbs hqp e
    have run := hdrRd_fields hc hp hw hbs hqp e
    constructor
    · intro le
      rw [if_neg (show ¬Config.qpMax < qp from Nat.not_lt.2 le)] at run
      have next := runCommand_of_ok (w := []) hq run
      exact ⟨_, next, exec_of_runCommand (i := .hdrRd) nofun next, rfl⟩
    · intro gt
      rw [if_pos (show Config.qpMax < qp from gt)] at run
      exact faults run
  · intro ended
    obtain ⟨t, e⟩ := hdrRd_ended hc hp ended
    exact faults e

/-! ## What the writer wrote, the reader reads -/

/-- `put_align()` appends the zeros that complete the byte. -/
theorem alignLoop_written (k : Nat) (hc : s.bw.cnt.toNat ≤ 7) (hk : (8 - s.bw.cnt.toNat) % 8 ≤ k)
    (hp : p.streamBytes ≤ 2 ^ 32 - 1) (room : writerRoom p s ((8 - s.bw.cnt.toNat) % 8)) :
    ∃ t, alignLoop p k s = .ok () t ∧ Written s (List.replicate ((8 - s.bw.cnt.toNat) % 8) false) t := by
  induction k generalizing s with
  | zero => exact ⟨s, rfl, by rw [Nat.le_zero.1 hk]; exact Written.refl hc⟩
  | succ k ih =>
    rw [alignLoop]
    by_cases h0 : s.bw.cnt = 0
    · exact ⟨s, if_pos h0, by rw [h0]; exact Written.refl hc⟩
    · have pos : 0 < s.bw.cnt.toNat := Nat.pos_of_ne_zero fun z => h0 (BitVec.eq_of_toNat_eq z)
      obtain ⟨t, e, h⟩ := putBit_written false hc hp (writerRoom_mono (by omega) room)
      have hpos : outPos t = outPos s + 1 := h.pos
      have hcnt := h.cnt
      have rest : (8 - s.bw.cnt.toNat) % 8 = 1 + (8 - t.bw.cnt.toNat) % 8 := by
        simp only [outPos] at hpos
        omega
      rw [rest] at room ⊢
      obtain ⟨u, f, k'⟩ := ih hcnt (by omega) (h.room hc room)
      refine ⟨u, (if_neg h0).trans ((cmd_bind_of_ok e).trans f), ?_⟩
      rw [Nat.add_comm, List.replicate_succ]
      exact h.trans k' hc

theorem putAlign_written (hc : s.bw.cnt.toNat ≤ 7) (hp : p.streamBytes ≤ 2 ^ 32 - 1)
    (room : writerRoom p s ((8 - s.bw.cnt.toNat) % 8)) :
    ∃ t, putAlign p s = .ok () t ∧ Written s (List.replicate ((8 - s.bw.cnt.toNat) % 8) false) t ∧ t.bw.cnt = 0 := by
  obtain ⟨t, e, h⟩ := alignLoop_written 16 hc (by omega) hp room
  refine ⟨t, e, h, BitVec.eq_of_toNat_eq ?_⟩
  have pos := h.pos
  have cnt := h.cnt
  simp only [outPos, List.length_replicate] at pos
  show t.bw.cnt.toNat = 0
  omega

/-- A reader from a byte of the output to its end sees the output's bits. -/
theorem inBit_output {x : State} {start : Word} {b : Byte} {j : Nat} (hbr : x.br = ⟨b, 0, start, x.bw.ptr⟩)
    (hp : start.toNat + j / 8 < p.streamBytes) (hj : start.toNat + j / 8 < x.bw.ptr.toNat) :
    inBit p x j = outBit x (8 * start.toNat + j) := by
  have byte : (8 * start.toNat + j) / 8 = start.toNat + j / 8 := by omega
  have bit : (8 * start.toNat + j) % 8 = j % 8 := by omega
  rw [inBit, outBit, hbr]
  simp only [show (0 : BitVec 4).toNat = 0 from rfl, Nat.not_lt_zero, if_false, Nat.sub_zero, byte, bit]
  rw [if_pos ⟨hj, hp⟩, if_pos hj]

/-- Settles O17: the bits stand in STREAM from the byte they began at, and the reader takes as many bytes as the writer
filled. -/
theorem writeThenRead : Obligations.WriteThenRead := by
  intro s n hq hc hn room
  have hp := Config.params_ok.stream_le
  have hc0 : s.bw.cnt.toNat = 0 := by rw [hc]; rfl
  obtain ⟨t, e1, wrote⟩ := putList_written (s := s) (natBits s.arg.toNat n.toNat) (by omega) hp
    (by rw [natBits_length]; exact writerRoom_mono (Nat.le_add_right _ 7) room)
  have pos1 := wrote.pos
  have cnt1 := wrote.cnt
  rw [natBits_length] at pos1
  obtain ⟨u, e2, padded, cnt2⟩ := putAlign_written cnt1 hp
    (wrote.room (by omega) (by rw [natBits_length]; exact writerRoom_mono (by omega) room))
  have pos2 := padded.pos
  rw [List.length_replicate] at pos2
  have ptr : u.bw.ptr.toNat = s.bw.ptr.toNat + (n.toNat + 7) / 8 := by
    simp only [outPos, cnt2, show (0 : BitVec 4).toNat = 0 from rfl] at pos1 pos2
    omega
  have inside : ∀ j, j < n.toNat → s.bw.ptr.toNat + j / 8 < Config.params.streamBytes := fun j hj => by
    simp only [writerRoom, hc0] at room
    omega
  have quietT : Quiet t := by rw [Quiet, wrote.rest]; exact hq
  have quietU : Quiet u := by rw [Quiet, padded.rest]; exact quietT
  refine ⟨t, u, ?_, exec_of_ok (i := .bwAlign) nofun quietT e2, fun b => ?_⟩
  · refine exec_of_ok (i := .bwBits n) nofun hq ?_
    refine (cmd_bind_of_ok (checkCount_of_le hn)).trans ((cmd_bind_of_ok (cmd_get s)).trans ?_)
    exact (congrFun (putBits_eq_putList s.arg n.toNat) s).trans e1
  · let x : State := { u with br := ⟨b, 0, s.bw.ptr, u.bw.ptr⟩ }
    have bits : peek Config.params x n.toNat = some (s.arg.toNat % 2 ^ n.toNat) := by
      refine peek_eq_some_iff.2 ⟨Nat.mod_lt _ (Nat.two_pow_pos _), fun j hj => ?_⟩
      have old : outBit u (outPos s + j) = outBit t (outPos s + j) := padded.old _ (by omega)
      have new := wrote.new j _ (natBits_getElem s.arg.toNat hj)
      have start : outPos s = 8 * s.bw.ptr.toNat := by simp only [outPos]; omega
      calc inBit Config.params x j = outBit x (8 * s.bw.ptr.toNat + j) := inBit_output rfl (inside j hj) (by
            show s.bw.ptr.toNat + j / 8 < u.bw.ptr.toNat
            omega)
        _ = outBit u (outPos s + j) := by rw [start]; rfl
        _ = some ((s.arg.toNat % 2 ^ n.toNat).testBit (n.toNat - 1 - j)) := by
            rw [old, new, Nat.testBit_mod_two_pow, decide_eq_true (show n.toNat - 1 - j < n.toNat by omega), Bool.true_and]
    have hcx : x.br.cnt.toNat ≤ 8 := Nat.zero_le _
    refine ⟨{ afterRead x n.toNat with res := BitVec.ofNat 32 (s.arg.toNat % 2 ^ n.toNat) }, ?_, ?_, ?_⟩
    · refine exec_of_ok (i := .brBits n) nofun quietU ?_
      exact (cmd_bind_of_ok (checkCount_of_le hn)).trans (cmd_bind_of_ok (getBits_run hcx hp bits))
    · rw [BitVec.toNat_ofNat, Nat.mod_eq_of_lt]
      exact (Nat.mod_lt _ (Nat.two_pow_pos _)).trans_le (Nat.pow_le_pow_right two_pos hn)
    · refine BitVec.eq_of_toNat_eq ?_
      show (readerAfter x n.toNat).ptr.toNat = _
      rw [ptr]
      rcases Nat.eq_zero_or_pos n.toNat with h0 | h0
      · rw [h0, readerAfter_zero]
        rfl
      · exact (readerAfter_place (by rw [bits]; rfl) h0).2

end Sys2Proof.Proofs.Reading
end

section
/-! Probability models (file 41): the two updates, the cost estimates, and the active selectors. -/

namespace Sys2Proof.Proofs.Models

open Sys2Proof Sys2Proof.Machine Sys2Proof.Safety

theorem mpsNext_eq (x : Model) : mpsNext Config.params x = modelAfter x true := rfl

theorem lpsNext_eq (x : Model) : lpsNext Config.params x = modelAfter x false := rfl

theorem classIndex_eq_log2 (v : Nat) : classIndex v = Nat.log2 (v + 1) := rfl

/-- Settles O18: the tables are the machine's, and their bounds are those of its parameters. -/
theorem pmUpdates : Obligations.PmUpdates := by
  intro s m hq
  refine ⟨?_, ?_, Config.params_ok.mps_monotone _⟩
  · exact exec_of_ok (i := .pmMps m) nofun hq ((cmd_bind_of_ok (cmd_get s)).trans (cmd_modify _ s))
  · exact exec_of_ok (i := .pmLps m) nofun hq ((cmd_bind_of_ok (cmd_get s)).trans (cmd_modify _ s))

/-- Settles O19: one bin's cost, and the sum of a code's costs. -/
theorem estimates : Obligations.Estimates := by
  intro s m b hq
  refine ⟨?_, fun hne => ?_, fun heq => ?_⟩
  · exact exec_of_ok (i := .pmEst m b) nofun hq ((cmd_bind_of_ok (cmd_get s)).trans (setRes_run _ s))
  · exact exec_of_ok (i := .aeEgest m) nofun hq
      ((cmd_bind_of_ok (checkEgValue_of_ne hne)).trans ((cmd_bind_of_ok (cmd_get s)).trans (setRes_run _ s)))
  · exact raises_of_error (i := .aeEgest m) nofun hq (cmd_bind_of_error (checkEgValue_of_eq heq))

theorem resolve_of_aliasOf {s : State} {sel : Selector} {m : Fin 15} (h : aliasOf s.bucket sel = some m) :
    resolve sel s = m := by
  cases sel with
  | model k => cases h
  | asig | agt1 | alvl => exact Option.some.inj h

/-- Commands whose pseudocode does the same in a state do the same. -/
theorem exec_congr {i j : Instr} {s : State} (hi : i ≠ .sreset) (hj : j ≠ .sreset)
    (hw : (commandOf Config.params i).1 = (commandOf Config.params j).1)
    (h : (commandOf Config.params i).2 s = (commandOf Config.params j).2 s) : exec i s = exec j s := by
  rw [exec_eq_runCommand hi, exec_eq_runCommand hj, runCommand, runCommand, hw, h]

/-- A command that works on the selected model looks at the selector only through it. -/
theorem selected_congr {s : State} {sel sel' : Selector} (h : resolve sel s = resolve sel' s)
    (c : State → Fin 15 → Cmd Unit) :
    (do let s ← get; c s (resolve sel s) : Cmd Unit) s = (do let s ← get; c s (resolve sel' s) : Cmd Unit) s := by
  rw [cmd_bind_of_ok (cmd_get s), cmd_bind_of_ok (cmd_get s), h]

/-- So does one that first checks its operand, and the check leaves the state. -/
theorem checked_congr {s : State} {c : Cmd Unit} {f g : Cmd Unit} (hc : c s = .ok () s ∨ ∃ e t, c s = .error e t)
    (h : f s = g s) : (do c; f : Cmd Unit) s = (do c; g : Cmd Unit) s := by
  rcases hc with e | ⟨x, t, e⟩
  · rw [cmd_bind_of_ok e, cmd_bind_of_ok e, h]
  · rw [cmd_bind_of_error e, cmd_bind_of_error e]

theorem checkCount_cases (n : BitVec 8) (s : State) : checkCount n s = .ok () s ∨ ∃ e t, checkCount n s = .error e t := by
  rw [checkCount]
  split
  · exact .inl rfl
  · exact .inr ⟨_, _, rfl⟩

theorem checkEgValue_cases (s : State) : checkEgValue s = .ok () s ∨ ∃ e t, checkEgValue s = .error e t := by
  by_cases h : s.arg = 0xFFFFFFFF
  · exact .inr ⟨_, _, checkEgValue_of_eq h⟩
  · exact .inl (checkEgValue_of_ne h)

/-- Settles O20: every such command resolves its selector once, in the state it starts in. -/
theorem activeAliases : Obligations.ActiveAliases := by
  intro s sel m b n h
  have same : resolve sel s = resolve (.model m) s := resolve_of_aliasOf h
  let p := Config.params
  exact
    ⟨exec_congr nofun nofun rfl (selected_congr same fun _ m => updateMps p m),
     exec_congr nofun nofun rfl (selected_congr same fun _ m => updateLps p m),
     exec_congr nofun nofun rfl (selected_congr same fun s m => setRes (estimate p (modelAt s m) b)),
     exec_congr nofun nofun rfl (selected_congr same fun _ m => encodeBit p m b),
     exec_congr nofun nofun rfl (checked_congr (checkCount_cases n s)
      (selected_congr same fun s m => forBits (encodeBit p m) s.arg n.toNat)),
     exec_congr nofun nofun rfl (checked_congr (checkEgValue_cases s)
      (selected_congr same fun s m => encodeEg p m s.arg.toNat)),
     exec_congr nofun nofun rfl (checked_congr (checkEgValue_cases s)
      (selected_congr same fun s m => setRes (egCost p (modelAt s m) s.arg.toNat))),
     exec_congr nofun nofun rfl (selected_congr same fun _ m => do let b ← decodeBit p m; setRes (bitWord b)),
     exec_congr nofun nofun rfl (selected_congr same fun _ m => do let v ← decodeEg p m; setRes (BitVec.ofNat 32 v))⟩

end Sys2Proof.Proofs.Models
end

section
/-! The arithmetic decoder's commands (file 43): the session's start, a context bin, a bypass bin. -/

namespace Sys2Proof.Proofs.Decoding

open Sys2Proof Sys2Proof.Machine Sys2Proof.Safety Sys2Proof.Proofs.Bits Sys2Proof.Proofs.Reading Sys2Proof.Proofs.Models

variable {p : Config.Params} {s t u : State} {d : Decoder}

/-! ## The input of a state -/

theorem inBit_congr (hr : t.br = s.br) (hm : t.stream = s.stream) (j : Nat) : inBit p t j = inBit p s j := by
  rw [inBit, inBit, hr, hm]

/-- The next bits are the reader's and STREAM's alone. -/
theorem peek_congr (hr : t.br = s.br) (hm : t.stream = s.stream) (n : Nat) : peek p t n = peek p s n := by
  induction n with
  | zero => rfl
  | succ n ih => rw [peek, peek, ih, inBit_congr hr hm]

theorem ended_congr (hr : t.br = s.br) (hm : t.stream = s.stream) {n : Nat} (h : Ended p s n) : Ended p t n := by
  obtain ⟨k, hk, hcnt, h8, hv, hend⟩ := h
  exact ⟨k, hk, by rwa [hr], by rwa [hr], by rwa [peek_congr hr hm], by rwa [hr]⟩

theorem ended_setAd (d : Decoder) {n : Nat} (h : Ended p s n) : Ended p { s with ad := d } n :=
  ended_congr (s := s) (t := { s with ad := d }) rfl rfl h

/-! ## `AD_START` -/

/-- `AD_START` behind its reads. -/
theorem adStart_run {v : Nat} (hp : p.streamBytes ≤ 2 ^ 32 - 1)
    (e : peek p { s with br := { s.br with cnt := 0 } } 16 = some v) :
    adStart p s = .ok () { s with
      br := readerAfter { s with br := { s.br with cnt := 0 } } 16, ad := ⟨BitVec.ofNat 32 v, 510, 0xF8⟩,
      status := { s.status with decOpen := true } } := by
  have run := getBits_run (s := { s with br := { s.br with cnt := 0 } }) (Nat.zero_le 8) hp e
  exact (cmd_bind_of_ok (cmd_modify _ s)).trans ((cmd_bind_of_ok run).trans (cmd_modify _ _))

/-- Settles O27: the pattern is the 16 bits, below the scaled range 510 * 128 exactly when below 0xFF00. -/
theorem adStart : Obligations.AdStart := by
  intro p hok s hq a
  have hp := hok.stream_le
  constructor
  · intro v hv
    have next := runCommand_of_ok (w := []) hq (adStart_run hp hv)
    have pat : (BitVec.ofNat 32 v).toNat = v := by
      have := peek_lt hv
      rw [BitVec.toNat_ofNat]
      omega
    refine ⟨_, next, exec_of_runCommand (i := .adStart) nofun next, rfl, pat, startDec_inv _, ?_⟩
    show (BitVec.ofNat 32 v).toNat < 510 * 128 ↔ _
    rw [pat]
  · intro ended
    obtain ⟨t, e⟩ := getBits_of_ended (s := a) (Nat.zero_le 8) hp ended
    have faults := faultsWith_of_error (i := .adStart) hp hq
      ((cmd_bind_of_ok (cmd_modify _ s)).trans (cmd_bind_of_error e))
    exact ⟨faults, raises_of_faultsWith nofun faults⟩

/-! ## A context bin -/

theorem adLps_iff {m : Fin 15} :
    adLps p s m = true ↔ (s.ad.rng.toNat - (decodeWidth p s m).toNat) * 128 ≤ s.ad.pat.toNat := decide_eq_true_iff

/-- The part taken, the shift, the update and the value of a context bin (rule R171). -/
theorem decodeBit_lps {m : Fin 15} (hp : p.Ok) (hi : DecoderInv s.ad) (h : adLps p s m = true) :
    decodeBit p m s =
      (do pullNonneg p; updateLps p m; pure (!(modelAt s m).mps) : Cmd Bool) { s with ad := adRegs p s m } := by
  have hs := rng_sub (r := s.ad.rng) (w := decodeWidth p s m) (by have := (decodeWidth_bounds hp hi m).2; omega)
  have hge := adLps_iff.1 h
  unfold decodeBit
  simp only [scaledRange_toNat, hs, adRegs, h, if_true]
  rw [if_neg (by omega)]

theorem decodeBit_mpsShift {m : Fin 15} (hp : p.Ok) (hi : DecoderInv s.ad) (h : ¬adLps p s m = true)
    (h256 : s.ad.rng.toNat - (decodeWidth p s m).toNat < 256) :
    decodeBit p m s =
      (do pullAtZero p; updateMps p m; pure (modelAt s m).mps : Cmd Bool) { s with ad := adRegs p s m } := by
  have hs := rng_sub (r := s.ad.rng) (w := decodeWidth p s m) (by have := (decodeWidth_bounds hp hi m).2; omega)
  have hlt := mt adLps_iff.2 h
  unfold decodeBit
  simp only [scaledRange_toNat, hs, adRegs, if_neg h, if_pos h256]
  rw [if_pos (by omega)]

/-- A pull that needs a byte ends where the data end. -/
theorem pullNonneg_ended (hc : s.br.cnt.toNat ≤ 8) (hp : p.streamBytes ≤ 2 ^ 32 - 1) (h : 0 ≤ d.need.toInt)
    (ended : Ended p s 8) : ∃ t, pullNonneg p { s with ad := d } = .error (.fault .endOfStream) t := by
  obtain ⟨t, e⟩ := getBits_of_ended (s := { s with ad := d }) hc hp (ended_setAd _ ended)
  exact ⟨t, (if_pos h).trans (cmd_bind_of_error e)⟩

theorem pullAtZero_ended (hc : s.br.cnt.toNat ≤ 8) (hp : p.streamBytes ≤ 2 ^ 32 - 1) (h : d.need = 0)
    (ended : Ended p s 8) : ∃ t, pullAtZero p { s with ad := d } = .error (.fault .endOfStream) t := by
  obtain ⟨t, e⟩ := getBits_of_ended (s := { s with ad := { d with need := Config.needInit } }) hc hp (ended_setAd _ ended)
  exact ⟨t, (if_pos h).trans (cmd_bind_of_error e)⟩

theorem pullBypass_ended (hc : s.br.cnt.toNat ≤ 8) (hp : p.streamBytes ≤ 2 ^ 32 - 1) (h : 0 ≤ d.need.toInt)
    (ended : Ended p s 8) : ∃ t, pullBypass p { s with ad := d } = .error (.fault .endOfStream) t := by
  obtain ⟨t, e⟩ := getBits_of_ended (s := { s with ad := { d with need := Config.needInit } }) hc hp (ended_setAd _ ended)
  exact ⟨t, (if_pos h).trans (cmd_bind_of_error e)⟩

/-- A context bin that needs a byte ends where the data end. -/
theorem decodeBit_ended {m : Fin 15} (hp : p.Ok) (hi : DecoderInv s.ad) (hc : s.br.cnt.toNat ≤ 8)
    (pulls : 0 ≤ s.ad.need.toInt + adShift p s m) (ended : Ended p s 8) :
    ∃ t, decodeBit p m s = .error (.fault .endOfStream) t := by
  obtain ⟨need, -, -⟩ := adRegs_numbers m hp hi
  have hn := hi.need_le
  by_cases h : adLps p s m = true
  · obtain ⟨t, e⟩ := pullNonneg_ended (d := adRegs p s m) hc hp.stream_le (by omega) ended
    exact ⟨t, (decodeBit_lps hp hi h).trans (cmd_bind_of_error e)⟩
  · rw [adShift, if_neg h] at pulls need
    have h256 : s.ad.rng.toNat - (decodeWidth p s m).toNat < 256 := by
      by_contra h256
      rw [if_neg h256] at pulls
      omega
    rw [if_pos h256] at pulls need
    obtain ⟨t, e⟩ := pullAtZero_ended (d := adRegs p s m) hc hp.stream_le
      (BitVec.eq_of_toInt_eq (by rw [need]; show _ = (0 : Int); omega)) ended
    exact ⟨t, (decodeBit_mpsShift hp hi h h256).trans (cmd_bind_of_error e)⟩

theorem renormShift_eq {w : BitVec 8} (h : 2 ≤ w.toNat) : renormShift w = 8 - Nat.log2 w.toNat := by
  rw [renormShift, bitLength, if_neg (by omega)]
  omega

/-- Settles O28: `decodeBit_run` with the numbers the statement names. -/
theorem adBit : Obligations.AdBit := by
  intro s sel v hq hi hc m x w r lps n base part
  have hok := Config.params_ok
  have shift : adShift Config.params s m = n := by
    rw [adShift, renormShift_eq (decodeWidth_bounds hok hi m).1]
    rfl
  constructor
  · intro input
    obtain ⟨run, numbers⟩ := decodeBit_run m hok hi hc (v := v) (by rwa [shift])
    rw [shift] at numbers
    have numbers : Renormed s _ base n (part * 2 ^ n) v := numbers
    refine ⟨_, exec_of_ok (i := .adBit sel) nofun hq
      ((cmd_bind_of_ok (cmd_get s)).trans ((cmd_bind_of_ok run).trans (setRes_run _ _))), ?_, ?_,
      ⟨numbers.rng, numbers.pat, numbers.need, numbers.reader⟩, ?_⟩
    · show bitWord (lps != x.mps) = _
      by_cases h : lps = x.mps
      · rw [if_pos h, h, bne_self_eq_false]
        rfl
      · rw [if_neg h, bne_iff_ne.2 h]
        rfl
    · show (pulled s (adRegs Config.params s m) v).pm.set m.val _ = _
      rw [pulled_rest]
      refine congrArg (s.pm.set m.val · m.isLt) ?_
      show (if lps = true then lpsNext Config.params x else mpsNext Config.params x) = modelAfter x (!lps)
      cases lps <;> rfl
    · show ({ withModel _ m _ with res := _ } : State) = _
      rw [withModel, pulled_rest]
  · intro pulls ended
    obtain ⟨t, e⟩ := decodeBit_ended (m := m) hok hi hc (by rwa [shift]) ended
    exact raises_of_error (i := .adBit sel) nofun hq ((cmd_bind_of_ok (cmd_get s)).trans (cmd_bind_of_error e))

/-! ## A bypass bin -/

theorem decodeBypass_ended (hi : DecoderInv s.ad) (hp : p.streamBytes ≤ 2 ^ 32 - 1) (hc : s.br.cnt.toNat ≤ 8)
    (pulls : s.ad.need.toInt = -1) (ended : Ended p s 8) : ∃ t, decodeBypass p s = .error (.fault .endOfStream) t := by
  have need : (s.ad.need + 1 : BitVec 8).toInt = s.ad.need.toInt + 1 := need_add (n := 1) (by omega) hi.need_ge hi.need_le
  obtain ⟨t, e⟩ := pullBypass_ended (d := { s.ad with pat := s.ad.pat <<< 1, need := s.ad.need + 1 }) hc hp
    (by simp only [need]; omega) ended
  exact ⟨t, (cmd_bind_of_ok (cmd_modify _ s)).trans (cmd_bind_of_error e)⟩

/-- The comparison of a bypass bin, in numbers (rule R172). -/
theorem compareBypass_run (s : State) :
    compareBypass s = .ok (decide (s.ad.rng.toNat * 128 ≤ s.ad.pat.toNat))
      { s with
        ad := { s.ad with
          pat := BitVec.ofNat 32
            (if s.ad.rng.toNat * 128 ≤ s.ad.pat.toNat then s.ad.pat.toNat - s.ad.rng.toNat * 128 else s.ad.pat.toNat) } } := by
  unfold compareBypass
  rw [scaledRange_toNat]
  split
  next h =>
    have sub : s.ad.pat - scaledRange s.ad.rng = BitVec.ofNat 32 (s.ad.pat.toNat - s.ad.rng.toNat * 128) := by
      refine BitVec.eq_of_toNat_eq ?_
      rw [BitVec.toNat_sub_of_le (by rw [BitVec.le_def, scaledRange_toNat]; exact h), scaledRange_toNat, BitVec.toNat_ofNat,
        Nat.mod_eq_of_lt (by have := s.ad.pat.isLt; omega)]
    rw [sub, decide_eq_true h]
  next h => rw [decide_eq_false h, BitVec.ofNat_toNat, BitVec.setWidth_eq]

/-- Settles O29: the pattern doubled, with the byte pulled, and then compared. -/
theorem adByp : Obligations.AdByp := by
  intro s v hq hi hc pulls P one
  have hok := Config.params_ok
  have need_ge := hi.need_ge
  have need_le := hi.need_le
  constructor
  · intro input
    obtain ⟨d, numbers, run⟩ := decodeBypass_run (v := v) hok hi hc fun h => input (decide_eq_true h)
    obtain ⟨rng, pat, need, reader⟩ := numbers
    have pulls_iff : (0 ≤ s.ad.need.toInt + (1 : Nat)) ↔ pulls = true := by
      rw [decide_eq_true_iff]
      omega
    have rngW := BitVec.eq_of_toNat_eq rng
    have patP : (pulled s d v).ad.pat.toNat = P := by
      rw [pat]
      by_cases h : s.ad.need.toInt = -1
      · simp only [P, pulls, h, decide_true, if_true]
        norm_num
        rw [Nat.mul_comm]
      · have hn : ¬(0 ≤ s.ad.need.toInt + (1 : Nat)) := by omega
        simp only [P, pulls, h, decide_false, if_neg hn, Bool.false_eq_true, if_false]
        rw [Nat.mul_comm, Nat.pow_one]
    have needW : (pulled s d v).ad.need = if pulls then 0xF8 else s.ad.need + 1 := by
      refine BitVec.eq_of_toInt_eq ?_
      rw [need]
      by_cases h : s.ad.need.toInt = -1
      · have hp : pulls = true := decide_eq_true h
        rw [if_pos (pulls_iff.2 hp), if_pos hp, h]
        rfl
      · have hp : ¬pulls = true := by rwa [decide_eq_true_iff]
        rw [if_neg (mt pulls_iff.1 hp), if_neg hp]
        exact (need_add (n := 1) (by omega) need_ge need_le).symm
    have readerW : (pulled s d v).br = if pulls then readerAfter s 8 else s.br := by
      rw [reader]
      exact if_congr pulls_iff rfl rfl
    have rest := pulled_rest s d v
    have bin := run.trans (compareBypass_run (pulled s d v))
    rw [patP, rngW] at bin
    refine exec_of_ok (i := .adByp) nofun hq ((cmd_bind_of_ok bin).trans ?_)
    refine congrArg (EStateM.Result.ok ()) ?_
    rw [rest]
    simp only [needW, readerW, rngW, bitWord, one, decide_eq_true_eq]
  · intro pulling ended
    obtain ⟨t, e⟩ := decodeBypass_ended hi hok.stream_le hc (of_decide_eq_true pulling) ended
    exact raises_of_error (i := .adByp) nofun hq (cmd_bind_of_error e)

end Sys2Proof.Proofs.Decoding
end

section
/-! Runs of bins through the decoder (files 43, 44, 48): what a run leaves to read, and the numbers put together from its
answers. -/

namespace Sys2Proof.Proofs.BinRuns

open Sys2Proof Sys2Proof.Machine Sys2Proof.Safety Sys2Proof.Proofs.Bits Sys2Proof.Proofs.Reading Sys2Proof.Proofs.Models
  Sys2Proof.Proofs.Decoding

variable {p : Config.Params} {s t u : State}

/-! ## Lists of bins -/

theorem decodesTo_append {xs ys : List Bin} :
    DecodesTo p (xs ++ ys) s t ↔ ∃ u, DecodesTo p xs s u ∧ DecodesTo p ys u t := by
  induction xs generalizing s with
  | nil => exact ⟨fun h => ⟨s, rfl, h⟩, fun ⟨u, e, h⟩ => by cases e; exact h⟩
  | cons x xs ih =>
    cases x with
    | ctx m b | byp b =>
      constructor
      · rintro ⟨v, e, h⟩
        obtain ⟨u, h1, h2⟩ := ih.1 h
        exact ⟨u, ⟨v, e, h1⟩, h2⟩
      · rintro ⟨u, ⟨v, e, h1⟩, h2⟩
        exact ⟨v, e, ih.2 ⟨u, h1, h2⟩⟩

theorem bypBins_eq_map (v n : Nat) : bypBins v n = (natBits v n).map Bin.byp := by
  induction n with
  | zero => rfl
  | succ n ih => rw [bypBins, ih]; rfl

/-- A number of `n + 1` bits is its first bit and the number of the others. -/
theorem bypBins_succ (b : Bool) {v n : Nat} (hv : v < 2 ^ n) :
    bypBins (bitNat b * 2 ^ n + v) (n + 1) = .byp b :: bypBins v n := by
  have parts := natBits_append (bitNat b) v 1 n hv
  rw [natBits_bitNat, Nat.add_comm 1 n] at parts
  rw [bypBins_eq_map, ← parts, bypBins_eq_map]
  rfl

theorem bypBins_mod (v n : Nat) : bypBins (v % 2 ^ n) n = bypBins v n := by
  rw [bypBins_eq_map, bypBins_eq_map]
  refine congrArg (List.map Bin.byp) (List.ext_getElem? fun j => ?_)
  by_cases hj : j < n
  · rw [natBits_getElem _ hj, natBits_getElem _ hj, Nat.testBit_mod_two_pow,
      decide_eq_true (show n - 1 - j < n by omega), Bool.true_and]
  · rw [List.getElem?_eq_none (by simpa using hj), List.getElem?_eq_none (by simpa using hj)]

/-- Bypass answers put together behind a number. -/
theorem collectBits_of_decodesTo {v w n : Nat} (hv : v < 2 ^ n) (h : DecodesTo p (bypBins v n) s t) :
    collectBits (decodeBypass p) n (BitVec.ofNat 32 w) s = .ok (BitVec.ofNat 32 (w * 2 ^ n + v)) t := by
  induction n generalizing v w s with
  | zero =>
    cases h
    rw [show v = 0 by omega, Nat.pow_zero, Nat.mul_one, Nat.add_zero]
    rfl
  | succ n ih =>
    obtain ⟨b, v', hv', rfl⟩ : ∃ b v', v' < 2 ^ n ∧ v = bitNat b * 2 ^ n + v' := by
      by_cases top : v < 2 ^ n
      · exact ⟨false, v, top, by simp [bitNat]⟩
      · exact ⟨true, v - 2 ^ n, by rw [Nat.pow_succ] at hv; omega, by simp only [bitNat, if_true]; omega⟩
    rw [bypBins_succ b hv'] at h
    obtain ⟨u, e, h⟩ := h
    refine (cmd_bind_of_ok e).trans ?_
    rw [shift_ofNat, ih hv' h]
    congr 2
    ring

/-! ## What a bin needs and leaves -/

/-- A state in which the decoder can go on, given input (rules R19, R23). -/
structure Ready (s : State) : Prop where
  inv : DecoderInv s.ad
  cnt : s.br.cnt.toNat ≤ 8

/-- Every byte of input of `s` but the next one is still there in `t`. -/
def OneByteUsed (p : Config.Params) (s t : State) : Prop :=
  ∀ n, (peek p s (8 + n)).isSome = true → (peek p t n).isSome = true

theorem oneByteUsed_of {pulls : Prop} [Decidable pulls] (hc : s.br.cnt.toNat ≤ 8)
    (hr : t.br = if pulls then readerAfter s 8 else s.br) (hm : t.stream = s.stream) : OneByteUsed p s t := by
  intro n h
  by_cases hp : pulls
  · rw [if_pos hp] at hr
    rw [peek_congr (s := afterRead s 8) hr hm]
    exact peek_afterRead_isSome hc h
  · rw [if_neg hp] at hr
    rw [peek_congr hr hm]
    exact peek_isSome_mono (Nat.le_add_left n 8) h

theorem reader_cnt_of {pulls : Prop} [Decidable pulls] (hc : s.br.cnt.toNat ≤ 8)
    (hr : t.br = if pulls then readerAfter s 8 else s.br) : t.br.cnt.toNat ≤ 8 := by
  rw [hr]
  split
  · exact readerAfter_cnt_le hc 8
  · exact hc

theorem exists_peek {q : Prop} [Decidable q] {n : Nat} (h : q → (peek p s n).isSome = true) :
    ∃ v, q → peek p s n = some v := by
  by_cases hq : q
  · obtain ⟨v, hv⟩ := Option.isSome_iff_exists.1 (h hq)
    exact ⟨v, fun _ => hv⟩
  · exact ⟨0, fun h => absurd h hq⟩

/-- A context bin answers by its choice, with one byte of input at most. -/
theorem decodeBit_answers (m : Fin 15) (hp : p.Ok) (hs : Ready s)
    (input : 0 ≤ s.ad.need.toInt + adShift p s m → (peek p s 8).isSome = true) :
    ∃ t, decodeBit p m s = .ok (adLps p s m != (modelAt s m).mps) t ∧ Ready t ∧ OneByteUsed p s t := by
  obtain ⟨v, hv⟩ := exists_peek input
  obtain ⟨e, numbers⟩ := decodeBit_run m hp hs.inv hs.cnt hv
  have reader := numbers.reader
  refine ⟨_, e, ⟨(decodeBit_inv hp e hs.inv).1, reader_cnt_of hs.cnt reader⟩, oneByteUsed_of hs.cnt reader ?_⟩
  show (pulled s (adRegs p s m) v).stream = s.stream
  rw [pulled_rest]

/-- A bypass bin answers, with one byte of input when eight bits open. -/
theorem decodeBypass_answers (hp : p.Ok) (hs : Ready s)
    (input : s.ad.need.toInt = -1 → (peek p s 8).isSome = true) :
    ∃ b t, decodeBypass p s = .ok b t ∧ Ready t ∧ t.stream = s.stream ∧
      t.ad.need.toInt = (if s.ad.need.toInt = -1 then -8 else s.ad.need.toInt + 1) ∧
      t.br = (if s.ad.need.toInt = -1 then readerAfter s 8 else s.br) := by
  obtain ⟨v, hv⟩ := exists_peek input
  obtain ⟨d, numbers, run⟩ := decodeBypass_run hp hs.inv hs.cnt hv
  have e := run.trans (compareBypass_run (pulled s d v))
  have rest := pulled_rest s d v
  have pulls_iff : (0 ≤ s.ad.need.toInt + (1 : Nat)) ↔ s.ad.need.toInt = -1 := by
    have := hs.inv.need_le
    omega
  have reader : (pulled s d v).br = if s.ad.need.toInt = -1 then readerAfter s 8 else s.br :=
    numbers.reader.trans (if_congr pulls_iff rfl rfl)
  refine ⟨_, _, e, ⟨(decodeBypass_inv e hs.inv).1, reader_cnt_of hs.cnt reader⟩, by rw [rest], ?_, reader⟩
  show (pulled s d v).ad.need.toInt = _
  rw [numbers.need, if_congr pulls_iff rfl rfl]
  split
  next h => rw [h]; rfl
  next => rfl

theorem decodeBypass_oneByte (hp : p.Ok) (hs : Ready s) (input : (peek p s 8).isSome = true) :
    ∃ b t, decodeBypass p s = .ok b t ∧ Ready t ∧ OneByteUsed p s t := by
  obtain ⟨b, t, e, ready, hm, -, hr⟩ := decodeBypass_answers hp hs fun _ => input
  exact ⟨b, t, e, ready, oneByteUsed_of hs.cnt hr hm⟩

/-! ## `AD_BYPS` -/

/-- The decoder answers `n` bypass bins with one byte of input for each eight bits that open (rule R173). -/
theorem bypass_run_exists (hp : p.Ok) (n : Nat) (hs : Ready s)
    (input : (peek p s (8 * (((s.ad.need.toInt + 8).toNat + n) / 8))).isSome = true) :
    ∃ v t, v < 2 ^ n ∧ DecodesTo p (bypBins v n) s t := by
  induction n generalizing s with
  | zero => exact ⟨0, s, Nat.one_pos, rfl⟩
  | succ n ih =>
    have need_ge := hs.inv.need_ge
    have need_le := hs.inv.need_le
    obtain ⟨b, u, e, ready, hm, need, reader⟩ := decodeBypass_answers hp hs fun h => peek_isSome_mono (by omega) input
    have rest : (peek p u (8 * (((u.ad.need.toInt + 8).toNat + n) / 8))).isSome = true := by
      by_cases h : s.ad.need.toInt = -1
      · rw [if_pos h] at need reader
        rw [peek_congr (s := afterRead s 8) reader hm]
        refine peek_afterRead_isSome hs.cnt (peek_isSome_mono ?_ input)
        omega
      · rw [if_neg h] at need reader
        rw [peek_congr reader hm]
        exact peek_isSome_mono (by omega) input
    obtain ⟨v, t, hv, run⟩ := ih ready rest
    refine ⟨bitNat b * 2 ^ n + v, t, ?_, ?_⟩
    · have := bitNat_le b
      rw [Nat.pow_succ]
      nlinarith
    · rw [bypBins_succ b hv]
      exact ⟨u, e, run⟩

/-- Settles O30: the loop's answers are the bits of `RES`. -/
theorem adByps : Obligations.AdByps := by
  intro s n hq hn
  have run : ∀ v t, v < 2 ^ n.toNat → DecodesTo Config.params (bypBins v n.toNat) s t →
      exec (.adByps n) s = .next { t with res := BitVec.ofNat 32 v } := by
    intro v t hv h
    have e := collectBits_of_decodesTo (w := 0) hv h
    rw [Nat.zero_mul, Nat.zero_add] at e
    exact exec_of_ok nofun hq ((cmd_bind_of_ok (checkCount_of_le hn)).trans ((cmd_bind_of_ok e).trans (setRes_run _ t)))
  refine ⟨run, fun hi hc input => ?_⟩
  obtain ⟨v, t, hv, h⟩ := bypass_run_exists Config.params_ok n.toNat ⟨hi, hc⟩ input
  exact ⟨v, t, hv, h, run v t hv h⟩

/-! ## The Exp-Golomb code -/

theorem decodePrefix_run {m : Fin 15} {k left : Nat} (hk : k < left) (hl : left ≤ 32)
    (h : DecodesTo p (List.replicate k (.ctx m false) ++ [.ctx m true]) s t) :
    decodePrefix p m left s = .ok (32 - left + k) t := by
  induction k generalizing left s with
  | zero =>
    obtain ⟨left, rfl⟩ : ∃ l, left = l + 1 := ⟨left - 1, by omega⟩
    obtain ⟨u, e, rfl⟩ := h
    rw [show 32 - (left + 1) + 0 = 31 - left by omega]
    exact cmd_bind_of_ok e
  | succ k ih =>
    obtain ⟨left, rfl⟩ : ∃ l, left = l + 1 := ⟨left - 1, by omega⟩
    obtain ⟨u, e, h⟩ := h
    refine (cmd_bind_of_ok e).trans ?_
    rw [show 32 - (left + 1) + (k + 1) = 32 - left + k by omega]
    exact ih (by omega) (by omega) h

/-- As many zeros as the prefix may have are one too many (rule R193). -/
theorem decodePrefix_zeros {m : Fin 15} {left : Nat} (h : DecodesTo p (List.replicate left (.ctx m false)) s t) :
    decodePrefix p m left s = .error (.fault .syntaxRange) t := by
  induction left generalizing s with
  | zero => cases h; rfl
  | succ left ih =>
    obtain ⟨u, e, h⟩ := h
    exact (cmd_bind_of_ok e).trans (ih h)

/-- The top bit of a number and the number below it. -/
theorem two_pow_log2_add_mod {x : Nat} (hx : x ≠ 0) : 2 ^ Nat.log2 x + x % 2 ^ Nat.log2 x = x := by
  have ge := Nat.log2_self_le hx
  have lt : x < 2 ^ (Nat.log2 x + 1) := Nat.lt_log2_self
  rw [Nat.pow_succ] at lt
  rw [Nat.mod_eq_sub_mod ge, Nat.mod_eq_of_lt (by omega)]
  omega

theorem log2_lt_32 {v : Nat} (hv : v ≤ 2 ^ 32 - 2) : Nat.log2 (v + 1) < 32 :=
  (Nat.log2_lt (by omega)).2 (by omega)

/-- `AD_EG`'s reading returns the value whose bins the decoder answers (rule R192). -/
theorem decodeEg_run {m : Fin 15} {v : Nat} (hv : v ≤ 2 ^ 32 - 2) (h : DecodesTo p (egBins m v) s t) :
    decodeEg p m s = .ok v t := by
  obtain ⟨u, front, back⟩ := decodesTo_append.1 h
  have k32 := log2_lt_32 hv
  have zeros := decodePrefix_run (left := 32) k32 (le_refl _) front
  rw [Nat.sub_self, Nat.zero_add] at zeros
  rw [← bypBins_mod] at back
  have low := Nat.mod_lt (v + 1) (Nat.two_pow_pos (Nat.log2 (v + 1)))
  have suffix := collectBits_of_decodesTo (w := 0) low back
  rw [Nat.zero_mul, Nat.zero_add] at suffix
  refine (cmd_bind_of_ok zeros).trans ((cmd_bind_of_ok suffix).trans ?_)
  have value := two_pow_log2_add_mod (x := v + 1) (Nat.succ_ne_zero v)
  have small : (BitVec.ofNat 32 ((v + 1) % 2 ^ Nat.log2 (v + 1))).toNat = (v + 1) % 2 ^ Nat.log2 (v + 1) := by
    rw [BitVec.toNat_ofNat]
    exact Nat.mod_eq_of_lt (by omega)
  refine congrArg (EStateM.Result.ok · t) ?_
  rw [small]
  omega

theorem decodeEg_zeros {m : Fin 15} (h : DecodesTo p (List.replicate 32 (.ctx m false)) s t) :
    decodeEg p m s = .error (.fault .syntaxRange) t := cmd_bind_of_error (decodePrefix_zeros h)

/-- With a byte for each, the decoder answers zeros with one model until a one or until there are `left` of them. -/
theorem prefix_run_exists (hp : p.Ok) (m : Fin 15) (left n : Nat) (hs : Ready s)
    (input : (peek p s (8 * left + n)).isSome = true) :
    (∃ k t, k < left ∧ DecodesTo p (List.replicate k (.ctx m false) ++ [.ctx m true]) s t ∧ Ready t ∧
      (peek p t n).isSome = true) ∨ ∃ t, DecodesTo p (List.replicate left (.ctx m false)) s t := by
  induction left generalizing s with
  | zero => exact .inr ⟨s, rfl⟩
  | succ left ih =>
    obtain ⟨u, e, ready, used⟩ := decodeBit_answers m hp hs fun _ => peek_isSome_mono (by omega) input
    have rest := used (8 * left + n) (by rwa [show 8 + (8 * left + n) = 8 * (left + 1) + n by omega])
    generalize (adLps p s m != (modelAt s m).mps) = b at e
    cases b with
    | true => exact .inl ⟨0, u, by omega, ⟨u, e, rfl⟩, ready, peek_isSome_mono (by omega) rest⟩
    | false =>
      rcases ih ready rest with ⟨k, t, hk, run, ready', rest'⟩ | ⟨t, run⟩
      · exact .inl ⟨k + 1, t, by omega, ⟨u, e, run⟩, ready', rest'⟩
      · exact .inr ⟨t, u, e, run⟩

theorem egBins_eq (m : Fin 15) {k v : Nat} (hv : v < 2 ^ k) :
    egBins m (2 ^ k + v - 1) = List.replicate k (.ctx m false) ++ [.ctx m true] ++ bypBins v k := by
  have pos := Nat.two_pow_pos k
  have top : Nat.log2 (2 ^ k + v - 1 + 1) = k := by
    rw [Nat.log2_eq_iff (by omega), Nat.pow_succ]
    omega
  have low : (2 ^ k + v - 1 + 1) % 2 ^ k = v := by
    rw [show 2 ^ k + v - 1 + 1 = v + 2 ^ k by omega, Nat.add_mod_right, Nat.mod_eq_of_lt hv]
  simp only [egBins, top]
  rw [← bypBins_mod (2 ^ k + v - 1 + 1), low]

/-- With 63 bytes of input the decoder answers some code, or 32 zeros. -/
theorem eg_run_exists (hp : p.Ok) (m : Fin 15) (hs : Ready s) (input : (peek p s 504).isSome = true) :
    (∃ v t, v ≤ 2 ^ 32 - 2 ∧ DecodesTo p (egBins m v) s t) ∨
      ∃ t, DecodesTo p (List.replicate 32 (.ctx m false)) s t := by
  rcases prefix_run_exists hp m 32 248 hs input with ⟨k, u, hk, front, ready, rest⟩ | zeros
  · obtain ⟨v, t, hv, back⟩ := bypass_run_exists hp k ready (by
      have := ready.inv.need_ge
      have := ready.inv.need_le
      exact peek_isSome_mono (by omega) rest)
    refine .inl ⟨2 ^ k + v - 1, t, ?_, ?_⟩
    · have := Nat.pow_le_pow_right two_pos (show k ≤ 31 by omega)
      omega
    · rw [egBins_eq m hv]
      exact decodesTo_append.2 ⟨u, front, back⟩
  · exact .inr zeros

theorem egBins_zero (m : Fin 15) : egBins m 0 = [.ctx m true] := rfl

/-- Settles O33: a code read is a value, 32 zeros are none, and 63 bytes hold one or the other. -/
theorem adEg : Obligations.AdEg := by
  intro p s sel hq m
  have run : ∀ v t, v ≤ 2 ^ 32 - 2 → DecodesTo p (egBins m v) s t →
      runCommand [] (Machine.adEg p sel) s = .next { t with res := BitVec.ofNat 32 v } := fun v t hv h =>
    runCommand_of_ok hq ((cmd_bind_of_ok (cmd_get s)).trans ((cmd_bind_of_ok (decodeEg_run hv h)).trans (setRes_run _ t)))
  have own : ∀ {t : State}, runCommand [] (Machine.adEg p sel) s = .next t → p = Config.params →
      exec (.adEg sel) s = .next t := fun h => exec_of_runCommand (i := .adEg sel) nofun h
  refine ⟨fun v t hv h => ⟨run v t hv h, own (run v t hv h)⟩, fun t h => ?_, fun hp hi hc => ⟨fun input => ?_, ?_⟩⟩
  · have e : (commandOf p (.adEg sel)).2 s = .error (.fault .syntaxRange) t :=
      (cmd_bind_of_ok (cmd_get s)).trans (cmd_bind_of_error (decodeEg_zeros h))
    have kept := ((commandOf_frame p (.adEg sel)).of_error_eq e).parts .stream
      (show Part.stream ∉ [Part.res, .reader, .decoder, .models] by decide)
    have faults := faultsWith_of_kept (w := []) hq e fun a _ => congrArg (cellsRead · a) kept
    exact ⟨faults, raises_of_faultsWith (i := .adEg sel) nofun faults⟩
  · exact eg_run_exists hp m ⟨hi, hc⟩ input
  · intro input x w choice
    obtain ⟨t, e, -, -⟩ := decodeBit_answers m hp ⟨hi, hc⟩ fun _ => input
    have one : (adLps p s m != (modelAt s m).mps) = true := by
      have lps : adLps p s m = !x.mps := choice
      rw [lps]
      cases h : x.mps <;> simp [show (modelAt s m).mps = x.mps from rfl, h]
    rw [one] at e
    have next := run 0 t (by omega) ⟨t, e, rfl⟩
    exact ⟨_, next, own next, ((decodeBit_frame p m).of_ok_eq e).fault.trans hq, rfl⟩

end Sys2Proof.Proofs.BinRuns
end

section
/-! The decoder's part of the stream syntax (file 48): a prediction mode, the partition bit, and a partition's
coefficients. -/

namespace Sys2Proof.Proofs.SyntaxDecoding

open Sys2Proof Sys2Proof.Machine Sys2Proof.Safety Sys2Proof.Proofs.Bits Sys2Proof.Proofs.Reading Sys2Proof.Proofs.Models
  Sys2Proof.Proofs.Decoding Sys2Proof.Proofs.BinRuns

variable {p : Config.Params} {s t u : State}

/-! ## The prediction mode -/

/-- The mode whose bins the decoder answers is the one `DEC_PMODE` returns (rule R288). -/
theorem decPmode_run {pm : PredMode} (h : DecodesTo p (pmodeBins pm) s t) :
    Machine.decPmode p s = .ok () { t with res := pmNumber pm } := by
  cases pm with
  | planar =>
    obtain ⟨_, e, rfl⟩ := h
    exact cmd_bind_of_ok e
  | dc =>
    obtain ⟨_, e, _, f, rfl⟩ := h
    exact (cmd_bind_of_ok e).trans (cmd_bind_of_ok f)
  | horizontal | vertical =>
    obtain ⟨_, e, _, f, _, g, rfl⟩ := h
    exact (cmd_bind_of_ok e).trans ((cmd_bind_of_ok f).trans (cmd_bind_of_ok g))

/-- Each run through the tree is the run of one mode. -/
theorem decPmode_inv (e : Machine.decPmode p s = .ok () u) :
    ∃ pm t, DecodesTo p (pmodeBins pm) s t ∧ u = { t with res := pmNumber pm } := by
  obtain ⟨b1, s1, e1, e⟩ := cmd_bind_ok_iff.1 e
  cases b1 with
  | true => cases e; exact ⟨.planar, s1, ⟨s1, e1, rfl⟩, rfl⟩
  | false =>
    obtain ⟨b2, s2, e2, e⟩ := cmd_bind_ok_iff.1 e
    cases b2 with
    | true => cases e; exact ⟨.dc, s2, ⟨s1, e1, s2, e2, rfl⟩, rfl⟩
    | false =>
      obtain ⟨b3, s3, e3, e⟩ := cmd_bind_ok_iff.1 e
      cases b3 with
      | true => cases e; exact ⟨.horizontal, s3, ⟨s1, e1, s2, e2, s3, e3, rfl⟩, rfl⟩
      | false => cases e; exact ⟨.vertical, s3, ⟨s1, e1, s2, e2, s3, e3, rfl⟩, rfl⟩

/-- With three bytes of input the decoder answers the bins of some mode. -/
theorem pmode_run_exists (hp : p.Ok) (hs : Ready s) (input : (peek p s 24).isSome = true) :
    ∃ pm t, DecodesTo p (pmodeBins pm) s t := by
  obtain ⟨s1, e1, r1, used1⟩ := decodeBit_answers 3 hp hs fun _ => peek_isSome_mono (by omega) input
  have input1 := used1 16 input
  generalize (adLps p s 3 != (modelAt s 3).mps) = b1 at e1
  cases b1 with
  | true => exact ⟨.planar, s1, s1, e1, rfl⟩
  | false =>
    obtain ⟨s2, e2, r2, used2⟩ := decodeBit_answers 4 hp r1 fun _ => peek_isSome_mono (by omega) input1
    have input2 := used2 8 input1
    generalize (adLps p s1 4 != (modelAt s1 4).mps) = b2 at e2
    cases b2 with
    | true => exact ⟨.dc, s2, s1, e1, s2, e2, rfl⟩
    | false =>
      obtain ⟨s3, e3, -, -⟩ := decodeBit_answers 5 hp r2 fun _ => input2
      generalize (adLps p s2 5 != (modelAt s2 5).mps) = b3 at e3
      cases b3 with
      | true => exact ⟨.horizontal, s3, s1, e1, s2, e2, s3, e3, rfl⟩
      | false => exact ⟨.vertical, s3, s1, e1, s2, e2, s3, e3, rfl⟩

/-- Settles O50: the tree's paths are the modes. -/
theorem decPmode : Obligations.DecPmode := by
  intro s t hq
  refine ⟨fun pm h => exec_of_ok nofun hq (decPmode_run h), fun u hu qu => ?_, fun p hp hi hc input => ?_⟩
  · exact decPmode_inv (exec_quiet hu nofun hq qu)
  · obtain ⟨pm, t', h⟩ := pmode_run_exists hp ⟨hi, hc⟩ input
    have next := runCommand_of_ok (w := []) hq (decPmode_run h)
    exact ⟨pm, t', h, next, exec_of_runCommand (i := .decPmode) nofun next⟩

/-! ## Registers the decoder does not look at -/

/-- `BUCKET` and `SCAN` changed, which the decoder neither sees nor writes. -/
def onSide (g : Fin 3 → Fin 3) (h : Cells Word → Cells Word) (s : State) : State :=
  { s with bucket := g s.bucket, scan := h s.scan }

/-- The pseudocode does the same beside such a change. -/
def Beside {α : Type} (f : State → State) (c : Cmd α) : Prop := ∀ s a t, c s = .ok a t → c (f s) = .ok a (f t)

section
variable {f : State → State} {g : Fin 3 → Fin 3} {h : Cells Word → Cells Word} {α β : Type}

theorem beside_pure (a : α) : Beside f (pure a) := fun s b t e => by cases e; rfl

theorem beside_bind {c : Cmd α} {k : α → Cmd β} (hc : Beside f c) (hk : ∀ a, Beside f (k a)) : Beside f (c >>= k) := by
  intro s b t e
  obtain ⟨a, u, e1, e2⟩ := cmd_bind_ok_iff.1 e
  exact (cmd_bind_of_ok (hc s a u e1)).trans (hk a u b t e2)

theorem beside_collectBits {c : Cmd Bool} (hc : Beside f c) (n : Nat) (acc : Word) : Beside f (collectBits c n acc) := by
  induction n generalizing acc with
  | zero => exact beside_pure acc
  | succ n ih => exact beside_bind hc fun _ => ih _

theorem beside_modify {k : State → State} (hk : ∀ s, k (f s) = f (k s)) : Beside f (modify k : Cmd Unit) := by
  intro s a t e
  cases e
  exact congrArg (EStateM.Result.ok ()) (hk s)

theorem beside_fetchByte : Beside (onSide g h) (fetchByte p) := by
  intro s a t e
  obtain ⟨b, h1, h2, hb⟩ : ∃ b, s.br.ptr.toNat < s.br.stop.toNat ∧ s.br.ptr.toNat < p.streamBytes ∧
      cellsRead s.stream s.br.ptr.toNat = some b := by
    unfold fetchByte at e
    split at e
    next => cases e
    next hlt =>
      split at e
      next b hb => exact ⟨b, by omega, by omega, hb⟩
      next => cases e
  rw [fetchByte_of_some h1 h2 hb] at e
  cases e
  exact fetchByte_of_some (s := onSide g h s) h1 h2 hb

theorem beside_takeBit : Beside (onSide g h) takeBit := by
  intro s a t e
  cases e
  rfl

theorem beside_getBit : Beside (onSide g h) (getBit p) := by
  intro s a t e
  by_cases h0 : s.br.cnt = 0
  · rw [getBit_of_empty h0] at e
    rw [getBit_of_empty (s := onSide g h s) h0]
    exact beside_bind beside_fetchByte (fun _ => beside_takeBit) s a t e
  · rw [getBit_of_cnt h0] at e
    rw [getBit_of_cnt (s := onSide g h s) h0]
    exact beside_takeBit s a t e

/-- A pull: the byte goes into the pattern. -/
theorem beside_pull (k : Word → Decoder → Decoder) :
    Beside (onSide g h) (do let byte ← getBits p 8; modify fun t => { t with ad := k byte t.ad } : Cmd Unit) :=
  beside_bind (beside_collectBits beside_getBit 8 0) fun _ => beside_modify fun _ => rfl

theorem beside_pullNonneg : Beside (onSide g h) (pullNonneg p) := by
  intro s a t e
  by_cases h0 : 0 ≤ s.ad.need.toInt
  · exact (if_pos h0).trans (beside_pull (fun byte d =>
      { d with pat := d.pat + (byte <<< d.need.toInt.toNat), need := d.need - 8 }) s a t ((if_pos h0).symm.trans e))
  · exact (if_neg h0).trans (beside_pure () s a t ((if_neg h0).symm.trans e))

theorem beside_pullAtZero : Beside (onSide g h) (pullAtZero p) := by
  intro s a t e
  by_cases h0 : s.ad.need = 0
  · exact (if_pos h0).trans (beside_pull (fun byte d => { d with pat := d.pat + byte })
      { s with ad := { s.ad with need := Config.needInit } } a t ((if_pos h0).symm.trans e))
  · exact (if_neg h0).trans (beside_pure () s a t ((if_neg h0).symm.trans e))

theorem beside_pullBypass : Beside (onSide g h) (pullBypass p) := by
  intro s a t e
  by_cases h0 : 0 ≤ s.ad.need.toInt
  · exact (if_pos h0).trans (beside_pull (fun byte d => { d with pat := d.pat + byte })
      { s with ad := { s.ad with need := Config.needInit } } a t ((if_pos h0).symm.trans e))
  · exact (if_neg h0).trans (beside_pure () s a t ((if_neg h0).symm.trans e))

theorem beside_compareBypass : Beside (onSide g h) compareBypass := by
  intro s a t e
  rw [compareBypass_run] at e
  cases e
  exact compareBypass_run (onSide g h s)

theorem beside_decodeBypass : Beside (onSide g h) (decodeBypass p) :=
  beside_bind (beside_modify fun _ => rfl) fun _ => beside_bind beside_pullBypass fun _ => beside_compareBypass

/-- The end of a context bin: the model's update and the answer. -/
theorem beside_update (m : Fin 15) (k : Model → Model) (b : Bool) :
    Beside (onSide g h) (do modify fun s => withModel s m (k (modelAt s m)); pure b : Cmd Bool) :=
  beside_bind (beside_modify fun _ => rfl) fun _ => beside_pure b

theorem beside_decodeBit (m : Fin 15) : Beside (onSide g h) (decodeBit p m) := by
  intro s a t e
  unfold decodeBit at e ⊢
  simp only [show (onSide g h s).ad = s.ad from rfl, show modelAt (onSide g h s) m = modelAt s m from rfl,
    show decodeWidth p (onSide g h s) m = decodeWidth p s m from rfl] at e ⊢
  split at e
  next mps =>
    rw [if_pos mps]
    split at e
    next shift =>
      rw [if_pos shift]
      exact beside_bind beside_pullAtZero (fun _ => beside_update m (mpsNext p) _) _ a t e
    next shift =>
      rw [if_neg shift]
      have ended := beside_update (g := g) (h := h) m (mpsNext p) _ _ a t e
      exact ended
  next lps =>
    rw [if_neg lps]
    generalize decodeLps s.ad _ _ = d at e ⊢
    exact beside_bind beside_pullNonneg (fun _ => beside_update m (lpsNext p) _) { s with ad := d } a t e

/-- The decoder answers the same bins beside the change. -/
theorem decodesTo_beside {xs : List Bin} (hd : DecodesTo p xs s t) :
    DecodesTo p xs (onSide g h s) (onSide g h t) := by
  induction xs generalizing s with
  | nil => cases hd; rfl
  | cons x xs ih =>
    cases x with
    | ctx m b =>
      obtain ⟨u, e, hd⟩ := hd
      exact ⟨onSide g h u, beside_decodeBit m s b u e, ih hd⟩
    | byp b =>
      obtain ⟨u, e, hd⟩ := hd
      exact ⟨onSide g h u, beside_decodeBypass s b u e, ih hd⟩

end

/-- `BUCKET` and `SCAN` replaced. -/
def setSide (b : Fin 3) (m : Cells Word) : State → State := onSide (fun _ => b) fun _ => m

theorem decodesTo_setSide {xs : List Bin} (b : Fin 3) (m : Cells Word) (h : DecodesTo p xs s t) :
    DecodesTo p xs (setSide b m s) (setSide b m t) := decodesTo_beside h

/-! ## One coefficient -/

theorem decodeMagnitude_large {bucket : Fin 3} {v : Nat} (hv : 2 + v ≤ 2 ^ 31 - 1)
    (h : DecodesTo p (.ctx (activeGt1 bucket) true :: egBins (activeLvl bucket) v) s t) :
    decodeMagnitude p bucket s = .ok (2 + v) t := by
  obtain ⟨u, e, h⟩ := h
  refine (cmd_bind_of_ok e).trans ((cmd_bind_of_ok (decodeEg_run (by omega) h)).trans ?_)
  rw [if_neg (by omega)]
  rfl

/-- The magnitude of a non-zero coefficient from its bins (rule R291). -/
theorem decodeMagnitude_run {bucket : Fin 3} {a : Nat} (h1 : 1 ≤ a) (h2 : a ≤ 2 ^ 31 - 1)
    (h : DecodesTo p ([.ctx (activeGt1 bucket) (decide (1 < a))] ++
      (if 1 < a then egBins (activeLvl bucket) (a - 2) else [])) s t) : decodeMagnitude p bucket s = .ok a t := by
  by_cases large : 1 < a
  · rw [decide_eq_true large, if_pos large] at h
    have e := decodeMagnitude_large (v := a - 2) (by omega) h
    rwa [show 2 + (a - 2) = a by omega] at e
  · rw [decide_eq_false large, if_neg large] at h
    obtain ⟨u, e, rfl⟩ := h
    rw [show a = 1 by omega]
    exact cmd_bind_of_ok e

/-- The stored word from a magnitude and a sign. -/
theorem signed_word {x : Word} (hx : x ≠ 0x80000000) :
    x.toInt.natAbs ≤ 2 ^ 31 - 1 ∧
      (if decide (x.toInt < 0) = true then -BitVec.ofNat 32 x.toInt.natAbs else BitVec.ofNat 32 x.toInt.natAbs) = x := by
  have hne : x.toInt ≠ -2 ^ 31 := fun h => hx (BitVec.eq_of_toInt_eq (by rw [h]; rfl))
  have lo := BitVec.le_toInt x
  have hi := BitVec.toInt_lt (x := x)
  refine ⟨by omega, ?_⟩
  have word : BitVec.ofInt 32 x.toInt = x := BitVec.ofInt_toInt
  by_cases neg : x.toInt < 0
  · rw [decide_eq_true neg, if_pos rfl, ← BitVec.ofInt_natCast, ← BitVec.ofInt_neg,
      show -(x.toInt.natAbs : Int) = x.toInt by omega, word]
  · rw [decide_eq_false neg, if_neg nofun, ← BitVec.ofInt_natCast, show (x.toInt.natAbs : Int) = x.toInt by omega, word]

/-- `SCAN` once coefficient `i` is `x`: a zero is not stored. -/
def storeCoefficient (m : Cells Word) (i : Nat) (x : Word) : Cells Word := if x = 0 then m else cellsWrite m i x

/-- One coefficient from its bins (rule R291): the last one is not zero. -/
theorem decodeCoefficient_run {n last i : Nat} {x : Word} {b : Fin 3} {m : Cells Word} (hx : x ≠ 0x80000000)
    (hlast : i = last → x ≠ 0) (h : DecodesTo p (coefficientBins (bucketAt n i) (i == last) x.toInt) s t) :
    decodeCoefficient p n last i (setSide b m s) =
      .ok () (setSide (bucketAt n i) (storeCoefficient m i x) t) := by
  have zero_iff : x.toInt = 0 ↔ x = 0 := ⟨fun h => BitVec.eq_of_toInt_eq h, fun h => by rw [h]; rfl⟩
  obtain ⟨small, word⟩ := signed_word hx
  obtain ⟨u, front, back⟩ := decodesTo_append.1 h
  have front := decodesTo_setSide (bucketAt n i) m front
  have back := decodesTo_setSide (bucketAt n i) m back
  have sig : decodeSig p n last i (setSide (bucketAt n i) m s) = .ok (decide (x ≠ 0)) (setSide (bucketAt n i) m u) := by
    unfold decodeSig
    by_cases hi : i = last
    · rw [if_pos (beq_iff_eq.2 hi)] at front
      have same : setSide (bucketAt n i) m u = setSide (bucketAt n i) m s := front
      rw [if_pos hi, decide_eq_true (hlast hi), same]
      rfl
    · rw [if_neg (mt beq_iff_eq.1 hi)] at front
      obtain ⟨v, e, rfl⟩ := front
      rw [if_neg hi, decide_eq_decide.2 (not_congr zero_iff).symm]
      exact e
  refine (cmd_bind_of_ok (cmd_modify _ _)).trans ((cmd_bind_of_ok sig).trans ?_)
  by_cases h0 : x = 0
  · rw [if_pos (zero_iff.2 h0)] at back
    rw [decide_eq_false (not_not.2 h0), storeCoefficient, if_pos h0]
    exact congrArg (EStateM.Result.ok ()) back.symm
  · rw [if_neg (mt zero_iff.1 h0)] at back
    obtain ⟨v, magnitude, sign⟩ := decodesTo_append.1 back
    obtain ⟨w, e, rfl⟩ := sign
    rw [decide_eq_true h0, storeCoefficient, if_neg h0]
    refine (cmd_bind_of_ok (decodeMagnitude_run ?_ small magnitude)).trans ((cmd_bind_of_ok e).trans ?_)
    · have := mt zero_iff.1 h0
      omega
    · rw [word]
      rfl

/-! ## The coefficients of a partition -/

/-- `SCAN` once coefficients `k-1 .. 0` of a list have been stored. -/
def storeCoefficients (m : Cells Word) (xs : List Word) : Nat → Cells Word
  | 0 => m
  | i + 1 => storeCoefficients (storeCoefficient m i (xs.getD i 0)) xs i

theorem cellsRead_storeCoefficient (m : Cells Word) (i a : Nat) (x : Word) :
    cellsRead (storeCoefficient m i x) a = if a = i ∧ x ≠ 0 then some x else cellsRead m a := by
  unfold storeCoefficient
  by_cases h0 : x = 0
  · rw [if_pos h0, if_neg fun h => h.2 h0]
  · rw [if_neg h0]
    by_cases ha : a = i
    · rw [if_pos ⟨ha, h0⟩, ha, cellsRead_write_same]
    · rw [if_neg fun h => ha h.1, cellsRead_write_other _ _ ha]

theorem cellsRead_storeCoefficients (m : Cells Word) (xs : List Word) (k a : Nat) :
    cellsRead (storeCoefficients m xs k) a =
      if a < k ∧ xs.getD a 0 ≠ 0 then some (xs.getD a 0) else cellsRead m a := by
  induction k generalizing m with
  | zero => exact (if_neg fun h => Nat.not_lt_zero a h.1).symm
  | succ k ih =>
    rw [storeCoefficients, ih, cellsRead_storeCoefficient]
    rcases Nat.lt_trichotomy a k with h | h | h
    · simp only [h, Nat.lt_succ_of_lt h, true_and, h.ne, false_and, if_false]
    · simp only [h, Nat.lt_irrefl, Nat.lt_succ_self, false_and, true_and, if_false]
    · simp only [h.not_gt, h.ne', show ¬a < k + 1 by omega, false_and, if_false]

theorem getD_ne_min {xs : List Word} (h : 0x80000000 ∉ xs) (i : Nat) : xs.getD i 0 ≠ 0x80000000 := by
  intro e
  rcases Nat.lt_or_ge i xs.length with hi | hi
  · rw [List.getD_eq_getElem _ _ hi] at e
    exact h (e ▸ List.getElem_mem hi)
  · rw [List.getD_eq_default _ _ hi] at e
    exact absurd e (by decide)

/-- Coefficients `k-1 .. 0` from their bins (rule R291). -/
theorem decodeCoefficients_run {n last k : Nat} {xs : List Word} {b : Fin 3} {m : Cells Word} (hx : 0x80000000 ∉ xs)
    (hlast : xs.getD last 0 ≠ 0) (h : DecodesTo p (coefficientsBins n last xs k) s t) :
    decodeCoefficients p n last k (setSide b m s) =
      .ok () (setSide (if k = 0 then b else bucketAt n 0) (storeCoefficients m xs k) t) := by
  induction k generalizing s b m with
  | zero => cases h; rfl
  | succ i ih =>
    obtain ⟨u, first, rest⟩ := decodesTo_append.1 h
    refine (cmd_bind_of_ok (decodeCoefficient_run (getD_ne_min hx i) (fun hi => by rwa [hi]) first)).trans ?_
    rw [ih rest, if_neg (Nat.succ_ne_zero i), storeCoefficients]
    by_cases h0 : i = 0
    · rw [if_pos h0, h0]
    · rw [if_neg h0]

/-- The loop's first `k` turns from the bins of the coefficients from `last` downwards. -/
theorem decodeCoefficients_upper {n last k : Nat} {xs : List Word} {b : Fin 3} {m : Cells Word} (hk : k ≤ last)
    (hx : 0x80000000 ∉ xs) (hlast : 0 < k → xs.getD last 0 ≠ 0) (h : DecodesTo p (upperBins n last xs k) s t) :
    ∃ b' m', decodeCoefficients p n last (last + 1) (setSide b m s) =
      decodeCoefficients p n last (last - k + 1) (setSide b' m' t) := by
  induction k generalizing t with
  | zero => cases h; exact ⟨b, m, rfl⟩
  | succ k ih =>
    rw [upperBins, List.range_succ, List.flatMap_append, List.flatMap_singleton] at h
    obtain ⟨u, upper, next⟩ := decodesTo_append.1 h
    obtain ⟨b', m', e⟩ := ih (by omega) (fun _ => hlast (by omega)) upper
    have isLast : (k == 0) = (last - k == last) := by
      rw [Bool.eq_iff_iff, beq_iff_eq, beq_iff_eq]
      omega
    rw [isLast] at next
    have turn := decodeCoefficient_run (b := b') (m := m') (getD_ne_min hx (last - k))
      (fun hi => by rw [hi]; exact hlast (by omega)) next
    refine ⟨bucketAt n (last - k), storeCoefficient m' (last - k) (xs.getD (last - k) 0), e.trans ?_⟩
    rw [decodeCoefficients, cmd_bind_of_ok turn, show last - k = last - (k + 1) + 1 by omega]

/-! ## Bins no encoder writes -/

/-- A coefficient whose bins say that it is greater than one goes on to its level, and ends as that does. -/
theorem decodeCoefficient_large_error {n last i : Nat} {b : Fin 3} {m : Cells Word} {e : Stop}
    (h : DecodesTo p (largeBins n last i) s t)
    (stops : (do let v ← decodeEg p (activeLvl (bucketAt n i))
                 if 2 ^ 31 - 1 < 2 + v then raise .syntaxRange else pure (2 + v) : Cmd Nat)
      (setSide (bucketAt n i) m t) = .error e u) :
    decodeCoefficient p n last i (setSide b m s) = .error e u := by
  obtain ⟨v, sigBins, gt1⟩ := decodesTo_append.1 h
  have sigBins := decodesTo_setSide (bucketAt n i) m sigBins
  obtain ⟨w, large, rfl⟩ := decodesTo_setSide (bucketAt n i) m gt1
  have sig : decodeSig p n last i (setSide (bucketAt n i) m s) = .ok true (setSide (bucketAt n i) m v) := by
    unfold decodeSig
    by_cases hi : i = last
    · rw [if_pos hi] at sigBins
      have same : setSide (bucketAt n i) m v = setSide (bucketAt n i) m s := sigBins
      rw [if_pos hi, same]
      rfl
    · rw [if_neg hi] at sigBins
      obtain ⟨w, e, rfl⟩ := sigBins
      rw [if_neg hi]
      exact e
  have magnitude : decodeMagnitude p (bucketAt n i) (setSide (bucketAt n i) m v) = .error e u :=
    (cmd_bind_of_ok large).trans stops
  exact (cmd_bind_of_ok (cmd_modify _ _)).trans ((cmd_bind_of_ok sig).trans (cmd_bind_of_error magnitude))

/-- What follows a code for a level: a prefix of 32 zeros, or a level above 2^31 - 1, is a syntax error. -/
theorem level_prefix_error {m : Fin 15} (h : DecodesTo p (List.replicate 32 (.ctx m false)) s t) :
    (do let v ← decodeEg p m
        if 2 ^ 31 - 1 < 2 + v then raise .syntaxRange else pure (2 + v) : Cmd Nat) s = .error (.fault .syntaxRange) t :=
  cmd_bind_of_error (decodeEg_zeros h)

theorem level_range_error {m : Fin 15} {v : Nat} (hv : v ≤ 2 ^ 32 - 2) (hbig : 2 ^ 31 - 1 < 2 + v)
    (h : DecodesTo p (egBins m v) s t) :
    (do let v ← decodeEg p m
        if 2 ^ 31 - 1 < 2 + v then raise .syntaxRange else pure (2 + v) : Cmd Nat) s = .error (.fault .syntaxRange) t := by
  rw [cmd_bind_of_ok (decodeEg_run hv h), if_pos hbig]
  rfl

/-- The coefficients above position `i`, and then one that stops. -/
theorem decodeCoefficients_error {n last i : Nat} {xs : List Word} {b : Fin 3} {m : Cells Word} (hi : i ≤ last)
    (hx : 0x80000000 ∉ xs) (hlast : i < last → xs.getD last 0 ≠ 0) {bad : List Bin}
    (h : DecodesTo p (upperBins n last xs (last - i) ++ largeBins n last i ++ bad) s t)
    (stops : ∀ v w, DecodesTo p bad v w → (do
        let v ← decodeEg p (activeLvl (bucketAt n i))
        if 2 ^ 31 - 1 < 2 + v then raise .syntaxRange else pure (2 + v) : Cmd Nat) v = .error (.fault .syntaxRange) w) :
    ∃ w, decodeCoefficients p n last (last + 1) (setSide b m s) = .error (.fault .syntaxRange) w := by
  obtain ⟨v, front, badRun⟩ := decodesTo_append.1 h
  obtain ⟨u, upper, large⟩ := decodesTo_append.1 front
  obtain ⟨b', m', turns⟩ := decodeCoefficients_upper (b := b) (m := m) (by omega) hx (fun h => hlast (by omega)) upper
  have badRun := decodesTo_setSide (bucketAt n i) m' badRun
  rw [show last - (last - i) = i by omega] at turns
  exact ⟨_, turns.trans (cmd_bind_of_error (decodeCoefficient_large_error large (stops _ _ badRun)))⟩

/-! ## `DEC_COEF` -/

/-- The partition of zeros that `DEC_COEF` begins with. -/
def zeroed (n : Nat) (m : Cells Word) : Cells Word := cellsFill m (List.replicate (n * n) 0)

theorem cellsRead_zeroed {n i : Nat} (m : Cells Word) (hi : i < n * n) : cellsRead (zeroed n m) i = some 0 := by
  rw [zeroed, cellsRead_fill_of_lt _ _ (by rwa [List.length_replicate]), List.getElem_replicate]

theorem sameFrom_zeroed (n : Nat) (m : Cells Word) : SameFrom (n * n) m (zeroed n m) :=
  Whole.sameFrom_fill m (List.length_replicate).le

/-- What `DEC_COEF` does once the size is known and `SCAN` is zeroed (rule R291). -/
def decBlock (p : Config.Params) (n : Nat) : Cmd Unit := do
  let cbf ← decodeBit p modelCbf
  if cbf then
    let last ← decodeEg p modelLast
    if n * n ≤ last then raise .syntaxRange
    else do
      decodeCoefficients p n last (last + 1)
      setRes 1
  else setRes 0

theorem decCoef_eq_decBlock {h : PartSize} (hl : LegalSize s) :
    Machine.decCoef p h s = decBlock p (sizeOf s h) (setSide s.bucket (zeroed (sizeOf s h) s.scan) s) :=
  (cmd_bind_of_ok (Predictor.cfgN_of_legalSize hl h)).trans (cmd_bind_of_ok (cmd_modify _ s))

theorem decBlock_zero {n : Nat} (h : DecodesTo p [.ctx 0 false] s t) : decBlock p n s = .ok () { t with res := 0 } := by
  obtain ⟨_, e, rfl⟩ := h
  exact cmd_bind_of_ok e

/-- The flag and the last position. -/
theorem decBlock_last {n last : Nat} (hl : last ≤ 2 ^ 32 - 2) (h : DecodesTo p (.ctx 0 true :: egBins 1 last) s t) :
    decBlock p n s = (if n * n ≤ last then raise .syntaxRange
      else do decodeCoefficients p n last (last + 1); setRes 1 : Cmd Unit) t := by
  obtain ⟨u, e, last'⟩ := h
  exact (cmd_bind_of_ok e).trans (cmd_bind_of_ok (decodeEg_run hl last'))

theorem bucketAt_zero {n : Nat} (hn : 0 < n) : bucketAt n 0 = 0 := by
  obtain ⟨k, rfl⟩ : ∃ k, n = k + 1 := ⟨n - 1, by omega⟩
  rw [bucketAt, diagMap, diagScan, show 2 * (k + 1) - 1 = 2 * k + 1 by omega, List.range_succ_eq_map]
  simp [diagonal, bucketOf, Config.bucketT1]

theorem if_neg_at {α : Type} {q : Prop} [Decidable q] (hq : ¬q) {c d : Cmd α} {s : State} :
    (if q then c else d : Cmd α) s = d s := by rw [if_neg hq]

/-- A whole partition from its bins (rules R289, R291). -/
theorem decBlock_run {n last : Nat} {xs : List Word} {b : Fin 3} {m : Cells Word} (hn : 0 < n) (h64 : n ≤ 64)
    (hlt : last < n * n) (hx : 0x80000000 ∉ xs) (hlast : xs.getD last 0 ≠ 0)
    (h : DecodesTo p (blockBins n last xs) s t) :
    decBlock p n (setSide b m s) = .ok () { t with res := 1, bucket := 0, scan := storeCoefficients m xs (last + 1) } := by
  have small : n * n ≤ 64 * 64 := Nat.mul_le_mul h64 h64
  obtain ⟨u, front, rest⟩ := decodesTo_append.1 h
  refine (decBlock_last (by omega) (decodesTo_setSide b m front)).trans ((if_neg_at (by omega)).trans ?_)
  refine (cmd_bind_of_ok (decodeCoefficients_run hx hlast rest)).trans ?_
  rw [if_neg (Nat.succ_ne_zero last), bucketAt_zero hn]
  rfl

/-- Bins no encoder writes are a syntax error (rules R192, R291). -/
theorem decBlock_bad {n : Nat} {bins : List Bin} {b : Fin 3} {m : Cells Word} (h64 : n ≤ 64) (bad : BadBins n bins)
    (h : DecodesTo p bins s t) : ∃ w, decBlock p n (setSide b m s) = .error (.fault .syntaxRange) w := by
  have small : n * n ≤ 64 * 64 := Nat.mul_le_mul h64 h64
  have level : ∀ {last i : Nat} {xs : List Word} {level : List Bin}, last < n * n → i ≤ last → 0x80000000 ∉ xs →
      (i < last → xs.getD last 0 ≠ 0) →
      (∀ v w, DecodesTo p level v w → (do
        let v ← decodeEg p (activeLvl (bucketAt n i))
        if 2 ^ 31 - 1 < 2 + v then raise .syntaxRange else pure (2 + v) : Cmd Nat) v = .error (.fault .syntaxRange) w) →
      DecodesTo p (.ctx 0 true :: egBins 1 last ++ upperBins n last xs (last - i) ++ largeBins n last i ++ level) s t →
      ∃ w, decBlock p n (setSide b m s) = .error (.fault .syntaxRange) w := by
    intro last i xs level hlt hi hx hlast stops h
    rw [List.append_assoc, List.append_assoc] at h
    obtain ⟨u, front, rest⟩ := decodesTo_append.1 h
    rw [← List.append_assoc] at rest
    obtain ⟨w, e⟩ := decodeCoefficients_error (b := b) (m := m) hi hx hlast rest stops
    exact ⟨w, (decBlock_last (by omega) (decodesTo_setSide b m front)).trans
      ((if_neg_at (by omega)).trans (cmd_bind_of_error e))⟩
  cases bad with
  | lastPrefix =>
    obtain ⟨u, e, zeros⟩ := decodesTo_setSide b m h
    exact ⟨_, (cmd_bind_of_ok e).trans (cmd_bind_of_error (decodeEg_zeros zeros))⟩
  | lastRange last hge hle =>
    refine ⟨setSide b m t, (decBlock_last hle (decodesTo_setSide b m h)).trans ?_⟩
    rw [if_pos hge]
    rfl
  | levelPrefix last i xs hlt hi hx hlast =>
    exact level hlt hi hx hlast (fun _ _ => level_prefix_error) h
  | levelRange last i v xs hlt hi hx hlast hbig hle =>
    exact level hlt hi hx hlast (fun _ _ => level_range_error hle hbig) h

theorem sizeOf_le {h : PartSize} (hl : LegalSize s) : sizeOf s h ≤ 64 := by
  obtain ⟨-, hi, -⟩ := hl
  cases h with
  | full => exact hi
  | half => exact (Nat.div_le_self _ 2).trans hi

/-- Settles O53: the partition's bins give its coefficients, and those no encoder writes give none. -/
theorem decCoef : Obligations.DecCoef := by
  intro s u h hq hl n
  have hn : 0 < n := Predictor.sizeOf_pos hl h
  have h64 : n ≤ 64 := sizeOf_le hl
  have zero : ∀ {v}, DecodesTo Config.params [.ctx 0 false] s v →
      exec (.decCoef h) s = .next { v with res := 0, scan := zeroed n s.scan } := by
    intro v run
    have run' := decodesTo_beside (g := id) (h := fun _ => zeroed n s.scan) run
    exact exec_of_ok (i := .decCoef h) nofun hq ((decCoef_eq_decBlock hl).trans (decBlock_zero run'))
  refine ⟨fun run => ?_, fun hi hc input => ?_, fun xs last hlen hx isLast run => ?_, fun p bins bad run => ?_⟩
  · exact ⟨_, zero run, rfl, fun i hi => cellsRead_zeroed s.scan hi, sameFrom_zeroed n s.scan⟩
  · intro x w choice
    obtain ⟨t, e, -, -⟩ := decodeBit_answers 0 Config.params_ok ⟨hi, hc⟩ fun _ => input
    have flag : (adLps Config.params s 0 != (modelAt s 0).mps) = false := by
      have lps : adLps Config.params s 0 = x.mps := choice
      rw [lps]
      exact bne_self_eq_false x.mps
    rw [flag] at e
    have quiet : Quiet t := ((decodeBit_frame Config.params 0).of_ok_eq e).fault.trans hq
    exact ⟨_, zero ⟨t, e, rfl⟩, quiet, rfl, fun i hi => cellsRead_zeroed s.scan hi⟩
  · obtain ⟨lt, ne, above⟩ := isLast
    have e := decBlock_run (b := s.bucket) (m := zeroed n s.scan) hn h64 (hlen ▸ lt) hx ne run
    refine ⟨_, exec_of_ok (i := .decCoef h) nofun hq ((decCoef_eq_decBlock hl).trans e), rfl, fun i hi => ?_,
      fun a ha => ?_⟩
    · show cellsRead (storeCoefficients _ xs (last + 1)) i = _
      rw [cellsRead_storeCoefficients, List.getElem?_eq_getElem (hlen ▸ hi),
        ← List.getD_eq_getElem xs 0 (hlen ▸ hi)]
      split
      next => rfl
      next no =>
        have zero : xs.getD i 0 = 0 := by
          by_contra h0
          exact h0 (above i (by by_contra h1; exact no ⟨by omega, h0⟩))
        rw [cellsRead_zeroed _ hi, zero]
    · show cellsRead (storeCoefficients _ xs (last + 1)) a = _
      rw [cellsRead_storeCoefficients, if_neg fun h => absurd h.1 (by omega)]
      exact sameFrom_zeroed n s.scan a ha
  · obtain ⟨w, e⟩ := decBlock_bad (b := s.bucket) (m := zeroed n s.scan) h64 bad run
    have e' : (commandOf p (.decCoef h)).2 s = .error (.fault .syntaxRange) w := (decCoef_eq_decBlock hl).trans e
    have kept := ((commandOf_frame p (.decCoef h)).of_error_eq e').parts .stream
      (show Part.stream ∉ [Part.res, .models, .bucket, .reader, .decoder, .scan] by decide)
    have faults := faultsWith_of_kept (w := [.scan]) hq e' fun a _ => congrArg (cellsRead · a) kept
    exact ⟨faults, raises_of_faultsWith (i := .decCoef h) nofun faults⟩

end Sys2Proof.Proofs.SyntaxDecoding
end

section
/-! The arithmetic encoder's commands (file 42): the session's start, each bin's part of the interval, runs of bins, and
the code word. -/

namespace Sys2Proof.Proofs.Encoding

open Sys2Proof Sys2Proof.Machine Sys2Proof.Safety Sys2Proof.Proofs.Bits Sys2Proof.Proofs.Models Sys2Proof.Proofs.Decoding
  Sys2Proof.Proofs.BinRuns

variable {p : Config.Params} {s t u : State}

/-! ## `AE_START` -/

/-- The state once a session has begun. -/
def opened (t : State) : State :=
  { t with ae := ⟨0, 510, 0xFF, 0, 23⟩, status := { t.status with encOpen := true } }

theorem aeStart_of_aligned {a : Unit} (e : putAlign p s = .ok a t) : aeStart p s = .ok () (opened t) :=
  (cmd_bind_of_ok e).trans (cmd_modify _ t)

theorem cellsReadRange_zero {α : Type} (m : Cells α) (start : Nat) : cellsReadRange m start 0 = some [] := rfl

/-- A session on a byte boundary begins with nothing written and the whole interval. -/
theorem opened_session (hq : Quiet s) (hc : s.bw.cnt = 0) :
    Session s.bw.ptr.toNat (opened s) ∧ codeValue s.bw.ptr.toNat (opened s) = some 0 ∧
      sessionBits (opened s) = 8 * s.bw.ptr.toNat := by
  have acc : accOf (opened s).ae = 0 := show accOf ⟨0, 510, 0xFF, 0, 23⟩ = 0 by decide
  refine ⟨⟨hq, hc, le_refl _, start_inv 0 rfl, fun _ => rfl⟩, ?_, ?_⟩
  · rw [codeValue, show (opened s).bw.ptr.toNat - s.bw.ptr.toNat = 0 from Nat.sub_self _, cellsReadRange_zero, Option.map_some, acc,
      List.nil_append, heldBytes_zero rfl]
    rfl
  · rw [sessionBits, acc]
    rfl

/-- Settles O21: the alignment is `BW_ALIGN`'s, with its faults. -/
theorem aeStart : Obligations.AeStart := by
  intro s hq _
  refine ⟨fun t e ht => ?_, fun code raises => ?_, fun hc => ?_⟩
  · exact exec_of_ok (i := .aeStart) nofun hq (aeStart_of_aligned (exec_quiet (i := .bwAlign) e nofun hq ht))
  · obtain ⟨t, e, status, kept⟩ := raises
    rcases exec_next e nofun hq with done | ⟨k, u, stopped, rfl⟩
    · have quiet := ((putAlign_frame Config.params).of_ok_eq done).fault.trans hq
      rw [status] at quiet
      exact Bool.noConfusion quiet
    · exact ⟨_, (exec_eq_runCommand (i := .aeStart) nofun s).trans
        (runCommand_of_raise hq (cmd_bind_of_error stopped)), status, kept⟩
  · obtain ⟨session, value, bits⟩ := opened_session hq hc
    exact ⟨opened s, exec_of_ok (i := .aeStart) nofun hq (aeStart_of_aligned (putAlign_aligned hc)), rfl, rfl, session,
      value, rfl, bits⟩

/-! ## One bin -/

/-- A session's part of the interval, shifted and flushed, with the models moved (rule R149). -/
theorem coded_flushed {start L n off : Nat} {r : Encoder} (h : Session start s) (hL : codeValue start s = some L)
    (hn : Narrowed s.ae r n off) (hp : p.Ok) (room : encoderRoom p s 1) (x : Vector Model 15) :
    Coded start s { flushed s r with pm := x } L n off r.rng.toNat := by
  have small := hp.stream_le
  have sized : s.bw.ptr.toNat + s.ae.run.toNat + 1 ≤ p.streamBytes := room
  obtain ⟨session, value, rng, -, -, outside⟩ := session_flushed h hL hn hp room
  have count := flush_count (hn.unflushed h.inv) (by rw [hn.run]; omega)
  have length : (flushBytes r).length ≤ s.ae.run.toNat := hn.run ▸ flushBytes_length_le r
  have ptr : (flushed s r).bw.ptr.toNat = s.bw.ptr.toNat + (flushBytes r).length :=
    withBytes_ptr (s := s) _ (by omega)
  have bits : sessionBits (flushed s r) = sessionBits s + n := by
    rw [hn.run, hn.acc h.inv] at count
    rw [sessionBits, ptr, sessionBits, show (flushed s r).ae = flushRegs r from rfl]
    omega
  refine ⟨⟨session.quiet, session.aligned, session.start_le, session.inv, session.first⟩, value,
    congrArg BitVec.toNat rng, bits, ?_, outside⟩
  rw [flushed, withBytes_rest]

/-- Room for more bins is what a bin leaves of the room for one bin more. -/
theorem flushed_room {start L n off k : Nat} {r : Encoder} (h : Session start s) (hL : codeValue start s = some L)
    (hn : Narrowed s.ae r n off) (hp : p.Ok) (room : encoderRoom p s (k + 1)) : encoderRoom p (flushed s r) k := by
  unfold encoderRoom at *
  obtain ⟨-, -, -, held, -, -⟩ := session_flushed h hL hn hp (by unfold encoderRoom; omega)
  omega

/-- A context bin takes its part of the interval exactly (rules R143, R149). -/
theorem encodeBit_coded {start L : Nat} (m : Fin 15) (b : Bool) (h : Session start s) (hL : codeValue start s = some L)
    (hp : p.Ok) (room : encoderRoom p s 1) :
    ∃ t, encodeBit p m b s = .ok () t ∧
      Coded start s t L (binShift p s m b) (binOffset p s m b) (binRange p s m b * 2 ^ binShift p s m b) ∧
      t.pm = s.pm.set m.val (binModel p s m b) ∧ ∀ k, encoderRoom p s (k + 1) → encoderRoom p t k := by
  obtain ⟨narrowed, rng⟩ := binRegs_narrowed m b hp h.inv
  have coded := coded_flushed h hL narrowed hp room (s.pm.set m.val (binModel p s m b))
  rw [rng] at coded
  have result : withModel (flushed s (binRegs p s m b)) m (binModel p s m b) =
      { flushed s (binRegs p s m b) with pm := s.pm.set m.val (binModel p s m b) } := by
    rw [withModel, flushed_pm]
  refine ⟨_, (encodeBit_run m b hp h.inv h.aligned (Nat.le_of_succ_le room)).trans ?_, coded, rfl, fun k hk => ?_⟩
  · rw [result]
  · exact flushed_room h hL narrowed hp hk

/-- A bypass bin takes its half (rules R145, R149). -/
theorem encodeBypass_coded {start L : Nat} (b : Bool) (h : Session start s) (hL : codeValue start s = some L)
    (hp : p.Ok) (room : encoderRoom p s 1) :
    ∃ t, encodeBypass p b s = .ok () t ∧
      Coded start s t L 1 (if b then s.ae.rng.toNat else 0) s.ae.rng.toNat ∧
      t.pm = s.pm ∧ ∀ k, encoderRoom p s (k + 1) → encoderRoom p t k := by
  obtain ⟨narrowed, rng⟩ := encodeBypass_narrowed b h.inv
  have coded := coded_flushed h hL narrowed hp room s.pm
  rw [rng] at coded
  have same : ({ flushed s (encodeBypassRegs s.ae b) with pm := s.pm } : State) = flushed s (encodeBypassRegs s.ae b) := by
    rw [← flushed_pm s (encodeBypassRegs s.ae b)]
  rw [same] at coded
  exact ⟨_, encodeBypass_run b hp h.aligned (Nat.le_of_succ_le room), coded, flushed_pm _ _,
    fun k hk => flushed_room h hL narrowed hp hk⟩

theorem binModel_eq (s : State) (m : Fin 15) (b : Bool) :
    binModel Config.params s m b = modelAfter (modelAt s m) (b == (modelAt s m).mps) := by
  unfold binModel
  cases b <;> cases (modelAt s m).mps <;> rfl

/-- The numbers of a context bin as the statement names them. -/
theorem bin_numbers {start : Nat} (hp : p.Ok) (h : Session start s) (m : Fin 15) (b : Bool) :
    let w := (encodeWidth p s m).toNat
    let r := s.ae.rng.toNat - w
    let n := if b = (modelAt s m).mps then (if r < 256 then 1 else 0) else 8 - Nat.log2 w
    binShift p s m b = n ∧ binOffset p s m b = (if b = (modelAt s m).mps then 0 else r * 2 ^ n) ∧
      binRange p s m b = if b = (modelAt s m).mps then r else w := by
  have shift := renormShift_eq (encodeWidth_bounds hp h.inv m).1
  by_cases mps : b = (modelAt s m).mps
  · simp only [binShift, binOffset, binRange, mps, bne_self_eq_false, Bool.false_eq_true, if_false, if_true, and_self]
  · simp only [binShift, binOffset, binRange, mps, bne_iff_ne.2 mps, if_false, if_true, shift, and_self]

/-- Settles O22: the general facts at the machine's parameters. -/
theorem aeBit : Obligations.AeBit := by
  intro s start L sel b h hL room m x w r n off part
  obtain ⟨shift, offset, range⟩ := bin_numbers Config.params_ok h m b
  obtain ⟨t, e, coded, models, -⟩ := encodeBit_coded m b h hL Config.params_ok room
  rw [shift, offset, range] at coded
  exact ⟨t, exec_of_ok (i := .aeBit sel b) nofun h.quiet ((cmd_bind_of_ok (cmd_get s)).trans e), coded,
    models.trans (congrArg (s.pm.set m.val · m.isLt) (binModel_eq s m b))⟩

/-- Settles O23. -/
theorem aeByp : Obligations.AeByp := by
  intro s start L b h hL room
  obtain ⟨t, e, coded, models, -⟩ := encodeBypass_coded b h hL Config.params_ok room
  exact ⟨t, exec_of_ok (i := .aeByp b) nofun h.quiet e, coded, models⟩

/-! ## Runs of bins -/

theorem encodeBins_append (xs ys : List Bin) :
    encodeBins p (xs ++ ys) = (do encodeBins p xs; encodeBins p ys : Cmd Unit) := by
  induction xs with
  | nil => rfl
  | cons x xs ih => rw [List.cons_append, encodeBins, ih, encodeBins, bind_assoc]

theorem encodeBins_singleton (x : Bin) : encodeBins p [x] = encodeBin p x := bind_pure (encodeBin p x)

/-- A session with room for a list of bins, one byte each, takes them in and goes on. -/
theorem encodeBins_session {start L : Nat} (xs : List Bin) (h : Session start s) (hL : codeValue start s = some L)
    (hp : p.Ok) (room : encoderRoom p s xs.length) :
    ∃ t L', encodeBins p xs s = .ok () t ∧ Session start t ∧ codeValue start t = some L' ∧
      ∀ k, encoderRoom p s (xs.length + k) → encoderRoom p t k := by
  induction xs generalizing s L with
  | nil => exact ⟨s, L, rfl, h, hL, fun k hk => by rwa [List.length_nil, Nat.zero_add] at hk⟩
  | cons x xs ih =>
    rw [List.length_cons] at room
    have one : encoderRoom p s 1 := le_trans (by omega) room
    obtain ⟨t, L', e, session, value, left⟩ : ∃ t L', encodeBin p x s = .ok () t ∧ Session start t ∧
        codeValue start t = some L' ∧ ∀ k, encoderRoom p s (k + 1) → encoderRoom p t k := by
      cases x with
      | ctx m b =>
        obtain ⟨t, e, coded, -, left⟩ := encodeBit_coded m b h hL hp one
        exact ⟨t, _, e, coded.session, coded.value, left⟩
      | byp b =>
        obtain ⟨t, e, coded, -, left⟩ := encodeBypass_coded b h hL hp one
        exact ⟨t, _, e, coded.session, coded.value, left⟩
    obtain ⟨u, L'', f, session', value', left'⟩ := ih session value (left _ room)
    refine ⟨u, L'', (cmd_bind_of_ok e).trans f, session', value', fun k hk => left' k (left _ ?_)⟩
    rw [List.length_cons] at hk
    rwa [Nat.add_right_comm]

/-- The command of one bin. -/
def binInstr : Bin → Instr
  | .ctx m b => .aeBit (.model m) b
  | .byp b => .aeByp b

theorem exec_binInstr {x : Bin} (hq : Quiet s) (e : encodeBin Config.params x s = .ok () t) :
    exec (binInstr x) s = .next t := by
  cases x with
  | ctx m b => exact exec_of_ok (i := .aeBit (.model m) b) nofun hq ((cmd_bind_of_ok (cmd_get s)).trans e)
  | byp b => exact exec_of_ok (i := .aeByp b) nofun hq e

theorem encodeBin_quiet {x : Bin} (hq : Quiet s) (e : encodeBin p x s = .ok () t) : Quiet t := by
  cases x with
  | ctx m b => exact ((encodeBit_frame p m b).of_ok_eq e).fault.trans hq
  | byp b => exact ((encodeBypass_frame p b).of_ok_eq e).fault.trans hq

/-- Bins passed through the encoder are a run of single commands. -/
theorem runs_of_encodeBins {xs : List Bin} (hq : Quiet s) (e : encodeBins Config.params xs s = .ok () t) :
    Runs (xs.map binInstr) s t := by
  induction xs generalizing s with
  | nil => cases e; rfl
  | cons x xs ih =>
    obtain ⟨_, u, e1, e2⟩ := cmd_bind_ok_iff.1 e
    exact ⟨u, exec_binInstr hq e1, ih (encodeBin_quiet hq e1) e2⟩

theorem natBits_eq_range (v n : Nat) : natBits v n = (List.range n).map fun j => v.testBit (n - 1 - j) := by
  refine List.ext_getElem? fun j => ?_
  by_cases hj : j < n
  · rw [natBits_getElem v hj, List.getElem?_map, List.getElem?_range hj, Option.map_some]
  · rw [List.getElem?_eq_none (by simpa using hj), List.getElem?_eq_none (by simpa using hj)]

theorem ctxBins_eq_map (m : Fin 15) (v n : Nat) : ctxBins m v n = (natBits v n).map (Bin.ctx m) := by
  induction n with
  | zero => rfl
  | succ n ih => rw [ctxBins, ih]; rfl

theorem forBits_encodeBit (m : Fin 15) (v : Word) (n : Nat) :
    forBits (encodeBit p m) v n = encodeBins p (ctxBins m v.toNat n) := by
  induction n with
  | zero => rfl
  | succ n ih => exact congrArg (encodeBit p m _ >>= fun _ => ·) ih

theorem forBits_encodeBypass (v : Word) (n : Nat) :
    forBits (encodeBypass p) v n = encodeBins p (bypBins v.toNat n) := by
  induction n with
  | zero => rfl
  | succ n ih => exact congrArg (encodeBypass p _ >>= fun _ => ·) ih

theorem repeatCmd_encodeBit (m : Fin 15) (b : Bool) (n : Nat) :
    repeatCmd (encodeBit p m b) n = encodeBins p (List.replicate n (.ctx m b)) := by
  induction n with
  | zero => rfl
  | succ n ih => exact congrArg (encodeBit p m b >>= fun _ => ·) ih

/-- Settles O24: the loops are runs of bins. -/
theorem aeBits : Obligations.AeBits := by
  intro s start L sel n h hL hn room
  have hok := Config.params_ok
  constructor
  · obtain ⟨t, -, e, session, -, -⟩ := encodeBins_session (ctxBins (resolve sel s) s.arg.toNat n.toNat) h hL hok
      (by rwa [ctxBins_eq_map, List.length_map, natBits_length])
    have runs := runs_of_encodeBins h.quiet e
    rw [ctxBins_eq_map, List.map_map, natBits_eq_range, List.map_map] at runs
    refine ⟨t, exec_of_ok (i := .aeBits sel n) nofun h.quiet ?_, session, runs⟩
    exact (cmd_bind_of_ok (checkCount_of_le hn)).trans ((cmd_bind_of_ok (cmd_get s)).trans
      ((congrFun (forBits_encodeBit _ s.arg n.toNat) s).trans e))
  · obtain ⟨t, -, e, session, -, -⟩ := encodeBins_session (bypBins s.arg.toNat n.toNat) h hL hok
      (by rwa [bypBins_eq_map, List.length_map, natBits_length])
    have runs := runs_of_encodeBins h.quiet e
    rw [bypBins_eq_map, List.map_map, natBits_eq_range, List.map_map] at runs
    refine ⟨t, exec_of_ok (i := .aeByps n) nofun h.quiet ?_, session, runs⟩
    exact (cmd_bind_of_ok (checkCount_of_le hn)).trans ((cmd_bind_of_ok (cmd_get s)).trans
      ((congrFun (forBits_encodeBypass s.arg n.toNat) s).trans e))

/-! ## The Exp-Golomb code -/

/-- `AE_EG`'s coding is its bins (rule R191). -/
theorem encodeEg_eq (m : Fin 15) {v : Nat} (hv : v ≤ 2 ^ 32 - 2) : encodeEg p m v = encodeBins p (egBins m v) := by
  have word : (BitVec.ofNat 32 (v + 1)).toNat = v + 1 := by
    rw [BitVec.toNat_ofNat]
    omega
  simp only [egBins]
  rw [encodeBins_append, encodeBins_append, encodeBins_singleton, ← repeatCmd_encodeBit, bind_assoc, encodeEg,
    forBits_encodeBypass, word]
  rfl

theorem egBins_length (m : Fin 15) (v : Nat) : (egBins m v).length = 2 * Nat.log2 (v + 1) + 1 := by
  simp only [egBins, List.length_append, List.length_replicate, List.length_singleton, bypBins_eq_map, List.length_map,
    natBits_length]
  omega

/-- Settles O25: `AE_EG` is its bins, and they are a run of single commands. -/
theorem aeEg : Obligations.AeEg := by
  intro s start L sel h hL v k
  constructor
  · intro hne room
    have hv : v ≤ 2 ^ 32 - 2 := by
      have top : v ≠ 2 ^ 32 - 1 := fun e => hne (BitVec.eq_of_toNat_eq e)
      have := s.arg.isLt
      omega
    obtain ⟨t, -, e, session, -, -⟩ := encodeBins_session (egBins (resolve sel s) v) h hL Config.params_ok
      (by rwa [egBins_length])
    have runs := runs_of_encodeBins h.quiet e
    simp only [egBins, List.map_append, List.map_replicate] at runs
    rw [bypBins_eq_map, List.map_map, natBits_eq_range, List.map_map] at runs
    refine ⟨t, exec_of_ok (i := .aeEg sel) nofun h.quiet ?_, session, runs⟩
    exact (cmd_bind_of_ok (checkEgValue_of_ne hne)).trans ((cmd_bind_of_ok (cmd_get s)).trans
      ((congrFun (encodeEg_eq _ hv) s).trans e))
  · intro heq
    exact raises_of_error (i := .aeEg sel) nofun h.quiet (cmd_bind_of_error (checkEgValue_of_eq heq))

/-! ## `AE_TERM` -/

/-- Settles O26: the code word of `aeTerm_run`, counted by the session's bits. -/
theorem aeTerm : Obligations.AeTerm := by
  intro p hp s start L h hL room
  have last : (sessionBits s + 16) / 8 = s.bw.ptr.toNat + s.ae.run.toNat + (accOf s.ae + 16) / 8 := by
    rw [sessionBits]
    omega
  obtain ⟨t, e, cnt, ptr, status, value, outside, rest⟩ := aeTerm_run h hL hp (last ▸ room)
  obtain ⟨bs, read, number⟩ := Option.map_eq_some_iff.1 value
  have next := runCommand_of_ok (w := []) h.quiet e
  refine ⟨t, bs, next, exec_of_runCommand (i := .aeTerm) nofun next, status, cnt, ptr.trans last.symm, read, ?_, outside,
    rest⟩
  rw [cnt, show (0 : BitVec 4).toNat = 0 from rfl, Nat.pow_zero, Nat.mul_one, Nat.mod_one, Nat.add_zero] at number
  rw [number, show 8 * ((accOf s.ae + 16) / 8) - (accOf s.ae + 9) = 7 - sessionBits s % 8 by rw [sessionBits]; omega]

end Sys2Proof.Proofs.Encoding
end

section
/-! The encoder's part of the stream syntax (file 48): the partition bit, a prediction mode, and a partition's
coefficients. -/

namespace Sys2Proof.Proofs.SyntaxEncoding

open Sys2Proof Sys2Proof.Machine Sys2Proof.Safety Sys2Proof.Proofs.Bits Sys2Proof.Proofs.Models Sys2Proof.Proofs.Decoding
  Sys2Proof.Proofs.BinRuns Sys2Proof.Proofs.SyntaxDecoding Sys2Proof.Proofs.Encoding

variable {p : Config.Params} {s t u : State}

/-! ## The partition bit -/

theorem decodesTo_ctx {m : Fin 15} {b : Bool} : DecodesTo p [.ctx m b] s t ↔ decodeBit p m s = .ok b t :=
  ⟨fun ⟨_, e, h⟩ => h ▸ e, fun e => ⟨t, e, rfl⟩⟩

/-- Settles O48: both are the bin of model 2, whose facts are those of `AE_BIT` and `AD_BIT`. -/
theorem partBit : Obligations.PartBit := by
  intro s b
  have enc : exec (.encPart b) s = exec (.aeBit (.model 2) b) s :=
    exec_congr nofun nofun rfl
      (cmd_bind_of_ok (f := fun s => encodeBit Config.params (resolve (.model 2) s) b) (cmd_get s)).symm
  have dec : exec .decPart s = exec (.adBit (.model 2)) s :=
    exec_congr nofun nofun rfl (cmd_bind_of_ok
      (f := fun s => do let b ← decodeBit Config.params (resolve (.model 2) s); setRes (bitWord b)) (cmd_get s)).symm
  refine ⟨enc, dec, fun start L h hL room => ?_, fun t hq run => ?_, fun hq hi hc => ?_⟩
  · obtain ⟨t, e, coded, -⟩ := aeBit s start L (.model 2) b h hL room
    exact ⟨t, enc.trans e, coded.session⟩
  · exact exec_of_ok (i := .decPart) nofun hq (cmd_bind_of_ok (decodesTo_ctx.1 run))
  · intro x w r lps n input
    obtain ⟨v, hv⟩ := exists_peek input
    obtain ⟨t, e, res, -, -, rest⟩ := (adBit s (.model 2) v hq hi hc).1 hv
    have quiet : Quiet t := by rw [rest]; exact hq
    exact ⟨t, dec.trans e, quiet, res, rest⟩

/-! ## The prediction mode -/

/-- `ENC_PMODE` codes the bins of the mode (rule R287). -/
theorem encPmode_eq (pm : PredMode) : Machine.encPmode p pm = encodeBins p (pmodeBins pm) := by
  cases pm with
  | planar | dc | horizontal | vertical =>
    simp only [pmodeBins, encodeBins, bind_pure_unit]
    rfl

/-- Settles O49: three bins at most. -/
theorem encPmode : Obligations.EncPmode := by
  intro p hp s start L pm h hL room
  have short : (pmodeBins pm).length ≤ 3 := by cases pm <;> decide
  obtain ⟨t, -, e, session, -, -⟩ := encodeBins_session (pmodeBins pm) h hL hp
    (le_trans (Nat.add_le_add_left short _) room)
  have next := runCommand_of_ok (w := []) h.quiet ((congrFun (encPmode_eq pm) s).trans e)
  refine ⟨t, ?_, session, next, exec_of_runCommand (i := .encPmode pm) nofun next⟩
  cases pm with
  | planar | dc | horizontal | vertical => exact e

/-! ## `BUCKET` beside the encoder -/

/-- `BUCKET` replaced, which the encoder neither sees nor writes. -/
def setBucket (b : Fin 3) (s : State) : State := { s with bucket := b }

theorem withBytes_setBucket (b : Fin 3) (s : State) (bs : List Byte) :
    withBytes (setBucket b s) bs = setBucket b (withBytes s bs) := by
  induction bs generalizing s with
  | nil => rfl
  | cons x bs ih => exact ih (withByte s x)

theorem session_setBucket {start : Nat} (b : Fin 3) (h : Session start s) : Session start (setBucket b s) :=
  ⟨h.quiet, h.aligned, h.start_le, h.inv, h.first⟩

/-- The encoder takes the same bins beside another `BUCKET`. -/
theorem encodeBins_setBucket {start L : Nat} (b : Fin 3) (xs : List Bin) (h : Session start s)
    (hL : codeValue start s = some L) (hp : p.Ok) (room : encoderRoom p s xs.length) (e : encodeBins p xs s = .ok () t) :
    encodeBins p xs (setBucket b s) = .ok () (setBucket b t) := by
  induction xs generalizing s L with
  | nil => cases e; rfl
  | cons x xs ih =>
    rw [List.length_cons] at room
    have one : encoderRoom p s 1 := le_trans (by omega) room
    have held : s.bw.ptr.toNat + s.ae.run.toNat ≤ p.streamBytes := Nat.le_of_succ_le one
    obtain ⟨_, u, e1, e2⟩ := cmd_bind_ok_iff.1 e
    have flush : ∀ r, flushed (setBucket b s) r = setBucket b (flushed s r) := fun r => by
      rw [flushed, withBytes_setBucket]
      rfl
    cases x with
    | ctx m v =>
      obtain ⟨u', e1', coded, -, left⟩ := encodeBit_coded m v h hL hp one
      cases e1'.symm.trans e1
      have run := encodeBit_run m v hp h.inv h.aligned held
      have run' := encodeBit_run (s := setBucket b s) m v hp h.inv h.aligned held
      cases run.symm.trans e1
      rw [flush] at run'
      exact (cmd_bind_of_ok run').trans (ih coded.session coded.value (left _ room) e2)
    | byp v =>
      obtain ⟨u', e1', coded, -, left⟩ := encodeBypass_coded v h hL hp one
      cases e1'.symm.trans e1
      have run := encodeBypass_run v hp h.aligned held
      have run' := encodeBypass_run (s := setBucket b s) v hp h.aligned held
      cases run.symm.trans e1
      rw [flush] at run'
      exact (cmd_bind_of_ok run').trans (ih coded.session coded.value (left _ room) e2)

/-! ## The coefficients -/

theorem whenCmd_bins (c : Prop) [Decidable c] {d : Cmd Unit} {xs : List Bin} (h : c → d = encodeBins p xs) :
    whenCmd (decide c) d = encodeBins p (if c then xs else []) := by
  by_cases hc : c
  · rw [decide_eq_true hc, if_pos hc, ← h hc]
    rfl
  · rw [decide_eq_false hc, if_neg hc]
    rfl

/-- `gt1`, `lvl` and `sgn` are bins (rule R289). -/
theorem encodeLevel_eq {bucket : Fin 3} {c : Int} (hc : c.natAbs ≤ 2 ^ 31 - 1) :
    encodeLevel p bucket c = encodeBins p ([.ctx (activeGt1 bucket) (decide (1 < c.natAbs))] ++
      (if 1 < c.natAbs then egBins (activeLvl bucket) (c.natAbs - 2) else []) ++ [.byp (decide (c < 0))]) := by
  rw [encodeBins_append, encodeBins_append, encodeBins_singleton, encodeBins_singleton, encodeLevel,
    whenCmd_bins (1 < c.natAbs) fun _ => encodeEg_eq _ (by omega), bind_assoc]
  rfl

/-- One coefficient is `switch_context` and its bins (rules R289, R290). -/
theorem encodeCoefficient_eq {n last i : Nat} {c : Int} (hc : c.natAbs ≤ 2 ^ 31 - 1) :
    encodeCoefficient p n last i c =
      (do switchContext n i; encodeBins p (coefficientBins (bucketAt n i) (i == last) c) : Cmd Unit) := by
  have sig : whenCmd (decide (i ≠ last)) (encodeBit p (activeSig (bucketAt n i)) (decide (c ≠ 0))) =
      encodeBins p (if (i == last) = true then [] else [.ctx (activeSig (bucketAt n i)) (decide (c ≠ 0))]) := by
    have one := (encodeBins_singleton (p := p) (.ctx (activeSig (bucketAt n i)) (decide (c ≠ 0)))).symm
    rw [whenCmd_bins (d := encodeBit p _ _) (i ≠ last) fun _ => one, ite_not]
    exact congrArg (encodeBins p) (if_congr beq_iff_eq.symm rfl rfl)
  have level := whenCmd_bins (c ≠ 0) fun _ => encodeLevel_eq (p := p) (bucket := bucketAt n i) hc
  rw [ite_not] at level
  rw [encodeCoefficient, sig, level, ← encodeBins_append]
  rfl

/-- Coefficients `k-1 .. 0` from any `BUCKET` leave what their bins leave, and `BUCKET` as the last one needs it. -/
theorem encodeCoefficients_run {start L n last k : Nat} {xs : List Word} (b : Fin 3) (hx : 0x80000000 ∉ xs)
    (h : Session start s) (hL : codeValue start s = some L) (hp : p.Ok)
    (room : encoderRoom p s (coefficientsBins n last xs k).length)
    (e : encodeBins p (coefficientsBins n last xs k) s = .ok () t) :
    encodeCoefficients p n xs last k (setBucket b s) = .ok () (setBucket (if k = 0 then b else bucketAt n 0) t) := by
  induction k generalizing s L b with
  | zero => cases e; rfl
  | succ i ih =>
    rw [coefficientsBins, List.length_append] at room
    obtain ⟨u, L', first, session, value, left⟩ := encodeBins_session
      (coefficientBins (bucketAt n i) (i == last) (xs.getD i 0).toInt) h hL hp (le_trans (by omega) room)
    rw [coefficientsBins, encodeBins_append, cmd_bind_of_ok first] at e
    have beside := encodeBins_setBucket (bucketAt n i) _ h hL hp (le_trans (by omega) room) first
    have turn : encodeCoefficient p n last i (xs.getD i 0).toInt (setBucket b s) =
        .ok () (setBucket (bucketAt n i) u) := by
      rw [encodeCoefficient_eq (signed_word (getD_ne_min hx i)).1]
      exact (cmd_bind_of_ok (cmd_modify _ _)).trans beside
    refine (cmd_bind_of_ok turn).trans ((ih (bucketAt n i) session value (left _ room) e).trans ?_)
    rw [if_neg (Nat.succ_ne_zero i)]
    by_cases h0 : i = 0
    · rw [if_pos h0, h0]
    · rw [if_neg h0]

/-! ## The last position -/

theorem lastNonzero_append (xs : List Word) (x : Word) :
    lastNonzero (xs ++ [x]) = if x = 0 then lastNonzero xs else xs.length := by
  rw [lastNonzero, List.zipIdx_append, List.foldl_append, lastNonzero]
  simp

/-- The loop finds the last non-zero position (rule R290). -/
theorem lastNonzero_spec (xs : List Word) : (∀ i, xs.getD i 0 = 0) ∨ IsLast xs (lastNonzero xs) := by
  induction xs using List.reverseRecOn with
  | nil => exact .inl fun i => rfl
  | append_singleton xs x ih =>
    have below : ∀ i, i < xs.length → (xs ++ [x]).getD i 0 = xs.getD i 0 := fun i hi => List.getD_append _ _ _ _ hi
    have top : (xs ++ [x]).getD xs.length 0 = x := by
      rw [List.getD_append_right _ _ _ _ (le_refl _), Nat.sub_self]
      rfl
    have above : ∀ i, xs.length < i → (xs ++ [x]).getD i 0 = 0 := fun i hi =>
      List.getD_eq_default _ _ (by rw [List.length_append, List.length_singleton]; omega)
    rw [lastNonzero_append]
    by_cases h0 : x = 0
    · rw [if_pos h0]
      rcases ih with zero | ⟨lt, ne, zero⟩
      · refine .inl fun i => ?_
        rcases Nat.lt_trichotomy i xs.length with h | h | h
        · rw [below i h, zero]
        · rw [h, top, h0]
        · exact above i h
      · refine .inr ⟨by rw [List.length_append, List.length_singleton]; omega, by rwa [below _ lt], fun i hi => ?_⟩
        rcases Nat.lt_trichotomy i xs.length with h | h | h
        · rw [below i h, zero i hi]
        · rw [h, top, h0]
        · exact above i h
    · rw [if_neg h0]
      exact .inr ⟨by rw [List.length_append, List.length_singleton]; omega, by rwa [top], above⟩

theorem isLast_unique {xs : List Word} {i j : Nat} (hi : IsLast xs i) (hj : IsLast xs j) : i = j := by
  obtain ⟨-, ni, ai⟩ := hi
  obtain ⟨-, nj, aj⟩ := hj
  rcases Nat.lt_trichotomy i j with h | h | h
  · exact absurd (ai j h) nj
  · exact h
  · exact absurd (aj i h) ni

theorem lastNonzero_eq {xs : List Word} {last : Nat} (h : IsLast xs last) : lastNonzero xs = last := by
  rcases lastNonzero_spec xs with zero | is
  · exact absurd (zero last) h.2.1
  · exact isLast_unique is h

/-! ## `ENC_COEF` -/

theorem any_min_iff (xs : List Word) : xs.any (· == 0x80000000) = true ↔ 0x80000000 ∈ xs := by
  rw [List.any_eq_true]
  exact ⟨fun ⟨x, hx, e⟩ => beq_iff_eq.1 e ▸ hx, fun h => ⟨_, h, beq_self_eq_true _⟩⟩

theorem all_zero_iff (xs : List Word) : xs.all (· == 0) = true ↔ ∀ x ∈ xs, x = 0 := by
  rw [List.all_eq_true]
  exact forall₂_congr fun _ _ => beq_iff_eq

/-- `ENC_COEF` once its size and its coefficients are known (rule R290). -/
def encBlock (p : Config.Params) (n : Nat) (xs : List Word) : Cmd Unit :=
  if xs.any (· == 0x80000000) then raise .operandRange
  else if xs.all (· == 0) then do
    encodeBit p modelCbf false
    setRes 0
  else do
    encodeBit p modelCbf true
    encodeEg p modelLast (lastNonzero xs)
    encodeCoefficients p n xs (lastNonzero xs) (lastNonzero xs + 1)
    setRes 1

theorem encCoef_eq_encBlock {h : PartSize} {xs : List Word} (hl : LegalSize s)
    (hx : cellsReadRange s.scan 0 (sizeOf s h * sizeOf s h) = some xs) :
    Machine.encCoef p h s = encBlock p (sizeOf s h) xs s :=
  (cmd_bind_of_ok (Predictor.cfgN_of_legalSize hl h)).trans (cmd_bind_of_ok (readWords_of_some hx))

/-- Settles O51: nothing but the flag, or nothing at all. -/
theorem encCoefZero : Obligations.EncCoefZero := by
  intro s h xs hq hl hx
  constructor
  · intro start L zero session value room
    obtain ⟨t, e, -, -, -⟩ := encodeBit_coded 0 false session value Config.params_ok room
    refine ⟨t, exec_of_ok (i := .aeBit (.model 0) false) nofun hq ((cmd_bind_of_ok (cmd_get s)).trans e),
      exec_of_ok (i := .encCoef h) nofun hq ((encCoef_eq_encBlock hl hx).trans ?_)⟩
    have noMin : ¬xs.any (· == 0x80000000) = true := fun any =>
      absurd (zero _ ((any_min_iff xs).1 any)) (by decide)
    rw [encBlock, if_neg noMin, if_pos ((all_zero_iff xs).2 zero)]
    exact cmd_bind_of_ok e
  · intro min
    refine raises_of_error (i := .encCoef h) (k := .operandRange) (t := s) nofun hq
      ((encCoef_eq_encBlock hl hx).trans ?_)
    rw [encBlock, if_pos ((any_min_iff xs).2 min)]
    rfl

/-- Settles O52: the command's bins are the partition's, and only `RES` and `BUCKET` differ from what they leave. -/
theorem encCoef : Obligations.EncCoef := by
  intro p hp s h xs start L last hl hx hmin isLast session value room
  obtain ⟨lt, ne, -⟩ := id isLast
  have size : last ≤ 64 * 64 := by
    have len : xs.length = sizeOf s h * sizeOf s h := cellsReadRange_length hx
    have := Nat.mul_le_mul (sizeOf_le (h := h) hl) (sizeOf_le (h := h) hl)
    omega
  obtain ⟨t, -, e, sessionT, -, -⟩ := encodeBins_session _ session value hp room
  rw [blockBins, List.length_append] at room
  obtain ⟨u, L', front, sessionU, valueU, left⟩ := encodeBins_session ([.ctx 0 true] ++ egBins 1 last) session value hp
    (le_trans (by omega) room)
  have rest := e
  rw [blockBins, encodeBins_append, cmd_bind_of_ok front] at rest
  have coefficients := encodeCoefficients_run u.bucket hmin sessionU valueU hp (left _ room) rest
  rw [if_neg (Nat.succ_ne_zero last), bucketAt_zero (Predictor.sizeOf_pos hl h)] at coefficients
  have notZero : ¬xs.all (· == 0) = true := fun all => by
    rw [List.getD_eq_getElem _ _ lt] at ne
    exact ne ((all_zero_iff xs).1 all _ (List.getElem_mem lt))
  have run : Machine.encCoef p h s = .ok () { t with res := 1, bucket := 0 } := by
    refine (encCoef_eq_encBlock hl hx).trans ?_
    rw [encBlock, if_neg (mt (any_min_iff xs).1 hmin), if_neg notZero, lastNonzero_eq isLast, encodeEg_eq _ (by omega)]
    rw [encodeBins_append, encodeBins_singleton] at front
    obtain ⟨_, v, flag, position⟩ := cmd_bind_ok_iff.1 front
    exact (cmd_bind_of_ok flag).trans ((cmd_bind_of_ok position).trans (cmd_bind_of_ok coefficients))
  have next := runCommand_of_ok (w := []) session.quiet run
  exact ⟨t, e, sessionT, next, exec_of_runCommand (i := .encCoef h) nofun next⟩

end Sys2Proof.Proofs.SyntaxEncoding
end

section
/-! The block data path without the numerics (files 44, 47): context selection, residual, scan order, distortion. -/

namespace Sys2Proof.Proofs.BlockPath

open Sys2Proof Sys2Proof.Machine Sys2Proof.Safety Sys2Proof.Proofs.Predictor Sys2Proof.Proofs.Faults
  Sys2Proof.Proofs.SyntaxDecoding Sys2Proof.Proofs.SyntaxEncoding

variable {s t : State} {h : PartSize} {pm : PredMode} {n : Nat}

/-! ## Buffers as functions of the index -/

/-- A buffer whose elements are known reads as their list. -/
theorem readRange_of_forall {α : Type} {m : Cells α} {f : Nat → α} (hf : ∀ i, i < n → cellsRead m i = some (f i)) :
    cellsReadRange m 0 n = some ((List.range n).map f) := by
  refine (cellsReadRange_eq_some m 0 n _).2 ⟨by rw [List.length_map, List.length_range], fun i hi => ?_⟩
  rw [Nat.zero_add, hf i hi, List.getElem?_map, List.getElem?_range hi, Option.map_some]

theorem read_of_readRange {α : Type} {m : Cells α} {xs : List α} (hx : cellsReadRange m 0 n = some xs) {i : Nat}
    (hi : i < n) : cellsRead m i = xs[i]? := by
  have := ((cellsReadRange_eq_some m 0 n xs).1 hx).2 i hi
  rwa [Nat.zero_add] at this

/-- The list of a buffer all of whose elements are written. -/
theorem readRange_of_isSome {α : Type} {m : Cells α} (hm : ∀ i, i < n → (cellsRead m i).isSome = true) :
    ∃ xs, cellsReadRange m 0 n = some xs := by
  cases e : cellsReadRange m 0 n with
  | some xs => exact ⟨xs, rfl⟩
  | none =>
    obtain ⟨i, hi, none'⟩ := (cellsReadRange_eq_none m 0 n).1 e
    have := hm i hi
    rw [Nat.zero_add] at none'
    rw [none'] at this
    cases this

theorem cellsRead_fill_map {α : Type} (m : Cells α) (f : Nat → α) {i : Nat} (hi : i < n) :
    cellsRead (cellsFill m ((List.range n).map f)) i = some (f i) := by
  rw [cellsRead_fill, List.length_map, List.length_range, if_pos hi, List.getElem?_map, List.getElem?_range hi,
    Option.map_some]

theorem zipWith_maps {α β γ : Type} (f : α → β → γ) (g : Nat → α) (k : Nat → β) (n : Nat) :
    List.zipWith f ((List.range n).map g) ((List.range n).map k) = (List.range n).map fun i => f (g i) (k i) := by
  rw [List.zipWith_map, List.zipWith_self]

/-- A list put where a buffer had the same list, in a buffer that agrees beyond it, reads as that buffer. -/
theorem cellsRead_fill_restores {α : Type} {m m' : Cells α} {xs : List α} (hx : cellsReadRange m 0 n = some xs)
    (beyond : SameFrom n m m') (a : Nat) : cellsRead (cellsFill m' xs) a = cellsRead m a := by
  have len := cellsReadRange_length hx
  rw [cellsRead_fill]
  by_cases ha : a < xs.length
  · rw [if_pos ha, read_of_readRange hx (len ▸ ha)]
  · rw [if_neg ha, beyond a (by omega)]

/-! ## Context selection -/

/-- Settles O34: the map's entry is the sum of the position's coordinates. -/
theorem ctxSw : Obligations.CtxSw := by
  intro s h hq hl
  have hn : 1 ≤ sizeOf s h := sizeOf_pos hl h
  have length : (diagScan (sizeOf s h)).length = sizeOf s h * sizeOf s h := Scan.diagScan_length hn
  have run : (commandOf Config.params (.ctxSw h)).2 s = (if sizeOf s h * sizeOf s h ≤ s.arg.toNat then raise .operandRange
      else switchContext (sizeOf s h) s.arg.toNat : Cmd Unit) s :=
    (cmd_bind_of_ok (cfgN_of_legalSize hl h)).trans (cmd_bind_of_ok (cmd_get s))
  refine ⟨fun r c at' => ?_, fun inside => ?_, fun outside => ?_⟩
  · have inside : s.arg.toNat < (diagScan (sizeOf s h)).length := (List.getElem?_eq_some_iff.1 at').1
    rw [if_neg (by omega)] at run
    refine exec_of_ok (i := .ctxSw h) nofun hq (run.trans ?_)
    have entry : (diagMap (sizeOf s h)).getD s.arg.toNat 0 = r + c := by
      rw [diagMap, List.getD_eq_getElem?_getD, List.getElem?_map, at']
      rfl
    refine (cmd_modify _ s).trans ?_
    rw [bucketAt, entry]
    rfl
  · rw [← length] at inside
    exact ⟨_, _, List.getElem?_eq_getElem inside⟩
  · rw [if_pos outside] at run
    exact raises_of_error (i := .ctxSw h) (k := .operandRange) nofun hq run

/-! ## Residual and distortion -/

theorem residual_toInt (o q : Byte) : (Machine.residual o q).toInt = (o.toNat : Int) - q.toNat := by
  have ho := o.isLt
  have hq := q.isLt
  rw [Machine.residual, BitVec.toInt_sub, BitVec.toInt_eq_toNat_of_lt (by rw [BitVec.toNat_setWidth]; omega),
    BitVec.toInt_eq_toNat_of_lt (by rw [BitVec.toNat_setWidth]; omega), BitVec.toNat_setWidth, BitVec.toNat_setWidth,
    Nat.mod_eq_of_lt (by omega), Nat.mod_eq_of_lt (by omega), Int.bmod_eq_of_le (by omega) (by omega)]

/-- `RESID` with its buffers read. -/
theorem resid_run {os ps : List Byte} (hl : LegalSize s)
    (ho : cellsReadRange s.orig 0 (sizeOf s h * sizeOf s h) = some os)
    (hp : cellsReadRange s.predb 0 (sizeOf s h * sizeOf s h) = some ps) :
    Machine.resid h s = .ok () { s with resd := cellsFill s.resd (List.zipWith Machine.residual os ps) } :=
  (cmd_bind_of_ok (cfgN_of_legalSize hl h)).trans ((cmd_bind_of_ok (readBytes_of_some ho)).trans
    ((cmd_bind_of_ok (readBytes_of_some hp)).trans (cmd_modify _ s)))

/-- Settles O38. -/
theorem resid : Obligations.Resid := by
  refine ⟨by decide, by decide, fun s h hq => ⟨fun hl O P => ?_, fun hl => ?_⟩⟩
  · intro n written
    have e := resid_run hl (readRange_of_forall fun i hi => (written i hi).1)
      (readRange_of_forall fun i hi => (written i hi).2)
    rw [zipWith_maps] at e
    refine ⟨_, exec_of_ok (i := .resid h) nofun hq e, rfl, Whole.sameFrom_fill _ ?_, fun i hi => ?_⟩
    · rw [List.length_map, List.length_range]
    · exact ⟨_, cellsRead_fill_map _ _ hi, residual_toInt (O i) (P i)⟩
  · exact raises_of_illegal_size (i := .resid h) hq hl nofun rfl

theorem squaredError_cast (o r : Byte) : ((squaredError o r : Nat) : Int) = ((o.toNat : Int) - r.toNat) ^ 2 :=
  Int.toNat_of_nonneg (sq_nonneg _)

theorem squaredError_le (o r : Byte) : squaredError o r ≤ 255 ^ 2 := by
  have ho := o.isLt
  have hr := r.isLt
  have cast := squaredError_cast o r
  have bound : ((o.toNat : Int) - r.toNat) ^ 2 ≤ 255 ^ 2 := sq_le_sq' (by omega) (by omega)
  omega

theorem sum_map_le {f : Nat → Nat} {b : Nat} (hf : ∀ i, f i ≤ b) (n : Nat) : ((List.range n).map f).sum ≤ n * b := by
  have := List.sum_le_card_nsmul ((List.range n).map f) b fun x hx => by
    obtain ⟨i, -, rfl⟩ := List.mem_map.1 hx
    exact hf i
  rwa [List.length_map, List.length_range, smul_eq_mul] at this

theorem sizeOf_sq_le (hl : LegalSize s) : sizeOf s h * sizeOf s h ≤ 4096 :=
  Nat.mul_le_mul (sizeOf_le hl) (sizeOf_le hl)

/-- Settles O44: 4096 squares of at most 255 squared fit 32 bits. -/
theorem dist : Obligations.Dist := by
  refine ⟨by decide, by decide, fun s h hq => ⟨fun hl O R => ?_, fun hl => ?_⟩⟩
  · intro n written
    have ho : cellsReadRange s.orig 0 (n * n) = some ((List.range (n * n)).map O) :=
      readRange_of_forall fun i hi => (written i hi).1
    have hr : cellsReadRange s.recb 0 (n * n) = some ((List.range (n * n)).map R) :=
      readRange_of_forall fun i hi => (written i hi).2
    have e : Machine.dist h s = .ok () { s with
        res := BitVec.ofNat 32 (List.zipWith squaredError ((List.range (n * n)).map O) ((List.range (n * n)).map R)).sum } :=
      (cmd_bind_of_ok (cfgN_of_legalSize hl h)).trans ((cmd_bind_of_ok (readBytes_of_some ho)).trans
        ((cmd_bind_of_ok (readBytes_of_some hr)).trans (setRes_run _ s)))
    rw [zipWith_maps] at e
    have fits := sum_map_le (fun i => squaredError_le (O i) (R i)) (n * n)
    have size : n * n ≤ 4096 := sizeOf_sq_le hl
    refine ⟨_, exec_of_ok (i := .dist h) nofun hq e, ?_⟩
    rw [BitVec.toNat_ofNat, Nat.mod_eq_of_lt (by omega), Nat.cast_list_sum, List.map_map]
    exact congrArg List.sum (List.map_congr_left fun i _ => squaredError_cast (O i) (R i))
  · exact raises_of_illegal_size (i := .dist h) hq hl nofun rfl

/-! ## Scan order -/

theorem scanf_run {qs : List Word} (hl : LegalSize s)
    (hx : cellsReadRange s.qidx 0 (sizeOf s h * sizeOf s h) = some qs) :
    Machine.scanf pm h s = .ok () { s with scan := cellsFill s.scan (scanForward pm (sizeOf s h) qs) } :=
  (cmd_bind_of_ok (cfgN_of_legalSize hl h)).trans ((cmd_bind_of_ok (readWords_of_some hx)).trans (cmd_modify _ s))

theorem scani_run {xs : List Word} (hl : LegalSize s)
    (hx : cellsReadRange s.scan 0 (sizeOf s h * sizeOf s h) = some xs) :
    Machine.scani pm h s = .ok () { s with qidx := cellsFill s.qidx (scanInverse pm (sizeOf s h) xs) } :=
  (cmd_bind_of_ok (cfgN_of_legalSize hl h)).trans ((cmd_bind_of_ok (readWords_of_some hx)).trans (cmd_modify _ s))

theorem diagScan_head (hn : 0 < n) : (diagScan n)[0]? = some (0, 0) := by
  obtain ⟨k, rfl⟩ : ∃ k, n = k + 1 := ⟨n - 1, by omega⟩
  rw [diagScan, show 2 * (k + 1) - 1 = 2 * k + 1 by omega, List.range_succ_eq_map]
  simp [diagonal]

/-- What each scan order takes its elements from (rules R255, R256). -/
theorem scanSource_diagonal (hpm : pm = .dc ∨ pm = .planar) {i r c : Nat} (hi : (diagScan n)[i]? = some (r, c)) :
    (scanSource pm n)[i]? = some (r * n + c) := by
  rcases hpm with rfl | rfl <;> rw [scanSource, List.getElem?_map, hi, Option.map_some]

theorem scanSource_horizontal {r c : Nat} (hr : r < n) (hc : c < n) :
    (scanSource .horizontal n)[r * n + c]? = some (c * n + r) := by
  have inside : r * n + c < n * n := calc
    r * n + c < r * n + n := Nat.add_lt_add_left hc _
    _ = (r + 1) * n := (Nat.succ_mul r n).symm
    _ ≤ n * n := Nat.mul_le_mul_right n hr
  have hn : 0 < n := by omega
  rw [scanSource, List.getElem?_eq_getElem (by rwa [grid_length]), grid_getElem, Nat.add_comm (r * n),
    Nat.add_mul_div_right _ _ hn, Nat.div_eq_of_lt hc, Nat.zero_add, Nat.add_mul_mod_self_right, Nat.mod_eq_of_lt hc]

theorem scanSource_vertical {i : Nat} (hi : i < n * n) : (scanSource .vertical n)[i]? = some i :=
  List.getElem?_range hi

theorem scanSource_head (pm : PredMode) (hn : 0 < n) : (scanSource pm n)[0]? = some 0 := by
  cases pm with
  | dc => exact (scanSource_diagonal (.inl rfl) (diagScan_head hn)).trans (by rw [Nat.zero_mul])
  | planar => exact (scanSource_diagonal (.inr rfl) (diagScan_head hn)).trans (by rw [Nat.zero_mul])
  | horizontal =>
    have := scanSource_horizontal hn hn
    rwa [Nat.zero_mul, Nat.zero_add] at this
  | vertical => exact scanSource_vertical (Nat.mul_pos hn hn)

/-- Scan index `i` holds the element at its source. -/
theorem cellsRead_scanForward (m : Cells Word) (hn : 0 < n) {Q : Nat → Word} {i j : Nat}
    (hi : (scanSource pm n)[i]? = some j) :
    cellsRead (cellsFill m (scanForward pm n ((List.range (n * n)).map Q))) i = some (Q j) := by
  have inside : i < n * n := scanSource_length pm hn ▸ (List.getElem?_eq_some_iff.1 hi).1
  have source : j < n * n := (mem_scanSource pm hn).1 (List.mem_of_getElem? hi)
  rw [cellsRead_fill, scanForward_length pm hn, if_pos inside, scanForward, List.getElem?_map, hi, Option.map_some,
    List.getD_eq_getElem?_getD, List.getElem?_map, List.getElem?_range source, Option.map_some, Option.getD_some]

/-- The raster index that is the source of scan index `i` receives the element there. -/
theorem cellsRead_scanInverse (m : Cells Word) (hn : 0 < n) {X : Nat → Word} {i j : Nat}
    (hi : (scanSource pm n)[i]? = some j) :
    cellsRead (cellsFill m (scanInverse pm n ((List.range (n * n)).map X))) j = some (X i) := by
  obtain ⟨lt, at'⟩ := List.getElem?_eq_some_iff.1 hi
  have inside : i < n * n := scanSource_length pm hn ▸ lt
  have source : j < n * n := (mem_scanSource pm hn).1 (List.mem_of_getElem? hi)
  have index : (scanSource pm n).idxOf j = i := at' ▸ (scanSource_nodup pm hn).idxOf_getElem i lt
  rw [scanInverse, cellsRead_fill_map _ _ source, index, List.getD_eq_getElem?_getD, List.getElem?_map,
    List.getElem?_range inside, Option.map_some, Option.getD_some]

theorem sameFrom_scanForward (m : Cells Word) (hn : 0 < n) (qs : List Word) :
    SameFrom (n * n) m (cellsFill m (scanForward pm n qs)) :=
  Whole.sameFrom_fill m (scanForward_length pm hn qs).le

theorem sameFrom_scanInverse (m : Cells Word) (xs : List Word) :
    SameFrom (n * n) m (cellsFill m (scanInverse pm n xs)) :=
  Whole.sameFrom_fill m (scanInverse_length pm n xs).le

/-- Settles O42: each order takes its elements from its source. -/
theorem scanf : Obligations.Scanf := by
  refine ⟨fun pm h => by cases pm <;> cases h <;> rfl, fun s pm h hq => ⟨fun hl Q => ?_, fun hl => ?_⟩⟩
  · intro n written
    have hn : 0 < n := sizeOf_pos hl h
    have e := exec_of_ok (i := .scanf pm h) nofun hq (scanf_run hl (readRange_of_forall written))
    refine ⟨_, e, rfl, sameFrom_scanForward s.scan hn _, cellsRead_scanForward _ hn (scanSource_head pm hn), ?_⟩
    cases pm with
    | dc => exact fun i r c hi => cellsRead_scanForward _ hn (scanSource_diagonal (.inl rfl) hi)
    | planar => exact fun i r c hi => cellsRead_scanForward _ hn (scanSource_diagonal (.inr rfl) hi)
    | horizontal => exact fun r c hr hc => cellsRead_scanForward _ hn (scanSource_horizontal hr hc)
    | vertical => exact fun i hi => cellsRead_scanForward _ hn (scanSource_vertical hi)
  · exact raises_of_illegal_size (i := .scanf pm h) hq hl nofun rfl

/-- Settles O43: the list facts that each order's inverse undoes it. -/
theorem scani : Obligations.Scani := by
  refine ⟨fun pm h => by cases pm <;> cases h <;> rfl, fun s pm h hq => ⟨fun hl X => ?_, fun hl written => ?_, fun hl => ?_⟩⟩
  · intro n written
    have hn : 0 < n := sizeOf_pos hl h
    have scanned := readRange_of_forall written
    have e := exec_of_ok (i := .scani pm h) nofun hq (scani_run hl scanned)
    refine ⟨_, e, rfl, sameFrom_scanInverse s.qidx _, ?_, ?_⟩
    · cases pm with
      | dc => exact fun i r c hi => cellsRead_scanInverse _ hn (scanSource_diagonal (.inl rfl) hi)
      | planar => exact fun i r c hi => cellsRead_scanInverse _ hn (scanSource_diagonal (.inr rfl) hi)
      | horizontal => exact fun r c hr hc => cellsRead_scanInverse _ hn (scanSource_horizontal hr hc)
      | vertical => exact fun i hi => cellsRead_scanInverse _ hn (scanSource_vertical hi)
    · have filled := cellsReadRange_fill s.qidx (scanInverse pm n ((List.range (n * n)).map X))
      rw [scanInverse_length] at filled
      have f := scanf_run (s := { s with qidx := cellsFill s.qidx (scanInverse pm n _) }) (pm := pm) (h := h) hl filled
      refine ⟨_, exec_of_ok (i := .scanf pm h) nofun hq f, fun a => ?_⟩
      refine Eq.trans ?_ (cellsRead_fill_restores scanned (Whole.sameFrom_refl _ _) a)
      exact congrArg (fun l => cellsRead (cellsFill s.scan l) a)
        (scanForward_scanInverse pm hn (cellsReadRange_length scanned))
  · have hn : 0 < sizeOf s h := sizeOf_pos hl h
    obtain ⟨qs, hqs⟩ := Option.isSome_iff_exists.1 written
    have e := scanf_run (pm := pm) hl hqs
    have filled := cellsReadRange_fill s.scan (scanForward pm (sizeOf s h) qs)
    rw [scanForward_length pm hn] at filled
    have f := scani_run (s := { s with scan := cellsFill s.scan (scanForward pm (sizeOf s h) qs) }) (pm := pm) (h := h) hl
      filled
    refine ⟨_, _, exec_of_ok (i := .scanf pm h) nofun hq e, exec_of_ok (i := .scani pm h) nofun hq f, fun a => ?_⟩
    refine Eq.trans ?_ (cellsRead_fill_restores hqs (Whole.sameFrom_refl _ _) a)
    exact congrArg (fun l => cellsRead (cellsFill s.qidx l) a)
      (scanInverse_scanForward pm hn (cellsReadRange_length hqs))
  · exact raises_of_illegal_size (i := .scani pm h) hq hl nofun rfl

end Sys2Proof.Proofs.BlockPath
end

section
/-! The transforms and their numerics (file 45; rule R216): the basis matrices as matrices, and the reference numerics'
laws. -/

namespace Sys2Proof.Proofs.Numerics

open Sys2Proof Sys2Proof.Config Sys2Proof.Machine

/-! ## The transforms as products of matrices (rule R212) -/

/-- A basis matrix. -/
noncomputable def basisMatrix (b : Basis) (n : Nat) : Matrix (Fin n) (Fin n) ℝ := Matrix.of fun k j => b.entry n k j

/-- A partition in raster order. -/
noncomputable def rasterMatrix (n : Nat) (xs : List ℝ) : Matrix (Fin n) (Fin n) ℝ :=
  Matrix.of fun r c => xs.getD (r * n + c) 0

/-- The rows of a basis matrix are orthonormal, and so are its columns. -/
theorem basisMatrix_mul_transpose (b : Basis) (n : Nat) : basisMatrix b n * (basisMatrix b n).transpose = 1 := by
  ext k l
  rw [Matrix.mul_apply, Matrix.one_apply]
  have rows := entry_orthonormal b k.isLt l.isLt
  rw [Finset.sum_range] at rows
  exact rows.trans (if_congr Fin.ext_iff.symm rfl rfl)

theorem transpose_mul_basisMatrix (b : Basis) (n : Nat) : (basisMatrix b n).transpose * basisMatrix b n = 1 :=
  mul_eq_one_comm.1 (basisMatrix_mul_transpose b n)

/-- A weighted sum over a partition in raster order, by rows and columns. -/
theorem raster_sum (n : Nat) (g k : Nat → ℝ) (xs : List ℝ) :
    ((List.range (n * n)).map fun i => g (i / n) * k (i % n) * xs.getD i 0).sum =
      ∑ r : Fin n, ∑ c : Fin n, g r * k c * rasterMatrix n xs r c := by
  have index : ∀ i, xs.getD i 0 = xs.getD (i / n * n + i % n) 0 := fun i => by rw [Nat.mul_comm, Nat.div_add_mod]
  rw [sum_list_range]
  calc ∑ i ∈ Finset.range (n * n), g (i / n) * k (i % n) * xs.getD i 0
      = ∑ i ∈ Finset.range (n * n), (fun r c => g r * k c * xs.getD (r * n + c) 0) (i / n) (i % n) :=
        Finset.sum_congr rfl fun i _ => by rw [index i]
    _ = ∑ r ∈ Finset.range n, ∑ c ∈ Finset.range n, g r * k c * xs.getD (r * n + c) 0 :=
        sum_raster (fun r c => g r * k c * xs.getD (r * n + c) 0) n n
    _ = ∑ r : Fin n, ∑ c : Fin n, g r * k c * rasterMatrix n xs r c := by
        rw [Finset.sum_range]
        exact Finset.sum_congr rfl fun r _ => Finset.sum_range _

theorem txfReal_eq_mul (a b : Basis) (n : Nat) (xs : List ℝ) (u v : Fin n) :
    txfReal a b n xs u v = (basisMatrix a n * rasterMatrix n xs * (basisMatrix b n).transpose) u v := by
  rw [txfReal, raster_sum n (a.entry n u) (b.entry n v), Matrix.mul_apply, Finset.sum_comm]
  refine Finset.sum_congr rfl fun c _ => ?_
  rw [Matrix.mul_apply, Finset.sum_mul]
  exact Finset.sum_congr rfl fun r _ => mul_right_comm _ _ _

theorem txiReal_eq_mul (a b : Basis) (n : Nat) (ys : List ℝ) (r c : Fin n) :
    txiReal a b n ys r c = ((basisMatrix a n).transpose * rasterMatrix n ys * basisMatrix b n) r c := by
  rw [txiReal, raster_sum n (fun u => a.entry n u r) (fun v => b.entry n v c), Matrix.mul_apply, Finset.sum_comm]
  refine Finset.sum_congr rfl fun v _ => ?_
  rw [Matrix.mul_apply, Finset.sum_mul]
  exact Finset.sum_congr rfl fun u _ => mul_right_comm _ _ _

/-- The inverse transform of the transform is the partition. -/
theorem txiReal_txfReal (a b : Basis) {n : Nat} {xs ys : List ℝ}
    (h : ∀ u v, u < n → v < n → ys.getD (u * n + v) 0 = txfReal a b n xs u v) {r c : Nat} (hr : r < n) (hc : c < n) :
    txiReal a b n ys r c = xs.getD (r * n + c) 0 := by
  have transformed : rasterMatrix n ys = basisMatrix a n * rasterMatrix n xs * (basisMatrix b n).transpose := by
    ext u v
    exact (h u v u.isLt v.isLt).trans (txfReal_eq_mul a b n xs u v)
  have inverse : (basisMatrix a n).transpose * rasterMatrix n ys * basisMatrix b n = rasterMatrix n xs := by
    rw [transformed, Matrix.mul_assoc, Matrix.mul_assoc, Matrix.mul_assoc, transpose_mul_basisMatrix, Matrix.mul_one,
      ← Matrix.mul_assoc, transpose_mul_basisMatrix, Matrix.one_mul]
  exact (txiReal_eq_mul a b n ys ⟨r, hr⟩ ⟨c, hc⟩).trans (congrFun (congrFun inverse ⟨r, hr⟩) ⟨c, hc⟩)

/-! ## The reference numerics -/

theorem getD_cast (xs : List Int) (i : Nat) : (xs.map fun x : Int => (x : ℝ)).getD i 0 = (xs.getD i 0 : Int) := by
  have h := getD_map (fun x : Int => (x : ℝ)) xs i 0
  rwa [Int.cast_zero] at h

theorem getD_val (ys : List RealVal) (i : Nat) : (ys.map RealVal.val).getD i 0 = (ys.getD i .zero).val := by
  have h := getD_map RealVal.val ys i .zero
  rwa [val_zero] at h

/-- `NUM_ORTH` of the reference numerics (rule R216). -/
theorem exactNum_orth : exactNum.Orth := by
  intro a b n xs ys h r c hr hc
  rw [val_exact_txi, txiReal_txfReal a b (xs := xs.map fun x : Int => (x : ℝ)) (fun u v hu hv => ?_) hr hc, getD_cast]
  rw [getD_val, List.getD_eq_getElem?_getD, h u v hu hv, Option.getD_some, val_exact_txf]

/-- A weighted sum of a combination is the combination of the sums. -/
theorem weighted_sum_linear {n : Nat} {k l : ℝ} {f g e : Nat → ℝ} (w : Nat → ℝ)
    (h : ∀ i, i < n → e i = k * f i + l * g i) :
    ((List.range n).map fun i => w i * e i).sum =
      k * ((List.range n).map fun i => w i * f i).sum + l * ((List.range n).map fun i => w i * g i).sum := by
  rw [sum_list_range, sum_list_range, sum_list_range, Finset.mul_sum, Finset.mul_sum, ← Finset.sum_add_distrib]
  refine Finset.sum_congr rfl fun i hi => ?_
  rw [h i (Finset.mem_range.1 hi)]
  ring

/-- `NUM_LIN` of the reference numerics (rule R216). -/
theorem exactNum_lin : exactNum.Lin := by
  constructor
  · intro a b n k l xs ys zs h u v
    rw [val_exact_txf, val_exact_txf, val_exact_txf, txfReal, txfReal, txfReal]
    refine weighted_sum_linear (fun i => a.entry n u (i / n) * b.entry n v (i % n)) fun i hi => ?_
    rw [getD_cast, getD_cast, getD_cast, h i hi]
    push_cast
    rfl
  · intro a b n k l xs ys zs h r c
    rw [val_exact_txi, val_exact_txi, val_exact_txi, txiReal, txiReal, txiReal]
    refine weighted_sum_linear (fun i => a.entry n (i / n) r * b.entry n (i % n) c) fun i hi => ?_
    rw [getD_val, getD_val, getD_val, h i hi]

/-- Rounding to nearest is off by at most a half, and goes to the even integer from a half (rule R5). -/
theorem roundReal_spec (x : ℝ) :
    |x - roundReal x| ≤ 1 / 2 ∧ (|x - roundReal x| = 1 / 2 → roundReal x % 2 = 0) := by
  have low := Int.floor_le x
  have high := Int.lt_floor_add_one x
  rcases lt_trichotomy (x - ⌊x⌋) (1 / 2) with h | h | h
  · rw [roundReal_low low h, abs_of_nonneg (by linarith)]
    exact ⟨h.le, fun e => absurd e h.ne⟩
  · rw [roundReal_tie h]
    by_cases even : Even ⌊x⌋
    · rw [if_pos even, h]
      exact ⟨(abs_of_pos (by norm_num)).le, fun _ => Int.even_iff.1 even⟩
    · have up : x - ((⌊x⌋ + 1 : Int) : ℝ) = -(1 / 2) := by
        push_cast
        linarith
      rw [if_neg even, up]
      refine ⟨((abs_neg _).trans (abs_of_pos (by norm_num))).le, fun _ => ?_⟩
      rw [Int.even_iff] at even
      omega
  · rw [roundReal_high h high]
    have neg : x - ((⌊x⌋ + 1 : Int) : ℝ) < 0 := by
      push_cast
      linarith
    rw [abs_of_neg neg]
    push_cast
    exact ⟨by linarith, fun e => absurd e (by intro e; linarith)⟩

end Sys2Proof.Proofs.Numerics
end

section
/-! The block data path's numeric commands (files 45, 47): transform, quantizer, dequantizer, reconstruction, and the
partition of zeros. -/

namespace Sys2Proof.Proofs.NumericPath

open Sys2Proof Sys2Proof.Machine Sys2Proof.Safety Sys2Proof.Proofs.Predictor Sys2Proof.Proofs.Bits
  Sys2Proof.Proofs.SyntaxDecoding Sys2Proof.Proofs.BlockPath Sys2Proof.Proofs.Numerics
open Sys2Proof.Config (RealVal Params txfReal txiReal rationalAt exactNum stepReal roundReal quantReal)

variable {p : Params} {s t : State} {h : PartSize} {pm : PredMode} {n : Nat}

/-- `runCommand_of_ok` and `exec_of_ok` with the run first, for a state that the run gives. -/
theorem next_of_ok (w : List BufName) {c : Cmd Unit} (e : c s = .ok () t) (hq : Quiet s) : runCommand w c s = .next t :=
  runCommand_of_ok hq e

theorem exec_next_of_ok (i : Instr) (hi : i ≠ .sreset) (e : (commandOf Config.params i).2 s = .ok () t) (hq : Quiet s) :
    exec i s = .next t := exec_of_ok hi hq e

/-! ## The transforms -/

theorem basisPair_eq (pm : PredMode) : basisPair pm = (verticalBasis pm, horizontalBasis pm) := by cases pm <;> rfl

/-- `TXF` with its source read. -/
theorem txf_run {xs : List Word} (hl : LegalSize s)
    (hx : cellsReadRange s.resd 0 (sizeOf s h * sizeOf s h) = some xs) :
    Machine.txf p pm h s = .ok () { s with coef := some ⟨sizeOf s h, grid (sizeOf s h)
      (p.num.txf (verticalBasis pm) (horizontalBasis pm) (sizeOf s h) (xs.map BitVec.toInt))⟩ } := by
  refine (cmd_bind_of_ok (cfgN_of_legalSize hl h)).trans ((cmd_bind_of_ok (readWords_of_some hx)).trans ?_)
  rw [basisPair_eq]
  exact cmd_modify _ s

theorem txi_run {ys : List RealVal} (hl : LegalSize s) (hy : s.dcoef = some ⟨sizeOf s h, ys⟩) :
    Machine.txi p pm h s = .ok () { s with rres := some ⟨sizeOf s h, grid (sizeOf s h)
      (p.num.txi (verticalBasis pm) (horizontalBasis pm) (sizeOf s h) ys)⟩ } := by
  refine (cmd_bind_of_ok (cfgN_of_legalSize hl h)).trans ((cmd_bind_of_ok (readReals_of_eq hy)).trans ?_)
  rw [basisPair_eq]
  exact cmd_modify _ s

theorem grid_getElem? {α : Type} (f : Nat → Nat → α) {r c : Nat} (hr : r < n) (hc : c < n) :
    (grid n f)[r * n + c]? = some (f r c) := by
  have inside : r * n + c < n * n := calc
    r * n + c < r * n + n := Nat.add_lt_add_left hc _
    _ = (r + 1) * n := (Nat.succ_mul r n).symm
    _ ≤ n * n := Nat.mul_le_mul_right n hr
  have hn : 0 < n := by omega
  rw [List.getElem?_eq_getElem (by rwa [grid_length]), grid_getElem, Nat.add_comm (r * n), Nat.add_mul_div_right _ _ hn,
    Nat.div_eq_of_lt hc, Nat.zero_add, Nat.add_mul_mod_self_right, Nat.mod_eq_of_lt hc]

theorem grid_getD {f : Nat → Nat → RealVal} {r c : Nat} (hr : r < n) (hc : c < n) :
    (grid n f).getD (r * n + c) .zero = f r c := by
  rw [List.getD_eq_getElem?_getD, grid_getElem? f hr hc, Option.getD_some]

theorem mem_grid {α : Type} {f : Nat → Nat → α} {y : α} (hy : y ∈ grid n f) : ∃ r c, r < n ∧ c < n ∧ y = f r c := by
  obtain ⟨i, hi, rfl⟩ := List.mem_map.1 hy
  have hi := List.mem_range.1 hi
  have hn : 0 < n := Nat.pos_of_ne_zero fun h0 => by subst h0; exact absurd hi (Nat.not_lt_zero _)
  exact ⟨i / n, i % n, Nat.div_lt_of_lt_mul hi, Nat.mod_lt _ hn, rfl⟩

theorem rationalAt_of {u v : Nat} (hu : u < n) (hv : v < n) (small : n = 1 ∨ n = 2 ∧ pm = .dc) :
    rationalAt (verticalBasis pm) (horizontalBasis pm) n u v = true := by
  rcases small with rfl | ⟨rfl, rfl⟩ <;> simp [rationalAt, hu, hv, verticalBasis, horizontalBasis]

theorem map_toInt_cast (xs : List Word) :
    (xs.map fun x => (x.toInt : ℝ)) = (xs.map BitVec.toInt).map fun x : Int => (x : ℝ) := by
  rw [List.map_map]
  rfl

theorem allRational_of {ys : List RealVal} (hy : ∀ y ∈ ys, y.quarters = 0 ∧ y.rest = []) :
    Config.allRational ys = true := by
  rw [Config.allRational, List.all_eq_true]
  intro y hm
  obtain ⟨q, r⟩ := hy y hm
  rw [q, r]
  rfl

/-- Settles O39: the grids of the instance's values, which are exact in the rational cases and in the reference
numerics. -/
theorem transforms : Obligations.Transforms := by
  refine ⟨fun p s pm h hq hl => ⟨fun xs hx => ?_, fun ys hy => ?_⟩, Config.exactNum_ok, exactNum_orth, exactNum_lin⟩
  · have next := runCommand_of_ok (w := [.coef]) hq (txf_run (p := p) (pm := pm) hl hx)
    refine ⟨_, next, exec_of_runCommand (i := .txf pm h) nofun next, grid_length _ _, fun u v hu hv => grid_getElem? _ hu hv,
      fun hp small u v hu hv => ?_, fun hp small y hy => ?_, fun hex u v hu hv => ?_⟩
    · have rational := rationalAt_of hu hv small
      rw [grid_getD hu hv, hp.num_ok.txf_exact _ _ _ _ _ _ rational, val_ofRat, map_toInt_cast, txfReal_rational rational]
    · obtain ⟨u, v, hu, hv, rfl⟩ := mem_grid hy
      refine hp.num_ok.txf_bound _ _ _ _ _ _ hu hv fun x hx => ?_
      obtain ⟨w, hw, rfl⟩ := List.mem_map.1 hx
      exact small w hw
    · rw [grid_getD hu hv, hex, Config.val_exact_txf, map_toInt_cast]
  · have next := runCommand_of_ok (w := [.rres]) hq (txi_run (p := p) (pm := pm) hl hy)
    refine ⟨_, next, exec_of_runCommand (i := .txi pm h) nofun next, grid_length _ _, fun r c hr hc => grid_getElem? _ hr hc,
      fun hp small rat r c hr hc => ?_, fun hex r c hr hc => ?_⟩
    · have rational := rationalAt_of hr hc small
      have all := allRational_of rat
      rw [grid_getD hr hc, hp.num_ok.txi_exact _ _ _ _ _ _ rational all, val_ofRat, txiReal_rational rational all]
    · rw [grid_getD hr hc, hex, Config.val_exact_txi]

/-! ## The quantizer -/

/-- A list of known length as a function of the index. -/
theorem list_eq_map_getD {α : Type} {xs : List α} (hlen : xs.length = n) (d : α) :
    xs = (List.range n).map fun i => xs.getD i d := by
  subst hlen
  refine List.ext_getElem (by rw [List.length_map, List.length_range]) fun i h1 h2 => ?_
  rw [List.getElem_map, List.getElem_range, List.getD_eq_getElem _ _ h1]

/-- The indices `QUANT` computes. -/
def indices (p : Params) (qp : Nat) (ys : List RealVal) : List Int := ys.map fun y => p.num.quant y (p.num.step qp)

/-- `QUANT` with its source read. -/
theorem quant_run {ys : List RealVal} (hl : LegalSize s) (hqp : s.cfg.qp.toNat ≤ 31)
    (hy : s.coef = some ⟨sizeOf s h, ys⟩) :
    Machine.quant p h s = (if (indices p s.cfg.qp.toNat ys).any indexTooLarge then raise .operandRange
      else modify fun s' => { s' with
        qidx := cellsFill s'.qidx ((indices p s.cfg.qp.toNat ys).map (BitVec.ofInt 32)) } : Cmd Unit) s :=
  (cmd_bind_of_ok (cfgN_of_legalSize hl h)).trans ((cmd_bind_of_ok (checkQp_of_le hqp)).trans
    ((cmd_bind_of_ok (readReals_of_eq hy)).trans (cmd_bind_of_ok (cmd_get s))))

theorem any_tooLarge_iff (qs : List Int) : qs.any indexTooLarge = true ↔ ∃ q ∈ qs, 2 ^ 31 - 1 < q.natAbs := by
  rw [List.any_eq_true]
  exact exists_congr fun q => and_congr_right fun _ => decide_eq_true_iff

theorem ofInt_toInt {q : Int} (hq : q.natAbs ≤ 2 ^ 31 - 1) : (BitVec.ofInt 32 q).toInt = q := by
  rw [BitVec.toInt_ofInt, Int.bmod_eq_of_le (by omega) (by omega)]

/-- The exact index, in the machine's own numerics and in the reference ones (rule R252). -/
theorem quant_exact {qp : Nat} (hqp : qp ≤ 31) (y : RealVal) (hp : p = Config.params ∨ p.num = exactNum) :
    p.num.quant y (p.num.step qp) = quantReal y.val (stepReal qp) := by
  rcases hp with rfl | hex
  · exact quantize_eq y hqp
  · rw [hex]
    show quantReal y.val (exactNum.step qp).val = _
    rw [Config.val_exact_step]

/-- Where every index fits, `QUANT` completes with them. -/
theorem quant_fits {ys : List RealVal} (hl : LegalSize s) (hqp : s.cfg.qp.toNat ≤ 31)
    (hy : s.coef = some ⟨sizeOf s h, ys⟩)
    (fits : ∀ y ∈ ys, (p.num.quant y (p.num.step s.cfg.qp.toNat)).natAbs ≤ 2 ^ 31 - 1) :
    Machine.quant p h s = .ok () { s with
      qidx := cellsFill s.qidx ((indices p s.cfg.qp.toNat ys).map (BitVec.ofInt 32)) } := by
  have small : ¬(indices p s.cfg.qp.toNat ys).any indexTooLarge = true := fun any => by
    obtain ⟨q, hq, large⟩ := (any_tooLarge_iff _).1 any
    obtain ⟨y, hm, rfl⟩ := List.mem_map.1 hq
    have := fits y hm
    omega
  rw [quant_run hl hqp hy, if_neg small]
  exact cmd_modify _ s

theorem mem_of_getD {α : Type} {xs : List α} {i : Nat} (hi : i < xs.length) (d : α) : xs.getD i d ∈ xs := by
  rw [List.getD_eq_getElem _ _ hi]
  exact List.getElem_mem hi

/-- `RESID`'s elements are between -255 and 255. -/
theorem residuals_small (os ps : List Byte) : ∀ x ∈ List.zipWith Machine.residual os ps, x.toInt.natAbs ≤ 255 := by
  intro x hx
  obtain ⟨i, hi, rfl⟩ := List.mem_iff_getElem.1 hx
  rw [List.getElem_zipWith, residual_toInt]
  have ho := (os[i]'(by rw [List.length_zipWith] at hi; omega)).isLt
  have hp := (ps[i]'(by rw [List.length_zipWith] at hi; omega)).isLt
  omega

/-- Settles O40: the indices as computed, their exact values, and that those of a residual fit. -/
theorem quant : Obligations.Quant := by
  constructor
  · intro s h ys hq hl hqp hy hlen n step y p q
    refine ⟨fun fits => ?_, fun big => ?_, fun hp i hi => ?_⟩
    · have all : ∀ y ∈ ys, (p.num.quant y (p.num.step s.cfg.qp.toNat)).natAbs ≤ 2 ^ 31 - 1 := fun y hm => by
        obtain ⟨i, hi, rfl⟩ := List.mem_iff_getElem.1 hm
        have := fits i (hlen ▸ hi)
        rwa [← List.getD_eq_getElem ys .zero hi]
      have e := quant_fits (p := p) hl hqp hy all
      have next := runCommand_of_ok (w := [.qidx]) hq e
      have list : (indices p s.cfg.qp.toNat ys).map (BitVec.ofInt 32) =
          (List.range (n * n)).map fun i => BitVec.ofInt 32 (q i) := by
        rw [list_eq_map_getD hlen RealVal.zero, indices, List.map_map, List.map_map]
        rfl
      rw [list] at next
      refine ⟨_, next, exec_of_runCommand (i := .quant h) nofun next, rfl, Whole.sameFrom_fill _ ?_, fun i hi => ?_⟩
      · rw [List.length_map, List.length_range]
      · exact ⟨_, cellsRead_fill_map _ _ hi, ofInt_toInt (fits i hi)⟩
    · obtain ⟨i, hi, large⟩ := big
      have any : (indices p s.cfg.qp.toNat ys).any indexTooLarge = true :=
        (any_tooLarge_iff _).2 ⟨q i, List.mem_map.2 ⟨_, mem_of_getD (hlen ▸ hi) _, rfl⟩, large⟩
      have e : (commandOf p (.quant h)).2 s = .error (.fault .operandRange) s := by
        refine (quant_run hl hqp hy).trans ?_
        rw [if_pos any]
        rfl
      have faults := faultsWith_of_kept (w := [.qidx]) hq e fun _ _ => rfl
      exact ⟨faults, raises_of_faultsWith (i := .quant h) nofun faults⟩
    · exact quant_exact hqp _ hp
  · intro p s pm h hp hq hl hqp written
    obtain ⟨os, ho⟩ := readRange_of_isSome fun i hi => (written i hi).1
    obtain ⟨ps, hps⟩ := readRange_of_isSome fun i hi => (written i hi).2
    have e1 := resid_run hl ho hps
    have len : (List.zipWith Machine.residual os ps).length = sizeOf s h * sizeOf s h := by
      rw [List.length_zipWith, cellsReadRange_length ho, cellsReadRange_length hps, Nat.min_self]
    have filled := cellsReadRange_fill s.resd (List.zipWith Machine.residual os ps)
    rw [len] at filled
    have small := residuals_small os ps
    generalize List.zipWith Machine.residual os ps = ds at e1 filled small
    have e2 := txf_run (p := p) (s := { s with resd := cellsFill s.resd ds }) (pm := pm) (h := h) hl filled
    have e3 := quant_fits (p := p) (h := h) (s := { s with resd := cellsFill s.resd ds, coef := some ⟨sizeOf s h, grid (sizeOf s h)
      (p.num.txf (verticalBasis pm) (horizontalBasis pm) (sizeOf s h) (ds.map BitVec.toInt))⟩ }) hl hqp rfl (by
        intro y hy
        obtain ⟨u, v, hu, hv, rfl⟩ := mem_grid hy
        have bound := hp.num_ok.txf_bound (verticalBasis pm) (horizontalBasis pm) (sizeOf s h) (ds.map BitVec.toInt) u v hu hv
          fun x hx => by
            obtain ⟨w, hw, rfl⟩ := List.mem_map.1 hx
            exact small w hw
        refine hp.num_ok.quant_range _ _ hqp (bound.trans ?_)
        have size : ((sizeOf s h : Nat) : ℝ) ≤ 64 := by exact_mod_cast sizeOf_le hl
        linarith)
    have n2 := next_of_ok [.coef] e2 hq
    have n3 := next_of_ok [.qidx] e3 hq
    have x1 := exec_of_ok (i := .resid h) nofun hq e1
    exact ⟨_, _, _, x1, n2, n3, hq, fun own => ⟨_, x1, _, exec_of_runCommand (i := .txf pm h) nofun n2 own, _,
      exec_of_runCommand (i := .quant h) nofun n3 own, rfl⟩⟩

/-! ## The dequantizer and the reconstruction -/

theorem deq_run {qs : List Word} (hl : LegalSize s) (hqp : s.cfg.qp.toNat ≤ 31)
    (hx : cellsReadRange s.qidx 0 (sizeOf s h * sizeOf s h) = some qs) :
    Machine.deq p h s = .ok () { s with
      dcoef := some ⟨sizeOf s h, qs.map fun q => p.num.deq q.toInt (p.num.step s.cfg.qp.toNat)⟩ } :=
  (cmd_bind_of_ok (cfgN_of_legalSize hl h)).trans ((cmd_bind_of_ok (checkQp_of_le hqp)).trans
    ((cmd_bind_of_ok (readWords_of_some hx)).trans (cmd_modify _ s)))

theorem deq_exact {qp : Nat} (q : Int) (hp : p = Config.params ∨ p.num = exactNum) :
    (p.num.deq q (p.num.step qp)).val = q * stepReal qp := by
  rcases hp with rfl | hex
  · exact val_dequantize q qp
  · rw [hex, Config.val_exact_deq, Config.val_exact_step]

theorem round_exact (x : RealVal) (hp : p = Config.params ∨ p.num = exactNum) : p.num.round x = roundReal x.val := by
  rcases hp with rfl | hex
  · exact roundHalfEven_eq x
  · rw [hex]
    rfl

/-- One reconstructed sample. -/
def reconstructed (p : Params) (q : Byte) (x : RealVal) : Byte := clipSample ((q.toNat : Int) + p.num.round x)

theorem recon_run {ps : List Byte} {xs : List RealVal} (hl : LegalSize s)
    (hps : cellsReadRange s.predb 0 (sizeOf s h * sizeOf s h) = some ps) (hx : s.rres = some ⟨sizeOf s h, xs⟩) :
    Machine.recon p h s = .ok () { s with recb := cellsFill s.recb (List.zipWith (reconstructed p) ps xs) } :=
  (cmd_bind_of_ok (cfgN_of_legalSize hl h)).trans ((cmd_bind_of_ok (readBytes_of_some hps)).trans
    ((cmd_bind_of_ok (readReals_of_eq hx)).trans (cmd_modify _ s)))

theorem clipSample_toNat (x : Int) : ((clipSample x).toNat : Int) = max 0 (min 255 x) := by
  rw [clipSample, BitVec.toNat_ofInt]
  omega

theorem getD_map_range {α : Type} (f : Nat → α) (d : α) {i : Nat} (hi : i < n) :
    ((List.range n).map f).getD i d = f i := by
  rw [List.getD_eq_getElem?_getD, List.getElem?_map, List.getElem?_range hi, Option.map_some, Option.getD_some]

/-- Settles O41: the values as computed, and their exact values. -/
theorem deqRecon : Obligations.DeqRecon := by
  intro p s h hq hl n
  refine ⟨fun Q hqp written => ?_, fun P xs written hx hlen => ?_⟩
  · have e := deq_run (p := p) hl hqp (readRange_of_forall written)
    rw [List.map_map] at e
    have next := runCommand_of_ok (w := [.dcoef]) hq e
    refine ⟨_, next, exec_of_runCommand (i := .deq h) nofun next, by rw [List.length_map, List.length_range],
      fun i hi => ?_⟩
    rw [getD_map_range _ _ hi]
    exact ⟨rfl, deq_exact _⟩
  · have e := recon_run (p := p) hl (readRange_of_forall written) hx
    rw [list_eq_map_getD hlen RealVal.zero, zipWith_maps] at e
    have next := runCommand_of_ok (w := [.recb]) hq e
    refine ⟨_, next, exec_of_runCommand (i := .recon h) nofun next, rfl, Whole.sameFrom_fill _ ?_, fun i hi => ?_⟩
    · rw [List.length_map, List.length_range]
    · refine ⟨_, _, cellsRead_fill_map _ _ hi, rfl, clipSample_toNat _, fun hp => ?_⟩
      rw [round_exact _ hp]
      exact roundReal_spec _

/-! ## The partition of zeros -/

theorem scanInverse_zero {xs : List Word} (hx : ∀ x ∈ xs, x = 0) :
    scanInverse pm n xs = List.replicate (n * n) 0 := by
  refine List.eq_replicate_iff.2 ⟨scanInverse_length pm n xs, fun y hy => ?_⟩
  obtain ⟨j, -, rfl⟩ := List.mem_map.1 hy
  rcases Nat.lt_or_ge ((scanSource pm n).idxOf j) xs.length with lt | ge
  · exact hx _ (mem_of_getD lt 0)
  · exact List.getD_eq_default _ _ ge

theorem grid_const {α : Type} {f : Nat → Nat → α} {y : α} (hf : ∀ r c, f r c = y) : grid n f = List.replicate (n * n) y :=
  List.eq_replicate_iff.2 ⟨grid_length n f, fun x hx => by
    obtain ⟨r, c, -, -, rfl⟩ := mem_grid hx
    exact hf r c⟩

theorem clipSample_byte (b : Byte) : clipSample ((b.toNat : Int) + 0) = b := by
  have hb := b.isLt
  refine BitVec.eq_of_toNat_eq ?_
  have clip := clipSample_toNat ((b.toNat : Int) + 0)
  omega

/-- Settles O45, by `NUM_ZERO` of the machine's numerics. -/
theorem zeroBlock : Obligations.ZeroBlock := by
  intro s pm h hq hl hqp n written
  have num := Config.params_ok.num_ok
  have scanned : cellsReadRange s.scan 0 (n * n) = some (List.replicate (n * n) 0) := by
    have := readRange_of_forall fun i hi => (written i hi).1
    rwa [List.map_const', List.length_range] at this
  obtain ⟨ps, hps⟩ := readRange_of_isSome fun i hi => (written i hi).2
  have e1 := scani_run (pm := pm) hl scanned
  rw [scanInverse_zero fun x hx => List.eq_of_mem_replicate hx] at e1
  have filled := cellsReadRange_fill s.qidx (List.replicate (n * n) (0 : Word))
  rw [List.length_replicate] at filled
  generalize hm : cellsFill s.qidx (List.replicate (n * n) 0) = m at *
  have e2 := deq_run (p := Config.params) (h := h) (s := { s with qidx := m }) hl hqp filled
  rw [List.map_replicate] at e2
  have deq0 : Config.params.num.deq (0 : Word).toInt (Config.params.num.step s.cfg.qp.toNat) = .zero := num.deq_zero _
  rw [deq0] at e2
  have e3 := txi_run (p := Config.params) (pm := pm) (h := h)
    (s := { s with qidx := m, dcoef := some ⟨n, List.replicate (n * n) .zero⟩ }) hl rfl
  rw [grid_const fun r c => num.txi_zero _ _ _ _ r c fun y hy => List.eq_of_mem_replicate hy] at e3
  have e4 := recon_run (p := Config.params) (h := h)
    (s := { s with qidx := m, dcoef := some ⟨n, List.replicate (n * n) .zero⟩, rres := some ⟨n, List.replicate (n * n) .zero⟩ })
    hl hps rfl
  have same : List.zipWith (reconstructed Config.params) ps (List.replicate (n * n) .zero) = ps := by
    have len := cellsReadRange_length hps
    refine List.ext_getElem (by rw [List.length_zipWith, List.length_replicate, len, Nat.min_self]) fun i h1 h2 => ?_
    rw [List.getElem_zipWith, List.getElem_replicate, reconstructed, num.round_zero, clipSample_byte]
  rw [same] at e4
  refine ⟨_, ⟨_, exec_of_ok (i := .scani pm h) nofun hq e1, _, exec_next_of_ok (.deq h) nofun e2 hq, _,
    exec_next_of_ok (.txi pm h) nofun e3 hq, _, exec_next_of_ok (.recon h) nofun e4 hq, rfl⟩, rfl, rfl, fun i hi => ⟨?_, ?_⟩⟩
  · show cellsRead m i = some 0
    rw [read_of_readRange filled hi, List.getElem?_replicate, if_pos hi]
  · show cellsRead (cellsFill s.recb ps) i = cellsRead s.predb i
    rw [cellsRead_fill, if_pos (cellsReadRange_length hps ▸ hi), read_of_readRange hps hi]

end Sys2Proof.Proofs.NumericPath
end

section
/-! What the encoder writes has found room: from a run that succeeds, and so ends with every held byte written, the room
that each of its steps needed. -/

namespace Sys2Proof.Proofs.EncoderRoom

open Sys2Proof Sys2Proof.Machine Sys2Proof.Safety Sys2Proof.Proofs.Bits Sys2Proof.Proofs.Encoding

variable {p : Config.Params} {s t : State} {e : Encoder}

/-! ## Bytes that were written -/

theorem putByte_ok {b : Byte} {a : Unit} (hc : s.bw.cnt = 0) (hp : p.streamBytes ≤ 2 ^ 32 - 1)
    (run : putByte p b s = .ok a t) : s.bw.ptr.toNat < p.streamBytes ∧ t = withByte s b := by
  by_cases room : s.bw.ptr.toNat < p.streamBytes
  · rw [putByte_aligned b hc room] at run
    cases run
    exact ⟨room, rfl⟩
  · obtain ⟨u, full⟩ := putByte_full b hc (Nat.not_lt.1 room) hp
    rw [full] at run
    cases run

theorem withByte_ptr (b : Byte) (h : s.bw.ptr.toNat + 1 < 2 ^ 32) : (withByte s b).bw.ptr.toNat = s.bw.ptr.toNat + 1 :=
  withBytes_ptr (s := s) [b] h

theorem drainRun_room {fill : Byte} {k : Nat} {a : Unit} (hc : s.bw.cnt = 0) (hp : p.streamBytes ≤ 2 ^ 32 - 1)
    (run : drainRun p fill k s = .ok a t) : k = 0 ∨ s.bw.ptr.toNat + k ≤ p.streamBytes := by
  induction k generalizing s with
  | zero => exact .inl rfl
  | succ k ih =>
    obtain ⟨_, u, first, run⟩ := cmd_bind_ok_iff.1 run
    obtain ⟨room, rfl⟩ := putByte_ok hc hp first
    obtain ⟨_, v, count, run⟩ := cmd_bind_ok_iff.1 run
    cases count
    have ptr := withByte_ptr (s := s) fill (by omega)
    have rest := ih (s := { withByte s fill with ae := _ }) rfl run
    have rest : k = 0 ∨ (withByte s fill).bw.ptr.toNat + k ≤ p.streamBytes := rest
    omega

/-- A lead byte that was placed found room for the bytes it sent out. -/
theorem placeLead_ok {lead : Nat} {a : Unit} (hc : s.bw.cnt = 0) (hp : p.streamBytes ≤ 2 ^ 32 - 1)
    (run : placeLead p lead s = .ok a t) :
    ((emitted s.ae lead).length = 0 ∨ s.bw.ptr.toNat + (emitted s.ae lead).length ≤ p.streamBytes) ∧
      t = { withBytes s (emitted s.ae lead) with ae := placed s.ae lead } := by
  by_cases room : s.bw.ptr.toNat + s.ae.run.toNat ≤ p.streamBytes
  · rw [placeLead_run lead hc hp room] at run
    cases run
    refine ⟨.inr ?_, rfl⟩
    rw [emitted_length]
    split <;> omega
  · by_cases full : lead = 0xFF
    · have none : emitted s.ae lead = [] := if_pos (.inl full)
      rw [placeLead, if_pos full] at run
      cases run
      rw [none, placed, if_pos full]
      exact ⟨.inl rfl, rfl⟩
    · rw [placeLead, if_neg full] at run
      by_cases first : 0 < s.ae.run.toNat
      · rw [if_pos first] at run
        obtain ⟨_, u, byte, run⟩ := cmd_bind_ok_iff.1 run
        obtain ⟨space, rfl⟩ := putByte_ok hc hp byte
        obtain ⟨_, v, keep, run⟩ := cmd_bind_ok_iff.1 run
        cases keep
        have ptr := withByte_ptr (s := s) (BitVec.ofNat 8 (s.ae.buf.toNat + lead / 256)) (by omega)
        have rest := drainRun_room (s := { withByte s _ with ae := _ }) rfl hp run
        have rest : drainTurns s.ae.run = 0 ∨ (withByte s (BitVec.ofNat 8 (s.ae.buf.toNat + lead / 256))).bw.ptr.toNat +
            drainTurns s.ae.run ≤ p.streamBytes := rest
        simp only [drainTurns] at rest
        omega
      · rw [if_neg first] at run
        cases run
        have none : emitted s.ae lead = [] := if_pos (.inr (by omega))
        rw [none, placed, if_neg full]
        exact ⟨.inl rfl, rfl⟩

/-- A flush that succeeds found room for its bytes. -/
theorem aeFlush_ok {a : Unit} (hc : s.bw.cnt = 0) (hp : p.streamBytes ≤ 2 ^ 32 - 1)
    (run : aeFlush p { s with ae := e } = .ok a t) :
    ((flushBytes e).length = 0 ∨ s.bw.ptr.toNat + (flushBytes e).length ≤ p.streamBytes) ∧ t = flushed s e := by
  unfold flushed flushBytes flushRegs
  by_cases short : debtOf e < Config.flushT
  · rw [if_pos short, if_pos short]
    obtain ⟨room, result⟩ := placeLead_ok (s := { s with ae := dropLead e }) hc hp ((if_pos short).symm.trans run)
    refine ⟨room, result.trans ?_⟩
    rw [withBytes_setAe]
  · rw [if_neg short, if_neg short]
    have same := (if_neg short).symm.trans run
    cases same
    exact ⟨.inl rfl, rfl⟩

/-! ## The bytes written and held -/

/-- Where the next byte goes once the held ones are written. -/
def heldEnd (s : State) : Nat := s.bw.ptr.toNat + s.ae.run.toNat

/-- What a session keeps whatever room it has. -/
structure Ready (s : State) : Prop where
  aligned : s.bw.cnt = 0
  inv : EncoderInv s.ae
  first : s.ae.run.toNat = 0 → s.ae.buf = 0xFF

theorem Ready.of_same (h : Ready s) (same : t.bw = s.bw ∧ t.ae = s.ae) : Ready t := by
  obtain ⟨hw, he⟩ := same
  exact ⟨hw ▸ h.aligned, he ▸ h.inv, he ▸ h.first⟩

/-- The encoder stays ready, no byte is lost, and at most `n` more are held. -/
structure Holds (s t : State) (n : Nat) : Prop where
  ready : Ready t
  grows : heldEnd s ≤ heldEnd t
  run_le : t.ae.run.toNat ≤ s.ae.run.toNat + n

theorem flush_run_ge (h : e.run.toNat + 1 < 2 ^ 32) :
    e.run.toNat ≤ (flushBytes e).length + (flushRegs e).run.toNat := by
  unfold flushBytes flushRegs
  split
  · rw [emitted_length, placed]
    split
    next =>
      show e.run.toNat ≤ 0 + (e.run + 1).toNat
      rw [BitVec.toNat_add]
      simp only [show (1 : Word).toNat = 1 from rfl]
      omega
    next => exact Nat.le_add_right e.run.toNat _
  · exact Nat.le_add_left _ _

/-- A part of the interval that was flushed. -/
theorem flushed_holds {n off : Nat} {a : Unit} (h : Ready s) (hp : p.streamBytes ≤ 2 ^ 32 - 1)
    (hn : Narrowed s.ae e n off) (hrun : s.ae.run.toNat + 1 < 2 ^ 32) (run : aeFlush p { s with ae := e } = .ok a t) :
    Holds s t 1 := by
  obtain ⟨room, rfl⟩ := aeFlush_ok h.aligned hp run
  have hlt := s.bw.ptr.isLt
  have ptr := withBytes_ptr (s := s) (flushBytes e) (by omega)
  have unflushed := hn.unflushed h.inv
  obtain ⟨first, -⟩ := flush_value unflushed (by rw [hn.run, hn.buf]; exact h.first) (by rwa [hn.run])
  have ge := flush_run_ge (e := e) (by rwa [hn.run])
  have le := flush_run_le e
  rw [hn.run] at ge le
  refine ⟨⟨withBytes_cnt _ h.aligned, (flush_inv unflushed).1, first⟩, ?_, ?_⟩
  · show s.bw.ptr.toNat + s.ae.run.toNat ≤ (withBytes s (flushBytes e)).bw.ptr.toNat + (flushRegs e).run.toNat
    omega
  · show (flushRegs e).run.toNat ≤ _
    omega

theorem updateMps_ok {m : Fin 15} {a : Unit} (run : updateMps p m s = .ok a t) : t.bw = s.bw ∧ t.ae = s.ae := by
  cases run
  exact ⟨rfl, rfl⟩

theorem updateLps_ok {m : Fin 15} {a : Unit} (run : updateLps p m s = .ok a t) : t.bw = s.bw ∧ t.ae = s.ae := by
  cases run
  exact ⟨rfl, rfl⟩

theorem aeFlush_none {a : Unit} (h : 12 ≤ debtOf s.ae) : aeFlush p s = .ok a s := if_neg (Int.not_lt.2 h)

/-- A context bin that succeeds is a flush of its registers and its model's update. -/
theorem encodeBit_ok {m : Fin 15} {b : Bool} {a : Unit} (inv : EncoderInv s.ae) (run : encodeBit p m b s = .ok a t) :
    ∃ u, aeFlush p { s with ae := binRegs p s m b } = .ok () u ∧ t.bw = u.bw ∧ t.ae = u.ae := by
  unfold encodeBit at run
  unfold binRegs
  simp only at run
  split at run
  next lps =>
    obtain ⟨_, u, flush, update⟩ := cmd_bind_ok_iff.1 run
    rw [if_pos lps]
    exact ⟨u, flush, updateLps_ok update⟩
  next mps =>
    rw [if_neg mps]
    split at run
    next short =>
      obtain ⟨_, u, flush, update⟩ := cmd_bind_ok_iff.1 run
      rw [if_pos short]
      exact ⟨u, flush, updateMps_ok update⟩
    next long =>
      rw [if_neg long]
      exact ⟨_, aeFlush_none inv.debt_ge, updateMps_ok run⟩

/-- A bin that succeeds holds back at most one byte more. -/
theorem encodeBin_holds {x : Bin} {a : Unit} (h : Ready s) (hp : p.Ok) (hrun : s.ae.run.toNat + 1 < 2 ^ 32)
    (run : encodeBin p x s = .ok a t) : Holds s t 1 := by
  cases x with
  | ctx m b =>
    obtain ⟨u, flush, hw, he⟩ := encodeBit_ok h.inv run
    obtain ⟨ready, grows, run_le⟩ := flushed_holds h hp.stream_le (binRegs_narrowed m b hp h.inv).1 hrun flush
    refine ⟨ready.of_same ⟨hw, he⟩, ?_, by rwa [he]⟩
    rwa [heldEnd, heldEnd, hw, he]
  | byp b => exact flushed_holds h hp.stream_le (encodeBypass_narrowed b h.inv).1 hrun run

theorem encodeBins_holds {xs : List Bin} {a : Unit} (h : Ready s) (hp : p.Ok)
    (hrun : s.ae.run.toNat + xs.length < 2 ^ 32) (run : encodeBins p xs s = .ok a t) : Holds s t xs.length := by
  induction xs generalizing s with
  | nil => cases run; exact ⟨h, le_refl _, le_refl _⟩
  | cons x xs ih =>
    rw [List.length_cons] at hrun ⊢
    obtain ⟨_, u, first, rest⟩ := cmd_bind_ok_iff.1 run
    obtain ⟨ready, grows, run_le⟩ := encodeBin_holds h hp (by omega) first
    obtain ⟨ready', grows', run_le'⟩ := ih ready (by omega) rest
    exact ⟨ready', grows.trans grows', by omega⟩

/-! ## Termination -/

theorem putBits_ok {v : Word} {n : Nat} {a : Unit} (hc : s.bw.cnt.toNat ≤ 7) (hp : p.streamBytes ≤ 2 ^ 32 - 1)
    (run : putBits p v n s = .ok a t) : writerRoom p s n ∧ Written s (bitsOf v n) t := by
  by_cases room : writerRoom p s n
  · obtain ⟨u, e, written⟩ := putBits_written v n hc hp room
    cases e.symm.trans run
    exact ⟨room, written⟩
  · obtain ⟨u, e⟩ := putBits_overflow v n hc hp room
    cases e.symm.trans run

theorem putBit_ok {b : Bool} {a : Unit} (hc : s.bw.cnt.toNat ≤ 7) (hp : p.streamBytes ≤ 2 ^ 32 - 1)
    (run : putBit p b s = .ok a t) : writerRoom p s 1 ∧ Written s [b] t := by
  have list : putList p [b] s = .ok a t := (congrFun (putList_singleton b) s).trans run
  by_cases room : writerRoom p s 1
  · obtain ⟨u, e, written⟩ := putList_written [b] hc hp room
    cases e.symm.trans list
    exact ⟨room, written⟩
  · obtain ⟨u, e⟩ := putList_overflow [b] hc hp room
    cases e.symm.trans list

theorem putAlign_ok {a : Unit} (h7 : s.bw.cnt.toNat ≤ 7) (run : putAlign p s = .ok a t) :
    (s.bw.cnt = 0 ∨ s.bw.ptr.toNat < p.streamBytes) ∧ t.bw.cnt = 0 := by
  by_cases hc : s.bw.cnt = 0
  · cases (putAlign_aligned hc).symm.trans run
    exact ⟨.inl hc, hc⟩
  · by_cases room : s.bw.ptr.toNat < p.streamBytes
    · cases (putAlign_run hc h7 room).symm.trans run
      exact ⟨.inr room, rfl⟩
    · obtain ⟨u, e⟩ := putAlign_full hc h7 (Nat.not_lt.1 room)
      cases e.symm.trans run

/-- A held byte and the run behind it found room. -/
theorem byteThenRun_room {b fill : Byte} {r : Word} {a : Unit} (hc : s.bw.cnt = 0) (hp : p.streamBytes ≤ 2 ^ 32 - 1)
    (run : (do putByte p b; drainRun p fill (drainTurns r) : Cmd Unit) s = .ok a t) :
    s.bw.ptr.toNat < p.streamBytes ∧ (r.toNat = 0 ∨ s.bw.ptr.toNat + r.toNat ≤ p.streamBytes) := by
  obtain ⟨_, u, byte, drain⟩ := cmd_bind_ok_iff.1 run
  obtain ⟨room, rfl⟩ := putByte_ok hc hp byte
  have ptr := withByte_ptr (s := s) b (by omega)
  have rest := drainRun_room (s := withByte s b) rfl hp drain
  rw [drainTurns] at rest
  omega

/-- The held bytes that `ae_finish` wrote found room. -/
theorem finishHeld_room {a : Unit} (hc : s.bw.cnt = 0) (hp : p.streamBytes ≤ 2 ^ 32 - 1)
    (run : finishHeld p s = .ok a t) : heldEnd s ≤ p.streamBytes ∨ s.ae.run.toNat = 0 ∧ t = s := by
  unfold finishHeld at run
  split at run
  next =>
    obtain ⟨_, u, byte, run⟩ := cmd_bind_ok_iff.1 run
    obtain ⟨_, v, drain, -⟩ := cmd_bind_ok_iff.1 run
    have room := byteThenRun_room (r := s.ae.run) hc hp ((cmd_bind_of_ok byte).trans drain)
    left
    rw [heldEnd]
    omega
  next =>
    by_cases none : s.ae.run.toNat = 0
    · rw [none, drainTurns, none] at run
      cases run
      exact .inr ⟨none, rfl⟩
    · rw [decide_eq_true (Nat.pos_of_ne_zero none)] at run
      have room := byteThenRun_room (r := s.ae.run) hc hp run
      left
      rw [heldEnd]
      omega

/-- `ae_finish` leaves the writer behind the held bytes. -/
theorem finishHeld_ok {a : Unit} (hi : EncoderInv s.ae) (first : s.ae.run.toNat = 0 → s.ae.buf = 0xFF)
    (hc : s.bw.cnt = 0) (hp : p.streamBytes ≤ 2 ^ 32 - 1) (run : finishHeld p s = .ok a t) :
    t.bw.cnt = 0 ∧ t.bw.ptr.toNat = heldEnd s ∧ debtOf t.ae = debtOf s.ae := by
  rcases finishHeld_room hc hp run with room | ⟨none, rfl⟩
  · rw [heldEnd] at room ⊢
    obtain ⟨fb, r, e, len, debt, -⟩ := finishHeld_run hi first hc hp room
    cases e.symm.trans run
    refine ⟨withBytes_cnt fb hc, ?_, ?_⟩
    · show (withBytes s fb).bw.ptr.toNat = _
      rw [withBytes_ptr fb (by omega), len]
    · show debtOf r = _
      rw [debtOf, debt, debtOf]
  · exact ⟨hc, by rw [heldEnd, none]; rfl, rfl⟩

/-- An `AE_TERM` that succeeds found room for its bytes. -/
theorem aeTerm_room {a : Unit} (h : Ready s) (hp : p.Ok) (hrun : s.ae.run.toNat + 1 < 2 ^ 32)
    (run : aeTerm p s = .ok a t) : heldEnd s + (accOf s.ae + 16) / 8 ≤ p.streamBytes := by
  have hsb := hp.stream_le
  obtain ⟨narrowed, -⟩ := terminateRegs_narrowed h.inv
  have unflushed := narrowed.unflushed h.inv
  have acc := narrowed.acc h.inv
  obtain ⟨inv, -⟩ := flush_inv unflushed
  obtain ⟨first, -⟩ := flush_value unflushed h.first hrun
  have count := flush_count unflushed hrun
  obtain ⟨_, _, enter, run⟩ := cmd_bind_ok_iff.1 run
  cases enter
  obtain ⟨_, t1, flush, run⟩ := cmd_bind_ok_iff.1 run
  obtain ⟨room1, rfl⟩ := aeFlush_ok h.aligned hsb flush
  obtain ⟨_, t3, finish, run⟩ := cmd_bind_ok_iff.1 run
  obtain ⟨_, t2, held, finish⟩ := cmd_bind_ok_iff.1 finish
  obtain ⟨cnt2, ptr2, debt2⟩ := finishHeld_ok (s := flushed s (terminateRegs s.ae)) inv first
    (withBytes_cnt _ h.aligned) hsb held
  obtain ⟨_, _, same, bits⟩ := cmd_bind_ok_iff.1 finish
  cases same
  obtain ⟨room3, written3⟩ := putBits_ok (by rw [cnt2]; decide) hsb bits
  obtain ⟨_, t4, one, run⟩ := cmd_bind_ok_iff.1 run
  obtain ⟨room4, written4⟩ := putBit_ok written3.cnt hsb one
  obtain ⟨_, t5, align, -⟩ := cmd_bind_ok_iff.1 run
  obtain ⟨room5, -⟩ := putAlign_ok written4.cnt align
  have ptr1 : (flushed s (terminateRegs s.ae)).bw.ptr.toNat =
      s.bw.ptr.toNat + (flushBytes (terminateRegs s.ae)).length := withBytes_ptr (s := s) _ (by omega)
  have pos3 := written3.pos
  have pos4 := written4.pos
  have zero2 : t2.bw.cnt.toNat = 0 := congrArg BitVec.toNat cnt2
  have turns : (24 - debtOf t2.ae).toNat = accOf (flushRegs (terminateRegs s.ae)) + 1 := by
    rw [debt2, show debtOf (flushed s (terminateRegs s.ae)).ae = debtOf (flushRegs (terminateRegs s.ae)) from rfl,
      accOf]
    have := inv.debt_le
    omega
  rw [bitsOf_length, turns] at pos3
  rw [turns] at room3
  rw [heldEnd, ptr1] at ptr2
  have same : (flushed s (terminateRegs s.ae)).ae.run = (flushRegs (terminateRegs s.ae)).run := rfl
  rw [same] at ptr2
  rw [show (terminateRegs s.ae).run = s.ae.run from rfl] at count
  simp only [outPos, writerRoom, List.length_singleton] at pos3 pos4 room3 room4
  have zero4 : t4.bw.cnt = 0 → t4.bw.cnt.toNat = 0 := congrArg BitVec.toNat
  have cnt3 := written3.cnt
  have cnt4 := written4.cnt
  have total : 8 * t4.bw.ptr.toNat + t4.bw.cnt.toNat = 8 * (s.bw.ptr.toNat + s.ae.run.toNat) + accOf s.ae + 9 := by
    omega
  have last : t4.bw.ptr.toNat + (t4.bw.cnt.toNat + 7) / 8 ≤ p.streamBytes := by
    rcases room5 with zero | room
    · have := zero4 zero
      omega
    · omega
  rw [heldEnd]
  omega

end Sys2Proof.Proofs.EncoderRoom
end

section
/-! The code word of a session as a number: the windows of it that the decoder sees, the bytes that hold it in STREAM,
and the intervals that the encoder narrows around it (rules R149, R177, R178). -/

namespace Sys2Proof.Proofs.CodeWord

open Sys2Proof Sys2Proof.Machine Sys2Proof.Safety Sys2Proof.Proofs.Bits Sys2Proof.Proofs.Reading
  Sys2Proof.Proofs.Encoding Sys2Proof.Proofs.EncoderRoom

variable {p : Config.Params} {s t : State} {B V : Nat}

/-! ## Windows -/

/-- The first `k` of the `B` bytes of the code word `V`, as a number. -/
def window (B V k : Nat) : Nat := V / 2 ^ (8 * (B - k))

/-- Byte `k` of the `B` bytes of `V`. -/
def byteOf (B V k : Nat) : Nat := window B V (k + 1) % 256

theorem window_succ {k : Nat} (h : k < B) : window B V (k + 1) = 256 * window B V k + byteOf B V k := by
  have front : window B V k = window B V (k + 1) / 256 := by
    rw [window, window, Nat.div_div_eq_div_mul, show 8 * (B - k) = 8 * (B - (k + 1)) + 8 by omega, Nat.pow_add]
  rw [front, byteOf, Nat.div_add_mod]

/-- Comparing the code word with a bound is comparing the window the decoder has seen (rule R171). -/
theorem code_lt_iff {T X : Nat} (h : 2 + T / 8 ≤ B) :
    V * 2 ^ (9 + T) < X * 2 ^ (8 * B) ↔ window B V (2 + T / 8) * 2 ^ (T % 8) < X * 128 := by
  have word : 9 + T = T % 8 + 7 + (2 + 8 * (T / 8)) := by omega
  have all : 8 * B = 8 * (B - (2 + T / 8)) + (T % 8 + (7 - T % 8) + 7 + (2 + 8 * (T / 8))) := by omega
  have seven : 128 = 2 ^ (T % 8) * 2 ^ (7 - T % 8) := by
    rw [← Nat.pow_add, show T % 8 + (7 - T % 8) = 7 by omega]
  calc V * 2 ^ (9 + T) < X * 2 ^ (8 * B)
      ↔ V * 2 ^ (T % 8 + 7 + (2 + 8 * (T / 8))) <
          X * 2 ^ (7 - T % 8) * 2 ^ (8 * (B - (2 + T / 8))) * 2 ^ (T % 8 + 7 + (2 + 8 * (T / 8))) := by
        rw [all, word]
        simp only [Nat.pow_add]
        ring_nf
    _ ↔ V < X * 2 ^ (7 - T % 8) * 2 ^ (8 * (B - (2 + T / 8))) := Nat.mul_lt_mul_right (by positivity)
    _ ↔ window B V (2 + T / 8) < X * 2 ^ (7 - T % 8) := (Nat.div_lt_iff_lt_mul (by positivity)).symm
    _ ↔ window B V (2 + T / 8) * 2 ^ (T % 8) < X * 2 ^ (7 - T % 8) * 2 ^ (T % 8) :=
        (Nat.mul_lt_mul_right (by positivity)).symm
    _ ↔ window B V (2 + T / 8) * 2 ^ (T % 8) < X * 128 := by
        rw [seven, Nat.mul_assoc, Nat.mul_comm (2 ^ (7 - T % 8))]

/-! ## The bytes in STREAM -/

theorem beFold_eq (v : Nat) (bs : List Byte) : beFold v bs = v * 2 ^ (8 * bs.length) + beValue bs := by
  induction bs using List.reverseRecOn with
  | nil => simp [beFold, beValue]
  | append_singleton bs b ih =>
    rw [beFold_append, ih, beValue_append, beFold_cons, beFold_cons, List.length_append, List.length_singleton,
      Nat.mul_add 8, Nat.pow_add]
    simp only [beFold, List.foldl_nil]
    ring

theorem beValue_lt (bs : List Byte) : beValue bs < 2 ^ (8 * bs.length) := by
  induction bs using List.reverseRecOn with
  | nil => decide
  | append_singleton bs b ih =>
    have hb := b.isLt
    rw [beValue_append, beFold_cons, List.length_append, List.length_singleton, Nat.mul_add 8, Nat.pow_add]
    simp only [beFold, List.foldl_nil]
    omega

theorem byteOf_beValue {bs : List Byte} {i : Nat} {b : Byte} (h : bs[i]? = some b) :
    byteOf bs.length (beValue bs) i = b.toNat := by
  obtain ⟨hi, rfl⟩ := List.getElem?_eq_some_iff.1 h
  have split : bs = bs.take i ++ [bs[i]] ++ bs.drop (i + 1) := by
    rw [← List.take_succ_eq_append_getElem hi, List.take_append_drop]
  have rest : (bs.drop (i + 1)).length = bs.length - (i + 1) := List.length_drop
  have low := beValue_lt (bs.drop (i + 1))
  have value : beValue bs =
      beValue (bs.take i ++ [bs[i]]) * 2 ^ (8 * (bs.length - (i + 1))) + beValue (bs.drop (i + 1)) := by
    rw [← rest, ← beFold_eq, ← beValue_append, ← split]
  rw [rest] at low
  have hb := bs[i].isLt
  rw [byteOf, window, value, Nat.add_comm, Nat.add_mul_div_right _ _ (by positivity), Nat.div_eq_of_lt low,
    Nat.zero_add, beValue_append, beFold_cons]
  simp only [beFold, List.foldl_nil]
  omega

/-- The `B` bytes of STREAM from `start` on are those of the code word. -/
structure Stored (p : Config.Params) (m : Cells Byte) (start B V : Nat) : Prop where
  room : start + B ≤ p.streamBytes
  byte : ∀ i, i < B → ∃ b, cellsRead m (start + i) = some b ∧ b.toNat = byteOf B V i

theorem stored_of_readRange {m : Cells Byte} {start : Nat} {bs : List Byte} (room : start + B ≤ p.streamBytes)
    (read : cellsReadRange m start B = some bs) : Stored p m start B (beValue bs) := by
  obtain ⟨rfl, cell⟩ := (cellsReadRange_eq_some m start B bs).1 read
  refine ⟨room, fun i hi => ⟨bs[i], (cell i hi).trans (List.getElem?_eq_getElem hi), ?_⟩⟩
  exact (byteOf_beValue (List.getElem?_eq_getElem hi)).symm

/-- The next bit of a reader on a byte boundary. -/
theorem inBit_aligned {j : Nat} {b : Byte} (hc : s.br.cnt = 0) (hstop : s.br.ptr.toNat + j / 8 < s.br.stop.toNat)
    (room : s.br.ptr.toNat + j / 8 < p.streamBytes) (cell : cellsRead s.stream (s.br.ptr.toNat + j / 8) = some b) :
    inBit p s j = some (b.toNat.testBit (7 - j % 8)) := by
  have zero : s.br.cnt.toNat = 0 := congrArg BitVec.toNat hc
  rw [inBit, if_neg (by omega)]
  simp only [zero, Nat.sub_zero]
  rw [if_pos ⟨hstop, room⟩, cell]
  rfl

theorem peek_byte {b : Byte} (hc : s.br.cnt = 0) (hstop : s.br.ptr.toNat < s.br.stop.toNat)
    (room : s.br.ptr.toNat < p.streamBytes) (cell : cellsRead s.stream s.br.ptr.toNat = some b) :
    peek p s 8 = some b.toNat := by
  refine peek_eq_some_iff.2 ⟨b.isLt, fun j hj => ?_⟩
  have here : s.br.ptr.toNat + j / 8 = s.br.ptr.toNat := by omega
  rw [inBit_aligned (b := b) hc (by rwa [here]) (by rwa [here]) (by rwa [here]), show 7 - j % 8 = 8 - 1 - j by omega]

theorem peek_two {a b : Byte} (hc : s.br.cnt = 0) (hstop : s.br.ptr.toNat + 1 < s.br.stop.toNat)
    (room : s.br.ptr.toNat + 1 < p.streamBytes) (first : cellsRead s.stream s.br.ptr.toNat = some a)
    (second : cellsRead s.stream (s.br.ptr.toNat + 1) = some b) :
    peek p s 16 = some (a.toNat * 2 ^ 8 + b.toNat) := by
  have ha := a.isLt
  have hb := b.isLt
  refine peek_eq_some_iff.2 ⟨by omega, fun j hj => ?_⟩
  by_cases front : j < 8
  · have here : s.br.ptr.toNat + j / 8 = s.br.ptr.toNat := by omega
    rw [inBit_aligned (b := a) hc (by omega) (by omega) (by rwa [here]), testBit_front (m := 8) (n := 8) hb (by omega),
      show 7 - j % 8 = 8 - 1 - j by omega]
  · have here : s.br.ptr.toNat + j / 8 = s.br.ptr.toNat + 1 := by omega
    rw [inBit_aligned (b := b) hc (by omega) (by omega) (by rwa [here]), testBit_back hb (by omega),
      show 7 - j % 8 = 16 - 1 - j by omega]

/-! ## Intervals around the code word -/

/-- The code word `V` of `B` bytes lies in the interval of a session with code value `L`, range `R` and `T` bits. -/
structure Inside (B V L R T : Nat) : Prop where
  ge : L * 2 ^ (8 * B) ≤ V * 2 ^ (9 + T)
  lt : V * 2 ^ (9 + T) < (L + R) * 2 ^ (8 * B)

theorem Inside.widen {L R L' R' T : Nat} (h : Inside B V L' R' T) (low : L ≤ L') (high : L' + R' ≤ L + R) :
    Inside B V L R T :=
  ⟨(Nat.mul_le_mul_right _ low).trans h.ge, h.lt.trans_le (Nat.mul_le_mul_right _ high)⟩

/-- A shift of the interval is one more look at the same numbers. -/
theorem Inside.unshift {M R T n : Nat} (h : Inside B V (M * 2 ^ n) (R * 2 ^ n) (T + n)) : Inside B V M R T := by
  obtain ⟨ge, lt⟩ := h
  rw [← Nat.add_assoc, Nat.pow_add, ← Nat.mul_assoc] at ge lt
  rw [Nat.mul_right_comm M] at ge
  rw [← Nat.add_mul, Nat.mul_right_comm (M + R)] at lt
  exact ⟨Nat.le_of_mul_le_mul_right ge (by positivity), Nat.lt_of_mul_lt_mul_right lt⟩

/-- Where a session stands: its code value `L` and the `T` bits it has taken in. -/
structure Place (start L T : Nat) (s : State) : Prop where
  session : Session start s
  value : codeValue start s = some L
  bits : sessionBits s = 8 * start + T

theorem Place.ready {start L T : Nat} (h : Place start L T s) : Ready s :=
  ⟨h.session.aligned, h.session.inv, h.session.first⟩

theorem Place.of_coded {start L T M n off R : Nat} (h : Place start L T s) (coded : Coded start s t L n off R)
    (hM : L * 2 ^ n + off = M) : Place start M (T + n) t := by
  refine ⟨coded.session, hM ▸ coded.value, ?_⟩
  rw [coded.bits, h.bits, Nat.add_assoc]

/-- How far above the low end a context bin's part begins. -/
def binSkip (p : Config.Params) (s : State) (m : Fin 15) (b : Bool) : Nat :=
  if b != (modelAt s m).mps then s.ae.rng.toNat - (encodeWidth p s m).toNat else 0

theorem binOffset_eq (m : Fin 15) (b : Bool) : binOffset p s m b = binSkip p s m b * 2 ^ binShift p s m b := by
  unfold binOffset binSkip binShift
  split
  · rfl
  · rw [Nat.zero_mul]

theorem binSkip_add_binRange {m : Fin 15} {b : Bool} (hp : p.Ok) (hi : EncoderInv s.ae) :
    binSkip p s m b + binRange p s m b ≤ s.ae.rng.toNat := by
  have width := (encodeWidth_bounds hp hi m).2
  unfold binSkip binRange
  split <;> omega

/-- A context bin that succeeded in a session. -/
theorem Place.encodeBit {start L T : Nat} {m : Fin 15} {b : Bool} {a : Unit} (h : Place start L T s) (hp : p.Ok)
    (room : encoderRoom p s 1) (run : Machine.encodeBit p m b s = .ok a t) :
    Place start ((L + binSkip p s m b) * 2 ^ binShift p s m b) (T + binShift p s m b) t ∧
      t.ae.rng.toNat = binRange p s m b * 2 ^ binShift p s m b ∧ t.pm = s.pm.set m.val (binModel p s m b) := by
  obtain ⟨u, e, coded, models, -⟩ := encodeBit_coded m b h.session h.value hp room
  cases e.symm.trans run
  exact ⟨h.of_coded coded (by rw [binOffset_eq, Nat.add_mul]), coded.rng, models⟩

/-- A bypass bin that succeeded in a session. -/
theorem Place.encodeBypass {start L T : Nat} {b : Bool} {a : Unit} (h : Place start L T s) (hp : p.Ok)
    (room : encoderRoom p s 1) (run : Machine.encodeBypass p b s = .ok a t) :
    Place start (2 * L + if b then s.ae.rng.toNat else 0) (T + 1) t ∧ t.ae.rng = s.ae.rng ∧ t.pm = s.pm := by
  obtain ⟨u, e, coded, models, -⟩ := encodeBypass_coded b h.session h.value hp room
  cases e.symm.trans run
  exact ⟨h.of_coded coded (by omega), BitVec.eq_of_toNat_eq coded.rng, models⟩

/-! ## The end of a session -/

/-- What `AE_TERM` leaves in STREAM: the code word, inside the last interval and at most 2 below its end. -/
theorem Place.aeTerm {start L T : Nat} {a : Unit} (h : Place start L T s) (hp : p.Ok)
    (hrun : s.ae.run.toNat + 1 < 2 ^ 32) (run : Machine.aeTerm p s = .ok a t) :
    ∃ B V, B = 2 + T / 8 ∧ t.bw.ptr.toNat = start + B ∧ Stored p t.stream start B V ∧
      Inside B V L s.ae.rng.toNat T ∧ (L + s.ae.rng.toNat - 2) * 2 ^ (8 * B) ≤ V * 2 ^ (9 + T) ∧ t.pm = s.pm := by
  have room := aeTerm_room h.ready hp hrun run
  have bits := h.bits
  have rng_ge := h.session.inv.rng_ge
  rw [sessionBits] at bits
  rw [heldEnd] at room
  obtain ⟨u, e, cnt, ptr, -, value, -, rest⟩ := aeTerm_run h.session h.value hp room
  cases e.symm.trans run
  have written : t.bw.ptr.toNat = start + (2 + T / 8) := by omega
  obtain ⟨bs, read, number⟩ := Option.map_eq_some_iff.1 value
  rw [cnt, show (0 : BitVec 4).toNat = 0 from rfl, Nat.pow_zero, Nat.mul_one, Nat.mod_one, Nat.add_zero] at number
  rw [written, Nat.add_sub_cancel_left] at read
  have scaled : beValue bs * 2 ^ (9 + T) = ((L + s.ae.rng.toNat - 2) / 2 * 2 + 1) * 2 ^ (8 * (2 + T / 8)) := by
    rw [number, Nat.mul_assoc, ← Nat.pow_add]
    congr 2
    omega
  refine ⟨2 + T / 8, beValue bs, rfl, written, stored_of_readRange (by omega) read, ⟨?_, ?_⟩, ?_, by rw [rest]⟩
  · exact scaled ▸ Nat.mul_le_mul_right _ (by omega)
  · exact scaled ▸ Nat.mul_lt_mul_of_pos_right (by omega) (by positivity)
  · exact scaled ▸ Nat.mul_le_mul_right _ (by omega)

end Sys2Proof.Proofs.CodeWord
end

section
/-! The decoder in step with the encoder (rules R177, R178): while the code word lies in the encoder's interval, the
decoder's pattern is the window of it above the low end, and each bin it answers is the bin that was coded. -/

namespace Sys2Proof.Proofs.RoundTrip

open Sys2Proof Sys2Proof.Machine Sys2Proof.Safety Sys2Proof.Proofs.Decoding Sys2Proof.Proofs.BinRuns
  Sys2Proof.Proofs.Bits
  Sys2Proof.Proofs.Encoding Sys2Proof.Proofs.EncoderRoom Sys2Proof.Proofs.CodeWord

variable {p : Config.Params} {s t d u : State} {start B V : Nat}

/-- The decoder `d` stands where the encoder stood with code value `L`, range `R` and `T` bits, and has the window of
the code word `V` that it needs. -/
structure Follows (p : Config.Params) (start B V L R T : Nat) (d : State) : Prop where
  rng : d.ad.rng.toNat = R
  need : d.ad.need.toInt = (T % 8 : Nat) - 8
  pat : d.ad.pat.toNat + L * 128 = window B V (2 + T / 8) * 2 ^ (T % 8)
  cnt : d.br.cnt = 0
  ptr : d.br.ptr.toNat = start + (2 + T / 8)
  stop : d.br.stop.toNat = start + B
  stored : Stored p d.stream start B V

variable {L R T : Nat}

/-- Rule R175: the low bits of the pattern that are not known yet are zeros. -/
theorem Follows.inv (h : Follows p start B V L R T d) (ge : 256 ≤ R) (le : R ≤ 510) : DecoderInv d.ad := by
  have need := h.need
  have unknown : unknownBits d.ad = T % 8 := by
    rw [unknownBits]
    omega
  refine ⟨h.rng ▸ ge, h.rng ▸ le, by omega, by omega, ?_⟩
  have scaled : 2 ^ (T % 8) ∣ L * 128 :=
    Dvd.dvd.mul_left (show 2 ^ (T % 8) ∣ 2 ^ 7 from Nat.pow_dvd_pow 2 (by omega)) L
  rw [unknown]
  exact Nat.mod_eq_zero_of_dvd ((Nat.dvd_add_left scaled).1 (h.pat ▸ Dvd.intro_left _ rfl))

/-- The decoder's comparison with a bound above its low end is the code word's with that bound. -/
theorem Follows.pat_lt_iff (h : Follows p start B V L R T d) (last : 2 + T / 8 ≤ B) (X : Nat) :
    d.ad.pat.toNat < X * 128 ↔ V * 2 ^ (9 + T) < (L + X) * 2 ^ (8 * B) := by
  rw [code_lt_iff last, ← h.pat]
  omega

/-- The next byte of the code word. -/
theorem Follows.peek_next (h : Follows p start B V L R T d) (more : 2 + T / 8 < B) :
    peek p d 8 = some (byteOf B V (2 + T / 8)) := by
  obtain ⟨b, cell, value⟩ := h.stored.byte _ more
  have room := h.stored.room
  have ptr := h.ptr
  have stop := h.stop
  rw [← value]
  exact peek_byte h.cnt (by omega) (by omega) (ptr ▸ cell)

/-- A reader on a byte boundary that has read whole bytes. -/
theorem readerAfter_bytes {k n : Nat} (hn : n = 8 * k) (hc : d.br.cnt = 0) (hk : 0 < k)
    (fits : d.br.ptr.toNat + k < 2 ^ 32) :
    (readerAfter d n).cnt = 0 ∧ (readerAfter d n).ptr.toNat = d.br.ptr.toNat + k ∧
      (readerAfter d n).stop = d.br.stop := by
  subst hn
  have zero : d.br.cnt.toNat = 0 := congrArg BitVec.toNat hc
  have bytes : (8 * k - 0 + 7) / 8 = k := by omega
  rw [readerAfter_gt (by omega), zero, bytes]
  refine ⟨?_, ?_, rfl⟩
  · rw [Nat.sub_zero, Nat.sub_self]
    rfl
  · rw [BitVec.toNat_add, BitVec.toNat_ofNat]
    omega

/-- A shift of the part that begins at `M`, with its pull, leaves the decoder in step. -/
theorem Follows.renormed {M base n r : Nat} (h : Follows p start B V L R T d) (hn : n ≤ 8) (last : 2 + (T + n) / 8 ≤ B)
    (ren : Renormed d t base n r (byteOf B V (2 + T / 8))) (small : base * 2 ^ n < 2 ^ 31)
    (part : base + M * 128 = window B V (2 + T / 8) * 2 ^ (T % 8)) (stream : t.stream = d.stream) :
    Follows p start B V (M * 2 ^ n) r (T + n) t := by
  obtain ⟨rng, pat, need, reader⟩ := ren
  have hneed := h.need
  have room := h.stored.room
  have ptr := h.ptr
  have stop := h.stop
  by_cases pulls : 8 ≤ T % 8 + n
  · have step : 2 + (T + n) / 8 = 2 + T / 8 + 1 := by omega
    have left : (T + n) % 8 = T % 8 + n - 8 := by omega
    have nonneg : 0 ≤ d.ad.need.toInt + n := by omega
    have shift : (d.ad.need.toInt + n).toNat = T % 8 + n - 8 := by omega
    have limit := d.br.stop.isLt
    have byte : byteOf B V (2 + T / 8) < 256 := Nat.mod_lt _ (by decide)
    have high : 2 ^ (T % 8 + n - 8) ≤ 2 ^ 7 := Nat.pow_le_pow_right (by decide) (by omega)
    have pull : byteOf B V (2 + T / 8) * 2 ^ (T % 8 + n - 8) ≤ 256 * 2 ^ 7 := Nat.mul_le_mul (by omega) high
    rw [if_pos nonneg] at pat need reader
    rw [shift, Nat.mod_eq_of_lt (by omega)] at pat
    obtain ⟨cnt', ptr', stop'⟩ := readerAfter_bytes (d := d) (k := 1) (n := 8) rfl h.cnt (by decide) (by omega)
    refine ⟨rng, by omega, ?_, by rw [reader]; exact cnt', by rw [reader]; omega,
      by rw [reader, stop']; exact stop, stream ▸ h.stored⟩
    have eight : 2 ^ (T % 8) * 2 ^ n = 256 * 2 ^ (T % 8 + n - 8) := by
      rw [← Nat.pow_add, show 256 = 2 ^ 8 from rfl, ← Nat.pow_add]
      congr 1
      omega
    rw [step, left, window_succ (by omega), pat]
    calc base * 2 ^ n + byteOf B V (2 + T / 8) * 2 ^ (T % 8 + n - 8) + M * 2 ^ n * 128
        = (base + M * 128) * 2 ^ n + byteOf B V (2 + T / 8) * 2 ^ (T % 8 + n - 8) := by ring
      _ = window B V (2 + T / 8) * (2 ^ (T % 8) * 2 ^ n) + byteOf B V (2 + T / 8) * 2 ^ (T % 8 + n - 8) := by
          rw [part, Nat.mul_assoc]
      _ = (256 * window B V (2 + T / 8) + byteOf B V (2 + T / 8)) * 2 ^ (T % 8 + n - 8) := by
          rw [eight]
          ring
  · have step : (T + n) / 8 = T / 8 := by omega
    have left : (T + n) % 8 = T % 8 + n := by omega
    have negative : ¬ 0 ≤ d.ad.need.toInt + n := by omega
    rw [if_neg negative] at pat need reader
    rw [Nat.add_zero, Nat.mod_eq_of_lt (by omega)] at pat
    refine ⟨rng, by omega, ?_, by rw [reader]; exact h.cnt, by rw [reader]; omega, by rw [reader]; exact stop,
      stream ▸ h.stored⟩
    rw [step, left, pat]
    calc base * 2 ^ n + M * 2 ^ n * 128 = (base + M * 128) * 2 ^ n := by ring
      _ = window B V (2 + T / 8) * 2 ^ (T % 8 + n) := by rw [part, Nat.mul_assoc, ← Nat.pow_add]

/-! ## One bin -/

/-- The decoder takes the part that the encoder took. -/
theorem Follows.choice {m : Fin 15} {b : Bool} (h : Follows p start B V L s.ae.rng.toNat T d) (models : d.pm = s.pm)
    (last : 2 + T / 8 ≤ B)
    (inside : Inside B V (L + binSkip p s m b) (binRange p s m b) T) :
    adLps p d m = (b != (modelAt s m).mps) ∧ adShift p d m = binShift p s m b ∧ adPart p d m = binRange p s m b ∧
      adBase p d m + (L + binSkip p s m b) * 128 = window B V (2 + T / 8) * 2 ^ (T % 8) := by
  have rng : d.ad.rng = s.ae.rng := BitVec.eq_of_toNat_eq h.rng
  have width : decodeWidth p d m = encodeWidth p s m := by
    rw [decodeWidth, encodeWidth, modelAt, modelAt, models, rng]
  have lps_iff := h.pat_lt_iff last (s.ae.rng.toNat - (encodeWidth p s m).toNat)
  obtain ⟨ge, lt⟩ := inside
  have pat := h.pat
  by_cases lps : (b != (modelAt s m).mps) = true
  · simp only [binSkip, binRange, if_pos lps] at ge lt ⊢
    have above : (s.ae.rng.toNat - (encodeWidth p s m).toNat) * 128 ≤ d.ad.pat.toNat :=
      Nat.not_lt.1 (mt lps_iff.1 (Nat.not_lt.2 ge))
    have taken : adLps p d m = true := adLps_iff.2 (by rwa [width, rng])
    simp only [adShift, adPart, adBase, if_pos taken, binShift, if_pos lps, width, rng]
    refine ⟨taken.trans lps.symm, trivial, trivial, ?_⟩
    omega
  · simp only [binSkip, binRange, if_neg lps, Nat.add_zero] at ge lt ⊢
    have below := lps_iff.2 lt
    have kept : ¬ adLps p d m = true := fun taken => by
      have := adLps_iff.1 taken
      rw [width, rng] at this
      omega
    simp only [adShift, adPart, adBase, if_neg kept, binShift, if_neg lps, width, rng]
    exact ⟨(Bool.eq_false_iff.2 kept).trans (Bool.eq_false_iff.2 lps).symm, trivial, trivial, pat⟩

/-- A context bin is read back (rule R177). -/
theorem Follows.decodeBit {m : Fin 15} {b : Bool} (h : Follows p start B V L s.ae.rng.toNat T d) (models : d.pm = s.pm)
    (hp : p.Ok) (hi : EncoderInv s.ae) (last : 2 + (T + binShift p s m b) / 8 ≤ B)
    (inside : Inside B V (L + binSkip p s m b) (binRange p s m b) T) :
    ∃ u, Machine.decodeBit p m d = .ok b u ∧
      Follows p start B V ((L + binSkip p s m b) * 2 ^ binShift p s m b) (binRange p s m b * 2 ^ binShift p s m b)
        (T + binShift p s m b) u ∧ u.pm = s.pm.set m.val (binModel p s m b) := by
  obtain ⟨lps, shift, range, base⟩ := h.choice models (by omega) inside
  have inv := h.inv hi.rng_ge hi.rng_le
  have need := h.need
  have shift_le : binShift p s m b ≤ 7 := shift ▸ adShift_le hp inv m
  have count : d.br.cnt.toNat ≤ 8 := by rw [h.cnt]; decide
  obtain ⟨run, ren⟩ := decodeBit_run (v := byteOf B V (2 + T / 8)) m hp inv count fun pulls =>
    h.peek_next (by rw [shift] at pulls; omega)
  rw [shift, range] at ren
  have same : modelAt d m = modelAt s m := by rw [modelAt, modelAt, models]
  rw [lps, same] at run
  have small : adBase p d m < 2 ^ 16 := by
    have whole := (h.pat_lt_iff (by omega) s.ae.rng.toNat).2
      (inside.widen (Nat.le_add_right L _) (by have := binSkip_add_binRange (m := m) (b := b) hp hi; omega)).lt
    have := hi.rng_le
    have := h.pat
    omega
  have power : 2 ^ binShift p s m b ≤ 2 ^ 7 := Nat.pow_le_pow_right (by decide) shift_le
  have scaled : adBase p d m * 2 ^ binShift p s m b ≤ 2 ^ 16 * 2 ^ 7 := Nat.mul_le_mul small.le power
  have follows := h.renormed (by omega) last ren (by omega) base (by rw [pulled_rest])
  refine ⟨_, run.trans (congrArg (EStateM.Result.ok · _) ?_), ?_, ?_⟩
  · cases b <;> cases (modelAt s m).mps <;> rfl
  · exact ⟨follows.rng, follows.need, follows.pat, follows.cnt, follows.ptr, follows.stop, follows.stored⟩
  · show (pulled d (adRegs p d m) _).pm.set m.val _ = _
    rw [pulled_rest, models]
    rfl

/-- A bypass bin is read back (rule R177). -/
theorem Follows.decodeBypass {b : Bool} (h : Follows p start B V L R T d) (hp : p.Ok) (ge : 256 ≤ R) (le : R ≤ 510)
    (last : 2 + (T + 1) / 8 ≤ B) (whole : Inside B V L R T)
    (inside : Inside B V (2 * L + if b then R else 0) R (T + 1)) :
    ∃ u, Machine.decodeBypass p d = .ok b u ∧
      Follows p start B V (2 * L + if b then R else 0) R (T + 1) u ∧ u.pm = d.pm := by
  have inv := h.inv ge le
  have need := h.need
  have count : d.br.cnt.toNat ≤ 8 := by rw [h.cnt]; decide
  obtain ⟨regs, ren, run⟩ := decodeBypass_run (v := byteOf B V (2 + T / 8)) hp inv count fun pulls =>
    h.peek_next (by omega)
  rw [h.rng] at ren
  have below := (h.pat_lt_iff (by omega) R).2 whole.lt
  have follows := h.renormed (M := L) (by decide) last ren (by omega) h.pat (by rw [pulled_rest])
  have models : (pulled d regs (byteOf B V (2 + T / 8))).pm = d.pm := by rw [pulled_rest]
  rw [compareBypass_run] at run
  generalize pulled d regs (byteOf B V (2 + T / 8)) = t at *
  have compare := follows.pat_lt_iff last R
  have pat := follows.pat
  have fits := t.ad.pat.isLt
  rw [Nat.pow_one, Nat.mul_comm L 2] at compare pat
  rw [follows.rng] at run
  have answer : (R * 128 ≤ t.ad.pat.toNat) ↔ b = true := by
    cases b with
    | true => exact iff_of_true (Nat.not_lt.1 (mt compare.1 (Nat.not_lt.2 inside.ge))) rfl
    | false => exact iff_of_false (Nat.not_le.2 (compare.2 inside.lt)) Bool.false_ne_true
  refine ⟨_, run.trans (congrArg (EStateM.Result.ok · _) ?_), ⟨follows.rng, follows.need, ?_, follows.cnt, follows.ptr,
    follows.stop, follows.stored⟩, models⟩
  · simp only [answer, Bool.decide_eq_true]
  · rw [← pat]
    by_cases one : R * 128 ≤ t.ad.pat.toNat
    · rw [if_pos one, if_pos (answer.1 one)]
      show (BitVec.ofNat 32 (t.ad.pat.toNat - R * 128)).toNat + _ = _
      rw [BitVec.toNat_ofNat]
      omega
    · rw [if_neg one, if_neg (mt answer.2 one)]
      show (BitVec.ofNat 32 t.ad.pat.toNat).toNat + _ = _
      rw [BitVec.toNat_ofNat]
      omega

/-! ## Runs of bins -/

/-- The bins `xs` took the encoder from `s` to `t`, and whatever code word lies in the interval they end in lies in the
one they begin in and reads back as `xs`. -/
structure ReadBack (p : Config.Params) (start : Nat) (xs : List Bin) (s : State) (L T : Nat) (t : State) (M S : Nat) :
    Prop where
  le : T ≤ S
  inside : ∀ B V, Inside B V M t.ae.rng.toNat S → Inside B V L s.ae.rng.toNat T
  follows : ∀ B V d, 2 + S / 8 ≤ B → Inside B V M t.ae.rng.toNat S → Follows p start B V L s.ae.rng.toNat T d →
    d.pm = s.pm → ∃ e, DecodesTo p xs d e ∧ Follows p start B V M t.ae.rng.toNat S e ∧ e.pm = t.pm

variable {M N S U : Nat} {xs ys : List Bin}

theorem ReadBack.nil : ReadBack p start [] s L T s L T :=
  ⟨le_refl T, fun _ _ h => h, fun _ _ d _ _ h models => ⟨d, rfl, h, models⟩⟩

theorem ReadBack.append (h : ReadBack p start xs s L T t M S) (k : ReadBack p start ys t M S u N U) :
    ReadBack p start (xs ++ ys) s L T u N U where
  le := h.le.trans k.le
  inside B V last := h.inside B V (k.inside B V last)
  follows B V d enough last follows models := by
    have := k.le
    obtain ⟨e, read, follows, models⟩ := h.follows B V d (by omega) (k.inside B V last) follows models
    obtain ⟨f, read', follows', models'⟩ := k.follows B V e enough last follows models
    exact ⟨f, decodesTo_append.2 ⟨e, read, read'⟩, follows', models'⟩

theorem readBack_ctx {m : Fin 15} {b : Bool} {a : Unit} (h : Place start L T s) (hp : p.Ok) (room : encoderRoom p s 1)
    (run : encodeBit p m b s = .ok a t) :
    ∃ M S, Place start M S t ∧ ReadBack p start [.ctx m b] s L T t M S := by
  obtain ⟨place, rng, models⟩ := h.encodeBit hp room run
  have inv := h.session.inv
  refine ⟨_, _, place, Nat.le_add_right _ _, fun B V last => ?_, fun B V d enough last follows same => ?_⟩
  · rw [rng] at last
    exact last.unshift.widen (Nat.le_add_right _ _)
      (by have := binSkip_add_binRange (m := m) (b := b) hp inv; omega)
  · rw [rng] at last ⊢
    obtain ⟨e, read, follows, after⟩ := follows.decodeBit same hp inv enough last.unshift
    exact ⟨e, ⟨e, read, rfl⟩, follows, after.trans models.symm⟩

theorem readBack_byp {b : Bool} {a : Unit} (h : Place start L T s) (hp : p.Ok) (room : encoderRoom p s 1)
    (run : encodeBypass p b s = .ok a t) :
    ∃ M S, Place start M S t ∧ ReadBack p start [.byp b] s L T t M S := by
  obtain ⟨place, rng, models⟩ := h.encodeBypass hp room run
  have inv := h.session.inv
  have whole : ∀ B V, Inside B V (2 * L + if b then s.ae.rng.toNat else 0) s.ae.rng.toNat (T + 1) →
      Inside B V L s.ae.rng.toNat T := fun B V last =>
    (last.widen (L := L * 2 ^ 1) (R := s.ae.rng.toNat * 2 ^ 1) (by omega) (by split <;> omega)).unshift
  refine ⟨_, _, place, Nat.le_add_right _ _, fun B V last => ?_, fun B V d enough last follows same => ?_⟩
  · rw [rng] at last
    exact whole B V last
  · rw [rng] at last ⊢
    obtain ⟨e, read, follows, after⟩ := follows.decodeBypass hp inv.rng_ge inv.rng_le enough (whole B V last) last
    exact ⟨e, ⟨e, read, rfl⟩, follows, after.trans (same.trans models.symm)⟩

/-- A run of bins that succeeded, with room for what it holds at its end, reads back. -/
theorem readBack_of_encodeBins (xs : List Bin) (h : Place start L T s) (hp : p.Ok)
    (hrun : s.ae.run.toNat + xs.length < 2 ^ 32) (run : encodeBins p xs s = .ok () t)
    (room : heldEnd t + 1 ≤ p.streamBytes) :
    ∃ M S, Place start M S t ∧ ReadBack p start xs s L T t M S := by
  induction xs generalizing s L T with
  | nil => cases run; exact ⟨L, T, h, .nil⟩
  | cons x xs ih =>
    rw [List.length_cons] at hrun
    obtain ⟨_, u, first, rest⟩ := cmd_bind_ok_iff.1 run
    obtain ⟨ready, grows, run_le⟩ := encodeBin_holds h.ready hp (by omega) first
    obtain ⟨-, grows', -⟩ := encodeBins_holds ready hp (by omega) rest
    have one : encoderRoom p s 1 := (Nat.succ_le_succ (grows.trans grows')).trans room
    obtain ⟨N, U, place, bin⟩ : ∃ N U, Place start N U u ∧ ReadBack p start [x] s L T u N U := by
      cases x with
      | ctx m b => exact readBack_ctx h hp one first
      | byp b => exact readBack_byp h hp one first
    obtain ⟨M, S, place', bins⟩ := ih place (by omega) rest
    exact ⟨M, S, place', bin.append bins⟩

/-! ## A whole session -/

theorem window_zero {R : Nat} (h : Inside B V 0 R 0) (hR : R ≤ 2 ^ 9) : window B V 0 = 0 := by
  refine Nat.div_eq_of_lt (Nat.lt_of_mul_lt_mul_right (a := 2 ^ 9) (h.lt.trans_le ?_))
  rw [Nat.zero_add, Nat.sub_zero, Nat.mul_comm]
  exact Nat.mul_le_mul_left _ hR

/-- `AD_START` at the first byte of a code word of a whole interval. -/
theorem adStart_follows {b : Byte} {first stop : Word} (hp : p.streamBytes ≤ 2 ^ 32 - 1)
    (stored : Stored p s.stream first.toNat B V) (two : 2 ≤ B) (ends : stop.toNat = first.toNat + B)
    (whole : Inside B V 0 510 0) :
    ∃ d, adStart p { s with br := ⟨b, 0, first, stop⟩ } = .ok () d ∧ Follows p first.toNat B V 0 510 0 d ∧
      d.pm = s.pm := by
  have room := stored.room
  obtain ⟨x, cell0, value0⟩ := stored.byte 0 (by omega)
  obtain ⟨y, cell1, value1⟩ := stored.byte 1 (by omega)
  have bytes : x.toNat * 2 ^ 8 + y.toNat = window B V 2 := by
    rw [window_succ (by omega), window_succ (by omega), window_zero whole (by decide), value0, value1]
    omega
  have lt : window B V 2 < 2 ^ 16 := by
    have := x.isLt
    have := y.isLt
    omega
  have peeked : peek p { s with br := ⟨b, 0, first, stop⟩ } 16 = some (window B V 2) :=
    bytes ▸ peek_two (s := { s with br := ⟨b, 0, first, stop⟩ }) rfl (show first.toNat + 1 < stop.toNat by omega)
      (show first.toNat + 1 < _ by omega) cell0 cell1
  obtain ⟨cnt, ptr, last⟩ := readerAfter_bytes (d := { s with br := ⟨b, 0, first, stop⟩ }) (n := 16) (k := 2) rfl rfl
    (by decide) (show first.toNat + 2 < 2 ^ 32 by omega)
  refine ⟨_, adStart_run (s := { s with br := ⟨b, 0, first, stop⟩ }) hp peeked,
    ⟨rfl, rfl, ?_, cnt, ptr, (congrArg BitVec.toNat last).trans ends, stored⟩, rfl⟩
  show (BitVec.ofNat 32 (window B V 2)).toNat + 0 * 128 = window B V 2 * 2 ^ 0
  rw [BitVec.toNat_ofNat]
  omega

/-- `AD_TERM` at the end of a session passes (rule R178). -/
theorem Follows.adTerm (h : Follows p start B V L R T d) (ge : 256 ≤ R) (last : 2 + T / 8 ≤ B)
    (top : (L + R - 2) * 2 ^ (8 * B) ≤ V * 2 ^ (9 + T)) :
    ∃ e, Machine.adTerm d = .ok () e ∧ e.pm = d.pm ∧ e.br = d.br := by
  have rng := h.rng
  refine ⟨_, ArithDecoder.adTerm_pass (by omega) ?_, rfl, rfl⟩
  rw [rng]
  refine Nat.not_lt.1 (mt (h.pat_lt_iff last _).1 (Nat.not_lt.2 ?_))
  rwa [← Nat.add_sub_assoc (by omega)]

/-- What `AE_START` leaves: an empty session at the writer's byte, with the models as they were. -/
theorem aeStart_place {a : Unit} (hq : Quiet s) (h7 : s.bw.cnt.toNat ≤ 7) (run : aeStart p s = .ok a t) :
    Place t.bw.ptr.toNat 0 0 t ∧ t.ae.rng = 510 ∧ t.ae.run = 0 ∧ t.pm = s.pm := by
  obtain ⟨_, u, align, opening⟩ := cmd_bind_ok_iff.1 run
  cases opening
  obtain ⟨-, cnt⟩ := putAlign_ok h7 align
  have frame := (putAlign_frame p).of_ok_eq align
  obtain ⟨session, value, bits⟩ := opened_session (s := u) (frame.fault.trans hq) cnt
  exact ⟨⟨session, value, bits⟩, rfl, rfl, frame.parts .models (by decide)⟩

/-- Settles O60: the run of bins between the two ends of a session. -/
theorem roundTrip : Obligations.RoundTrip := by
  intro p hp s s0 s1 s2 xs b hq h7 count start bins term
  obtain ⟨place, rng0, run0, models0⟩ := aeStart_place hq h7 start
  have none : s0.ae.run.toNat = 0 := congrArg BitVec.toNat run0
  have whole0 : s0.ae.rng.toNat = 510 := congrArg BitVec.toNat rng0
  obtain ⟨ready, -, run_le⟩ := encodeBins_holds place.ready hp (by omega) bins
  have room := aeTerm_room ready hp (by omega) term
  obtain ⟨L, T, place1, back⟩ := readBack_of_encodeBins xs place hp (by omega) bins (by omega)
  obtain ⟨B, V, rfl, ptr, stored, inside, top, models2⟩ := place1.aeTerm hp (by omega) term
  have whole := back.inside _ V inside
  rw [whole0] at whole
  obtain ⟨d0, begins, follows0, same0⟩ := adStart_follows (s := { s2 with pm := s.pm }) (b := b) hp.stream_le stored
    (Nat.le_add_right 2 _) ptr whole
  obtain ⟨d1, read, follows1, same1⟩ := back.follows _ V d0 (le_refl _) inside (whole0 ▸ follows0)
    (same0.trans models0.symm)
  obtain ⟨d2, ends, same2, reader⟩ := follows1.adTerm place1.session.inv.rng_ge (le_refl _) top
  refine ⟨d0, d1, d2, begins, read, ends, same2.trans (same1.trans models2.symm), ?_, ?_⟩
  · rw [reader]
    exact BitVec.eq_of_toNat_eq (follows1.ptr.trans ptr.symm)
  · rw [reader]
    exact follows1.cnt

end Sys2Proof.Proofs.RoundTrip
end
